-- ==== Sys2Proof/Word.lean ====
section
/-! DEFINITION. The words the engine moves: bytes, fragment-ids, protocol identifiers, CRC words. -/

namespace Sys2Proof

/-- A byte, 8 bits (R19). -/
abbrev Byte := BitVec 8

/-- A fragment-id, 8 bits (R15). -/
abbrev Fid := BitVec 8

/-- A protocol identifier, 16 bits (R15). -/
abbrev Proto := BitVec 16

/-- A CRC word: the accumulator and the trailer, 32 bits (R230). -/
abbrev Crc := BitVec 32

/-- `len` and `cap` of a request record, 32 bits (R93). -/
abbrev Word32 := BitVec 32

/-- The six label bytes of a request or response record, byte 0 the most significant (R93, R96). -/
abbrev LabelField := BitVec 48

/-- A label as the engine holds it: LW bytes in the order they stand in a header (R11, R116). -/
abbrev Label := List Byte

/-- `zeros(n)`: n bytes of value 0 (R19). -/
abbrev zeros (n : Nat) : List Byte := List.replicate n 0

end Sys2Proof
end

