-- ==== Sys2Proof/Syntax.lean ====
section
/-! DEFINITION. The command set and the fragment classes: one constructor per row of the opcode table,
and the fields of a decoded fragment. -/

namespace Sys2Proof

/-- The thirteen rows of the opcode table: nine commands (R92) and four fragment classes (R101).
A fragment constructor holds what its first two bytes say (label type, length; R111) and all bytes of
the datagram after them; whether they make a fragment of the configured label width is decided by the
meaning, since the width is a register and not part of the word (log 9). -/
inductive Instr where
  /-- PROVISION: `size` is the record's `len` (R142). -/
  | provision (size : Word32)
  /-- ACQUIRE (R144). -/
  | acquire
  /-- RELEASE: `handle` is the record's `len` (R146). -/
  | release (handle : Word32)
  /-- NEXT_LABEL (R162). -/
  | nextLabel
  /-- BEGIN_ENCAP (R164). -/
  | beginEncap (fid : Fid) (proto : Proto) (len cap : Word32) (label : LabelField)
  /-- CONTINUE_ENCAP (R167). -/
  | continueEncap (cap : Word32)
  /-- PAD: `len` is the fixed length P (R256). -/
  | pad (len : Word32)
  /-- DECAP: `len` is the datagram's length n (R192). -/
  | decap (len : Word32)
  /-- SHUTDOWN (R262). -/
  | shutdown
  /-- A fragment with S = 1, E = 1 (R112, R194). -/
  | fragSingle (lt : BitVec 2) (len : BitVec 12) (body : List Byte)
  /-- A fragment with S = 1, E = 0 (R112, R200). -/
  | fragFirst (lt : BitVec 2) (len : BitVec 12) (body : List Byte)
  /-- A fragment with S = 0, E = 0 (R112, R207). -/
  | fragCont (lt : BitVec 2) (len : BitVec 12) (body : List Byte)
  /-- A fragment with S = 0, E = 1 (R112, R208). -/
  | fragLast (lt : BitVec 2) (len : BitVec 12) (body : List Byte)
deriving DecidableEq, Repr

/-- The two formats an instruction arrives in (R90): a request record on the command port, or a
fragment at the start of a datagram. -/
inductive Format where
  | req20
  | frag
deriving DecidableEq, Repr

/-- The format of an instruction's row (R90). -/
def Instr.format : Instr → Format
  | .provision _ => .req20
  | .acquire => .req20
  | .release _ => .req20
  | .nextLabel => .req20
  | .beginEncap _ _ _ _ _ => .req20
  | .continueEncap _ => .req20
  | .pad _ => .req20
  | .decap _ => .req20
  | .shutdown => .req20
  | .fragSingle _ _ _ => .frag
  | .fragFirst _ _ _ => .frag
  | .fragCont _ _ _ => .frag
  | .fragLast _ _ _ => .frag

/-- What the decoder of the codec returns for a well-formed fragment (R103). -/
inductive Frag where
  | single (fid : Fid) (proto : Proto) (label : Label) (payload : List Byte) (crc : Crc)
  | first (fid : Fid) (proto : Proto) (label : Label) (payload : List Byte)
  | cont (fid : Fid) (label : Label) (payload : List Byte)
  | last (fid : Fid) (label : Label) (payload : List Byte) (crc : Crc)
deriving DecidableEq, Repr

end Sys2Proof
end

