-- ==== Sys2Proof/Config.lean ====
section
/-! DEFINITION. What a construction of the engine fixes (the argument of reset), the codec among it, and
the free values. -/

namespace Sys2Proof

/-- A codec capability: the interface ENC and DEC are specified against (R100). Its overheads (R16), its
encoders (R102; `none` where one is not defined), its decoder (R103; `none` is Malformed) and its CRC
(R107, R230). All are functions of their arguments alone (R106). -/
structure Codec where
  hSingle : Nat
  hFirst : Nat
  hCont : Nat
  maxFrag : Nat
  encodeSingle : Fid → Proto → Label → List Byte → Crc → Option (List Byte)
  encodeFirst : Fid → Proto → Label → List Byte → Option (List Byte)
  encodeCont : Fid → Label → List Byte → Option (List Byte)
  encodeLast : Fid → Label → List Byte → Crc → Option (List Byte)
  decode : List Byte → Option Frag
  crcInit : Crc
  crcUpdate : Crc → List Byte → Crc
  crcFinal : Crc → Crc
deriving Inhabited

/-- The codec the engine is given at construction (R100, R320), named by plain data: REFCODEC, or the
codec `id` of those the environment can bring (log 1). -/
inductive CodecRef where
  | refcodec
  | given (id : Nat)
deriving DecidableEq, Repr

/-- The argument of reset (R320): the codec and the configuration registers CR0 to CR7 (R51). `n` and `lw` are wider than their registers so that
the illegal values R298 speaks of can be written down (log 21). -/
structure Cfg where
  /-- The codec capability (R100). -/
  codec : CodecRef
  /-- CR0, POOL_CAPACITY N (R13). -/
  n : Nat
  /-- CR1, LABEL_WIDTH LW in bytes (R11). -/
  lw : Nat
  /-- CR2, the fixed outgoing length, 0 = variable (R12). -/
  pEgress : BitVec 32
  /-- CR3, the expected incoming length, 0 = variable (R12). -/
  pIngress : BitVec 32
  /-- CR4, the longest frame read and the size of each buffer at boot (R12, R255). -/
  b : BitVec 32
  /-- CR5, the read timeout in milliseconds (R12). -/
  t : BitVec 32
  /-- CR6, the fragment-id of all outgoing traffic (R14). -/
  fragIdEgress : Fid
  /-- CR7, the protocol identifier of all outgoing traffic (R14). -/
  protoEgress : Proto
deriving DecidableEq, Repr

/-- The label widths the engine can be built with (R11). -/
abbrev Cfg.lwLegal (lw : Nat) : Prop := lw = 0 ∨ lw = 3 ∨ lw = 6

/-- A configuration that is no setup error (R298). -/
abbrev Cfg.Legal (c : Cfg) : Prop :=
  Cfg.lwLegal c.lw ∧ c.n ≤ 65535 ∧ c.pEgress.toNat ≤ 65535 ∧ c.pIngress.toNat ≤ 65535 ∧ c.b ≠ 0

/-- The configuration of `State.reset`: REFCODEC (log 1), the defaults of R12 and, for the OPEN parameters,
the values of the spec's vector V-RST1 (LW = 3, N = 2) and program P5 (FRAG_ID_EGRESS 0x05, PROTO_EGRESS
0x0800). DESIGN CHOICE, unsafe: log 2. -/
def Cfg.default : Cfg where
  codec := .refcodec
  n := 2
  lw := 3
  pEgress := 0
  pIngress := 2048
  b := 8192
  t := 100
  fragIdEgress := 0x05
  protoEgress := 0x0800

namespace Config

/-- MAX_PDU, the longest PDU (R9). -/
def maxPdu : Nat := 65535

/-- CRC_LEN, the bytes of the trailer (R10). -/
def crcLen : Nat := 4

/-- Bytes of each of PDU_IN, FRAG_OUT, DGRAM_IN and TRANSIENT (R45 to R48). -/
def stagingSize : Nat := 65535

/-- The handle that names the TRANSIENT memory (R98). -/
def transientHandle : BitVec 16 := 0xFFFF

/-! ### The codecs other than REFCODEC -/

/-- Codec number `id` of the environment for a label width (R100, U20). A constant with no body: what is
proved of an engine given codec `id` holds whichever codec that is, under the laws a statement asks of it
(log 1). -/
opaque givenCodec (id lw : Nat) : Codec

/-! ### Free values

Constants with no value anyone can prove: what the spec calls unspecified after the machine goes on. -/

/-- What a byte no command and no host write has written since reset number `epoch` reads as, in the
memory numbered `space` (0 PDU_IN, 1 FRAG_OUT, 2 DGRAM_IN, 3 TRANSIENT, 4 + i slot i) at `offset`
(U8, U9; log 8). -/
opaque unwrittenByte (epoch space offset : Nat) : Byte

/-- `dec.tgt[f].slot` after the context was closed for the `gen`-th time (R198, U10; log 6). -/
opaque lostSlot (epoch : Nat) (f : Fid) (gen : Nat) : BitVec 16

/-- `dec.tgt[f].acc` after a close (R198, U10; log 6). -/
opaque lostAcc (epoch : Nat) (f : Fid) (gen : Nat) : BitVec 16

/-- `dec.tgt[f].crc` after a close (R198, U10; log 6). -/
opaque lostCrc (epoch : Nat) (f : Fid) (gen : Nat) : Crc

/-- `dec.tgt[f].label` after a close, its first LW bytes (R198, U10; log 6). -/
opaque lostLabel (epoch : Nat) (f : Fid) (gen : Nat) : LabelField

/-- `dec.tgt[f].proto` after a close (R198, U10; log 6). -/
opaque lostProto (epoch : Nat) (f : Fid) (gen : Nat) : Proto

/-- `enc.total` after ENC became Idle for the `gen`-th time (R24, U10; log 7). -/
opaque lostEncTotal (epoch gen : Nat) : BitVec 16

/-- `enc.offset` after ENC became Idle (R24, U10; log 7). -/
opaque lostEncOffset (epoch gen : Nat) : BitVec 16

/-- `enc.crc` after ENC became Idle (R24, U10; log 7). -/
opaque lostEncCrc (epoch gen : Nat) : Crc

/-- `enc.label` after ENC became Idle, its first LW bytes (R24, U10; log 7). -/
opaque lostEncLabel (epoch gen : Nat) : LabelField

/-- `enc.proto` after ENC became Idle (R24, U10; log 7). -/
opaque lostEncProto (epoch gen : Nat) : Proto

/-- `enc.fid` after ENC became Idle (R24, U10; log 7). -/
opaque lostEncFid (epoch gen : Nat) : Fid

/-- What the interface device hands over for a frame longer than the read bound; the first `bound`
bytes of it are taken (R250, U17; log 14). -/
opaque overlongFrame (bound : Nat) (frame : List Byte) : List Byte

end Config

end Sys2Proof
end

