-- ==== Sys2Proof/WellFormed.lean ====
section
/-! DEFINITION. Which instructions are well formed, one named check per restriction the spec puts on an
encoding. An ill-formed instruction still has a meaning: the error response the spec gives it. -/

namespace Sys2Proof

/-- The checks an instruction can fail. -/
inductive Check where
  /-- DECAP with len above 65535 (R95). -/
  | decapLength
  /-- PAD with len above 65535 (R95). -/
  | padLength
  /-- A fragment of the reserved label type 11 (R113). -/
  | labelType
  /-- A datagram that ends before the fragment's length says (R120, third check). -/
  | cutShort
  /-- A length too small for the fragment's own header and trailer (R120, fourth check). -/
  | tooShort
deriving DecidableEq, Repr

/-- The label width a label type announces (R113). -/
def widthOfLabelType (lt : BitVec 2) : Option Nat :=
  if lt = 0b00 then some 6 else if lt = 0b01 then some 3 else if lt = 0b10 then some 0 else none

/-- The checks a fragment fails that is announced with label type `lt` and length `len`, needs `fixed`
bytes besides the label, and stands in a datagram with `have_` bytes after byte 1. -/
def fragChecks (fixed : Nat) (lt : BitVec 2) (len : BitVec 12) (have_ : Nat) : List Check :=
  (match widthOfLabelType lt with
    | none => [.labelType]
    | some w => if len.toNat < fixed + w then [.tooShort] else []) ++
  (if have_ < len.toNat then [.cutShort] else [])

/-- The checks an instruction fails. -/
def Instr.failedChecks : Instr → List Check
  | .provision _ => []
  | .acquire => []
  | .release _ => []
  | .nextLabel => []
  | .beginEncap _ _ _ _ _ => []
  | .continueEncap _ => []
  | .pad len => if Config.maxPdu < len.toNat then [.padLength] else []
  | .decap len => if Config.maxPdu < len.toNat then [.decapLength] else []
  | .shutdown => []
  | .fragSingle lt len body => fragChecks 7 lt len body.length
  | .fragFirst lt len body => fragChecks 3 lt len body.length
  | .fragCont lt len body => fragChecks 1 lt len body.length
  | .fragLast lt len body => fragChecks 5 lt len body.length

/-- An instruction that passes every check. -/
abbrev Instr.WellFormed (i : Instr) : Prop := i.failedChecks = []

end Sys2Proof
end

