-- ==== Sys2Proof/Decode.lean ====
section
/-! DEFINITION. Decoding request records and fragments, then encoding them, then REFCODEC's fragment
encoders and decoder with their fields. Byte-order helpers stand here. -/

namespace Sys2Proof

/-! ### Byte order (R19, R62) -/

/-- `be_n(v)`: the n-byte big-endian spelling of v (R19). -/
def beBytes : Nat → Nat → List Byte
  | 0, _ => []
  | n + 1, v => BitVec.ofNat 8 (v / 256 ^ n) :: beBytes n v

/-- `nat_be(s)`: the number a big-endian byte sequence spells (R19). -/
def natBe (s : List Byte) : Nat :=
  s.foldl (fun acc b => acc * 256 + b.toNat) 0

/-- `s[i]`, with 0 past the end; every use tests the length first. -/
def byteAt (s : List Byte) (i : Nat) : Byte :=
  s.getD i 0

/-- `s[a..a+n)` (R19). -/
def slice (s : List Byte) (a n : Nat) : List Byte :=
  (s.drop a).take n

/-! ### Decoding -/

/-- Why bytes are no instruction. -/
inductive DecodeError where
  /-- A request record is 20 bytes (R93). -/
  | notARecord
  /-- The opcode is not in the command set (R92, R95, R125). -/
  | reservedOpcode (op : Byte)
  /-- A datagram of fewer than 2 bytes has no header (R120, first check). -/
  | noHeader
deriving DecidableEq, Repr

/-- The bytes of a request record (R93). -/
abbrev recordBytes : Nat := 20

/-- The command a request record asks for (R92, R93); fields the command does not use are ignored. -/
def decodeRequest (r : List Byte) : Except DecodeError Instr :=
  if r.length ≠ recordBytes then .error .notARecord
  else
    let op := byteAt r 0
    let fid : Fid := byteAt r 1
    let proto : Proto := BitVec.ofNat 16 (natBe (slice r 2 2))
    let len : Word32 := BitVec.ofNat 32 (natBe (slice r 4 4))
    let cap : Word32 := BitVec.ofNat 32 (natBe (slice r 8 4))
    let label : LabelField := BitVec.ofNat 48 (natBe (slice r 12 6))
    if op = 0x01 then .ok (.provision len)
    else if op = 0x02 then .ok .acquire
    else if op = 0x03 then .ok (.release len)
    else if op = 0x10 then .ok .nextLabel
    else if op = 0x11 then .ok (.beginEncap fid proto len cap label)
    else if op = 0x12 then .ok (.continueEncap cap)
    else if op = 0x13 then .ok (.pad len)
    else if op = 0x20 then .ok (.decap len)
    else if op = 0x30 then .ok .shutdown
    else .error (.reservedOpcode op)

/-- The fragment instruction at the start of a datagram: the class from S and E (R112), the label type
and the 12-bit length from the rest of bytes 0 and 1 (R111), and the bytes after them. -/
def decodeDatagram (d : List Byte) : Except DecodeError Instr :=
  match d with
  | b0 :: b1 :: body =>
    let lt := b0.extractLsb' 4 2
    let len := b0.extractLsb' 0 4 ++ b1
    match b0.getLsbD 7, b0.getLsbD 6 with
    | true, true => .ok (.fragSingle lt len body)
    | true, false => .ok (.fragFirst lt len body)
    | false, false => .ok (.fragCont lt len body)
    | false, true => .ok (.fragLast lt len body)
  | _ => .error .noHeader

/-- Decoding bytes that arrive in a known format (R90). -/
def decodeAs (f : Format) (bytes : List Byte) : Except DecodeError Instr :=
  match f with
  | .req20 => decodeRequest bytes
  | .frag => decodeDatagram bytes

/-! ### Encoding -/

/-- The record of an opcode and its fields, unused bytes 0 (R93). -/
def requestRecord (op : Byte) (fid : Fid) (proto : Proto) (len cap : Word32) (label : LabelField) :
    List Byte :=
  op :: fid :: (beBytes 2 proto.toNat ++ beBytes 4 len.toNat ++ beBytes 4 cap.toNat ++
    beBytes 6 label.toNat ++ zeros 2)

/-- The header bytes 0 and 1 of a fragment (R111) before the bytes of its datagram. -/
def fragmentBytes (s e : Bool) (lt : BitVec 2) (len : BitVec 12) (body : List Byte) : List Byte :=
  (BitVec.ofBool s ++ BitVec.ofBool e ++ lt ++ len.extractLsb' 8 4) :: len.extractLsb' 0 8 :: body

/-- The bytes of an instruction: a request record, or a datagram. -/
def encode : Instr → List Byte
  | .provision size => requestRecord 0x01 0 0 size 0 0
  | .acquire => requestRecord 0x02 0 0 0 0 0
  | .release handle => requestRecord 0x03 0 0 handle 0 0
  | .nextLabel => requestRecord 0x10 0 0 0 0 0
  | .beginEncap fid proto len cap label => requestRecord 0x11 fid proto len cap label
  | .continueEncap cap => requestRecord 0x12 0 0 0 cap 0
  | .pad len => requestRecord 0x13 0 0 len 0 0
  | .decap len => requestRecord 0x20 0 0 len 0 0
  | .shutdown => requestRecord 0x30 0 0 0 0 0
  | .fragSingle lt len body => fragmentBytes true true lt len body
  | .fragFirst lt len body => fragmentBytes true false lt len body
  | .fragCont lt len body => fragmentBytes false false lt len body
  | .fragLast lt len body => fragmentBytes false true lt len body

/-! ### REFCODEC's fragment fields (R111 to R122) -/

/-- `lt(LW)`, the label type of a label width (R113); an illegal width has none. -/
def labelTypeOf (lw : Nat) : Option (BitVec 2) :=
  if lw = 6 then some 0b00 else if lw = 3 then some 0b01 else if lw = 0 then some 0b10 else none

/-- The second, third and fourth checks of the decoder (R120) on a fragment whose header and trailer
take `fixed` bytes after byte 1 besides the label; what is left is the fragment after byte 1, the
bytes behind it dropped (R104). -/
def fragmentBody (lw fixed : Nat) (lt : BitVec 2) (len : BitVec 12) (body : List Byte) :
    Option (List Byte) :=
  if labelTypeOf lw ≠ some lt then none
  else if body.length < len.toNat then none
  else if len.toNat < fixed + lw then none
  else some (body.take len.toNat)

/-- The trailer of a fragment body: its last 4 bytes, big-endian (R117). -/
def trailerOf (g : List Byte) : Crc :=
  BitVec.ofNat 32 (natBe (g.drop (g.length - 4)))

/-- The fields of a SINGLE fragment (R118, R120); `none` is Malformed. -/
def singleFields (lw : Nat) (lt : BitVec 2) (len : BitVec 12) (body : List Byte) :
    Option (Fid × Proto × Label × List Byte × Crc) :=
  (fragmentBody lw 7 lt len body).map fun g =>
    (byteAt g 0, BitVec.ofNat 16 (natBe (slice g 1 2)), slice g 3 lw,
      slice g (3 + lw) (g.length - 4 - (3 + lw)), trailerOf g)

/-- The fields of a FIRST fragment (R118, R120). -/
def firstFields (lw : Nat) (lt : BitVec 2) (len : BitVec 12) (body : List Byte) :
    Option (Fid × Proto × Label × List Byte) :=
  (fragmentBody lw 3 lt len body).map fun g =>
    (byteAt g 0, BitVec.ofNat 16 (natBe (slice g 1 2)), slice g 3 lw, g.drop (3 + lw))

/-- The fields of a CONT fragment (R118, R120). -/
def contFields (lw : Nat) (lt : BitVec 2) (len : BitVec 12) (body : List Byte) :
    Option (Fid × Label × List Byte) :=
  (fragmentBody lw 1 lt len body).map fun g =>
    (byteAt g 0, slice g 1 lw, g.drop (1 + lw))

/-- The fields of a LAST fragment (R118, R120). -/
def lastFields (lw : Nat) (lt : BitVec 2) (len : BitVec 12) (body : List Byte) :
    Option (Fid × Label × List Byte × Crc) :=
  (fragmentBody lw 5 lt len body).map fun g =>
    (byteAt g 0, slice g 1 lw, slice g (1 + lw) (g.length - 4 - (1 + lw)), trailerOf g)

/-- REFCODEC's `decode(d)` (R103, R120); `none` is Malformed. -/
def refDecode (lw : Nat) (d : List Byte) : Option Frag :=
  match decodeDatagram d with
  | .ok (.fragSingle lt len body) =>
    (singleFields lw lt len body).map fun (f, proto, label, p, crc) => .single f proto label p crc
  | .ok (.fragFirst lt len body) =>
    (firstFields lw lt len body).map fun (f, proto, label, p) => .first f proto label p
  | .ok (.fragCont lt len body) =>
    (contFields lw lt len body).map fun (f, label, p) => .cont f label p
  | .ok (.fragLast lt len body) =>
    (lastFields lw lt len body).map fun (f, label, p, crc) => .last f label p crc
  | _ => none

/-- `hdr(S, E, rest)` of R119 for a label of the configured width; defined when the rest is at most
4095 bytes and the label has LW bytes (R105, R119). -/
def refFragment (lw : Nat) (s e : Bool) (label : Label) (rest : List Byte) : Option (List Byte) :=
  match labelTypeOf lw with
  | none => none
  | some lt =>
    if label.length = lw ∧ rest.length ≤ 4095 then
      some (fragmentBytes s e lt (BitVec.ofNat 12 rest.length) rest)
    else none

/-- `encode_single` (R119). -/
def refEncodeSingle (lw : Nat) (fid : Fid) (proto : Proto) (label : Label) (p : List Byte)
    (crc : Crc) : Option (List Byte) :=
  refFragment lw true true label
    (fid :: (beBytes 2 proto.toNat ++ label ++ p ++ beBytes 4 crc.toNat))

/-- `encode_first` (R119). -/
def refEncodeFirst (lw : Nat) (fid : Fid) (proto : Proto) (label : Label) (p : List Byte) :
    Option (List Byte) :=
  refFragment lw true false label (fid :: (beBytes 2 proto.toNat ++ label ++ p))

/-- `encode_cont` (R119). -/
def refEncodeCont (lw : Nat) (fid : Fid) (label : Label) (p : List Byte) : Option (List Byte) :=
  refFragment lw false false label (fid :: (label ++ p))

/-- `encode_last` (R119). -/
def refEncodeLast (lw : Nat) (fid : Fid) (label : Label) (p : List Byte) (crc : Crc) :
    Option (List Byte) :=
  refFragment lw false true label (fid :: (label ++ p ++ beBytes 4 crc.toNat))

/-! ### The opcode table's words -/

/-- The bytes of a table word, byte 0 its least significant (the table's numbering). -/
def wordBytes (nbits w : Nat) : List Byte :=
  (List.range (nbits / 8)).map fun i => BitVec.ofNat 8 (w >>> (8 * i))

/-- The opcodes of the command set (R92). -/
def opcodes : List Byte := [0x01, 0x02, 0x03, 0x10, 0x11, 0x12, 0x13, 0x20, 0x30]

/-- Which format a table word is of: the table has both, and byte 0 alone tells a command's opcode
from anything else (log 9). -/
def tableFormat (nbits w : Nat) : Format :=
  if byteAt (wordBytes nbits w) 0 ∈ opcodes then .req20 else .frag

/-- Bytes made up with zeros to a length. -/
def padTo (n : Nat) (s : List Byte) : List Byte :=
  s ++ zeros (n - s.length)

/-- The bytes of a table word as the hardware holds them, the bits above `nbits` zero: a 20-byte
record, or a datagram as long as its own header says (R93, R111). -/
def tableBytes (nbits w : Nat) : List Byte :=
  let bytes := wordBytes nbits w
  match tableFormat nbits w with
  | .req20 => (padTo recordBytes bytes).take recordBytes
  | .frag => padTo (2 + ((byteAt bytes 0).extractLsb' 0 4 ++ byteAt bytes 1).toNat) bytes

/-- The instruction the decoder reads from a word numbered as the opcode table numbers it. -/
def decodeTableWord (nbits w : Nat) : Option Instr :=
  match decodeAs (tableFormat nbits w) (tableBytes nbits w) with
  | .ok i => some i
  | .error _ => none

end Sys2Proof
end

