-- ==== Sys2Proof/Machine/Codec.lean ====
section
/-! DEFINITION. REFCODEC as a codec capability, its CRC, and the codec a configuration names. -/

namespace Sys2Proof.Machine

/-! ### REFCODEC's CRC (R240) -/

/-- One of the eight shifts per byte. -/
def crcBit (acc : Crc) : Crc :=
  if acc.msb then (acc <<< 1) ^^^ 0x04C11DB7#32 else acc <<< 1

/-- One byte, most significant bit first. -/
def crcByte (acc : Crc) (b : Byte) : Crc :=
  let a := acc ^^^ (b.setWidth 32 <<< 24)
  crcBit (crcBit (crcBit (crcBit (crcBit (crcBit (crcBit (crcBit a)))))))

/-- `crc_init` (R240). -/
def crcInit : Crc := 0xFFFFFFFF#32

/-- `crc_update` (R240). -/
def crcUpdate (acc : Crc) (bytes : List Byte) : Crc :=
  bytes.foldl crcByte acc

/-- `crc_final` (R240): no final inversion. -/
def crcFinal (acc : Crc) : Crc := acc

/-- REFCODEC for a label width (R110, R122). -/
def refCodec (lw : Nat) : Codec where
  hSingle := 5 + lw
  hFirst := 5 + lw
  hCont := 3 + lw
  maxFrag := 4097
  encodeSingle := refEncodeSingle lw
  encodeFirst := refEncodeFirst lw
  encodeCont := refEncodeCont lw
  encodeLast := refEncodeLast lw
  decode := refDecode lw
  crcInit := crcInit
  crcUpdate := crcUpdate
  crcFinal := crcFinal

/-- The codec capability a configuration names (R100, R320; log 1). -/
def codecOf (cfg : Cfg) : Codec :=
  match cfg.codec with
  | .refcodec => refCodec cfg.lw
  | .given id => Config.givenCodec id cfg.lw

end Sys2Proof.Machine
end

