-- ==== Sys2Proof/Machine/State.lean ====
section
/-! DEFINITION. The state of the engine, of SEQ and of the ports, as plain data, and its value at reset. -/

namespace Sys2Proof.Machine

/-! ### Response codes, responses, events -/

/-- The response codes of R97; their numbers are in `RespCode.byte` (Flags.lean). -/
inductive RespCode where
  | ok
  | completed
  | fragmented
  | contextRestarted
  | poolFull
  | poolExhausted
  | bufferInUse
  | badHandle
  | pduTooLarge
  | outputTooSmall
  | encBusy
  | encNoContext
  | crcMismatch
  | malformed
  | unknownContext
  | staleContext
  | setupError
  | ioError
  | illegalCommand
deriving DecidableEq, Repr

/-- The response record RSP16 (R96); a field a response does not use is 0. -/
structure Rsp16 where
  code : RespCode := .ok
  fid : Fid := 0
  proto : Proto := 0
  len : Word32 := 0
  handle : BitVec 16 := 0
  label : LabelField := 0
deriving DecidableEq, Repr

/-- The units that log (R52). -/
inductive LogUnit where
  | pool
  | enc
  | dec
  | seq
deriving DecidableEq, Repr

/-- An event of LOG: the unit that logged, the code, and the fragment-id concerned or 0 (R52). -/
structure Event where
  unit : LogUnit
  code : RespCode
  fid : Fid
deriving DecidableEq, Repr

/-! ### Memories -/

/-- A byte memory: the bytes written so far, by rising offset. An offset not listed holds no value of
its own (log 8). -/
abbrev Memory := List Host.Cell

/-- The canonical form of a memory: offsets strictly rising. -/
abbrev Memory.wf (m : Memory) : Prop := m.Pairwise fun x y => x.1 < y.1

/-- The five kinds of memory, each its own address space (R60). -/
inductive Space where
  | pduIn
  | fragOut
  | dgramIn
  | transient
  | slot (i : Nat)
deriving DecidableEq, Repr

/-! ### Units -/

/-- `run` (R21). -/
inductive Run where
  | running
  | halted
deriving DecidableEq, Repr

/-- `enc.state` (R24). -/
inductive EncState where
  | idle
  | fragmenting
deriving DecidableEq, Repr

/-- The ENC context registers and the label counter (R24 to R30). -/
structure Enc where
  state : EncState
  /-- PDU length L (R25). -/
  total : Nat
  /-- Payload bytes already emitted (R26). -/
  offset : Nat
  /-- Running CRC (R27). -/
  crc : Crc
  /-- Label, LW bytes (R28). -/
  label : Label
  /-- Protocol identifier (R28). -/
  proto : Proto
  /-- Fragment-id (R28). -/
  fid : Fid
  /-- `enc.label_ctr`, CR8 (R30). -/
  labelCtr : Nat
  /-- The model's own: how often a context was closed (log 7). -/
  gen : Nat
deriving DecidableEq, Repr

/-- `dec.tgt[f].state` (R32). -/
inductive TgtState where
  | awaitingFirst
  | reassembling
deriving DecidableEq, Repr

/-- One reassembly target (R31 to R36). -/
structure Target where
  state : TgtState
  /-- The slot the context is bound to (R33). -/
  slot : Nat
  /-- Accumulated byte count (R34). -/
  acc : Nat
  /-- Running CRC (R35). -/
  crc : Crc
  /-- The label expected on continuation fragments, LW bytes (R36). -/
  label : Label
  /-- The protocol identifier of the FIRST fragment (R36). -/
  proto : Proto
  /-- The model's own: how often a context of this target was closed (log 6). -/
  gen : Nat
deriving DecidableEq, Repr

/-- `slot[i].owner` (R42). -/
inductive Owner where
  | free
  | ctx (f : Fid)
  | held
deriving DecidableEq, Repr

/-- A provisioned slot of POOL (R41 to R43). -/
structure Slot where
  size : Nat
  owner : Owner
  data : Memory
deriving DecidableEq, Repr

/-! ### SEQ -/

/-- Where the egress direction stands in EGRESS_ITER (R258; log 12). -/
inductive EgressPos where
  /-- At the start of an iteration. -/
  | top
  /-- A frame of `len` bytes was read; NEXT_LABEL comes next. -/
  | label (len : Nat)
  /-- The label is known; BEGIN_ENCAP comes next. -/
  | begin_ (len : Nat) (label : LabelField)
  /-- ENC responded `code`, no error; PAD comes next if a fixed length is configured. -/
  | pad (code : RespCode)
  /-- The fragment is ready; SOCK_SEND comes next. -/
  | send (code : RespCode)
  /-- A fragment was sent and more follow; CONTINUE_ENCAP comes next. -/
  | continue_
  /-- The loop has stopped. -/
  | stopped
deriving DecidableEq, Repr

/-- Where the ingress direction stands in its boot and in INGRESS_ITER (R260, R261, R325; log 12). -/
inductive IngressPos where
  /-- `left` more PROVISION commands to issue. -/
  | boot (left : Nat)
  /-- At the start of an iteration. -/
  | top
  /-- A datagram of `len` bytes stands in DGRAM_IN; DECAP comes next. -/
  | decap (len : Nat)
  /-- A PDU was completed; IF_SEND comes next. -/
  | deliver (handle : BitVec 16) (len : Nat)
  /-- The PDU was delivered from a slot; RELEASE comes next. -/
  | release (handle : BitVec 16)
  /-- The loop has stopped. -/
  | stopped
deriving DecidableEq, Repr

/-- SEQ: the two directions and the sampled input `shutdown_req` (R254, R264). -/
structure Seq where
  egress : EgressPos
  ingress : IngressPos
  shutdownReq : Bool
deriving DecidableEq, Repr

/-! ### The outside -/

/-- What a timed read of a port returns (R250, R252). -/
inductive RecvResult where
  | data (bytes : List Byte)
  | timeout
  | fatal
deriving DecidableEq, Repr

/-- What a send on a port returns (R251, R253). -/
inductive SendResult where
  | ok
  | fatal
deriving DecidableEq, Repr

/-- The memories the host writes (R61). -/
inductive HostMemory where
  | pduIn
  | dgramIn
deriving DecidableEq, Repr

/-- One happening at the engine's boundary, taken by one step (log 10, log 15). -/
inductive Input where
  /-- The host puts a request record on the command port (R93). -/
  | request (record : Vector Byte 20)
  /-- The host writes bytes into a memory it owns (R61, R73). -/
  | hostWrite (m : HostMemory) (offset : Nat) (bytes : List Byte)
  /-- The level of `shutdown_req` changes (R254). -/
  | shutdownReq (level : Bool)
  /-- The egress direction takes its next turn (R258). -/
  | egressTurn
  /-- The ingress direction takes its next turn (R260). -/
  | ingressTurn
  /-- Reset with a configuration (R320, R323). -/
  | reset (cfg : Cfg)
deriving DecidableEq, Repr

/-- The ports: what is going to come in, and what has gone out (R250 to R253; log 10, log 13). -/
structure Ports where
  inputs : List Input
  ifRecv : List RecvResult
  sockRecv : List RecvResult
  sockSend : List SendResult
  ifSend : List SendResult
  /-- Datagrams given to SOCK_SEND, in order. -/
  sent : List (List Byte)
  /-- PDUs given to IF_SEND, in order. -/
  delivered : List (List Byte)
deriving DecidableEq, Repr

/-! ### The whole state -/

/-- Everything a step reads or writes. -/
structure State where
  /-- CR0 to CR7 (R51). -/
  cfg : Cfg
  run : Run
  haltCause : RespCode
  log : List Event
  enc : Enc
  fragOutLen : Nat
  /-- The 256 targets, by fragment-id (R31). -/
  tgts : Vector Target 256
  transientLen : Nat
  /-- The provisioned slots; `pool.count` is their number (R40; log 17). -/
  slots : List Slot
  pduIn : Memory
  fragOut : Memory
  dgramIn : Memory
  transient : Memory
  /-- The last response record on the command port (R96; log 5). -/
  rsp : Rsp16
  seq : Seq
  ports : Ports
  /-- The model's own: how many resets with `Input.reset` there were (log 8). -/
  epoch : Nat
deriving DecidableEq, Repr

/-- Why a step stops. Each is an access the spec leaves without a meaning and calls unreachable; safe,
since the engine has no such stop and no run from a reset with a codec that meets its laws reaches one
(log 1, log 19). -/
inductive Fault where
  /-- MemRead or MemWrite outside a memory (R66, R67). Raised by every command that reads or writes a
  memory, by SEQ and by a host write; safe. -/
  | memOutOfRange (space : Space)
  /-- A context bound to a slot at or above `pool.count`, which no rule reads (R321). Raised by DECAP,
  by the fragment classes and by SEQ; safe. -/
  | noSuchSlot (i : Nat)
  /-- An encoder asked for a fragment it is not defined for (R102). Raised by BEGIN_ENCAP and
  CONTINUE_ENCAP; safe. -/
  | encoderUndefined
deriving DecidableEq, Repr

/-- Why an instruction has no meaning in this model. -/
inductive Refusal where
  /-- Raised by exec's arm of an instruction without a meaning; safe. No arm raises it. -/
  | notModelled (mnemonic : String)
deriving DecidableEq, Repr

/-- The outcome of a step of this machine. -/
abbrev Res := Host.Outcome State Fault Refusal

/-! ### Reset (R320 to R323) -/

/-- ENC at reset: Idle, label counter 0 (R24, R30); the context registers 0 (log 3). -/
def Enc.reset (lw : Nat) : Enc where
  state := .idle
  total := 0
  offset := 0
  crc := 0
  label := zeros lw
  proto := 0
  fid := 0
  labelCtr := 0
  gen := 0

/-- A target at reset: AwaitingFirst (R32); the other registers 0 (log 4). -/
def Target.reset (lw : Nat) : Target where
  state := .awaitingFirst
  slot := 0
  acc := 0
  crc := 0
  label := zeros lw
  proto := 0
  gen := 0

/-- SEQ at reset: both directions before their first turn, `shutdown_req` as it stands (R261, R325). -/
def Seq.reset (n : Nat) (shutdownReq : Bool) : Seq where
  egress := .top
  ingress := .boot n
  shutdownReq := shutdownReq

/-- Ports with nothing pending and nothing sent. -/
def Ports.empty : Ports where
  inputs := []
  ifRecv := []
  sockRecv := []
  sockSend := []
  ifSend := []
  sent := []
  delivered := []

/-- The state after reset with a configuration (R321), Halted with SETUP_ERROR when it is illegal
(R298, R322). The outside (`ports`, `shutdown_req`) is an argument: reset is no event there. -/
def State.resetWith (cfg : Cfg) (epoch : Nat) (shutdownReq : Bool) (ports : Ports) : State where
  cfg := cfg
  run := if cfg.Legal then .running else .halted
  haltCause := if cfg.Legal then .ok else .setupError
  log := if cfg.Legal then [] else [⟨.seq, .setupError, 0⟩]
  enc := Enc.reset cfg.lw
  fragOutLen := 0
  tgts := Vector.replicate 256 (Target.reset cfg.lw)
  transientLen := 0
  slots := []
  pduIn := []
  fragOut := []
  dgramIn := []
  transient := []
  rsp := {}
  seq := Seq.reset cfg.n shutdownReq
  ports := ports
  epoch := epoch

/-- The machine right after reset with the default configuration, nothing pending outside (log 2). -/
def State.reset : State :=
  State.resetWith Cfg.default 0 false Ports.empty

end Sys2Proof.Machine
end

