-- ==== Sys2Proof/Machine/Operands.lean ====
section
/-! DEFINITION. Operand forms: labels in and out of records, and capacities. -/

namespace Sys2Proof.Machine

/-- The label a request record carries: the first LW of its six label bytes (R93). -/
def labelOfField (lw : Nat) (x : LabelField) : Label :=
  (beBytes 6 x.toNat).take lw

/-- A label left-aligned in the six label bytes of a record, the rest 0 (R96). -/
def fieldOfLabel (l : Label) : LabelField :=
  BitVec.ofNat 48 (natBe ((l ++ zeros 6).take 6))

/-- The label made from the label counter: `be_LW(ctr)` (R162). -/
def labelOfCounter (lw ctr : Nat) : Label :=
  beBytes lw ctr

/-- `Ce = min(C, CODEC_MAX_FRAG)` (R17). -/
def effectiveCap (c maxFrag : Nat) : Nat :=
  min c maxFrag

/-- `singleCap(C)`, an integer that may be negative (R17). -/
def singleCap (c maxFrag hSingle : Nat) : Int :=
  (effectiveCap c maxFrag : Int) - hSingle - Config.crcLen

/-- `firstCap(C)`, an integer that may be negative (R17). -/
def firstCap (c maxFrag hFirst : Nat) : Int :=
  (effectiveCap c maxFrag : Int) - hFirst

/-- `contCap(C)`, an integer that may be negative: the trailer is reserved on every continuation
fragment (R17, R168). -/
def contCap (c maxFrag hCont : Nat) : Int :=
  (effectiveCap c maxFrag : Int) - hCont - Config.crcLen

/-- `C_EGRESS`: the capacity the egress direction passes (R255). -/
def egressCap (cfg : Cfg) : Nat :=
  if 0 < cfg.pEgress.toNat then cfg.pEgress.toNat else min cfg.b.toNat 65535

/-- `RX_BOUND`: the longest datagram the ingress direction receives (R255). -/
def rxBound (cfg : Cfg) : Nat :=
  if 0 < cfg.pIngress.toNat then cfg.pIngress.toNat else min cfg.b.toNat 65535

end Sys2Proof.Machine
end

