-- ==== Sys2Proof/Machine/Ops.lean ====
section
/-! DEFINITION. The shared operations: memory, slots, targets, the ENC context, responding, raising an
error (this machine's exception entry; there is no return from one, R282), and halting. -/

namespace Sys2Proof.Machine

/-! ### Byte memories (R60 to R67) -/

/-- The byte written at an offset, if one was. -/
def Memory.read? (m : Memory) (a : Nat) : Option Byte :=
  m.lookup a

/-- Bytes as cells from an offset on. -/
def Memory.cells : Nat → List Byte → Memory
  | _, [] => []
  | a, b :: bs => (a, b) :: Memory.cells (a + 1) bs

/-- A memory after a write (R67), in canonical form. -/
def Memory.write (m : Memory) (a : Nat) (bytes : List Byte) : Memory :=
  m.filter (fun c => c.1 < a) ++ Memory.cells a bytes ++
    m.filter (fun c => a + bytes.length ≤ c.1)

/-- The number a memory has in the free value of its unwritten bytes. -/
def Space.tag : Space → Nat
  | .pduIn => 0
  | .fragOut => 1
  | .dgramIn => 2
  | .transient => 3
  | .slot i => 4 + i

/-- The content of a memory. -/
def State.mem (s : State) : Space → Memory
  | .pduIn => s.pduIn
  | .fragOut => s.fragOut
  | .dgramIn => s.dgramIn
  | .transient => s.transient
  | .slot i => match s.slots[i]? with
    | some sl => sl.data
    | none => []

/-- The size of a memory (R45 to R48, R43); a slot not provisioned has none. -/
def State.memSize (s : State) : Space → Nat
  | .pduIn => Config.stagingSize
  | .fragOut => Config.stagingSize
  | .dgramIn => Config.stagingSize
  | .transient => Config.stagingSize
  | .slot i => match s.slots[i]? with
    | some sl => sl.size
    | none => 0

/-- `M[a]`: one byte of a memory; a byte never written is a free value (U8, U9; log 8). -/
def State.readByte (s : State) (sp : Space) (a : Nat) : Byte :=
  match (s.mem sp).read? a with
  | some b => b
  | none => Config.unwrittenByte s.epoch sp.tag a

/-- `M[a..a+n)`. -/
def State.readBytes (s : State) (sp : Space) (a n : Nat) : List Byte :=
  (List.range' a n).map (s.readByte sp)

/-- `MemRead(M, a, n)`: defined inside the memory only (R66). -/
def State.memRead (s : State) (sp : Space) (a n : Nat) : Option (List Byte) :=
  if a + n ≤ s.memSize sp then some (s.readBytes sp a n) else none

/-- The state with a slot replaced by a function of it; no effect where no slot is. -/
def State.modifySlot (s : State) (i : Nat) (g : Slot → Slot) : State :=
  { s with slots := s.slots.modify i g }

/-- The state with the content of a memory replaced. -/
def State.setMem (s : State) (sp : Space) (m : Memory) : State :=
  match sp with
  | .pduIn => { s with pduIn := m }
  | .fragOut => { s with fragOut := m }
  | .dgramIn => { s with dgramIn := m }
  | .transient => { s with transient := m }
  | .slot i => s.modifySlot i fun sl => { sl with data := m }

/-- `MemWrite(M, a, bytes)`: defined inside the memory only (R67). -/
def State.memWrite (s : State) (sp : Space) (a : Nat) (bytes : List Byte) : Option State :=
  if a + bytes.length ≤ s.memSize sp then some (s.setMem sp ((s.mem sp).write a bytes)) else none

/-! ### Registers -/

/-- The codec this engine was given at reset (R100, R320). -/
def State.codec (s : State) : Codec :=
  codecOf s.cfg

/-- `dec.tgt[f]` (R31). -/
def State.tgt (s : State) (f : Fid) : Target :=
  s.tgts[f.toNat]

/-- Write of `dec.tgt[f]`. -/
def State.setTgt (s : State) (f : Fid) (t : Target) : State :=
  { s with tgts := s.tgts.set f.toNat t }

/-- `log(event)` (R52). -/
def State.addEvent (s : State) (unit : LogUnit) (code : RespCode) (fid : Fid) : State :=
  { s with log := s.log ++ [⟨unit, code, fid⟩] }

/-- `pool.count` (R40). -/
def State.poolCount (s : State) : Nat :=
  s.slots.length

/-- FRAG_OUT holding a fragment of a length (R46). -/
def State.setFragOutLen (s : State) (n : Nat) : State :=
  { s with fragOutLen := n }

/-- TRANSIENT holding a PDU of a length (R48). -/
def State.setTransientLen (s : State) (n : Nat) : State :=
  { s with transientLen := n }

/-- The response record put on the command port (R96). -/
def State.setRsp (s : State) (r : Rsp16) : State :=
  { s with rsp := r }

/-- `run <- Halted; halt_cause <- cause` (R21, R22). -/
def State.setHalted (s : State) (cause : RespCode) : State :=
  { s with run := .halted, haltCause := cause }

/-- Write of the ENC registers. -/
def State.setEnc (s : State) (e : Enc) : State :=
  { s with enc := e }

/-! ### Contexts -/

/-- A target whose context was closed: AwaitingFirst, its other registers unspecified (R32, R198;
log 6). -/
def Target.close (epoch lw : Nat) (f : Fid) (t : Target) : Target where
  state := .awaitingFirst
  slot := (Config.lostSlot epoch f t.gen).toNat
  acc := (Config.lostAcc epoch f t.gen).toNat
  crc := Config.lostCrc epoch f t.gen
  label := labelOfField lw (Config.lostLabel epoch f t.gen)
  proto := Config.lostProto epoch f t.gen
  gen := t.gen + 1

/-- ENC after its context was closed: Idle, the context registers unspecified, the label counter kept
(R24, R262; log 7). -/
def Enc.close (epoch lw : Nat) (e : Enc) : Enc where
  state := .idle
  total := (Config.lostEncTotal epoch e.gen).toNat
  offset := (Config.lostEncOffset epoch e.gen).toNat
  crc := Config.lostEncCrc epoch e.gen
  label := labelOfField lw (Config.lostEncLabel epoch e.gen)
  proto := Config.lostEncProto epoch e.gen
  fid := Config.lostEncFid epoch e.gen
  labelCtr := e.labelCtr
  gen := e.gen + 1

/-- `enc.state <- Idle` (R169, R171). -/
def State.closeEnc (s : State) : State :=
  s.setEnc (s.enc.close s.epoch s.cfg.lw)

/-- `dec.tgt[f].state <- AwaitingFirst` (R32). -/
def State.closeTgt (s : State) (f : Fid) : State :=
  s.setTgt f ((s.tgt f).close s.epoch s.cfg.lw f)

/-- `slot[i].owner <- o` (R42). -/
def State.setOwner (s : State) (i : Nat) (o : Owner) : State :=
  s.modifySlot i fun sl => { sl with owner := o }

/-- `pool_free(i)` (R145). -/
def State.poolFree (s : State) (i : Nat) : State :=
  s.setOwner i .free

/-- The least index of a Free slot (R143; log 18). -/
def State.freeSlot? (s : State) : Option Nat :=
  s.slots.findIdx? fun sl => decide (sl.owner = .free)

/-- `pool_take(owner)` (R143): the slot taken and the state after. -/
def State.poolTake (s : State) (o : Owner) : Option (Nat × State) :=
  match s.freeSlot? with
  | none => none
  | some i => some (i, s.setOwner i o)

/-- `discard(f)`: the context closed and its buffer freed (R198). -/
def State.discard (s : State) (f : Fid) : State :=
  (s.poolFree (s.tgt f).slot).closeTgt f

/-- `lookup(f, label)` (R196). -/
def State.lookup (s : State) (f : Fid) (label : Label) : Bool :=
  decide ((s.tgt f).state = .reassembling ∧ (s.tgt f).label = label)

/-! ### Ending a command -/

/-- `respond CODE(fields)` (R96). -/
def respond (r : Rsp16) (s : State) : Res :=
  .next (s.setRsp r)

/-- `raise CODE(fid)`, the engine's exception entry (R281): one event, then the response with the code,
the fragment-id and every other field 0; the state effects of the raising rule come before. -/
def raise (unit : LogUnit) (code : RespCode) (fid : Fid) (s : State) : Res :=
  respond { code := code, fid := fid } (s.addEvent unit code fid)

/-- ILLEGAL_COMMAND: no effect and no event (R94, R95, R297). -/
def illegalCommand (s : State) : Res :=
  respond { code := .illegalCommand } s

/-- Every command but SHUTDOWN runs only while Running (R94). -/
def whenRunning (s : State) (k : State → Res) : Res :=
  match s.run with
  | .running => k s
  | .halted => illegalCommand s

/-- Going on with a value, or the fault of an access that has no meaning. -/
def orStop {α : Type} (o : Option α) (f : Fault) (k : α → Res) : Res :=
  match o with
  | some a => k a
  | none => .fault f

/-! ### Halting (R262) -/

/-- Every context discarded (the slots are freed beside). -/
def State.closeAllTgts (s : State) : State :=
  { s with tgts := ⟨⟨(s.tgts.toList.zipIdx).map fun (t, i) =>
      match t.state with
      | .reassembling => t.close s.epoch s.cfg.lw (BitVec.ofNat 8 i)
      | .awaitingFirst => t⟩, by simp⟩ }

/-- Every slot Free, the Held ones too. -/
def State.freeAllSlots (s : State) : State :=
  { s with slots := s.slots.map fun sl => { sl with owner := .free } }

/-- ENC Idle; an ENC that is Idle already has nothing to close. -/
def State.idleEnc (s : State) : State :=
  match s.enc.state with
  | .fragmenting => s.closeEnc
  | .idle => s

/-- The event of a fatal halt; SHUTDOWN (cause OK) has none. -/
def State.haltEvent (s : State) (cause : RespCode) : State :=
  match cause with
  | .ok => s
  | c => s.addEvent .seq c 0

/-- `halt(cause)` (R262). -/
def State.halt (s : State) (cause : RespCode) : State :=
  (s.closeAllTgts.freeAllSlots.idleEnc.setHalted cause).haltEvent cause

end Sys2Proof.Machine
end

