-- ==== Sys2Proof/Machine/Decap.lean ====
section
/-! DEFINITION. DEC, the packet reassembler: the four fragment classes, and DECAP, which runs the one its
datagram decodes to. -/

namespace Sys2Proof.Machine

/-- A datagram that does not decode: MALFORMED with fid 0, no effect (R193). -/
def malformedDatagram (s : State) : Res :=
  raise .dec .malformed 0 s

/-! ### SINGLE (R194) -/

/-- A SINGLE fragment: a complete PDU, checked and copied to TRANSIENT (R194). -/
def onSingle (cd : Codec) (f : Fid) (proto : Proto) (label : Label) (p : List Byte) (crc : Crc)
    (s : State) : Res :=
  if Config.maxPdu < p.length then raise .dec .malformed f s
  else if cd.crcFinal (cd.crcUpdate cd.crcInit p) ≠ crc then raise .dec .crcMismatch f s
  else
    orStop (s.memWrite .transient 0 p) (.memOutOfRange .transient) fun s' =>
      respond { code := .completed, fid := f, proto := proto, label := fieldOfLabel label,
                len := BitVec.ofNat 32 p.length, handle := Config.transientHandle }
        (s'.setTransientLen p.length)

/-! ### FIRST (R200) -/

/-- The bound on the bytes gathered in a slot: the slot and MAX_PDU (R206). -/
def gatherBound (sl : Slot) : Nat :=
  min sl.size Config.maxPdu

/-- The context a FIRST fragment opens in slot `i` (R204). -/
def openedTarget (cd : Codec) (i : Nat) (proto : Proto) (label : Label) (p : List Byte) (t : Target) :
    Target :=
  { t with
    state := .reassembling, slot := i, acc := p.length, crc := cd.crcUpdate cd.crcInit p,
    label := label, proto := proto }

/-- A FIRST fragment on a target that is AwaitingFirst (R200, R205, R206). -/
def openContext (cd : Codec) (f : Fid) (proto : Proto) (label : Label) (p : List Byte) (s : State) :
    Res :=
  match s.poolTake (.ctx f) with
  | none => raise .dec .poolExhausted f s
  | some (i, s') =>
    orStop s'.slots[i]? (.noSuchSlot i) fun sl =>
      if gatherBound sl < p.length then raise .dec .malformed f (s'.poolFree i)
      else
        orStop (s'.memWrite (.slot i) 0 p) (.memOutOfRange (.slot i)) fun s'' =>
          respond { code := .fragmented, fid := f, len := BitVec.ofNat 32 p.length }
            (s''.setTgt f (openedTarget cd i proto label p (s''.tgt f)))

/-- A FIRST fragment: an open context of its fragment-id is discarded first (R200, R203). -/
def onFirst (cd : Codec) (f : Fid) (proto : Proto) (label : Label) (p : List Byte) (s : State) : Res :=
  match (s.tgt f).state with
  | .awaitingFirst => openContext cd f proto label p s
  | .reassembling =>
    orStop s.slots[(s.tgt f).slot]? (.noSuchSlot (s.tgt f).slot) fun _ =>
      openContext cd f proto label p ((s.discard f).addEvent .dec .contextRestarted f)

/-! ### CONT and LAST (R207, R208) -/

/-- A target with a payload appended to its slot: accumulator and count advance (R68, R207). -/
def appendedTarget (cd : Codec) (p : List Byte) (t : Target) : Target :=
  { t with crc := cd.crcUpdate t.crc p, acc := t.acc + p.length }

/-- The common part of CONT and LAST: the match, the bound and the append; then what the class does on
the state after (R196, R206, R207, R208, R211, R212). -/
def appendPayload (cd : Codec) (f : Fid) (label : Label) (p : List Byte) (s : State)
    (k : State → Res) : Res :=
  if s.lookup f label then
    let t := s.tgt f
    orStop s.slots[t.slot]? (.noSuchSlot t.slot) fun sl =>
      if gatherBound sl < t.acc + p.length then raise .dec .malformed f (s.discard f)
      else
        orStop (s.memWrite (.slot t.slot) t.acc p) (.memOutOfRange (.slot t.slot)) fun s' =>
          k (s'.setTgt f (appendedTarget cd p (s'.tgt f)))
  else raise .dec .unknownContext f s

/-- A CONT fragment (R207). -/
def onCont (cd : Codec) (f : Fid) (label : Label) (p : List Byte) (s : State) : Res :=
  appendPayload cd f label p s fun s' =>
    respond { code := .fragmented, fid := f, len := BitVec.ofNat 32 (s'.tgt f).acc } s'

/-- The end of a reassembly whose CRC matched: the slot is Held by the host, the context closed (R209). -/
def completeContext (f : Fid) (s : State) : Res :=
  let t := s.tgt f
  respond { code := .completed, fid := f, proto := t.proto, label := fieldOfLabel t.label,
            len := BitVec.ofNat 32 t.acc, handle := BitVec.ofNat 16 t.slot }
    ((s.setOwner t.slot .held).closeTgt f)

/-- A LAST fragment: append, then the CRC decides (R208, R209, R210). -/
def onLast (cd : Codec) (f : Fid) (label : Label) (p : List Byte) (crc : Crc) (s : State) : Res :=
  appendPayload cd f label p s fun s' =>
    if cd.crcFinal (s'.tgt f).crc ≠ crc then raise .dec .crcMismatch f (s'.discard f)
    else completeContext f s'

/-! ### The fragment rows of the opcode table

Each is run while Running (DECAP is what reaches them, R94, R192): the codec decodes the row's bytes, and
what it does not take for a fragment of the row's class is Malformed (R120, R193; log 9). -/

/-- FRAG.SINGLE (R194). -/
def execFragSingle (lt : BitVec 2) (len : BitVec 12) (body : List Byte) (s : State) : Res :=
  whenRunning s fun s =>
    match s.codec.decode (encode (.fragSingle lt len body)) with
    | some (.single f proto label p crc) => onSingle s.codec f proto label p crc s
    | _ => malformedDatagram s

/-- FRAG.FIRST (R200). -/
def execFragFirst (lt : BitVec 2) (len : BitVec 12) (body : List Byte) (s : State) : Res :=
  whenRunning s fun s =>
    match s.codec.decode (encode (.fragFirst lt len body)) with
    | some (.first f proto label p) => onFirst s.codec f proto label p s
    | _ => malformedDatagram s

/-- FRAG.CONT (R207). -/
def execFragCont (lt : BitVec 2) (len : BitVec 12) (body : List Byte) (s : State) : Res :=
  whenRunning s fun s =>
    match s.codec.decode (encode (.fragCont lt len body)) with
    | some (.cont f label p) => onCont s.codec f label p s
    | _ => malformedDatagram s

/-- FRAG.LAST (R208). -/
def execFragLast (lt : BitVec 2) (len : BitVec 12) (body : List Byte) (s : State) : Res :=
  whenRunning s fun s =>
    match s.codec.decode (encode (.fragLast lt len body)) with
    | some (.last f label p crc) => onLast s.codec f label p crc s
    | _ => malformedDatagram s

/-! ### DECAP (R192) -/

/-- DECAP over a codec: the datagram's class decides (R192). -/
def decapDatagram (cd : Codec) (d : List Byte) (s : State) : Res :=
  match cd.decode d with
  | none => malformedDatagram s
  | some (.single f proto label p crc) => onSingle cd f proto label p crc s
  | some (.first f proto label p) => onFirst cd f proto label p s
  | some (.cont f label p) => onCont cd f label p s
  | some (.last f label p crc) => onLast cd f label p crc s

/-- DECAP (R95, R192). -/
def execDecap (len : Word32) (s : State) : Res :=
  whenRunning s fun s =>
    if Config.maxPdu < len.toNat then illegalCommand s
    else
      orStop (s.memRead .dgramIn 0 len.toNat) (.memOutOfRange .dgramIn) fun d =>
        decapDatagram s.codec d s

end Sys2Proof.Machine
end

