-- ==== Sys2Proof/Machine/Encap.lean ====
section
/-! DEFINITION. ENC, the framing state machine: NEXT_LABEL, BEGIN_ENCAP, CONTINUE_ENCAP. -/

namespace Sys2Proof.Machine

/-! ### NEXT_LABEL (R162) -/

/-- The label counter advanced, wrapping at its 8·LW bits (R30, R162). -/
def State.advanceLabel (s : State) : State :=
  s.setEnc { s.enc with labelCtr := (s.enc.labelCtr + 1) % 2 ^ (8 * s.cfg.lw) }

/-- NEXT_LABEL (R162). -/
def execNextLabel (s : State) : Res :=
  whenRunning s fun s =>
    respond { code := .ok, label := fieldOfLabel (labelOfCounter s.cfg.lw s.enc.labelCtr) }
      s.advanceLabel

/-! ### Emitting a fragment -/

/-- A fragment written to FRAG_OUT, then what follows on its length (R164, R167). -/
def emitFragment (s : State) (frag : Option (List Byte)) (k : Nat → State → Res) : Res :=
  orStop frag .encoderUndefined fun f =>
    orStop (s.memWrite .fragOut 0 f) (.memOutOfRange .fragOut) fun s' =>
      k f.length (s'.setFragOutLen f.length)

/-- The response of a command that emitted a fragment. -/
def emitted (code : RespCode) (fid : Fid) (len : Nat) (s : State) : Res :=
  respond { code := code, fid := fid, len := BitVec.ofNat 32 len } s

/-! ### BEGIN_ENCAP (R164) -/

/-- The single-fragment path: the whole PDU and its CRC, ENC stays Idle (R165). -/
def beginSingle (cd : Codec) (fid : Fid) (proto : Proto) (label : Label) (l : Nat) (s : State) : Res :=
  orStop (s.memRead .pduIn 0 l) (.memOutOfRange .pduIn) fun p =>
    let crc := cd.crcFinal (cd.crcUpdate cd.crcInit p)
    emitFragment s (cd.encodeSingle fid proto label p crc) fun n s' => emitted .completed fid n s'

/-- The first-fragment path: `k` bytes of the PDU, no CRC, ENC goes to Fragmenting (R166). -/
def beginFirst (cd : Codec) (fid : Fid) (proto : Proto) (label : Label) (l k : Nat) (s : State) : Res :=
  orStop (s.memRead .pduIn 0 k) (.memOutOfRange .pduIn) fun p =>
    emitFragment s (cd.encodeFirst fid proto label p) fun n s' =>
      emitted .fragmented fid n (s'.setEnc
        { s'.enc with
          state := .fragmenting, total := l, offset := k, crc := cd.crcUpdate cd.crcInit p,
          label := label, proto := proto, fid := fid })

/-- BEGIN_ENCAP over a codec, with `l` the PDU's length and `c` the capacity (R164). -/
def beginEncapWith (cd : Codec) (fid : Fid) (proto : Proto) (label : Label) (l c : Nat) (s : State) :
    Res :=
  let ce := effectiveCap c cd.maxFrag
  if s.enc.state = .fragmenting then raise .enc .encBusy s.enc.fid s
  else if Config.maxPdu < l then raise .enc .pduTooLarge fid s
  else if cd.hSingle + 4 ≤ ce ∧ l ≤ ce - cd.hSingle - 4 then beginSingle cd fid proto label l s
  else if l = 0 ∨ ce < cd.hFirst + 1 then raise .enc .outputTooSmall fid s
  else beginFirst cd fid proto label l (min l (ce - cd.hFirst)) s

/-- BEGIN_ENCAP (R164). -/
def execBeginEncap (fid : Fid) (proto : Proto) (len cap : Word32) (label : LabelField) (s : State) :
    Res :=
  whenRunning s fun s =>
    beginEncapWith s.codec fid proto (labelOfField s.cfg.lw label) len.toNat cap.toNat s

/-! ### CONTINUE_ENCAP (R167) -/

/-- OUTPUT_TOO_SMALL in the middle of a sequence: the context is closed (R171). -/
def abandonEncap (s : State) : Res :=
  raise .enc .outputTooSmall s.enc.fid s.closeEnc

/-- The terminal path: the `r` remaining bytes and the CRC of the PDU, ENC goes to Idle (R169). -/
def continueLast (cd : Codec) (r : Nat) (s : State) : Res :=
  orStop (s.memRead .pduIn s.enc.offset r) (.memOutOfRange .pduIn) fun p =>
    let crc := cd.crcFinal (cd.crcUpdate s.enc.crc p)
    emitFragment s (cd.encodeLast s.enc.fid s.enc.label p crc) fun n s' =>
      emitted .completed s.enc.fid n s'.closeEnc

/-- The non-terminal path: exactly `k` bytes, the accumulator and the offset advance (R170). -/
def continueMiddle (cd : Codec) (k : Nat) (s : State) : Res :=
  orStop (s.memRead .pduIn s.enc.offset k) (.memOutOfRange .pduIn) fun p =>
    emitFragment s (cd.encodeCont s.enc.fid s.enc.label p) fun n s' =>
      emitted .fragmented s.enc.fid n (s'.setEnc
        { s'.enc with crc := cd.crcUpdate s'.enc.crc p, offset := s'.enc.offset + k })

/-- CONTINUE_ENCAP over a codec, with `c` the capacity (R167). -/
def continueEncapWith (cd : Codec) (c : Nat) (s : State) : Res :=
  let ce := effectiveCap c cd.maxFrag
  let r := s.enc.total - s.enc.offset
  let k := ce - cd.hCont - 4
  if s.enc.state = .idle then raise .enc .encNoContext 0 s
  else if ce < cd.hCont + 4 then abandonEncap s
  else if r ≤ k then continueLast cd r s
  else if k < 1 then abandonEncap s
  else continueMiddle cd k s

/-- CONTINUE_ENCAP (R167). -/
def execContinueEncap (cap : Word32) (s : State) : Res :=
  whenRunning s fun s => continueEncapWith s.codec cap.toNat s

end Sys2Proof.Machine
end

