-- ==== Sys2Proof/Machine/Pool.lean ====
section
/-! DEFINITION. POOL, the buffer-pool scheduler: PROVISION, ACQUIRE, RELEASE. -/

namespace Sys2Proof.Machine

/-- Registering a block of `size` bytes as the next slot, Free, its content unspecified (R142). -/
def State.addSlot (s : State) (size : Nat) : State :=
  { s with slots := s.slots ++ [⟨size, .free, []⟩] }

/-- PROVISION (R142). -/
def execProvision (size : Word32) (s : State) : Res :=
  whenRunning s fun s =>
    if s.poolCount = s.cfg.n then raise .pool .poolFull 0 s
    else
      respond { code := .ok, handle := BitVec.ofNat 16 s.poolCount, len := size }
        (s.addSlot size.toNat)

/-- ACQUIRE (R144). -/
def execAcquire (s : State) : Res :=
  whenRunning s fun s =>
    match s.poolTake .held with
    | none => raise .pool .poolExhausted 0 s
    | some (i, s') =>
      respond { code := .ok, handle := BitVec.ofNat 16 i,
                len := BitVec.ofNat 32 (s'.memSize (.slot i)) } s'

/-- RELEASE (R146): out of range, in use, already free, or Held. -/
def execRelease (handle : Word32) (s : State) : Res :=
  whenRunning s fun s =>
    match s.slots[handle.toNat]? with
    | none => raise .pool .badHandle 0 s
    | some sl =>
      match sl.owner with
      | .ctx f => raise .pool .bufferInUse f s
      | .free => raise .pool .badHandle 0 s
      | .held =>
        respond { code := .ok, handle := BitVec.ofNat 16 handle.toNat } (s.poolFree handle.toNat)

end Sys2Proof.Machine
end

