-- ==== Sys2Proof/Machine/SeqCommands.lean ====
section
/-! DEFINITION. The two commands SEQ owns: PAD and SHUTDOWN. -/

namespace Sys2Proof.Machine

/-- The zeros PAD adds to a fragment of `n` bytes: FRAG_OUT[n..P) (R256). -/
def padFragment (p : Nat) (s : State) : Option State :=
  if s.fragOutLen < p then
    (s.memWrite .fragOut s.fragOutLen (zeros (p - s.fragOutLen))).map fun s' => s'.setFragOutLen p
  else some s

/-- PAD (R256). -/
def execPad (len : Word32) (s : State) : Res :=
  whenRunning s fun s =>
    if Config.maxPdu < len.toNat then illegalCommand s
    else
      orStop (padFragment len.toNat s) (.memOutOfRange .fragOut) fun s' =>
        respond { code := .ok, len := BitVec.ofNat 32 s'.fragOutLen } s'

/-- SHUTDOWN (R262): the one command that runs while Halted too. -/
def execShutdown (s : State) : Res :=
  match s.run with
  | .running => respond { code := .ok } (s.halt .ok)
  | .halted => respond { code := .ok } s

end Sys2Proof.Machine
end

