-- ==== Sys2Proof/Machine/Dispatch.lean ====
section
/-! DEFINITION. One arm per instruction. -/

namespace Sys2Proof.Machine

def exec (i : Instr) (s : State) : Host.Outcome State Fault Refusal :=
  match i with
  | .provision size => Sys2Proof.Machine.execProvision size s
  | .acquire => Sys2Proof.Machine.execAcquire s
  | .release handle => Sys2Proof.Machine.execRelease handle s
  | .nextLabel => Sys2Proof.Machine.execNextLabel s
  | .beginEncap fid proto len cap label => Sys2Proof.Machine.execBeginEncap fid proto len cap label s
  | .continueEncap cap => Sys2Proof.Machine.execContinueEncap cap s
  | .pad len => Sys2Proof.Machine.execPad len s
  | .decap len => Sys2Proof.Machine.execDecap len s
  | .shutdown => Sys2Proof.Machine.execShutdown s
  | .fragSingle lt len body => Sys2Proof.Machine.execFragSingle lt len body s
  | .fragFirst lt len body => Sys2Proof.Machine.execFragFirst lt len body s
  | .fragCont lt len body => Sys2Proof.Machine.execFragCont lt len body s
  | .fragLast lt len body => Sys2Proof.Machine.execFragLast lt len body s

end Sys2Proof.Machine
end

