-- ==== Sys2Proof/Machine/Flags.lean ====
section
/-! DEFINITION. Outcome reporting. The engine has no condition codes and no flag register (R50): what a
command has to report stands in its response record, whose numbers and bytes are given here. -/

namespace Sys2Proof.Machine

/-- The number of a response code (R97). -/
def RespCode.byte : RespCode → Byte
  | .ok => 0x00
  | .completed => 0x01
  | .fragmented => 0x02
  | .contextRestarted => 0x03
  | .poolFull => 0x80
  | .poolExhausted => 0x81
  | .bufferInUse => 0x82
  | .badHandle => 0x83
  | .pduTooLarge => 0x90
  | .outputTooSmall => 0x91
  | .encBusy => 0x92
  | .encNoContext => 0x93
  | .crcMismatch => 0xA0
  | .malformed => 0xA1
  | .unknownContext => 0xA2
  | .staleContext => 0xA3
  | .setupError => 0xF0
  | .ioError => 0xF1
  | .illegalCommand => 0xFF

/-- Codes below 0x80 are not errors (R97). -/
def RespCode.isError (c : RespCode) : Bool :=
  decide (0x80 ≤ c.byte.toNat)

/-- The 16 bytes of a response record (R96). -/
def Rsp16.bytes (r : Rsp16) : List Byte :=
  r.code.byte :: r.fid :: (beBytes 2 r.proto.toNat ++ beBytes 4 r.len.toNat ++
    beBytes 2 r.handle.toNat ++ beBytes 6 r.label.toNat)

end Sys2Proof.Machine
end

