-- ==== Sys2Proof/Machine/Tunnel.lean ====
section
/-! DEFINITION. SEQ: the port primitives and the turns of the two tunnel directions. A turn is one port
primitive or one command, so the directions interleave at command boundaries (R264; log 12). -/

namespace Sys2Proof.Machine

/-! ### Writes of SEQ's own state -/

/-- The egress direction moves to a position. -/
def State.egressAt (s : State) (p : EgressPos) : State :=
  { s with seq := { s.seq with egress := p } }

/-- The ingress direction moves to a position. -/
def State.ingressAt (s : State) (p : IngressPos) : State :=
  { s with seq := { s.seq with ingress := p } }

/-- The ports replaced. -/
def State.setPorts (s : State) (p : Ports) : State :=
  { s with ports := p }

/-- What follows a command, with the response it gave. -/
def afterCommand (r : Res) (k : Rsp16 → State → Res) : Res :=
  match r with
  | .next s => k s.rsp s
  | .fault e => .fault e
  | .refused e => .refused e

/-! ### Port primitives (R250 to R253; log 13, log 14) -/

/-- `IF_RECV(bound, T)`: the next result of the interface; none pending is a Timeout. A frame longer
than the bound is the device's affair: at most `bound` bytes come, which ones is a free value (U17). -/
def ifRecv (bound : Nat) (s : State) : RecvResult × State :=
  match s.ports.ifRecv with
  | [] => (.timeout, s)
  | r :: rest =>
    let s' := s.setPorts { s.ports with ifRecv := rest }
    match r with
    | .data bytes =>
      if bytes.length ≤ bound then (.data bytes, s')
      else (.data ((Config.overlongFrame bound bytes).take bound), s')
    | .timeout => (.timeout, s')
    | .fatal => (.fatal, s')

/-- `SOCK_RECV(bound, T)`: the next datagram, cut to the bound (R252); none pending is a Timeout. -/
def sockRecv (bound : Nat) (s : State) : RecvResult × State :=
  match s.ports.sockRecv with
  | [] => (.timeout, s)
  | r :: rest =>
    let s' := s.setPorts { s.ports with sockRecv := rest }
    match r with
    | .data bytes => (.data (bytes.take bound), s')
    | .timeout => (.timeout, s')
    | .fatal => (.fatal, s')

/-- `SOCK_SEND(bytes)`: Ok unless a Fatal is pending; what is sent Ok is on record (R251). -/
def sockSend (bytes : List Byte) (s : State) : SendResult × State :=
  match s.ports.sockSend with
  | .fatal :: rest => (.fatal, s.setPorts { s.ports with sockSend := rest })
  | .ok :: rest =>
    (.ok, s.setPorts { s.ports with sockSend := rest, sent := s.ports.sent ++ [bytes] })
  | [] => (.ok, s.setPorts { s.ports with sent := s.ports.sent ++ [bytes] })

/-- `IF_SEND(bytes)`: Ok unless a Fatal is pending; what is delivered Ok is on record (R253). -/
def ifSend (bytes : List Byte) (s : State) : SendResult × State :=
  match s.ports.ifSend with
  | .fatal :: rest => (.fatal, s.setPorts { s.ports with ifSend := rest })
  | .ok :: rest =>
    (.ok, s.setPorts { s.ports with ifSend := rest, delivered := s.ports.delivered ++ [bytes] })
  | [] => (.ok, s.setPorts { s.ports with delivered := s.ports.delivered ++ [bytes] })

/-! ### The egress direction (R258) -/

/-- The start of an iteration: `shutdown_req` is sampled, then a frame is read (R254, R258). -/
def egressTop (s : State) : Res :=
  if s.seq.shutdownReq then afterCommand (exec .shutdown s) fun _ s' => .next (s'.egressAt .stopped)
  else
    match ifRecv s.cfg.b.toNat s with
    | (.timeout, s') => .next s'
    | (.fatal, s') => .next ((s'.halt .ioError).egressAt .stopped)
    | (.data bytes, s') =>
      orStop (s'.memWrite .pduIn 0 (bytes.take 65535)) (.memOutOfRange .pduIn) fun s'' =>
        .next (s''.egressAt (.label bytes.length))

/-- Where the egress direction goes after a response of ENC: an error drops the frame (R258). -/
def egressAfterEnc (code : RespCode) (s : State) : Res :=
  if code.isError then .next (s.egressAt .top) else .next (s.egressAt (.pad code))

/-- The fragment handed to the socket (R258). -/
def egressSend (code : RespCode) (s : State) : Res :=
  orStop (s.memRead .fragOut 0 s.fragOutLen) (.memOutOfRange .fragOut) fun bytes =>
    match sockSend bytes s with
    | (.fatal, s') => .next ((s'.halt .ioError).egressAt .stopped)
    | (.ok, s') => .next (s'.egressAt (if code = .completed then .top else .continue_))

/-- One turn of the egress direction (R258, R259); Halted stops it (R262). -/
def egressTurn (s : State) : Res :=
  match s.run with
  | .halted => .next (s.egressAt .stopped)
  | .running =>
    match s.seq.egress with
    | .top => egressTop s
    | .label l =>
      afterCommand (exec .nextLabel s) fun r s' => .next (s'.egressAt (.begin_ l r.label))
    | .begin_ l lab =>
      afterCommand
        (exec (.beginEncap s.cfg.fragIdEgress s.cfg.protoEgress (BitVec.ofNat 32 l)
          (BitVec.ofNat 32 (egressCap s.cfg)) lab) s)
        fun r s' => egressAfterEnc r.code s'
    | .pad code =>
      if 0 < s.cfg.pEgress.toNat then
        afterCommand (exec (.pad s.cfg.pEgress) s) fun _ s' => .next (s'.egressAt (.send code))
      else .next (s.egressAt (.send code))
    | .send code => egressSend code s
    | .continue_ =>
      afterCommand (exec (.continueEncap (BitVec.ofNat 32 (egressCap s.cfg))) s)
        fun r s' => egressAfterEnc r.code s'
    | .stopped => .next s

/-! ### The ingress direction (R260, R261, R325) -/

/-- The start of an iteration: `shutdown_req` is sampled, then a datagram is received (R254, R260). -/
def ingressTop (s : State) : Res :=
  if s.seq.shutdownReq then afterCommand (exec .shutdown s) fun _ s' => .next (s'.ingressAt .stopped)
  else
    match sockRecv (rxBound s.cfg) s with
    | (.timeout, s') => .next s'
    | (.fatal, s') => .next ((s'.halt .ioError).ingressAt .stopped)
    | (.data bytes, s') =>
      orStop (s'.memWrite .dgramIn 0 bytes) (.memOutOfRange .dgramIn) fun s'' =>
        .next (s''.ingressAt (.decap bytes.length))

/-- Where the ingress direction goes after a response of DECAP (R260). -/
def ingressAfterDecap (r : Rsp16) (s : State) : Res :=
  if r.code = .completed then .next (s.ingressAt (.deliver r.handle r.len.toNat))
  else .next (s.ingressAt .top)

/-- The memory a handle of a completed PDU names (R98). -/
def handleSpace (h : BitVec 16) : Space :=
  if h = Config.transientHandle then .transient else .slot h.toNat

/-- A completed PDU written to the interface; a slot is released after, TRANSIENT is not (R260). -/
def ingressDeliver (h : BitVec 16) (len : Nat) (s : State) : Res :=
  orStop (s.memRead (handleSpace h) 0 len) (.memOutOfRange (handleSpace h)) fun pdu =>
    match ifSend pdu s with
    | (.fatal, s') => .next ((s'.halt .ioError).ingressAt .stopped)
    | (.ok, s') =>
      .next (s'.ingressAt (if h = Config.transientHandle then .top else .release h))

/-- One turn of the ingress direction (R260, R261, R325); Halted stops it (R262). -/
def ingressTurn (s : State) : Res :=
  match s.run with
  | .halted => .next (s.ingressAt .stopped)
  | .running =>
    match s.seq.ingress with
    | .boot 0 => .next (s.ingressAt .top)
    | .boot (left + 1) =>
      afterCommand (exec (.provision s.cfg.b) s) fun _ s' => .next (s'.ingressAt (.boot left))
    | .top => ingressTop s
    | .decap n =>
      afterCommand (exec (.decap (BitVec.ofNat 32 n)) s) fun r s' => ingressAfterDecap r s'
    | .deliver h len => ingressDeliver h len s
    | .release h =>
      afterCommand (exec (.release (h.setWidth 32)) s) fun _ s' => .next (s'.ingressAt .top)
    | .stopped => .next s

end Sys2Proof.Machine
end

