-- ==== Sys2Proof/Machine/Input.lean ====
section
/-! DEFINITION. What each happening at the engine's boundary does, and how a request record or a datagram
is put where the next step takes it. -/

namespace Sys2Proof.Machine

/-- The memory space a host memory is. -/
def HostMemory.space : HostMemory → Space
  | .pduIn => .pduIn
  | .dgramIn => .dgramIn

/-- The next happening taken off the schedule. -/
def State.takeInput (s : State) (rest : List Input) : State :=
  s.setPorts { s.ports with inputs := rest }

/-- The level of the input `shutdown_req` (R254). -/
def State.setShutdownReq (s : State) (level : Bool) : State :=
  { s with seq := { s.seq with shutdownReq := level } }

/-- A request record: its command is run; an opcode outside the command set is ILLEGAL_COMMAND, with
no effect (R92, R95). -/
def runRequest (record : Vector Byte 20) (s : State) : Res :=
  match decodeRequest record.toList with
  | .ok i => exec i s
  | .error _ => illegalCommand s

/-- Reset with a configuration: everything of the engine and of SEQ is as after reset, the outside
goes on (R320, R323; log 16). -/
def State.applyReset (s : State) (cfg : Cfg) : State :=
  State.resetWith cfg (s.epoch + 1) s.seq.shutdownReq s.ports

/-- One happening (R71: they come in one total order). -/
def runInput (x : Input) (s : State) : Res :=
  match x with
  | .request record => runRequest record s
  | .hostWrite m a bytes =>
    orStop (s.memWrite m.space a bytes) (.memOutOfRange m.space) fun s' => .next s'
  | .shutdownReq level => .next (s.setShutdownReq level)
  | .egressTurn => egressTurn s
  | .ingressTurn => ingressTurn s
  | .reset cfg => .next (s.applyReset cfg)

/-- The first 20 bytes of a byte list, made up with zeros, as a request record. -/
def recordOf (bytes : List Byte) : Vector Byte 20 :=
  ⟨((padTo 20 bytes).take 20).toArray, by simp [padTo]; omega⟩

/-- A request put at the head of the schedule. -/
def State.withRequest (s : State) (bytes : List Byte) : State :=
  s.takeInput (.request (recordOf bytes) :: s.ports.inputs)

/-- A datagram put into DGRAM_IN and a DECAP of its length at the head of the schedule. -/
def State.withDatagram (s : State) (bytes : List Byte) : State :=
  (s.setMem .dgramIn (s.dgramIn.write 0 bytes)).withRequest
    (encode (.decap (BitVec.ofNat 32 bytes.length)))

end Sys2Proof.Machine
end

