-- ==== Sys2Proof/Machine/Step.lean ====
section
/-! DEFINITION. One step, and where it takes its next instruction from. -/

namespace Sys2Proof.Machine

/-- One step: the next happening at the engine's boundary; with none pending nothing changes (R20, R71;
log 10). -/
def step (s : State) : Host.Outcome State Fault Refusal :=
  match s.ports.inputs with
  | [] => .next s
  | x :: rest => runInput x (s.takeInput rest)

/-- A state whose next step fetches and runs the instruction of a table word: its request record is the
next happening, or its datagram stands in DGRAM_IN and the request is the DECAP of it (log 9, log 10). -/
def State.withFetchWord (s : State) (nbits w : Nat) : State :=
  match tableFormat nbits w with
  | .req20 => s.withRequest (tableBytes nbits w)
  | .frag => s.withDatagram (tableBytes nbits w)

end Sys2Proof.Machine
end

