-- ==== Sys2Proof/Safety.lean ====
section
/-! DEFINITION. The laws of a codec, what a good state is (the invariant every step keeps, part by part),
the duties the spec puts on the host, and the terms of the statements. -/

namespace Sys2Proof.Machine

/-! ### The codec capability (R100 to R107) -/

/-- The fragment-id of a fragment (R101). -/
def fragFid : Frag → Fid
  | .single f _ _ _ _ => f
  | .first f _ _ _ => f
  | .cont f _ _ => f
  | .last f _ _ _ => f

/-- The label of a fragment (R101). -/
def fragLabel : Frag → Label
  | .single _ _ label _ _ => label
  | .first _ _ label _ => label
  | .cont _ label _ => label
  | .last _ label _ _ => label

/-- Two byte sequences of equal length that differ in exactly one bit (R232). -/
def OneBitApart (p q : List Byte) : Prop :=
  ∃ (i : Nat) (bit : Nat) (h : i < p.length), bit < 8 ∧ q = p.set i (p[i] ^^^ (1#8 <<< bit))

/-- The laws a codec for label width LW meets: the encoders are defined within the limit, with the lengths
of R102; law 1, round trip with padding (R104); law 2, labels of LW bytes (R105); law 4, the CRC's chunks
and its single bit (R107, R231, R232). Law 3, no state, is that they are functions (R106). No fragment is
longer than FRAG_OUT (R46, D34). -/
structure CodecLaws (lw : Nat) (cd : Codec) : Prop where
  maxFrag_le : cd.maxFrag ≤ Config.stagingSize
  single : ∀ fid proto label p crc, label.length = lw → cd.hSingle + p.length + 4 ≤ cd.maxFrag →
    ∃ d, cd.encodeSingle fid proto label p crc = some d ∧ d.length = cd.hSingle + p.length + 4 ∧
      ∀ t, cd.decode (d ++ t) = some (.single fid proto label p crc)
  first : ∀ fid proto label p, label.length = lw → cd.hFirst + p.length ≤ cd.maxFrag →
    ∃ d, cd.encodeFirst fid proto label p = some d ∧ d.length = cd.hFirst + p.length ∧
      ∀ t, cd.decode (d ++ t) = some (.first fid proto label p)
  cont : ∀ fid label p, label.length = lw → cd.hCont + p.length ≤ cd.maxFrag →
    ∃ d, cd.encodeCont fid label p = some d ∧ d.length = cd.hCont + p.length ∧
      ∀ t, cd.decode (d ++ t) = some (.cont fid label p)
  last : ∀ fid label p crc, label.length = lw → cd.hCont + p.length + 4 ≤ cd.maxFrag →
    ∃ d, cd.encodeLast fid label p crc = some d ∧ d.length = cd.hCont + p.length + 4 ∧
      ∀ t, cd.decode (d ++ t) = some (.last fid label p crc)
  label : ∀ d fr, cd.decode d = some fr → (fragLabel fr).length = lw
  chunk_nil : ∀ acc, cd.crcUpdate acc [] = acc
  chunk_append : ∀ acc x y, cd.crcUpdate (cd.crcUpdate acc x) y = cd.crcUpdate acc (x ++ y)
  single_bit : ∀ b p q, OneBitApart p q →
    cd.crcFinal (cd.crcUpdate (cd.crcUpdate cd.crcInit b) p) ≠
      cd.crcFinal (cd.crcUpdate (cd.crcUpdate cd.crcInit b) q)

/-- The codec a configuration names is in the range of that parameter (R100): REFCODEC, or one that meets
the laws. -/
def CodecOk (cfg : Cfg) : Prop :=
  cfg.codec = .refcodec ∨ CodecLaws cfg.lw (codecOf cfg)

/-! ### The invariant -/

/-- Every offset of a memory lies below a size. -/
abbrev Memory.within (m : Memory) (size : Nat) : Prop := ∀ c ∈ m, c.1 < size

/-- The five memories: canonical form, nothing outside (R60, R66, R67). -/
structure MemInv (s : State) : Prop where
  pduIn_wf : s.pduIn.wf
  fragOut_wf : s.fragOut.wf
  dgramIn_wf : s.dgramIn.wf
  transient_wf : s.transient.wf
  pduIn_within : s.pduIn.within Config.stagingSize
  fragOut_within : s.fragOut.within Config.stagingSize
  dgramIn_within : s.dgramIn.within Config.stagingSize
  transient_within : s.transient.within Config.stagingSize
  slot_wf : ∀ sl ∈ s.slots, sl.data.wf
  slot_within : ∀ sl ∈ s.slots, sl.data.within sl.size
  fragOutLen_le : s.fragOutLen ≤ Config.stagingSize
  transientLen_le : s.transientLen ≤ Config.stagingSize

/-- The ENC registers hold values of their ranges (R25 to R30). -/
structure EncInv (s : State) : Prop where
  total_le : s.enc.total ≤ Config.maxPdu
  offset_le : s.enc.offset ≤ Config.maxPdu
  label_length : s.enc.label.length = s.cfg.lw
  labelCtr_lt : s.enc.labelCtr < 2 ^ (8 * s.cfg.lw)
  fragmenting : s.enc.state = .fragmenting → 1 ≤ s.enc.offset ∧ s.enc.offset ≤ s.enc.total

/-- What a Reassembling target promises of its slot: it owns it (R44), the bytes gathered fit it
(R206), and the accumulator is the CRC of them (R237). -/
structure ContextOk (s : State) (f : Fid) (sl : Slot) : Prop where
  owned : sl.owner = .ctx f
  fits : (s.tgt f).acc ≤ gatherBound sl
  crc : (s.tgt f).crc =
    s.codec.crcUpdate s.codec.crcInit (s.readBytes (.slot (s.tgt f).slot) 0 (s.tgt f).acc)

/-- POOL and DEC: the slot table's bound (R40) and the ownership invariant in both directions (R44). -/
structure PoolInv (s : State) : Prop where
  count_le : s.slots.length ≤ s.cfg.n
  size_lt : ∀ sl ∈ s.slots, sl.size < 2 ^ 32
  acc_le : ∀ f, (s.tgt f).acc ≤ Config.maxPdu
  label_length : ∀ f, (s.tgt f).label.length = s.cfg.lw
  context : ∀ f, (s.tgt f).state = .reassembling →
    ∃ sl, s.slots[(s.tgt f).slot]? = some sl ∧ ContextOk s f sl
  owner : ∀ i sl f, s.slots[i]? = some sl → sl.owner = .ctx f →
    (s.tgt f).state = .reassembling ∧ (s.tgt f).slot = i

/-- Running or Halted (R21, R22, R262): only a legal configuration runs, with a codec in range; a halted engine has no open
context, no slot that is not Free, and one of the three causes of a halt. -/
structure RunInv (s : State) : Prop where
  legal : s.run = .running → s.cfg.Legal
  codec : s.run = .running → CodecOk s.cfg
  running_cause : s.run = .running → s.haltCause = .ok
  halted_cause : s.haltCause = .ok ∨ s.haltCause = .setupError ∨ s.haltCause = .ioError
  halted_enc : s.run = .halted → s.enc.state = .idle
  halted_tgts : s.run = .halted → ∀ f, (s.tgt f).state = .awaitingFirst
  halted_slots : s.run = .halted → ∀ sl ∈ s.slots, sl.owner = .free

/-- A happening the outside can bring: a host write lies inside the memory, and a reset with a legal
configuration brings a codec in range. -/
def Input.InRange : Input → Prop
  | .hostWrite _ a bytes => a + bytes.length ≤ Config.stagingSize
  | .request _ => True
  | .shutdownReq _ => True
  | .egressTurn => True
  | .ingressTurn => True
  | .reset cfg => cfg.Legal → CodecOk cfg

/-- What the ingress direction is about to read is inside a memory (R260). -/
def IngressPos.InRange (s : State) : IngressPos → Prop
  | .decap n => n ≤ Config.maxPdu
  | .deliver h len => s.run = .running → len ≤ s.memSize (handleSpace h)
  | .boot _ => True
  | .top => True
  | .release _ => True
  | .stopped => True

/-- SEQ and the schedule of the outside. -/
structure SeqInv (s : State) : Prop where
  inputs : ∀ x ∈ s.ports.inputs, x.InRange
  ingress : s.seq.ingress.InRange s

/-- The invariant of the machine: it holds at reset and every step keeps it. -/
structure Inv (s : State) : Prop where
  mem : MemInv s
  enc : EncInv s
  pool : PoolInv s
  run : RunInv s
  seq : SeqInv s

/-! ### Duties of the host, which the engine does not enforce -/

/-- The host may write PDU_IN only while no PDU is being fragmented (R73, R330). -/
def HostMayWritePduIn (s : State) : Prop := s.enc.state = .idle

/-- The host may read the data of a Held slot only (R43, R61, R331). -/
def HostMayReadSlot (s : State) (i : Nat) : Prop :=
  ∃ sl, s.slots[i]? = some sl ∧ sl.owner = .held

/-- The bytes of FRAG_OUT the host may send: the last fragment emitted (R46, R332). -/
def State.fragment (s : State) : List Byte := s.readBytes .fragOut 0 s.fragOutLen

/-- The PDU a COMPLETED response of DECAP names (R98, R194, R209). -/
def State.completedPdu (s : State) (r : Rsp16) : List Byte :=
  s.readBytes (handleSpace r.handle) 0 r.len.toNat

/-! ### Frames: what a command leaves alone -/

/-- The configuration, `run`, `halt_cause`, SEQ, the ports and the reset counter are as before. -/
structure SameControl (s t : State) : Prop where
  cfg : t.cfg = s.cfg
  run : t.run = s.run
  haltCause : t.haltCause = s.haltCause
  seq : t.seq = s.seq
  ports : t.ports = s.ports
  epoch : t.epoch = s.epoch

/-- The ENC registers, the label counter and `frag_out_len` are as before. -/
structure SameEncSide (s t : State) : Prop where
  enc : t.enc = s.enc
  fragOutLen : t.fragOutLen = s.fragOutLen

/-- Size and owner of slot i, if it is provisioned. -/
def State.slotEntry (s : State) (i : Nat) : Option (Nat × Owner) :=
  (s.slots[i]?).map fun sl => (sl.size, sl.owner)

/-- The slot table (sizes and owners) is as before, but for the slots in `but`. -/
def SameSlotTable (but : List Nat) (s t : State) : Prop :=
  t.poolCount = s.poolCount ∧ ∀ i, i ∉ but → t.slotEntry i = s.slotEntry i

/-- The target table is as before, but for the targets in `but`. -/
def SameTargets (but : List Fid) (s t : State) : Prop :=
  ∀ f, f ∉ but → t.tgt f = s.tgt f

/-- The target table, the slot table and `transient_len` are as before. -/
structure SameDecSide (s t : State) : Prop where
  targets : SameTargets [] s t
  slots : SameSlotTable [] s t
  transientLen : t.transientLen = s.transientLen

/-- Every byte of every memory is as before. -/
def SameBytes (s t : State) : Prop :=
  ∀ sp a, t.readByte sp a = s.readByte sp a

/-- Every byte is as before but the `n` bytes from `a0` on of one memory. -/
def SameBytesBut (sp0 : Space) (a0 n : Nat) (s t : State) : Prop :=
  ∀ sp a, ¬ (sp = sp0 ∧ a0 ≤ a ∧ a < a0 + n) → t.readByte sp a = s.readByte sp a

/-- The state after an error without state effects: one event and the response (R281). -/
def State.raised (s : State) (u : LogUnit) (c : RespCode) (f : Fid) : State :=
  (s.addEvent u c f).setRsp { code := c, fid := f }

/-- What a command that emits the fragment `frag` leaves (R164, R167): the fragment stands in FRAG_OUT,
every other byte and everything outside ENC is as before; the ENC registers are said beside. -/
structure EmittedFragment (frag : List Byte) (s t : State) : Prop where
  fragment : t.fragment = frag
  fragOutLen : t.fragOutLen = frag.length
  bytes : SameBytesBut .fragOut 0 frag.length s t
  control : SameControl s t
  dec : SameDecSide s t
  log : t.log = s.log

/-- What a command of DEC or POOL leaves alone besides targets, slots and memories: the ENC side, the
configuration and the control registers, and LOG but for the events `es` appended. -/
structure SameBesides (es : List Event) (s t : State) : Prop where
  control : SameControl s t
  enc : SameEncSide s t
  log : t.log = s.log ++ es

/-- What `halt(cause)` leaves (R262), the event of a fatal cause and the response apart: no open context, all slots
Free, ENC Idle; the sizes, every byte, the label counter and the lengths as before. -/
structure HaltedBy (cause : RespCode) (s t : State) : Prop where
  run : t.run = .halted
  haltCause : t.haltCause = cause
  closed : ∀ f, (t.tgt f).state = .awaitingFirst
  idleTargets : ∀ f, (s.tgt f).state = .awaitingFirst → t.tgt f = s.tgt f
  count : t.poolCount = s.poolCount
  slots : ∀ i, t.slotEntry i = (s.slotEntry i).map fun e => (e.1, .free)
  enc : t.enc.state = .idle
  labelCtr : t.enc.labelCtr = s.enc.labelCtr
  fragOutLen : t.fragOutLen = s.fragOutLen
  transientLen : t.transientLen = s.transientLen
  bytes : SameBytes s t
  cfg : t.cfg = s.cfg

/-- Slot i is the one `pool_take` takes: Free, and no Free slot before it (R143). -/
def State.LeastFree (s : State) (i : Nat) (sl : Slot) : Prop :=
  s.slots[i]? = some sl ∧ sl.owner = .free ∧
    ∀ j sl', j < i → s.slots[j]? = some sl' → sl'.owner ≠ .free

/-! ### Terms of the statements -/

/-- The codes a command can respond (R97). -/
def allowedCodes : Instr → List RespCode
  | .provision _ => [.ok, .poolFull, .illegalCommand]
  | .acquire => [.ok, .poolExhausted, .illegalCommand]
  | .release _ => [.ok, .bufferInUse, .badHandle, .illegalCommand]
  | .nextLabel => [.ok, .illegalCommand]
  | .beginEncap _ _ _ _ _ =>
    [.completed, .fragmented, .pduTooLarge, .outputTooSmall, .encBusy, .illegalCommand]
  | .continueEncap _ => [.completed, .fragmented, .outputTooSmall, .encNoContext, .illegalCommand]
  | .pad _ => [.ok, .illegalCommand]
  | .decap _ =>
    [.completed, .fragmented, .poolExhausted, .crcMismatch, .malformed, .unknownContext, .illegalCommand]
  | .shutdown => [.ok]
  | .fragSingle _ _ _ => [.completed, .crcMismatch, .malformed, .illegalCommand]
  | .fragFirst _ _ _ => [.fragmented, .poolExhausted, .malformed, .illegalCommand]
  | .fragCont _ _ _ => [.fragmented, .malformed, .unknownContext, .illegalCommand]
  | .fragLast _ _ _ => [.completed, .crcMismatch, .malformed, .unknownContext, .illegalCommand]

/-- The unit a command belongs to (R92, R281). -/
def unitOf : Instr → LogUnit
  | .provision _ => .pool
  | .acquire => .pool
  | .release _ => .pool
  | .nextLabel => .enc
  | .beginEncap _ _ _ _ _ => .enc
  | .continueEncap _ => .enc
  | .pad _ => .seq
  | .decap _ => .dec
  | .shutdown => .seq
  | .fragSingle _ _ _ => .dec
  | .fragFirst _ _ _ => .dec
  | .fragCont _ _ _ => .dec
  | .fragLast _ _ _ => .dec

/-- The egress commands (R72). -/
def EgressCommand (i : Instr) : Prop :=
  i = .nextLabel ∨ (∃ fid proto len cap label, i = .beginEncap fid proto len cap label) ∨
    (∃ cap, i = .continueEncap cap) ∨ ∃ len, i = .pad len

/-- The ingress commands (R72), the fragment classes DECAP reaches among them. -/
def IngressCommand (i : Instr) : Prop :=
  (∃ size, i = .provision size) ∨ i = .acquire ∨ (∃ h, i = .release h) ∨ (∃ n, i = .decap n) ∨
    i.format = .frag

/-- DECAP and the four fragment classes. -/
def DecCommand (i : Instr) : Prop :=
  (∃ n, i = .decap n) ∨ i.format = .frag

/-- The edges of a slot's owner, each with the commands that take it (R141). -/
def ownerEdge (i : Instr) (before after : Owner) : Prop :=
  match before, after with
  | .free, .held => i = .acquire
  | .free, .ctx _ => (∃ n, i = .decap n) ∨ ∃ lt len body, i = .fragFirst lt len body
  | .ctx _, .held => (∃ n, i = .decap n) ∨ ∃ lt len body, i = .fragLast lt len body
  | .ctx _, .free => DecCommand i ∨ i = .shutdown
  | .held, .free => (∃ h, i = .release h) ∨ i = .shutdown
  | .free, .free => True
  | .held, .held => True
  | .ctx f, .ctx g => f = g
  | .held, .ctx _ => False

/-- An owner that is a context (R147). -/
def Owner.isCtx : Owner → Bool
  | .ctx _ => true
  | .free => false
  | .held => false

/-- Whether a fragment is of the class of an instruction's row (R101). -/
def carries : Instr → Frag → Bool
  | .fragSingle _ _ _, .single _ _ _ _ _ => true
  | .fragFirst _ _ _, .first _ _ _ _ => true
  | .fragCont _ _ _, .cont _ _ _ => true
  | .fragLast _ _ _, .last _ _ _ _ => true
  | _, _ => false

/-- Instruction `i` brings the fragment `fr` to DEC (`none`: a datagram that does not decode): it is a
DECAP of such a datagram in DGRAM_IN (R192), or the fragment's own row (log 9). -/
def Arrives (i : Instr) (s : State) (fr : Option Frag) : Prop :=
  (∃ n : Word32, i = .decap n ∧ n.toNat ≤ Config.maxPdu ∧
      s.codec.decode (s.readBytes .dgramIn 0 n.toNat) = fr) ∨
    (i.format = .frag ∧ (s.codec.decode (encode i)).filter (carries i) = fr)

/-- The bytes of a request record that the command with opcode `op` uses besides the opcode (R92, R93). -/
def usedOffsets (lw : Nat) (op : Byte) : List Nat :=
  if op = 0x11 then [1, 2, 3, 4, 5, 6, 7, 8, 9, 10, 11] ++ List.range' 12 lw
  else if op = 0x12 then [8, 9, 10, 11]
  else if op = 0x01 ∨ op = 0x03 ∨ op = 0x13 ∨ op = 0x20 then [4, 5, 6, 7]
  else []

/-- CONTINUE_ENCAP with one capacity after another; `none` when a command does not answer. -/
def continueAll : List Word32 → State → Option State
  | [], s => some s
  | cap :: caps, s =>
    match exec (.continueEncap cap) s with
    | .next t => continueAll caps t
    | .fault _ => none
    | .refused _ => none

/-- CONTINUE_ENCAP with one capacity until ENC answers anything but FRAGMENTED, at most `fuel` times: the
fragments emitted, and the last code. -/
def continueToEnd (cap : Word32) : Nat → State → Option (List (List Byte) × RespCode)
  | 0, _ => none
  | fuel + 1, s =>
    match exec (.continueEncap cap) s with
    | .next t =>
      match t.rsp.code with
      | .completed => some ([t.fragment], .completed)
      | .fragmented => (continueToEnd cap fuel t).map fun (fs, code) => (t.fragment :: fs, code)
      | code => some ([], code)
    | .fault _ => none
    | .refused _ => none

/-- The fragments ENC emits of one PDU of PDU_IN, every command given the same capacity, and the last code:
COMPLETED, or the error that ended the PDU. -/
def encapsulate (fid : Fid) (proto : Proto) (len cap : Word32) (label : LabelField) (s : State) :
    Option (List (List Byte) × RespCode) :=
  match exec (.beginEncap fid proto len cap label) s with
  | .next t =>
    match t.rsp.code with
    | .completed => some ([t.fragment], .completed)
    | .fragmented =>
      (continueToEnd cap (len.toNat + 1) t).map fun (fs, code) => (t.fragment :: fs, code)
    | code => some ([], code)
  | .fault _ => none
  | .refused _ => none

/-- A datagram put into DGRAM_IN and given to DECAP. -/
def receive (d : List Byte) (s : State) : Res :=
  exec (.decap (BitVec.ofNat 32 d.length)) (s.setMem .dgramIn (s.dgramIn.write 0 d))

/-- Datagrams received one after the other: the codes of the responses and the state after. -/
def receiveAll : List (List Byte) → State → Option (List RespCode × State)
  | [], s => some ([], s)
  | d :: ds, s =>
    match receive d s with
    | .next t => (receiveAll ds t).map fun (codes, u) => (t.rsp.code :: codes, u)
    | .fault _ => none
    | .refused _ => none

/-- The bytes IF_RECV hands over for a frame (R250): the frame, or, where it is longer than the read
bound, what the device makes of it (U17; log 14). -/
def frameBytes (bound : Nat) (frame : List Byte) : List Byte :=
  if frame.length ≤ bound then frame else (Config.overlongFrame bound frame).take bound

/-- `n` turns of the egress direction; `none` when a turn does not answer (R258). -/
def egressTurns : Nat → State → Option State
  | 0, s => some s
  | n + 1, s =>
    match egressTurn s with
    | .next t => egressTurns n t
    | .fault _ => none
    | .refused _ => none

/-- What SOCK_SEND is given for the fragment `d`: zero-padded to the fixed length if one is configured
(R256, R257). -/
def paddedFragment (cfg : Cfg) (d : List Byte) : List Byte :=
  padTo cfg.pEgress.toNat d

end Sys2Proof.Machine
end

