-- ==== Sys2Proof/Certificates/Slice0/Obligations.lean ====
section
/-! DEFINITION. The statements about this machine that the provers are asked to prove. -/

open Sys2Proof Sys2Proof.Machine

/-! ### Encodings -/

/-- R93, R111: no bit of an encoding is dropped. Every instruction, well formed or not, with every operand
at every value, decodes from its own bytes. -/
def Obligations.DecodeOfEncodeIsTheInstruction : Prop :=
  ∀ i : Instr, decodeAs i.format (encode i) = .ok i

/-- R102, R104: every encoder is defined within its limits, its result has the length of R102, and the
decoder finds the fragment again whatever bytes follow it. -/
def Obligations.FragmentRoundTripWithPadding : Prop :=
  ∀ (lw : Nat) (fid : Fid) (proto : Proto) (label : Label) (p : List Byte) (crc : Crc),
    Cfg.lwLegal lw → label.length = lw →
    ((refCodec lw).hSingle + p.length + 4 ≤ (refCodec lw).maxFrag →
      ∃ d, refEncodeSingle lw fid proto label p crc = some d ∧
        d.length = (refCodec lw).hSingle + p.length + 4 ∧
        ∀ t, refDecode lw (d ++ t) = some (.single fid proto label p crc)) ∧
    ((refCodec lw).hFirst + p.length ≤ (refCodec lw).maxFrag →
      ∃ d, refEncodeFirst lw fid proto label p = some d ∧
        d.length = (refCodec lw).hFirst + p.length ∧
        ∀ t, refDecode lw (d ++ t) = some (.first fid proto label p)) ∧
    ((refCodec lw).hCont + p.length ≤ (refCodec lw).maxFrag →
      ∃ d, refEncodeCont lw fid label p = some d ∧
        d.length = (refCodec lw).hCont + p.length ∧
        ∀ t, refDecode lw (d ++ t) = some (.cont fid label p)) ∧
    ((refCodec lw).hCont + p.length + 4 ≤ (refCodec lw).maxFrag →
      ∃ d, refEncodeLast lw fid label p crc = some d ∧
        d.length = (refCodec lw).hCont + p.length + 4 ∧
        ∀ t, refDecode lw (d ++ t) = some (.last fid label p crc))

/-- R121: pure padding and the empty datagram are Malformed; what decodes has an end of its own, before
which every cut is Malformed and after which all bytes are ignored. -/
def Obligations.PaddingCutsAndTails : Prop :=
  ∀ lw : Nat, Cfg.lwLegal lw →
    (∀ n, refDecode lw (zeros n) = none) ∧ refDecode lw [] = none ∧
    ∀ d fr, refDecode lw d = some fr →
      ∃ e, 2 ≤ e ∧ e ≤ d.length ∧ (∀ k, k < e → refDecode lw (d.take k) = none) ∧
        ∀ t, refDecode lw (d.take e ++ t) = some fr

/-- R113: the decoder refuses a label type other than the configured width's, the reserved one among
them, and every encoder writes the configured one. -/
def Obligations.LabelTypeIsTheConfiguredOne : Prop :=
  ∀ lw : Nat, Cfg.lwLegal lw →
    (∀ b0 rest, widthOfLabelType (b0.extractLsb' 4 2) ≠ some lw → refDecode lw (b0 :: rest) = none) ∧
    (widthOfLabelType 0b00 = some 6 ∧ widthOfLabelType 0b01 = some 3 ∧ widthOfLabelType 0b10 = some 0 ∧
      widthOfLabelType 0b11 = none) ∧
    ∀ (fid : Fid) (proto : Proto) (label : Label) (p : List Byte) (crc : Crc) (d : List Byte),
      (refEncodeSingle lw fid proto label p crc = some d ∨ refEncodeFirst lw fid proto label p = some d ∨
        refEncodeCont lw fid label p = some d ∨ refEncodeLast lw fid label p crc = some d) →
      widthOfLabelType ((byteAt d 0).extractLsb' 4 2) = some lw

/-- R93: two request records that agree in the opcode and in the bytes its command uses have the same
effect; the unused fields, the unused label bytes and the reserved bytes are ignored. -/
def Obligations.UnusedRequestBytesAreIgnored : Prop :=
  ∀ (r r' : Vector Byte 20) (s : State), Cfg.lwLegal s.cfg.lw → r[0] = r'[0] →
    (∀ k ∈ usedOffsets s.cfg.lw r[0], r[k]? = r'[k]?) → runRequest r s = runRequest r' s

/-- R92, R93, R124: words written out from the spec's encodings decode to what they stand for. -/
def Obligations.SpecWordsDecode : Prop :=
  decodeRequest [0x11, 0x01, 0x12, 0x34, 0, 0, 0, 30, 0, 0, 0, 20, 0, 0, 1, 0, 0, 0, 0, 0] =
      .ok (.beginEncap 0x01 0x1234 30 20 0x000001000000) ∧
    decodeRequest [0x20, 0, 0, 0, 0, 0, 0, 14, 0, 0, 0, 0, 0, 0, 0, 0, 0, 0, 0, 0] = .ok (.decap 14) ∧
    decodeRequest [0x03, 0, 0, 0, 0, 0, 0xFF, 0xFF, 0, 0, 0, 0, 0, 0, 0, 0, 0, 0, 0, 0] =
      .ok (.release 0xFFFF) ∧
    refDecode 3 [0xD0, 0x0C, 0x07, 0x08, 0x00, 0xA1, 0xB2, 0xC3, 0xDE, 0xAD, 0x7C, 0x50, 0x67, 0x93] =
      some (.single 0x07 0x0800 [0xA1, 0xB2, 0xC3] [0xDE, 0xAD] 0x7C506793) ∧
    refDecode 3 [0x90, 0x08, 0x07, 0x08, 0x00, 0xA1, 0xB2, 0xC3, 0xDE, 0xAD] =
      some (.first 0x07 0x0800 [0xA1, 0xB2, 0xC3] [0xDE, 0xAD]) ∧
    refDecode 3 [0x10, 0x06, 0x07, 0xA1, 0xB2, 0xC3, 0xDE, 0xAD] =
      some (.cont 0x07 [0xA1, 0xB2, 0xC3] [0xDE, 0xAD]) ∧
    refDecode 3 [0x50, 0x0A, 0x07, 0xA1, 0xB2, 0xC3, 0xDE, 0xAD, 0x11, 0x22, 0x33, 0x44] =
      some (.last 0x07 [0xA1, 0xB2, 0xC3] [0xDE, 0xAD] 0x11223344) ∧
    refDecode 0 [0x20, 0x03, 0x07, 0xDE, 0xAD] = some (.cont 0x07 [] [0xDE, 0xAD]) ∧
    refDecode 6 [0x80, 0x0B, 0x07, 0x08, 0x00, 1, 2, 3, 4, 5, 6, 0xDE, 0xAD] =
      some (.first 0x07 0x0800 [1, 2, 3, 4, 5, 6] [0xDE, 0xAD])

/-! ### Commands in general -/

/-- A step whose next happening is a request runs the command its record decodes to (log 10); a record
that is no command responds ILLEGAL_COMMAND with no effect (R95). -/
def Obligations.StepRunsTheDecodedRequest : Prop :=
  ∀ (s : State) (record : Vector Byte 20) (rest : List Input),
    s.ports.inputs = .request record :: rest →
    (∀ i, decodeRequest record.toList = .ok i → step s = exec i (s.takeInput rest)) ∧
    ((∀ i, decodeRequest record.toList ≠ .ok i) →
      step s = .next ((s.takeInput rest).setRsp { code := .illegalCommand }))

/-- R192: DECAP runs the fragment row its datagram decodes to, read from DGRAM_IN (log 9): with REFCODEC,
and with every codec that takes the datagram for a fragment of the row's class. -/
def Obligations.DecapRunsTheFragmentInstruction : Prop :=
  ∀ (n : Word32) (s : State) (i : Instr), s.run = .running → n.toNat ≤ Config.maxPdu →
    let d := s.readBytes .dgramIn 0 n.toNat
    decodeDatagram d = .ok i →
    (s.cfg.codec = .refcodec ∨ ∀ fr, s.codec.decode d = some fr → carries i fr = true) →
    exec (.decap n) s = exec i s

/-- R95: an opcode outside the command set, and a DECAP or PAD length above 65535, respond
ILLEGAL_COMMAND and change nothing; while Running no other operand value does. -/
def Obligations.ReservedAndOutOfRangeRequests : Prop :=
  (∀ (r : Vector Byte 20) (s : State), r[0] ∉ opcodes →
      runRequest r s = .next (s.setRsp { code := .illegalCommand })) ∧
    (∀ (n : Word32) (s : State), Config.maxPdu < n.toNat →
      exec (.decap n) s = .next (s.setRsp { code := .illegalCommand }) ∧
      exec (.pad n) s = .next (s.setRsp { code := .illegalCommand })) ∧
    ∀ (i : Instr) (s t : State), s.run = .running → exec i s = .next t →
      t.rsp.code = .illegalCommand → ∃ n : Word32, Config.maxPdu < n.toNat ∧ (i = .decap n ∨ i = .pad n)

/-- R94: while Halted every command but SHUTDOWN responds ILLEGAL_COMMAND with no effect, and SHUTDOWN
responds OK with no effect. -/
def Obligations.HaltedRefusesAllButShutdown : Prop :=
  ∀ (i : Instr) (s : State), s.run = .halted →
    (i ≠ .shutdown → exec i s = .next (s.setRsp { code := .illegalCommand })) ∧
    exec .shutdown s = .next (s.setRsp { code := .ok })

/-- R97, R213: a command responds only codes the table names it for; STALE_CONTEXT is never one. -/
def Obligations.ResponseCodesByCommand : Prop :=
  ∀ (i : Instr) (s t : State), exec i s = .next t →
    t.rsp.code ∈ allowedCodes i ∧ t.rsp.code ≠ .staleContext

/-- R281, R297, R299: an error response holds the code and the fragment-id alone, and exactly one event
with both was appended by the command's unit, after at most one CONTEXT_RESTARTED of DEC;
ILLEGAL_COMMAND has neither event nor effect; a response that is no error appends at most that one
CONTEXT_RESTARTED. -/
def Obligations.ErrorsAnswerCodeAndOneEvent : Prop :=
  ∀ (i : Instr) (s t : State), exec i s = .next t →
    (t.rsp.code = .illegalCommand → t = s.setRsp { code := .illegalCommand }) ∧
    ∃ f es, (es = [] ∨ (DecCommand i ∧ es = [⟨.dec, .contextRestarted, f⟩])) ∧
      (t.rsp.code.isError = false → t.log = s.log ++ es) ∧
      (t.rsp.code.isError = true → t.rsp.code ≠ .illegalCommand →
        t.rsp = { code := t.rsp.code, fid := f } ∧ t.log = s.log ++ es ++ [⟨unitOf i, t.rsp.code, f⟩])

/-- R52, R299: LOG is append-only but for reset, and a step appends at most two events. -/
def Obligations.LogOnlyGrows : Prop :=
  ∀ s t : State, step s = .next t → (∀ cfg rest, s.ports.inputs ≠ .reset cfg :: rest) →
    ∃ es, t.log = s.log ++ es ∧ es.length ≤ 2

/-- R45, R47, R51: no command writes the configuration, PDU_IN or DGRAM_IN. SEQ's place, the port
queues and the reset counter are the model's own; that no command touches them is its choice (log 8, log 12,
log 13, log 26, beside R72 and R262, which do not list them). -/
def Obligations.CommandsLeaveInputsAndConfiguration : Prop :=
  ∀ (i : Instr) (s t : State), exec i s = .next t →
    t.cfg = s.cfg ∧ t.pduIn = s.pduIn ∧ t.dgramIn = s.dgramIn ∧ t.seq = s.seq ∧ t.ports = s.ports ∧
      t.epoch = s.epoch

/-- R21, R262: nothing but reset leaves Halted or changes its cause, and no port primitive is called
while Halted. -/
def Obligations.OnlyResetLeavesHalted : Prop :=
  ∀ s t : State, s.run = .halted → step s = .next t →
    (∀ cfg rest, s.ports.inputs ≠ .reset cfg :: rest) →
    t.run = .halted ∧ t.haltCause = s.haltCause ∧ t.ports = { s.ports with inputs := s.ports.inputs.tail }

/-! ### Reset -/

/-- R321: the state after reset with a legal configuration, in every element the rule gives a value. -/
def Obligations.LegalResetState : Prop :=
  ∀ (cfg : Cfg) (epoch : Nat) (req : Bool) (ports : Ports), cfg.Legal →
    let s := State.resetWith cfg epoch req ports
    s.run = .running ∧ s.haltCause = .ok ∧ s.log = [] ∧ s.enc.state = .idle ∧ s.enc.labelCtr = 0 ∧
      s.fragOutLen = 0 ∧ (∀ f, (s.tgt f).state = .awaitingFirst) ∧ s.transientLen = 0 ∧
      s.poolCount = 0 ∧ s.cfg = cfg

/-- R298, R322: reset with an illegal configuration leaves the engine Halted with SETUP_ERROR and its
one event, everything else as after any reset. -/
def Obligations.IllegalConfigurationHalts : Prop :=
  ∀ (cfg : Cfg) (epoch : Nat) (req : Bool) (ports : Ports), ¬ cfg.Legal →
    let s := State.resetWith cfg epoch req ports
    s.run = .halted ∧ s.haltCause = .setupError ∧ s.log = [⟨.seq, .setupError, 0⟩] ∧
      s.enc.state = .idle ∧ s.enc.labelCtr = 0 ∧ s.fragOutLen = 0 ∧
      (∀ f, (s.tgt f).state = .awaitingFirst) ∧ s.transientLen = 0 ∧ s.poolCount = 0 ∧ s.cfg = cfg

/-- R323: a reset input is taken in every state, Halted or not, and leaves nothing of the state before
but the outside (log 16). -/
def Obligations.ResetInputAtAnyTime : Prop :=
  ∀ (s : State) (cfg : Cfg) (rest : List Input), s.ports.inputs = .reset cfg :: rest →
    step s = .next (State.resetWith cfg (s.epoch + 1) s.seq.shutdownReq { s.ports with inputs := rest })

/-! ### The invariant -/

/-- The invariant holds after reset with any configuration, legal or not, when the codec of a legal one
meets the laws and what the outside is going to bring is in range. -/
def Obligations.ResetMeetsInvariant : Prop :=
  (∀ (cfg : Cfg) (epoch : Nat) (req : Bool) (ports : Ports), (cfg.Legal → CodecOk cfg) →
      (∀ x ∈ ports.inputs, x.InRange) → Inv (State.resetWith cfg epoch req ports)) ∧
    Inv State.reset

/-- R44, R26, R66, R206, R237 and more, from every state that meets the invariant: a step answers, and
the state after meets it too. No fault is reachable. -/
def Obligations.EveryStepKeepsTheInvariant : Prop :=
  ∀ s : State, Inv s → ∃ t, step s = .next t ∧ Inv t

/-- R214, R340: a run of any number of steps goes on, whatever the outside brings in range. -/
def Obligations.EveryRunGoesOn : Prop :=
  ∀ (n : Nat) (s : State), Inv s → ∃ t : State, Sys2Proof.core.run n s = .next t ∧ Inv t

/-! ### POOL -/

/-- R142: PROVISION registers the next slot, Free, of the size given, or is POOL_FULL with no effect
when the capacity is met. -/
def Obligations.ProvisionRegistersTheNextSlot : Prop :=
  ∀ (size : Word32) (s : State), s.run = .running →
    (s.poolCount = s.cfg.n → exec (.provision size) s = .next (s.raised .pool .poolFull 0)) ∧
    (s.poolCount ≠ s.cfg.n →
      ∃ t, exec (.provision size) s = .next t ∧
        t.rsp = { code := .ok, handle := BitVec.ofNat 16 s.poolCount, len := size } ∧
        t.poolCount = s.poolCount + 1 ∧ t.slotEntry s.poolCount = some (size.toNat, .free) ∧
        (∀ i, i ≠ s.poolCount → t.slotEntry i = s.slotEntry i) ∧ SameBesides [] s t ∧
        SameTargets [] s t ∧ t.transientLen = s.transientLen ∧
        ∀ sp a, sp ≠ .slot s.poolCount → t.readByte sp a = s.readByte sp a)

/-- R143, R144: ACQUIRE makes the least Free slot Held, or is POOL_EXHAUSTED with no effect when no slot
is Free. -/
def Obligations.AcquireTakesTheLeastFreeSlot : Prop :=
  ∀ s : State, s.run = .running →
    ((∀ sl ∈ s.slots, sl.owner ≠ .free) → exec .acquire s = .next (s.raised .pool .poolExhausted 0)) ∧
    ∀ i sl, s.LeastFree i sl →
      ∃ t, exec .acquire s = .next t ∧
        t.rsp = { code := .ok, handle := BitVec.ofNat 16 i, len := BitVec.ofNat 32 sl.size } ∧
        t.slotEntry i = some (sl.size, .held) ∧ SameSlotTable [i] s t ∧ SameBesides [] s t ∧
        SameTargets [] s t ∧ t.transientLen = s.transientLen ∧ SameBytes s t

/-- R145, R146: RELEASE frees a Held slot and nothing else; a handle of no slot, a slot of an open
context and a Free slot are refused with no effect, in that order. -/
def Obligations.ReleaseFreesHeldSlotsOnly : Prop :=
  ∀ (h : Word32) (s : State), s.run = .running →
    (s.poolCount ≤ h.toNat → exec (.release h) s = .next (s.raised .pool .badHandle 0)) ∧
    ∀ sl, s.slots[h.toNat]? = some sl →
      (∀ f, sl.owner = .ctx f → exec (.release h) s = .next (s.raised .pool .bufferInUse f)) ∧
      (sl.owner = .free → exec (.release h) s = .next (s.raised .pool .badHandle 0)) ∧
      (sl.owner = .held →
        ∃ t, exec (.release h) s = .next t ∧
          t.rsp = { code := .ok, handle := BitVec.ofNat 16 h.toNat } ∧
          t.slotEntry h.toNat = some (sl.size, .free) ∧ SameSlotTable [h.toNat] s t ∧
          SameBesides [] s t ∧ SameTargets [] s t ∧ t.transientLen = s.transientLen ∧ SameBytes s t)

/-- R41, R141: a provisioned slot is never removed, keeps its size, and its owner moves only along the
edges of R141, each by the commands named there. -/
def Obligations.OwnersMoveAlongTheEdges : Prop :=
  ∀ (i : Instr) (s t : State), Inv s → exec i s = .next t →
    ∀ (k : Nat) (sl : Slot), s.slots[k]? = some sl →
      ∃ sl' : Slot, t.slots[k]? = some sl' ∧ sl'.size = sl.size ∧ ownerEdge i sl.owner sl'.owner

/-- R147: as many slots are owned by contexts as targets are Reassembling; taking a slot succeeds
exactly when one is Free; with every slot owned by a context, a FIRST fragment for another target is
POOL_EXHAUSTED with no effect. -/
def Obligations.CountingLaw : Prop :=
  ∀ s : State, Inv s →
    (s.slots.countP fun sl => sl.owner.isCtx) =
        (s.tgts.toList.countP fun t => decide (t.state = .reassembling)) ∧
      (∀ o, (s.poolTake o).isSome = true ↔ ∃ sl ∈ s.slots, sl.owner = .free) ∧
      ∀ i f proto label p, s.run = .running → Arrives i s (some (.first f proto label p)) →
        (∀ sl ∈ s.slots, sl.owner.isCtx = true) → (s.tgt f).state = .awaitingFirst →
        exec i s = .next (s.raised .dec .poolExhausted f)

/-! ### ENC -/

/-- R30, R162: NEXT_LABEL responds the label counter spelled big-endian in LW bytes and advances it,
wrapping at its 8·LW bits. -/
def Obligations.NextLabelCountsAndWraps : Prop :=
  ∀ s : State, s.run = .running → Cfg.lwLegal s.cfg.lw →
    ∃ t, exec .nextLabel s = .next t ∧
      t.rsp = { code := .ok, label := fieldOfLabel (beBytes s.cfg.lw s.enc.labelCtr) } ∧
      labelOfField s.cfg.lw t.rsp.label = beBytes s.cfg.lw s.enc.labelCtr ∧
      t.enc = { s.enc with labelCtr := (s.enc.labelCtr + 1) % 2 ^ (8 * s.cfg.lw) } ∧
      t.fragOutLen = s.fragOutLen ∧ t.log = s.log ∧ SameControl s t ∧ SameDecSide s t ∧ SameBytes s t

/-- R165: a PDU that fits the single-fragment capacity is emitted as one SINGLE fragment with its CRC;
ENC stays Idle. The fragment is the codec's. -/
def Obligations.BeginEncapEmitsSingle : Prop :=
  ∀ (fid : Fid) (proto : Proto) (len cap : Word32) (label : LabelField) (s : State),
    s.run = .running → Cfg.lwLegal s.cfg.lw → CodecOk s.cfg → s.enc.state = .idle →
    (len.toNat : Int) ≤ singleCap cap.toNat s.codec.maxFrag s.codec.hSingle →
    let p := s.readBytes .pduIn 0 len.toNat
    ∃ t frag, exec (.beginEncap fid proto len cap label) s = .next t ∧
      s.codec.encodeSingle fid proto (labelOfField s.cfg.lw label) p
          (s.codec.crcFinal (s.codec.crcUpdate s.codec.crcInit p)) = some frag ∧
      frag.length = s.codec.hSingle + len.toNat + 4 ∧ EmittedFragment frag s t ∧ t.enc = s.enc ∧
      t.rsp = { code := .completed, fid := fid, len := BitVec.ofNat 32 frag.length }

/-- R24 to R28, R166: a PDU that does not fit opens a context with a FIRST fragment of
min(L, firstCap) bytes and no trailer. The fragment is the codec's. -/
def Obligations.BeginEncapOpensWithFirst : Prop :=
  ∀ (fid : Fid) (proto : Proto) (len cap : Word32) (label : LabelField) (s : State),
    s.run = .running → Cfg.lwLegal s.cfg.lw → CodecOk s.cfg → s.enc.state = .idle →
    1 ≤ len.toNat → len.toNat ≤ Config.maxPdu →
    singleCap cap.toNat s.codec.maxFrag s.codec.hSingle < (len.toNat : Int) →
    1 ≤ firstCap cap.toNat s.codec.maxFrag s.codec.hFirst →
    let k := min len.toNat (firstCap cap.toNat s.codec.maxFrag s.codec.hFirst).toNat
    let p := s.readBytes .pduIn 0 k
    ∃ t frag, exec (.beginEncap fid proto len cap label) s = .next t ∧
      s.codec.encodeFirst fid proto (labelOfField s.cfg.lw label) p = some frag ∧
      frag.length = s.codec.hFirst + k ∧ EmittedFragment frag s t ∧
      t.enc = { s.enc with
        state := .fragmenting, total := len.toNat, offset := k,
        crc := s.codec.crcUpdate s.codec.crcInit p,
        label := labelOfField s.cfg.lw label, proto := proto, fid := fid } ∧
      t.rsp = { code := .fragmented, fid := fid, len := BitVec.ofNat 32 frag.length }

/-- R161, R164, R289, R291: BEGIN_ENCAP is refused with no effect while a context is open, for a PDU
above 65535 bytes, and where no fragment fits, in this order. -/
def Obligations.BeginEncapRefusals : Prop :=
  ∀ (fid : Fid) (proto : Proto) (len cap : Word32) (label : LabelField) (s : State), s.run = .running →
    (s.enc.state = .fragmenting →
      exec (.beginEncap fid proto len cap label) s = .next (s.raised .enc .encBusy s.enc.fid)) ∧
    (s.enc.state = .idle → Config.maxPdu < len.toNat →
      exec (.beginEncap fid proto len cap label) s = .next (s.raised .enc .pduTooLarge fid)) ∧
    (s.enc.state = .idle → len.toNat ≤ Config.maxPdu →
      singleCap cap.toNat s.codec.maxFrag s.codec.hSingle < (len.toNat : Int) →
      (len.toNat = 0 ∨ firstCap cap.toNat s.codec.maxFrag s.codec.hFirst < 1) →
      exec (.beginEncap fid proto len cap label) s = .next (s.raised .enc .outputTooSmall fid))

/-- R168, R169: when the rest of the PDU fits, CONTINUE_ENCAP emits it as a LAST fragment with the CRC
run over the whole PDU, and ENC goes to Idle. The fragment is the codec's. -/
def Obligations.ContinueEncapEmitsLast : Prop :=
  ∀ (cap : Word32) (s : State), s.run = .running → Cfg.lwLegal s.cfg.lw → CodecOk s.cfg →
    EncInv s → s.enc.state = .fragmenting →
    ((s.enc.total - s.enc.offset : Nat) : Int) ≤ contCap cap.toNat s.codec.maxFrag s.codec.hCont →
    let p := s.readBytes .pduIn s.enc.offset (s.enc.total - s.enc.offset)
    ∃ t frag, exec (.continueEncap cap) s = .next t ∧
      s.codec.encodeLast s.enc.fid s.enc.label p
          (s.codec.crcFinal (s.codec.crcUpdate s.enc.crc p)) = some frag ∧
      frag.length = s.codec.hCont + (s.enc.total - s.enc.offset) + 4 ∧ EmittedFragment frag s t ∧
      t.enc.state = .idle ∧ t.enc.labelCtr = s.enc.labelCtr ∧
      t.rsp = { code := .completed, fid := s.enc.fid, len := BitVec.ofNat 32 frag.length }

/-- R168, R170: when more remains than fits, CONTINUE_ENCAP emits exactly contCap bytes as a CONT
fragment; accumulator and offset advance. The fragment is the codec's. -/
def Obligations.ContinueEncapEmitsCont : Prop :=
  ∀ (cap : Word32) (s : State), s.run = .running → Cfg.lwLegal s.cfg.lw → CodecOk s.cfg →
    EncInv s → s.enc.state = .fragmenting → 1 ≤ contCap cap.toNat s.codec.maxFrag s.codec.hCont →
    contCap cap.toNat s.codec.maxFrag s.codec.hCont < ((s.enc.total - s.enc.offset : Nat) : Int) →
    let k := (contCap cap.toNat s.codec.maxFrag s.codec.hCont).toNat
    let p := s.readBytes .pduIn s.enc.offset k
    ∃ t frag, exec (.continueEncap cap) s = .next t ∧
      s.codec.encodeCont s.enc.fid s.enc.label p = some frag ∧
      frag.length = s.codec.hCont + k ∧ EmittedFragment frag s t ∧
      t.enc = { s.enc with crc := s.codec.crcUpdate s.enc.crc p, offset := s.enc.offset + k } ∧
      t.rsp = { code := .fragmented, fid := s.enc.fid, len := BitVec.ofNat 32 frag.length }

/-- R171, R292: with no open context CONTINUE_ENCAP is ENC_NO_CONTEXT with no effect; where no fragment
fits it is OUTPUT_TOO_SMALL and closes the context, leaving FRAG_OUT as it was. -/
def Obligations.ContinueEncapRefusals : Prop :=
  ∀ (cap : Word32) (s : State), s.run = .running →
    (s.enc.state = .idle →
      exec (.continueEncap cap) s = .next (s.raised .enc .encNoContext 0)) ∧
    (s.enc.state = .fragmenting →
      (contCap cap.toNat s.codec.maxFrag s.codec.hCont < 0 ∨
        contCap cap.toNat s.codec.maxFrag s.codec.hCont = 0 ∧ s.enc.offset < s.enc.total) →
      ∃ t, exec (.continueEncap cap) s = .next t ∧
        t.rsp = { code := .outputTooSmall, fid := s.enc.fid } ∧
        t.log = s.log ++ [⟨.enc, .outputTooSmall, s.enc.fid⟩] ∧ t.enc.state = .idle ∧
        t.enc.labelCtr = s.enc.labelCtr ∧ t.fragOutLen = s.fragOutLen ∧ SameControl s t ∧
        SameDecSide s t ∧ SameBytes s t)

/-- R172: OUTPUT_TOO_SMALL in exactly the cases of the rule, and never from an effective capacity of
H_CONT + 5 on once a sequence has begun. -/
def Obligations.OutputTooSmallExactly : Prop :=
  ∀ s : State, s.run = .running →
    (∀ fid proto len cap label,
      (∃ t, exec (.beginEncap fid proto len cap label) s = .next t ∧ t.rsp.code = .outputTooSmall) ↔
        s.enc.state = .idle ∧ len.toNat ≤ Config.maxPdu ∧
          singleCap cap.toNat s.codec.maxFrag s.codec.hSingle < (len.toNat : Int) ∧
          (len.toNat = 0 ∨ effectiveCap cap.toNat s.codec.maxFrag < s.codec.hFirst + 1)) ∧
    (∀ cap,
      (∃ t, exec (.continueEncap cap) s = .next t ∧ t.rsp.code = .outputTooSmall) ↔
        s.enc.state = .fragmenting ∧
          (effectiveCap cap.toNat s.codec.maxFrag < s.codec.hCont + 4 ∨
            effectiveCap cap.toNat s.codec.maxFrag = s.codec.hCont + 4 ∧ s.enc.offset < s.enc.total)) ∧
    ∀ cap t, s.codec.hCont + 5 ≤ effectiveCap cap.toNat s.codec.maxFrag →
      exec (.continueEncap cap) s = .next t → t.rsp.code ≠ .outputTooSmall

/-- R163, R176: no fragment ENC emits is longer than the capacity of its command or than the codec can
express, and a CONT fragment is 4 bytes shorter. -/
def Obligations.FragmentsKeepTheCapacity : Prop :=
  ∀ s : State, s.run = .running → Cfg.lwLegal s.cfg.lw → CodecOk s.cfg → EncInv s →
    (∀ fid proto len cap label t, exec (.beginEncap fid proto len cap label) s = .next t →
      t.rsp.code.isError = false → t.fragment.length ≤ effectiveCap cap.toNat s.codec.maxFrag) ∧
    ∀ cap t, exec (.continueEncap cap) s = .next t → t.rsp.code.isError = false →
      t.fragment.length ≤ effectiveCap cap.toNat s.codec.maxFrag ∧
      (t.rsp.code = .fragmented → t.fragment.length + 4 = effectiveCap cap.toNat s.codec.maxFrag)

/-- R340: the fragmentation of a PDU of L bytes has ended after L CONTINUE_ENCAP commands at the latest,
whatever capacities they are given. -/
def Obligations.FragmentationEnds : Prop :=
  ∀ (fid : Fid) (proto : Proto) (len cap : Word32) (label : LabelField) (s : State),
    s.run = .running → Cfg.lwLegal s.cfg.lw → CodecOk s.cfg → s.enc.state = .idle →
    ∃ t, exec (.beginEncap fid proto len cap label) s = .next t ∧
      ∀ caps : List Word32, len.toNat ≤ caps.length →
        ∃ u, continueAll caps t = some u ∧ u.enc.state = .idle

/-- R174, R326: with one capacity throughout, the count of fragments of a PDU that is sent whole; a
capacity of H_CONT + 5 and H_FIRST + 1 bytes, for REFCODEC LW + 8, sends every PDU of 1 to 65535 bytes. -/
def Obligations.FragmentCount : Prop :=
  ∀ (fid : Fid) (proto : Proto) (len cap : Word32) (label : LabelField) (s : State),
    s.run = .running → Cfg.lwLegal s.cfg.lw → CodecOk s.cfg → s.enc.state = .idle →
    ((s.codec.hCont + 5 ≤ effectiveCap cap.toNat s.codec.maxFrag ∧
          s.codec.hFirst + 1 ≤ effectiveCap cap.toNat s.codec.maxFrag ∨
        s.cfg.codec = .refcodec ∧ s.cfg.lw + 8 ≤ cap.toNat) →
      1 ≤ len.toNat → len.toNat ≤ Config.maxPdu →
      ∃ frags, encapsulate fid proto len cap label s = some (frags, .completed)) ∧
    ∀ frags, encapsulate fid proto len cap label s = some (frags, .completed) →
      let sc := singleCap cap.toNat s.codec.maxFrag s.codec.hSingle
      let fc := (firstCap cap.toNat s.codec.maxFrag s.codec.hFirst).toNat
      let cc := (contCap cap.toNat s.codec.maxFrag s.codec.hCont).toNat
      ((len.toNat : Int) ≤ sc → frags.length = 1) ∧
      (sc < (len.toNat : Int) → frags.length = 1 + max 1 ((len.toNat - fc + cc - 1) / cc))

/-! ### DEC -/

/-- R194: a SINGLE fragment, by DECAP or as its own row: with the right trailer its payload is completed
in TRANSIENT, with another it is CRC_MISMATCH with no effect; a payload above 65535 bytes, which REFCODEC
cannot produce, is MALFORMED with no effect. -/
def Obligations.SingleCompletesInTransient : Prop :=
  ∀ (i : Instr) (s : State) (f : Fid) (proto : Proto) (label : Label) (p : List Byte) (crc : Crc),
    s.run = .running → Arrives i s (some (.single f proto label p crc)) →
    let sum := s.codec.crcFinal (s.codec.crcUpdate s.codec.crcInit p)
    (Config.maxPdu < p.length → exec i s = .next (s.raised .dec .malformed f)) ∧
    (p.length ≤ Config.maxPdu → sum ≠ crc → exec i s = .next (s.raised .dec .crcMismatch f)) ∧
    (p.length ≤ Config.maxPdu → sum = crc →
      ∃ t, exec i s = .next t ∧
        t.rsp = { code := .completed, fid := f, proto := proto, label := fieldOfLabel label,
                  len := BitVec.ofNat 32 p.length, handle := Config.transientHandle } ∧
        t.transientLen = p.length ∧ t.completedPdu t.rsp = p ∧ SameBesides [] s t ∧
        SameTargets [] s t ∧ SameSlotTable [] s t ∧ SameBytesBut .transient 0 p.length s t)

/-- R193: a datagram that does not decode is MALFORMED with fid 0 and changes nothing. That a fragment row
whose bytes are no fragment of its class does the same is the model's choice (log 9). -/
def Obligations.MalformedDatagramChangesNothing : Prop :=
  ∀ (i : Instr) (s : State), s.run = .running → Arrives i s none →
    exec i s = .next (s.raised .dec .malformed 0)

/-- R198: `discard(f)` frees the buffer and closes the context, and nothing else. -/
def Obligations.DiscardFreesAndCloses : Prop :=
  ∀ (s : State) (f : Fid) (sl : Slot), s.slots[(s.tgt f).slot]? = some sl →
    let t := s.discard f
    (t.tgt f).state = .awaitingFirst ∧ t.slotEntry (s.tgt f).slot = some (sl.size, .free) ∧
      SameTargets [f] s t ∧ SameSlotTable [(s.tgt f).slot] s t ∧ SameBesides [] s t ∧
      t.transientLen = s.transientLen ∧ t.rsp = s.rsp ∧ SameBytes s t

/-- R200, R204 to R206: a FIRST fragment for a target that awaits one opens a context in the least Free
slot, or is POOL_EXHAUSTED or MALFORMED with no effect. -/
def Obligations.FirstOpensAContext : Prop :=
  ∀ (i : Instr) (s : State) (f : Fid) (proto : Proto) (label : Label) (p : List Byte),
    s.run = .running → Arrives i s (some (.first f proto label p)) →
    (s.tgt f).state = .awaitingFirst →
    ((∀ sl ∈ s.slots, sl.owner ≠ .free) → exec i s = .next (s.raised .dec .poolExhausted f)) ∧
    ∀ k sl, s.LeastFree k sl →
      (min sl.size Config.maxPdu < p.length → exec i s = .next (s.raised .dec .malformed f)) ∧
      (p.length ≤ min sl.size Config.maxPdu →
        ∃ t, exec i s = .next t ∧
          t.rsp = { code := .fragmented, fid := f, len := BitVec.ofNat 32 p.length } ∧
          t.tgt f = { s.tgt f with
            state := .reassembling, slot := k, acc := p.length,
            crc := s.codec.crcUpdate s.codec.crcInit p, label := label, proto := proto } ∧
          t.slotEntry k = some (sl.size, .ctx f) ∧ t.readBytes (.slot k) 0 p.length = p ∧
          SameTargets [f] s t ∧ SameSlotTable [k] s t ∧ SameBesides [] s t ∧
          t.transientLen = s.transientLen ∧ SameBytesBut (.slot k) 0 p.length s t)

/-- R203, R299: a FIRST fragment for a target that is Reassembling discards the old context, logs
CONTEXT_RESTARTED, and is then treated as on an idle target; POOL_EXHAUSTED cannot follow. -/
def Obligations.FirstRestartsAnOpenContext : Prop :=
  ∀ (i : Instr) (s : State) (f : Fid) (proto : Proto) (label : Label) (p : List Byte) (sl : Slot),
    s.run = .running → Arrives i s (some (.first f proto label p)) →
    (s.tgt f).state = .reassembling → s.slots[(s.tgt f).slot]? = some sl →
    let s' := (s.discard f).addEvent .dec .contextRestarted f
    (s'.tgt f).state = .awaitingFirst ∧ Arrives i s' (some (.first f proto label p)) ∧
      exec i s = exec i s' ∧ ∃ t, exec i s = .next t ∧ t.rsp.code ≠ .poolExhausted

/-- R196, R206, R207, R211, R212: a CONT fragment is appended to the context of its fragment-id and
label; without a match it is UNKNOWN_CONTEXT with no effect; past the bound it is MALFORMED and the
context is discarded. -/
def Obligations.ContAppends : Prop :=
  ∀ (i : Instr) (s : State) (f : Fid) (label : Label) (p : List Byte),
    s.run = .running → Arrives i s (some (.cont f label p)) →
    (¬ ((s.tgt f).state = .reassembling ∧ (s.tgt f).label = label) →
      exec i s = .next (s.raised .dec .unknownContext f)) ∧
    ∀ sl, (s.tgt f).state = .reassembling → (s.tgt f).label = label →
      s.slots[(s.tgt f).slot]? = some sl →
      (min sl.size Config.maxPdu < (s.tgt f).acc + p.length →
        exec i s = .next ((s.discard f).raised .dec .malformed f)) ∧
      ((s.tgt f).acc + p.length ≤ min sl.size Config.maxPdu →
        ∃ t, exec i s = .next t ∧
          t.rsp = { code := .fragmented, fid := f,
                    len := BitVec.ofNat 32 ((s.tgt f).acc + p.length) } ∧
          t.tgt f = { s.tgt f with
            acc := (s.tgt f).acc + p.length, crc := s.codec.crcUpdate (s.tgt f).crc p } ∧
          t.readBytes (.slot (s.tgt f).slot) (s.tgt f).acc p.length = p ∧ SameTargets [f] s t ∧
          SameSlotTable [] s t ∧ SameBesides [] s t ∧ t.transientLen = s.transientLen ∧
          SameBytesBut (.slot (s.tgt f).slot) (s.tgt f).acc p.length s t)

/-- R208 to R212: a LAST fragment is appended and ends the reassembly: with the CRC matched the PDU is
COMPLETED in its slot, now Held; with another trailer it is CRC_MISMATCH and the slot is Free. Without a
match and past the bound it is as a CONT fragment. -/
def Obligations.LastCompletesOrFails : Prop :=
  ∀ (i : Instr) (s : State) (f : Fid) (label : Label) (p : List Byte) (crc : Crc),
    s.run = .running → Arrives i s (some (.last f label p crc)) → s.poolCount ≤ 65535 →
    (¬ ((s.tgt f).state = .reassembling ∧ (s.tgt f).label = label) →
      exec i s = .next (s.raised .dec .unknownContext f)) ∧
    ∀ sl, (s.tgt f).state = .reassembling → (s.tgt f).label = label →
      s.slots[(s.tgt f).slot]? = some sl →
      let k := (s.tgt f).slot
      let acc := (s.tgt f).acc
      let sum := s.codec.crcFinal (s.codec.crcUpdate (s.tgt f).crc p)
      (min sl.size Config.maxPdu < acc + p.length →
        exec i s = .next ((s.discard f).raised .dec .malformed f)) ∧
      (acc + p.length ≤ min sl.size Config.maxPdu →
        ∃ t, exec i s = .next t ∧ (t.tgt f).state = .awaitingFirst ∧ SameTargets [f] s t ∧
          SameSlotTable [k] s t ∧ t.transientLen = s.transientLen ∧
          SameBytesBut (.slot k) acc p.length s t ∧
          (sum ≠ crc →
            t.rsp = { code := .crcMismatch, fid := f } ∧ t.slotEntry k = some (sl.size, .free) ∧
            SameBesides [⟨.dec, .crcMismatch, f⟩] s t) ∧
          (sum = crc →
            t.rsp = { code := .completed, fid := f, proto := (s.tgt f).proto,
                      label := fieldOfLabel (s.tgt f).label, len := BitVec.ofNat 32 (acc + p.length),
                      handle := BitVec.ofNat 16 k } ∧
            t.slotEntry k = some (sl.size, .held) ∧
            t.completedPdu t.rsp = s.readBytes (.slot k) 0 acc ++ p ∧ SameBesides [] s t))

/-- R205, R214: a fragment, whatever its class and outcome, is answered; the engine goes on running; and
every other target, with the slot and the bytes of its context, is exactly as before. -/
def Obligations.OtherContextsAreUntouched : Prop :=
  ∀ (i : Instr) (s : State) (fr : Option Frag), Inv s → s.run = .running → Arrives i s fr →
    ∃ t, exec i s = .next t ∧ t.run = .running ∧
      ∀ g, fr.map fragFid ≠ some g →
        t.tgt g = s.tgt g ∧
        ((s.tgt g).state = .reassembling →
          t.slotEntry (s.tgt g).slot = s.slotEntry (s.tgt g).slot ∧
          ∀ a, t.readByte (.slot (s.tgt g).slot) a = s.readByte (.slot (s.tgt g).slot) a)

/-- R215, R237: DEC answers COMPLETED only for a terminal fragment whose trailer is the CRC of all the
bytes it then names, and those bytes are in TRANSIENT or in a Held slot. -/
def Obligations.CompletedMeansCrcMatched : Prop :=
  ∀ (i : Instr) (s t : State), Inv s → DecCommand i → exec i s = .next t → t.rsp.code = .completed →
    ∃ crc, s.codec.crcFinal (s.codec.crcUpdate s.codec.crcInit (t.completedPdu t.rsp)) = crc ∧
      ((∃ f proto label p, Arrives i s (some (.single f proto label p crc)) ∧
          t.rsp.handle = Config.transientHandle ∧ t.completedPdu t.rsp = p) ∨
        ∃ f label p size, Arrives i s (some (.last f label p crc)) ∧
          t.slotEntry t.rsp.handle.toNat = some (size, .held))

/-- R43, R61, R331: no command changes a byte of a slot that is Held, and only RELEASE and SHUTDOWN take
it out of Held. -/
def Obligations.HeldSlotsKeepTheirBytes : Prop :=
  ∀ (i : Instr) (s t : State) (k : Nat) (sl : Slot), Inv s → exec i s = .next t →
    s.slots[k]? = some sl → sl.owner = .held →
    (∀ a, t.readByte (.slot k) a = s.readByte (.slot k) a) ∧
    ((∀ h, i ≠ .release h) → i ≠ .shutdown → t.slotEntry k = s.slotEntry k)

/-- R216, R232: a terminal fragment whose payload has one bit flipped after its trailer was made is
CRC_MISMATCH; nothing is delivered, and a LAST fragment's context and buffer are given up. With REFCODEC from
every accumulator, with another codec that meets the laws from every one that bytes can lead to. -/
def Obligations.FlippedPayloadBitIsDetected : Prop :=
  ∀ (i : Instr) (s : State) (f : Fid) (p q : List Byte), s.run = .running → CodecOk s.cfg →
    OneBitApart p q →
    let cd := s.codec
    (∀ proto label, q.length ≤ Config.maxPdu →
      Arrives i s (some (.single f proto label q (cd.crcFinal (cd.crcUpdate cd.crcInit p)))) →
      exec i s = .next (s.raised .dec .crcMismatch f)) ∧
    ∀ label sl, Arrives i s (some (.last f label q (cd.crcFinal (cd.crcUpdate (s.tgt f).crc p)))) →
      (s.cfg.codec = .refcodec ∨ ∃ b, (s.tgt f).crc = cd.crcUpdate cd.crcInit b) →
      (s.tgt f).state = .reassembling → (s.tgt f).label = label →
      s.slots[(s.tgt f).slot]? = some sl → (s.tgt f).acc + q.length ≤ min sl.size Config.maxPdu →
      ∃ t, exec i s = .next t ∧ t.rsp = { code := .crcMismatch, fid := f } ∧
        (t.tgt f).state = .awaitingFirst ∧ t.slotEntry (s.tgt f).slot = some (sl.size, .free)

/-! ### CRC -/

/-- R231, R232: for REFCODEC's CRC, the law of chunks, and the law of the single bit from every
accumulator. -/
def Obligations.CrcLaws : Prop :=
  ∀ acc : Crc,
    crcUpdate acc [] = acc ∧
    (∀ x y, crcUpdate (crcUpdate acc x) y = crcUpdate acc (x ++ y)) ∧
    ∀ p q, OneBitApart p q → crcFinal (crcUpdate acc p) ≠ crcFinal (crcUpdate acc q)

/-! ### SEQ -/

/-- R256: PAD makes the fragment up with zeros to the fixed length, never cuts it, and answers its
length. -/
def Obligations.PadFillsWithZeros : Prop :=
  ∀ (len : Word32) (s : State), s.run = .running → len.toNat ≤ Config.maxPdu →
    ∃ t, exec (.pad len) s = .next t ∧ t.fragOutLen = max s.fragOutLen len.toNat ∧
      t.rsp = { code := .ok, len := BitVec.ofNat 32 (max s.fragOutLen len.toNat) } ∧
      t.fragment = s.fragment ++ zeros (len.toNat - s.fragOutLen) ∧ t.enc = s.enc ∧ t.log = s.log ∧
      SameControl s t ∧ SameDecSide s t ∧
      SameBytesBut .fragOut s.fragOutLen (len.toNat - s.fragOutLen) s t

/-- R262: what halting leaves, for every cause; SHUTDOWN while Running halts with cause OK, logs
nothing and responds OK. -/
def Obligations.ShutdownHalts : Prop :=
  ∀ s : State,
    (∀ cause, HaltedBy cause s (s.halt cause) ∧
      (cause ≠ .ok → (s.halt cause).log = s.log ++ [⟨.seq, cause, 0⟩])) ∧
    (s.run = .running →
      ∃ t, exec .shutdown s = .next t ∧ HaltedBy .ok s t ∧ t.log = s.log ∧ t.rsp = { code := .ok } ∧
        t.seq = s.seq ∧ t.ports = s.ports)

/-- R300: a Fatal result of each of the four port primitives halts the engine with IO_ERROR and its one
event, and stops the direction; nothing is sent or delivered by that turn. -/
def Obligations.FatalPortResultHalts : Prop :=
  ∀ (s : State), s.run = .running →
    (∀ rest, s.seq.egress = .top → s.seq.shutdownReq = false → s.ports.ifRecv = .fatal :: rest →
      ∃ t, egressTurn s = .next t ∧ HaltedBy .ioError s t ∧
        t.log = s.log ++ [⟨.seq, .ioError, 0⟩] ∧ t.seq.egress = .stopped ∧
        t.ports = { s.ports with ifRecv := rest }) ∧
    (∀ code rest, s.seq.egress = .send code → s.fragOutLen ≤ 65535 →
      s.ports.sockSend = .fatal :: rest →
      ∃ t, egressTurn s = .next t ∧ HaltedBy .ioError s t ∧
        t.log = s.log ++ [⟨.seq, .ioError, 0⟩] ∧ t.seq.egress = .stopped ∧
        t.ports = { s.ports with sockSend := rest }) ∧
    (∀ rest, s.seq.ingress = .top → s.seq.shutdownReq = false → s.ports.sockRecv = .fatal :: rest →
      ∃ t, ingressTurn s = .next t ∧ HaltedBy .ioError s t ∧
        t.log = s.log ++ [⟨.seq, .ioError, 0⟩] ∧ t.seq.ingress = .stopped ∧
        t.ports = { s.ports with sockRecv := rest }) ∧
    ∀ h len rest, s.seq.ingress = .deliver h len → len ≤ s.memSize (handleSpace h) →
      s.ports.ifSend = .fatal :: rest →
      ∃ t, ingressTurn s = .next t ∧ HaltedBy .ioError s t ∧
        t.log = s.log ++ [⟨.seq, .ioError, 0⟩] ∧ t.seq.ingress = .stopped ∧
        t.ports = { s.ports with ifSend := rest }

/-- R254, R263, R301: at the start of an iteration a set shutdown_req makes the direction issue SHUTDOWN
and stop; without it a Timeout changes nothing (a result taken from the port apart; an empty queue is a
Timeout, log 13). -/
def Obligations.StartOfAnIteration : Prop :=
  ∀ s : State, s.run = .running →
    (s.seq.egress = .top → s.seq.shutdownReq = true →
      ∃ t, egressTurn s = .next t ∧ HaltedBy .ok s t ∧ t.log = s.log ∧ t.ports = s.ports ∧
        t.seq = { s.seq with egress := .stopped }) ∧
    (s.seq.ingress = .top → s.seq.shutdownReq = true →
      ∃ t, ingressTurn s = .next t ∧ HaltedBy .ok s t ∧ t.log = s.log ∧ t.ports = s.ports ∧
        t.seq = { s.seq with ingress := .stopped }) ∧
    (s.seq.egress = .top → s.seq.shutdownReq = false →
      (s.ports.ifRecv = [] → egressTurn s = .next s) ∧
      ∀ rest, s.ports.ifRecv = .timeout :: rest →
        egressTurn s = .next (s.setPorts { s.ports with ifRecv := rest })) ∧
    (s.seq.ingress = .top → s.seq.shutdownReq = false →
      (s.ports.sockRecv = [] → ingressTurn s = .next s) ∧
      ∀ rest, s.ports.sockRecv = .timeout :: rest →
        ingressTurn s = .next (s.setPorts { s.ports with sockRecv := rest }))

/-- R325: the ingress direction's boot after a legal reset: N turns provision N Free slots of B bytes,
none of them refused. -/
def Obligations.BootProvisionsThePool : Prop :=
  ∀ (cfg : Cfg) (epoch : Nat) (req : Bool) (ports : Ports) (rest : List Input), cfg.Legal →
    ports.inputs = List.replicate cfg.n .ingressTurn ++ rest →
    ∃ t : State, Sys2Proof.core.run cfg.n (State.resetWith cfg epoch req ports) = .next t ∧
      t.poolCount = cfg.n ∧ (∀ i, i < cfg.n → t.slotEntry i = some (cfg.b.toNat, .free)) ∧
      t.log = [] ∧ t.seq.ingress = .boot 0 ∧ t.run = .running ∧ t.ports = { ports with inputs := rest }

/-- R257 to R259: one iteration of the egress direction, for every frame IF_RECV can bring (one above the
read bound comes as the device makes it, log 14; one above 65535 bytes is PDU_TOO_LARGE) and a socket that
answers Ok (an empty queue is Ok, and `sent` is the record, log 13; the turns are log 12). The fragments ENC
emits are sent in the order produced, each zero-padded to the fixed length if one is configured: all of
them when the PDU is completed, those before the error when ENC rejects it. Either way ENC is Idle and the
label counter moved once. -/
def Obligations.EgressIterationSendsTheFrame : Prop :=
  ∀ (s : State) (frame : List Byte) (rest : List RecvResult), Inv s → s.run = .running →
    s.enc.state = .idle → s.seq.egress = .top → s.seq.shutdownReq = false →
    s.ports.ifRecv = .data frame :: rest → (∀ r ∈ s.ports.sockSend, r = .ok) →
    let bytes := frameBytes s.cfg.b.toNat frame
    ∃ k u frags code,
      encapsulate s.cfg.fragIdEgress s.cfg.protoEgress (BitVec.ofNat 32 bytes.length)
          (BitVec.ofNat 32 (egressCap s.cfg)) (fieldOfLabel (beBytes s.cfg.lw s.enc.labelCtr))
          (s.setMem .pduIn (s.pduIn.write 0 (bytes.take Config.maxPdu))) = some (frags, code) ∧
      egressTurns k s = some u ∧ u.seq.egress = .top ∧ u.enc.state = .idle ∧ u.run = .running ∧
      u.ports = { s.ports with
        ifRecv := rest, sockSend := s.ports.sockSend.drop frags.length,
        sent := s.ports.sent ++ frags.map (paddedFragment s.cfg) } ∧
      u.enc.labelCtr = (s.enc.labelCtr + 1) % 2 ^ (8 * s.cfg.lw) ∧
      (Config.maxPdu < bytes.length → frags = [] ∧ code = .pduTooLarge) ∧
      (0 < s.cfg.pEgress.toNat → ∀ d ∈ frags, (paddedFragment s.cfg d).length = s.cfg.pEgress.toNat)

/-- R255, R260, R75: the turns of one iteration of the ingress direction (log 12). The datagram, cut to the
receive bound, is put into DGRAM_IN and given to DECAP; a completed PDU is delivered from the memory its
handle names, and only then its slot is released. An empty queue of IF_SEND is Ok, as an Ok in it, and
`delivered` is the record (log 13). -/
def Obligations.IngressIterationDelivers : Prop :=
  ∀ s : State, Inv s → s.run = .running →
    (∀ d rest, s.seq.ingress = .top → s.seq.shutdownReq = false → s.ports.sockRecv = .data d :: rest →
      ∃ t, ingressTurn s = .next t ∧ t.ports = { s.ports with sockRecv := rest } ∧
        t.readBytes .dgramIn 0 (min d.length (rxBound s.cfg)) = d.take (rxBound s.cfg) ∧
        SameBytesBut .dgramIn 0 (min d.length (rxBound s.cfg)) s t ∧
        t.seq = { s.seq with ingress := .decap (min d.length (rxBound s.cfg)) }) ∧
    (∀ n, s.seq.ingress = .decap n →
      ∃ u t, exec (.decap (BitVec.ofNat 32 n)) s = .next u ∧ ingressTurn s = .next t ∧
        t = u.ingressAt
          (if u.rsp.code = .completed then .deliver u.rsp.handle u.rsp.len.toNat else .top)) ∧
    (∀ h len, s.seq.ingress = .deliver h len → s.ports.ifSend.head? ≠ some .fatal →
      ∃ t, ingressTurn s = .next t ∧
        t.ports = { s.ports with
          ifSend := s.ports.ifSend.tail
          delivered := s.ports.delivered ++ [s.readBytes (handleSpace h) 0 len] } ∧
        t.slots = s.slots ∧
        t.seq = { s.seq with
          ingress := if h = Config.transientHandle then .top else .release h }) ∧
    ∀ h size, s.seq.ingress = .release h → s.slotEntry h.toNat = some (size, .held) →
      ∃ t, ingressTurn s = .next t ∧ t.rsp.code = .ok ∧ t.slotEntry h.toNat = some (size, .free) ∧
        SameSlotTable [h.toNat] s t ∧ t.seq = { s.seq with ingress := .top } ∧ t.ports = s.ports

/-! ### Across units -/

/-- R72: an egress command and an ingress command commute. Either order gives the same responses and
the same state, but for the order of the two directions' events in LOG and for whose response came
last. -/
def Obligations.EgressAndIngressCommute : Prop :=
  ∀ (i j : Instr) (s : State), Inv s → EgressCommand i → IngressCommand j →
    ∃ a ab b ba, exec i s = .next a ∧ exec j a = .next ab ∧ exec j s = .next b ∧ exec i b = .next ba ∧
      a.rsp = ba.rsp ∧ b.rsp = ab.rsp ∧ List.Perm ab.log ba.log ∧
      { ab with log := ba.log, rsp := ba.rsp } = ba

/-- R66, R67: MemWrite inside a memory sets exactly its bytes; outside, neither access is defined. A
host write is such a write (log 11). -/
def Obligations.MemWriteSetsExactlyItsBytes : Prop :=
  ∀ (s : State) (sp : Space) (a : Nat) (bytes : List Byte),
    (∀ k, sp = .slot k → k < s.poolCount) →
    (a + bytes.length ≤ s.memSize sp →
      ∃ t, s.memWrite sp a bytes = some t ∧ t.readBytes sp a bytes.length = bytes ∧
        SameBytesBut sp a bytes.length s t ∧ (∀ sp', t.memSize sp' = s.memSize sp') ∧
        s.memRead sp a bytes.length = some (s.readBytes sp a bytes.length) ∧
        ∀ m rest, sp = HostMemory.space m → s.ports.inputs = .hostWrite m a bytes :: rest →
          step s = .next (t.takeInput rest)) ∧
    (s.memSize sp < a + bytes.length →
      s.memWrite sp a bytes = none ∧ s.memRead sp a bytes.length = none)

/-- R217: round trip. The fragments of a PDU, each alone or followed by padding, given in order to a
receiver with the same codec and label width whose target is idle and whose least Free slot holds the PDU, are answered FRAGMENTED but for
the last, which is COMPLETED with the PDU, the protocol identifier and the label given to
BEGIN_ENCAP. -/
def Obligations.RoundTrip : Prop :=
  ∀ (fid : Fid) (proto : Proto) (len cap : Word32) (label : LabelField) (s u : State) (k : Nat)
    (sl : Slot) (frags tails : List (List Byte)),
    s.run = .running → u.run = .running → Cfg.lwLegal s.cfg.lw → CodecOk s.cfg →
    u.cfg.lw = s.cfg.lw → u.cfg.codec = s.cfg.codec →
    s.enc.state = .idle → (u.tgt fid).state = .awaitingFirst → u.LeastFree k sl →
    len.toNat ≤ sl.size → u.poolCount ≤ 65535 →
    encapsulate fid proto len cap label s = some (frags, .completed) → tails.length = frags.length →
    (∀ d ∈ List.zipWith (· ++ ·) frags tails, d.length ≤ 65535) →
    ∃ v, receiveAll (List.zipWith (· ++ ·) frags tails) u =
        some (List.replicate (frags.length - 1) .fragmented ++ [.completed], v) ∧
      v.completedPdu v.rsp = s.readBytes .pduIn 0 len.toNat ∧
      v.rsp.len = len ∧ v.rsp.fid = fid ∧ v.rsp.proto = proto ∧
      v.rsp.label = fieldOfLabel (labelOfField s.cfg.lw label)

/-! ### The codec -/

/-- R100, R102 to R107, R242: REFCODEC is an instance of the codec capability: it meets the laws for every
legal label width. -/
def Obligations.RefCodecMeetsTheLaws : Prop :=
  ∀ lw : Nat, Cfg.lwLegal lw → CodecLaws lw (refCodec lw)
end

