-- ==== Sys2Proof/Laws/Bytes.lean ====
section
/-! SUPPORT. Big-endian spelling (R19, R62) and labels in and out of records. -/

namespace Sys2Proof

@[simp] theorem beBytes_length (n v : Nat) : (beBytes n v).length = n := by
  induction n with
  | zero => rfl
  | succ n ih => simp [beBytes, ih]

theorem natBe_foldl (s : List Byte) (acc : Nat) :
    s.foldl (fun acc b => acc * 256 + b.toNat) acc = acc * 256 ^ s.length + natBe s := by
  induction s generalizing acc with
  | nil => simp [natBe]
  | cons b s ih =>
    have e : natBe (b :: s) = (0 * 256 + b.toNat) * 256 ^ s.length + natBe s := ih _
    rw [List.foldl_cons, ih, e, List.length_cons, pow_succ]
    ring

theorem natBe_cons (b : Byte) (s : List Byte) :
    natBe (b :: s) = b.toNat * 256 ^ s.length + natBe s := by
  rw [natBe, List.foldl_cons, natBe_foldl]; simp

@[simp] theorem natBe_nil : natBe [] = 0 := rfl

/-- A byte sequence spells a number below 256 to its length. -/
theorem natBe_lt (s : List Byte) : natBe s < 256 ^ s.length := by
  induction s with
  | nil => simp
  | cons b s ih =>
    rw [natBe_cons, List.length_cons, pow_succ]
    have hb : b.toNat < 256 := b.isLt
    have : b.toNat * 256 ^ s.length ≤ 255 * 256 ^ s.length := Nat.mul_le_mul_right _ (by omega)
    omega

theorem natBe_beBytes_mod (n v : Nat) : natBe (beBytes n v) = v % 256 ^ n := by
  induction n with
  | zero => simp [beBytes, Nat.mod_one]
  | succ n ih =>
    rw [beBytes, natBe_cons, ih, beBytes_length, BitVec.toNat_ofNat]
    rw [pow_succ 256 n, Nat.mod_mul, Nat.add_comm, Nat.mul_comm]

/-- `nat_be` inverts `be_n` (R19). -/
theorem natBe_beBytes {n v : Nat} (h : v < 256 ^ n) : natBe (beBytes n v) = v := by
  rw [natBe_beBytes_mod, Nat.mod_eq_of_lt h]

/-- `be_n` inverts `nat_be` (R19). -/
theorem beBytes_natBe (s : List Byte) : beBytes s.length (natBe s) = s := by
  induction s with
  | nil => rfl
  | cons b s ih =>
    have hs := natBe_lt s
    have hdiv : (b.toNat * 256 ^ s.length + natBe s) / 256 ^ s.length = b.toNat := by
      rw [Nat.add_comm, Nat.add_mul_div_right _ _ (by positivity), Nat.div_eq_of_lt hs, Nat.zero_add]
    have hmod : ∀ n v w : Nat, v % 256 ^ n = w % 256 ^ n → beBytes n v = beBytes n w := by
      intro n
      induction n with
      | zero => intro v w _; rfl
      | succ n ihn =>
        intro v w h
        rw [beBytes, beBytes]
        congr 1
        · apply BitVec.eq_of_toNat_eq
          rw [BitVec.toNat_ofNat, BitVec.toNat_ofNat]
          have e : ∀ x : Nat, x / 256 ^ n % 2 ^ 8 = x % 256 ^ (n + 1) / 256 ^ n := by
            intro x
            rw [pow_succ 256 n, Nat.mod_mul_right_div_self]
            rfl
          rw [e, e, h]
        · apply ihn
          have e : ∀ x : Nat, x % 256 ^ n = x % 256 ^ (n + 1) % 256 ^ n := by
            intro x
            rw [Nat.mod_mod_of_dvd]
            exact pow_dvd_pow _ (by omega)
          rw [e v, e w, h]
    rw [natBe_cons, List.length_cons, beBytes, hdiv]
    congr 1
    · simp
    · rw [hmod s.length _ (natBe s) (by simp), ih]

@[simp] theorem slice_length (s : List Byte) (a n : Nat) : (slice s a n).length = min n (s.length - a) := by
  simp [slice]

end Sys2Proof

namespace Sys2Proof.Machine

/-- A label taken from a record has the configured width (R93). -/
theorem labelOfField_length {lw : Nat} (h : lw ≤ 6) (x : LabelField) : (labelOfField lw x).length = lw := by
  simp [labelOfField, h]

theorem labelOfCounter_length (lw c : Nat) : (labelOfCounter lw c).length = lw := by
  simp [labelOfCounter]

/-- A label put into a record and taken out again (R93, R96). -/
theorem labelOfField_fieldOfLabel {l : Label} (h : l.length ≤ 6) :
    labelOfField l.length (fieldOfLabel l) = l := by
  have h6 : ((l ++ zeros 6).take 6).length = 6 := by simp
  have hlt := natBe_lt ((l ++ zeros 6).take 6)
  rw [h6] at hlt
  have hn : (fieldOfLabel l).toNat = natBe ((l ++ zeros 6).take 6) := by
    rw [fieldOfLabel, BitVec.toNat_ofNat, Nat.mod_eq_of_lt]
    calc _ < 256 ^ 6 := hlt
      _ = 2 ^ 48 := by norm_num
  have hb := beBytes_natBe ((l ++ zeros 6).take 6)
  rw [h6] at hb
  rw [labelOfField, hn, hb, List.take_take, Nat.min_eq_left h, List.take_left']
  rfl

theorem Cfg.lw_le_six {c : Cfg} (h : c.Legal) : c.lw ≤ 6 := by
  obtain ⟨h | h | h, _⟩ := h <;> omega

end Sys2Proof.Machine
end

