-- ==== Sys2Proof/Laws/State.lean ====
section
/-! SUPPORT. The state's updates, field by field: what an update writes and what it leaves alone. Each is
true by definition, so that no proof unfolds an update. -/

namespace Sys2Proof.Machine

variable (s : State)

/-! ### `setRsp` -/

@[simp] theorem State.setRsp_cfg (r : Rsp16) : (s.setRsp r).cfg = s.cfg := rfl
@[simp] theorem State.setRsp_run (r : Rsp16) : (s.setRsp r).run = s.run := rfl
@[simp] theorem State.setRsp_haltCause (r : Rsp16) : (s.setRsp r).haltCause = s.haltCause := rfl
@[simp] theorem State.setRsp_log (r : Rsp16) : (s.setRsp r).log = s.log := rfl
@[simp] theorem State.setRsp_enc (r : Rsp16) : (s.setRsp r).enc = s.enc := rfl
@[simp] theorem State.setRsp_fragOutLen (r : Rsp16) : (s.setRsp r).fragOutLen = s.fragOutLen := rfl
@[simp] theorem State.setRsp_tgts (r : Rsp16) : (s.setRsp r).tgts = s.tgts := rfl
@[simp] theorem State.setRsp_transientLen (r : Rsp16) : (s.setRsp r).transientLen = s.transientLen := rfl
@[simp] theorem State.setRsp_slots (r : Rsp16) : (s.setRsp r).slots = s.slots := rfl
@[simp] theorem State.setRsp_pduIn (r : Rsp16) : (s.setRsp r).pduIn = s.pduIn := rfl
@[simp] theorem State.setRsp_fragOut (r : Rsp16) : (s.setRsp r).fragOut = s.fragOut := rfl
@[simp] theorem State.setRsp_dgramIn (r : Rsp16) : (s.setRsp r).dgramIn = s.dgramIn := rfl
@[simp] theorem State.setRsp_transient (r : Rsp16) : (s.setRsp r).transient = s.transient := rfl
@[simp] theorem State.setRsp_rsp (r : Rsp16) : (s.setRsp r).rsp = r := rfl
@[simp] theorem State.setRsp_seq (r : Rsp16) : (s.setRsp r).seq = s.seq := rfl
@[simp] theorem State.setRsp_ports (r : Rsp16) : (s.setRsp r).ports = s.ports := rfl
@[simp] theorem State.setRsp_epoch (r : Rsp16) : (s.setRsp r).epoch = s.epoch := rfl
@[simp] theorem State.setRsp_tgt (r : Rsp16) (f' : Fid) : (s.setRsp r).tgt f' = s.tgt f' := rfl
@[simp] theorem State.setRsp_mem (r : Rsp16) (sp : Space) : (s.setRsp r).mem sp = s.mem sp := by cases sp <;> rfl
@[simp] theorem State.setRsp_memSize (r : Rsp16) (sp : Space) : (s.setRsp r).memSize sp = s.memSize sp := by cases sp <;> rfl
@[simp] theorem State.setRsp_readByte (r : Rsp16) (sp : Space) (k : Nat) : (s.setRsp r).readByte sp k = s.readByte sp k := by cases sp <;> rfl
@[simp] theorem State.setRsp_readBytes (r : Rsp16) (sp : Space) (k m : Nat) : (s.setRsp r).readBytes sp k m = s.readBytes sp k m := by cases sp <;> rfl
@[simp] theorem State.setRsp_memRead (r : Rsp16) (sp : Space) (k m : Nat) : (s.setRsp r).memRead sp k m = s.memRead sp k m := by cases sp <;> rfl
@[simp] theorem State.setRsp_codec (r : Rsp16) : (s.setRsp r).codec = s.codec := rfl

/-! ### `setHalted` -/

@[simp] theorem State.setHalted_cfg (c : RespCode) : (s.setHalted c).cfg = s.cfg := rfl
@[simp] theorem State.setHalted_run (c : RespCode) : (s.setHalted c).run = .halted := rfl
@[simp] theorem State.setHalted_haltCause (c : RespCode) : (s.setHalted c).haltCause = c := rfl
@[simp] theorem State.setHalted_log (c : RespCode) : (s.setHalted c).log = s.log := rfl
@[simp] theorem State.setHalted_enc (c : RespCode) : (s.setHalted c).enc = s.enc := rfl
@[simp] theorem State.setHalted_fragOutLen (c : RespCode) : (s.setHalted c).fragOutLen = s.fragOutLen := rfl
@[simp] theorem State.setHalted_tgts (c : RespCode) : (s.setHalted c).tgts = s.tgts := rfl
@[simp] theorem State.setHalted_transientLen (c : RespCode) : (s.setHalted c).transientLen = s.transientLen := rfl
@[simp] theorem State.setHalted_slots (c : RespCode) : (s.setHalted c).slots = s.slots := rfl
@[simp] theorem State.setHalted_pduIn (c : RespCode) : (s.setHalted c).pduIn = s.pduIn := rfl
@[simp] theorem State.setHalted_fragOut (c : RespCode) : (s.setHalted c).fragOut = s.fragOut := rfl
@[simp] theorem State.setHalted_dgramIn (c : RespCode) : (s.setHalted c).dgramIn = s.dgramIn := rfl
@[simp] theorem State.setHalted_transient (c : RespCode) : (s.setHalted c).transient = s.transient := rfl
@[simp] theorem State.setHalted_rsp (c : RespCode) : (s.setHalted c).rsp = s.rsp := rfl
@[simp] theorem State.setHalted_seq (c : RespCode) : (s.setHalted c).seq = s.seq := rfl
@[simp] theorem State.setHalted_ports (c : RespCode) : (s.setHalted c).ports = s.ports := rfl
@[simp] theorem State.setHalted_epoch (c : RespCode) : (s.setHalted c).epoch = s.epoch := rfl
@[simp] theorem State.setHalted_tgt (c : RespCode) (f' : Fid) : (s.setHalted c).tgt f' = s.tgt f' := rfl
@[simp] theorem State.setHalted_mem (c : RespCode) (sp : Space) : (s.setHalted c).mem sp = s.mem sp := by cases sp <;> rfl
@[simp] theorem State.setHalted_memSize (c : RespCode) (sp : Space) : (s.setHalted c).memSize sp = s.memSize sp := by cases sp <;> rfl
@[simp] theorem State.setHalted_readByte (c : RespCode) (sp : Space) (k : Nat) : (s.setHalted c).readByte sp k = s.readByte sp k := by cases sp <;> rfl
@[simp] theorem State.setHalted_readBytes (c : RespCode) (sp : Space) (k m : Nat) : (s.setHalted c).readBytes sp k m = s.readBytes sp k m := by cases sp <;> rfl
@[simp] theorem State.setHalted_memRead (c : RespCode) (sp : Space) (k m : Nat) : (s.setHalted c).memRead sp k m = s.memRead sp k m := by cases sp <;> rfl
@[simp] theorem State.setHalted_codec (c : RespCode) : (s.setHalted c).codec = s.codec := rfl

/-! ### `setEnc` -/

@[simp] theorem State.setEnc_cfg (e : Enc) : (s.setEnc e).cfg = s.cfg := rfl
@[simp] theorem State.setEnc_run (e : Enc) : (s.setEnc e).run = s.run := rfl
@[simp] theorem State.setEnc_haltCause (e : Enc) : (s.setEnc e).haltCause = s.haltCause := rfl
@[simp] theorem State.setEnc_log (e : Enc) : (s.setEnc e).log = s.log := rfl
@[simp] theorem State.setEnc_enc (e : Enc) : (s.setEnc e).enc = e := rfl
@[simp] theorem State.setEnc_fragOutLen (e : Enc) : (s.setEnc e).fragOutLen = s.fragOutLen := rfl
@[simp] theorem State.setEnc_tgts (e : Enc) : (s.setEnc e).tgts = s.tgts := rfl
@[simp] theorem State.setEnc_transientLen (e : Enc) : (s.setEnc e).transientLen = s.transientLen := rfl
@[simp] theorem State.setEnc_slots (e : Enc) : (s.setEnc e).slots = s.slots := rfl
@[simp] theorem State.setEnc_pduIn (e : Enc) : (s.setEnc e).pduIn = s.pduIn := rfl
@[simp] theorem State.setEnc_fragOut (e : Enc) : (s.setEnc e).fragOut = s.fragOut := rfl
@[simp] theorem State.setEnc_dgramIn (e : Enc) : (s.setEnc e).dgramIn = s.dgramIn := rfl
@[simp] theorem State.setEnc_transient (e : Enc) : (s.setEnc e).transient = s.transient := rfl
@[simp] theorem State.setEnc_rsp (e : Enc) : (s.setEnc e).rsp = s.rsp := rfl
@[simp] theorem State.setEnc_seq (e : Enc) : (s.setEnc e).seq = s.seq := rfl
@[simp] theorem State.setEnc_ports (e : Enc) : (s.setEnc e).ports = s.ports := rfl
@[simp] theorem State.setEnc_epoch (e : Enc) : (s.setEnc e).epoch = s.epoch := rfl
@[simp] theorem State.setEnc_tgt (e : Enc) (f' : Fid) : (s.setEnc e).tgt f' = s.tgt f' := rfl
@[simp] theorem State.setEnc_mem (e : Enc) (sp : Space) : (s.setEnc e).mem sp = s.mem sp := by cases sp <;> rfl
@[simp] theorem State.setEnc_memSize (e : Enc) (sp : Space) : (s.setEnc e).memSize sp = s.memSize sp := by cases sp <;> rfl
@[simp] theorem State.setEnc_readByte (e : Enc) (sp : Space) (k : Nat) : (s.setEnc e).readByte sp k = s.readByte sp k := by cases sp <;> rfl
@[simp] theorem State.setEnc_readBytes (e : Enc) (sp : Space) (k m : Nat) : (s.setEnc e).readBytes sp k m = s.readBytes sp k m := by cases sp <;> rfl
@[simp] theorem State.setEnc_memRead (e : Enc) (sp : Space) (k m : Nat) : (s.setEnc e).memRead sp k m = s.memRead sp k m := by cases sp <;> rfl
@[simp] theorem State.setEnc_codec (e : Enc) : (s.setEnc e).codec = s.codec := rfl

/-! ### `setTgt` -/

@[simp] theorem State.setTgt_cfg (f : Fid) (t : Target) : (s.setTgt f t).cfg = s.cfg := rfl
@[simp] theorem State.setTgt_run (f : Fid) (t : Target) : (s.setTgt f t).run = s.run := rfl
@[simp] theorem State.setTgt_haltCause (f : Fid) (t : Target) : (s.setTgt f t).haltCause = s.haltCause := rfl
@[simp] theorem State.setTgt_log (f : Fid) (t : Target) : (s.setTgt f t).log = s.log := rfl
@[simp] theorem State.setTgt_enc (f : Fid) (t : Target) : (s.setTgt f t).enc = s.enc := rfl
@[simp] theorem State.setTgt_fragOutLen (f : Fid) (t : Target) : (s.setTgt f t).fragOutLen = s.fragOutLen := rfl
@[simp] theorem State.setTgt_tgts (f : Fid) (t : Target) : (s.setTgt f t).tgts = s.tgts.set f.toNat t := rfl
@[simp] theorem State.setTgt_transientLen (f : Fid) (t : Target) : (s.setTgt f t).transientLen = s.transientLen := rfl
@[simp] theorem State.setTgt_slots (f : Fid) (t : Target) : (s.setTgt f t).slots = s.slots := rfl
@[simp] theorem State.setTgt_pduIn (f : Fid) (t : Target) : (s.setTgt f t).pduIn = s.pduIn := rfl
@[simp] theorem State.setTgt_fragOut (f : Fid) (t : Target) : (s.setTgt f t).fragOut = s.fragOut := rfl
@[simp] theorem State.setTgt_dgramIn (f : Fid) (t : Target) : (s.setTgt f t).dgramIn = s.dgramIn := rfl
@[simp] theorem State.setTgt_transient (f : Fid) (t : Target) : (s.setTgt f t).transient = s.transient := rfl
@[simp] theorem State.setTgt_rsp (f : Fid) (t : Target) : (s.setTgt f t).rsp = s.rsp := rfl
@[simp] theorem State.setTgt_seq (f : Fid) (t : Target) : (s.setTgt f t).seq = s.seq := rfl
@[simp] theorem State.setTgt_ports (f : Fid) (t : Target) : (s.setTgt f t).ports = s.ports := rfl
@[simp] theorem State.setTgt_epoch (f : Fid) (t : Target) : (s.setTgt f t).epoch = s.epoch := rfl
@[simp] theorem State.setTgt_mem (f : Fid) (t : Target) (sp : Space) : (s.setTgt f t).mem sp = s.mem sp := by cases sp <;> rfl
@[simp] theorem State.setTgt_memSize (f : Fid) (t : Target) (sp : Space) : (s.setTgt f t).memSize sp = s.memSize sp := by cases sp <;> rfl
@[simp] theorem State.setTgt_readByte (f : Fid) (t : Target) (sp : Space) (k : Nat) : (s.setTgt f t).readByte sp k = s.readByte sp k := by cases sp <;> rfl
@[simp] theorem State.setTgt_readBytes (f : Fid) (t : Target) (sp : Space) (k m : Nat) : (s.setTgt f t).readBytes sp k m = s.readBytes sp k m := by cases sp <;> rfl
@[simp] theorem State.setTgt_memRead (f : Fid) (t : Target) (sp : Space) (k m : Nat) : (s.setTgt f t).memRead sp k m = s.memRead sp k m := by cases sp <;> rfl
@[simp] theorem State.setTgt_codec (f : Fid) (t : Target) : (s.setTgt f t).codec = s.codec := rfl

/-! ### `modifySlot` -/

@[simp] theorem State.modifySlot_cfg (i : Nat) (g : Slot → Slot) : (s.modifySlot i g).cfg = s.cfg := rfl
@[simp] theorem State.modifySlot_run (i : Nat) (g : Slot → Slot) : (s.modifySlot i g).run = s.run := rfl
@[simp] theorem State.modifySlot_haltCause (i : Nat) (g : Slot → Slot) : (s.modifySlot i g).haltCause = s.haltCause := rfl
@[simp] theorem State.modifySlot_log (i : Nat) (g : Slot → Slot) : (s.modifySlot i g).log = s.log := rfl
@[simp] theorem State.modifySlot_enc (i : Nat) (g : Slot → Slot) : (s.modifySlot i g).enc = s.enc := rfl
@[simp] theorem State.modifySlot_fragOutLen (i : Nat) (g : Slot → Slot) : (s.modifySlot i g).fragOutLen = s.fragOutLen := rfl
@[simp] theorem State.modifySlot_tgts (i : Nat) (g : Slot → Slot) : (s.modifySlot i g).tgts = s.tgts := rfl
@[simp] theorem State.modifySlot_transientLen (i : Nat) (g : Slot → Slot) : (s.modifySlot i g).transientLen = s.transientLen := rfl
@[simp] theorem State.modifySlot_slots (i : Nat) (g : Slot → Slot) : (s.modifySlot i g).slots = s.slots.modify i g := rfl
@[simp] theorem State.modifySlot_pduIn (i : Nat) (g : Slot → Slot) : (s.modifySlot i g).pduIn = s.pduIn := rfl
@[simp] theorem State.modifySlot_fragOut (i : Nat) (g : Slot → Slot) : (s.modifySlot i g).fragOut = s.fragOut := rfl
@[simp] theorem State.modifySlot_dgramIn (i : Nat) (g : Slot → Slot) : (s.modifySlot i g).dgramIn = s.dgramIn := rfl
@[simp] theorem State.modifySlot_transient (i : Nat) (g : Slot → Slot) : (s.modifySlot i g).transient = s.transient := rfl
@[simp] theorem State.modifySlot_rsp (i : Nat) (g : Slot → Slot) : (s.modifySlot i g).rsp = s.rsp := rfl
@[simp] theorem State.modifySlot_seq (i : Nat) (g : Slot → Slot) : (s.modifySlot i g).seq = s.seq := rfl
@[simp] theorem State.modifySlot_ports (i : Nat) (g : Slot → Slot) : (s.modifySlot i g).ports = s.ports := rfl
@[simp] theorem State.modifySlot_epoch (i : Nat) (g : Slot → Slot) : (s.modifySlot i g).epoch = s.epoch := rfl
@[simp] theorem State.modifySlot_tgt (i : Nat) (g : Slot → Slot) (f' : Fid) : (s.modifySlot i g).tgt f' = s.tgt f' := rfl
@[simp] theorem State.modifySlot_codec (i : Nat) (g : Slot → Slot) : (s.modifySlot i g).codec = s.codec := rfl

/-! ### `setOwner` -/

@[simp] theorem State.setOwner_cfg (i : Nat) (o : Owner) : (s.setOwner i o).cfg = s.cfg := rfl
@[simp] theorem State.setOwner_run (i : Nat) (o : Owner) : (s.setOwner i o).run = s.run := rfl
@[simp] theorem State.setOwner_haltCause (i : Nat) (o : Owner) : (s.setOwner i o).haltCause = s.haltCause := rfl
@[simp] theorem State.setOwner_log (i : Nat) (o : Owner) : (s.setOwner i o).log = s.log := rfl
@[simp] theorem State.setOwner_enc (i : Nat) (o : Owner) : (s.setOwner i o).enc = s.enc := rfl
@[simp] theorem State.setOwner_fragOutLen (i : Nat) (o : Owner) : (s.setOwner i o).fragOutLen = s.fragOutLen := rfl
@[simp] theorem State.setOwner_tgts (i : Nat) (o : Owner) : (s.setOwner i o).tgts = s.tgts := rfl
@[simp] theorem State.setOwner_transientLen (i : Nat) (o : Owner) : (s.setOwner i o).transientLen = s.transientLen := rfl
@[simp] theorem State.setOwner_slots (i : Nat) (o : Owner) : (s.setOwner i o).slots = s.slots.modify i fun sl => { sl with owner := o } := rfl
@[simp] theorem State.setOwner_pduIn (i : Nat) (o : Owner) : (s.setOwner i o).pduIn = s.pduIn := rfl
@[simp] theorem State.setOwner_fragOut (i : Nat) (o : Owner) : (s.setOwner i o).fragOut = s.fragOut := rfl
@[simp] theorem State.setOwner_dgramIn (i : Nat) (o : Owner) : (s.setOwner i o).dgramIn = s.dgramIn := rfl
@[simp] theorem State.setOwner_transient (i : Nat) (o : Owner) : (s.setOwner i o).transient = s.transient := rfl
@[simp] theorem State.setOwner_rsp (i : Nat) (o : Owner) : (s.setOwner i o).rsp = s.rsp := rfl
@[simp] theorem State.setOwner_seq (i : Nat) (o : Owner) : (s.setOwner i o).seq = s.seq := rfl
@[simp] theorem State.setOwner_ports (i : Nat) (o : Owner) : (s.setOwner i o).ports = s.ports := rfl
@[simp] theorem State.setOwner_epoch (i : Nat) (o : Owner) : (s.setOwner i o).epoch = s.epoch := rfl
@[simp] theorem State.setOwner_tgt (i : Nat) (o : Owner) (f' : Fid) : (s.setOwner i o).tgt f' = s.tgt f' := rfl
@[simp] theorem State.setOwner_codec (i : Nat) (o : Owner) : (s.setOwner i o).codec = s.codec := rfl

/-! ### `poolFree` -/

@[simp] theorem State.poolFree_cfg (i : Nat) : (s.poolFree i).cfg = s.cfg := rfl
@[simp] theorem State.poolFree_run (i : Nat) : (s.poolFree i).run = s.run := rfl
@[simp] theorem State.poolFree_haltCause (i : Nat) : (s.poolFree i).haltCause = s.haltCause := rfl
@[simp] theorem State.poolFree_log (i : Nat) : (s.poolFree i).log = s.log := rfl
@[simp] theorem State.poolFree_enc (i : Nat) : (s.poolFree i).enc = s.enc := rfl
@[simp] theorem State.poolFree_fragOutLen (i : Nat) : (s.poolFree i).fragOutLen = s.fragOutLen := rfl
@[simp] theorem State.poolFree_tgts (i : Nat) : (s.poolFree i).tgts = s.tgts := rfl
@[simp] theorem State.poolFree_transientLen (i : Nat) : (s.poolFree i).transientLen = s.transientLen := rfl
@[simp] theorem State.poolFree_slots (i : Nat) : (s.poolFree i).slots = s.slots.modify i fun sl => { sl with owner := .free } := rfl
@[simp] theorem State.poolFree_pduIn (i : Nat) : (s.poolFree i).pduIn = s.pduIn := rfl
@[simp] theorem State.poolFree_fragOut (i : Nat) : (s.poolFree i).fragOut = s.fragOut := rfl
@[simp] theorem State.poolFree_dgramIn (i : Nat) : (s.poolFree i).dgramIn = s.dgramIn := rfl
@[simp] theorem State.poolFree_transient (i : Nat) : (s.poolFree i).transient = s.transient := rfl
@[simp] theorem State.poolFree_rsp (i : Nat) : (s.poolFree i).rsp = s.rsp := rfl
@[simp] theorem State.poolFree_seq (i : Nat) : (s.poolFree i).seq = s.seq := rfl
@[simp] theorem State.poolFree_ports (i : Nat) : (s.poolFree i).ports = s.ports := rfl
@[simp] theorem State.poolFree_epoch (i : Nat) : (s.poolFree i).epoch = s.epoch := rfl
@[simp] theorem State.poolFree_tgt (i : Nat) (f' : Fid) : (s.poolFree i).tgt f' = s.tgt f' := rfl
@[simp] theorem State.poolFree_codec (i : Nat) : (s.poolFree i).codec = s.codec := rfl

/-! ### `addEvent` -/

@[simp] theorem State.addEvent_cfg (u : LogUnit) (c : RespCode) (f : Fid) : (s.addEvent u c f).cfg = s.cfg := rfl
@[simp] theorem State.addEvent_run (u : LogUnit) (c : RespCode) (f : Fid) : (s.addEvent u c f).run = s.run := rfl
@[simp] theorem State.addEvent_haltCause (u : LogUnit) (c : RespCode) (f : Fid) : (s.addEvent u c f).haltCause = s.haltCause := rfl
@[simp] theorem State.addEvent_log (u : LogUnit) (c : RespCode) (f : Fid) : (s.addEvent u c f).log = s.log ++ [⟨u, c, f⟩] := rfl
@[simp] theorem State.addEvent_enc (u : LogUnit) (c : RespCode) (f : Fid) : (s.addEvent u c f).enc = s.enc := rfl
@[simp] theorem State.addEvent_fragOutLen (u : LogUnit) (c : RespCode) (f : Fid) : (s.addEvent u c f).fragOutLen = s.fragOutLen := rfl
@[simp] theorem State.addEvent_tgts (u : LogUnit) (c : RespCode) (f : Fid) : (s.addEvent u c f).tgts = s.tgts := rfl
@[simp] theorem State.addEvent_transientLen (u : LogUnit) (c : RespCode) (f : Fid) : (s.addEvent u c f).transientLen = s.transientLen := rfl
@[simp] theorem State.addEvent_slots (u : LogUnit) (c : RespCode) (f : Fid) : (s.addEvent u c f).slots = s.slots := rfl
@[simp] theorem State.addEvent_pduIn (u : LogUnit) (c : RespCode) (f : Fid) : (s.addEvent u c f).pduIn = s.pduIn := rfl
@[simp] theorem State.addEvent_fragOut (u : LogUnit) (c : RespCode) (f : Fid) : (s.addEvent u c f).fragOut = s.fragOut := rfl
@[simp] theorem State.addEvent_dgramIn (u : LogUnit) (c : RespCode) (f : Fid) : (s.addEvent u c f).dgramIn = s.dgramIn := rfl
@[simp] theorem State.addEvent_transient (u : LogUnit) (c : RespCode) (f : Fid) : (s.addEvent u c f).transient = s.transient := rfl
@[simp] theorem State.addEvent_rsp (u : LogUnit) (c : RespCode) (f : Fid) : (s.addEvent u c f).rsp = s.rsp := rfl
@[simp] theorem State.addEvent_seq (u : LogUnit) (c : RespCode) (f : Fid) : (s.addEvent u c f).seq = s.seq := rfl
@[simp] theorem State.addEvent_ports (u : LogUnit) (c : RespCode) (f : Fid) : (s.addEvent u c f).ports = s.ports := rfl
@[simp] theorem State.addEvent_epoch (u : LogUnit) (c : RespCode) (f : Fid) : (s.addEvent u c f).epoch = s.epoch := rfl
@[simp] theorem State.addEvent_tgt (u : LogUnit) (c : RespCode) (f : Fid) (f' : Fid) : (s.addEvent u c f).tgt f' = s.tgt f' := rfl
@[simp] theorem State.addEvent_mem (u : LogUnit) (c : RespCode) (f : Fid) (sp : Space) : (s.addEvent u c f).mem sp = s.mem sp := by cases sp <;> rfl
@[simp] theorem State.addEvent_memSize (u : LogUnit) (c : RespCode) (f : Fid) (sp : Space) : (s.addEvent u c f).memSize sp = s.memSize sp := by cases sp <;> rfl
@[simp] theorem State.addEvent_readByte (u : LogUnit) (c : RespCode) (f : Fid) (sp : Space) (k : Nat) : (s.addEvent u c f).readByte sp k = s.readByte sp k := by cases sp <;> rfl
@[simp] theorem State.addEvent_readBytes (u : LogUnit) (c : RespCode) (f : Fid) (sp : Space) (k m : Nat) : (s.addEvent u c f).readBytes sp k m = s.readBytes sp k m := by cases sp <;> rfl
@[simp] theorem State.addEvent_memRead (u : LogUnit) (c : RespCode) (f : Fid) (sp : Space) (k m : Nat) : (s.addEvent u c f).memRead sp k m = s.memRead sp k m := by cases sp <;> rfl
@[simp] theorem State.addEvent_codec (u : LogUnit) (c : RespCode) (f : Fid) : (s.addEvent u c f).codec = s.codec := rfl

/-! ### `setFragOutLen` -/

@[simp] theorem State.setFragOutLen_cfg (n : Nat) : (s.setFragOutLen n).cfg = s.cfg := rfl
@[simp] theorem State.setFragOutLen_run (n : Nat) : (s.setFragOutLen n).run = s.run := rfl
@[simp] theorem State.setFragOutLen_haltCause (n : Nat) : (s.setFragOutLen n).haltCause = s.haltCause := rfl
@[simp] theorem State.setFragOutLen_log (n : Nat) : (s.setFragOutLen n).log = s.log := rfl
@[simp] theorem State.setFragOutLen_enc (n : Nat) : (s.setFragOutLen n).enc = s.enc := rfl
@[simp] theorem State.setFragOutLen_fragOutLen (n : Nat) : (s.setFragOutLen n).fragOutLen = n := rfl
@[simp] theorem State.setFragOutLen_tgts (n : Nat) : (s.setFragOutLen n).tgts = s.tgts := rfl
@[simp] theorem State.setFragOutLen_transientLen (n : Nat) : (s.setFragOutLen n).transientLen = s.transientLen := rfl
@[simp] theorem State.setFragOutLen_slots (n : Nat) : (s.setFragOutLen n).slots = s.slots := rfl
@[simp] theorem State.setFragOutLen_pduIn (n : Nat) : (s.setFragOutLen n).pduIn = s.pduIn := rfl
@[simp] theorem State.setFragOutLen_fragOut (n : Nat) : (s.setFragOutLen n).fragOut = s.fragOut := rfl
@[simp] theorem State.setFragOutLen_dgramIn (n : Nat) : (s.setFragOutLen n).dgramIn = s.dgramIn := rfl
@[simp] theorem State.setFragOutLen_transient (n : Nat) : (s.setFragOutLen n).transient = s.transient := rfl
@[simp] theorem State.setFragOutLen_rsp (n : Nat) : (s.setFragOutLen n).rsp = s.rsp := rfl
@[simp] theorem State.setFragOutLen_seq (n : Nat) : (s.setFragOutLen n).seq = s.seq := rfl
@[simp] theorem State.setFragOutLen_ports (n : Nat) : (s.setFragOutLen n).ports = s.ports := rfl
@[simp] theorem State.setFragOutLen_epoch (n : Nat) : (s.setFragOutLen n).epoch = s.epoch := rfl
@[simp] theorem State.setFragOutLen_tgt (n : Nat) (f' : Fid) : (s.setFragOutLen n).tgt f' = s.tgt f' := rfl
@[simp] theorem State.setFragOutLen_mem (n : Nat) (sp : Space) : (s.setFragOutLen n).mem sp = s.mem sp := by cases sp <;> rfl
@[simp] theorem State.setFragOutLen_memSize (n : Nat) (sp : Space) : (s.setFragOutLen n).memSize sp = s.memSize sp := by cases sp <;> rfl
@[simp] theorem State.setFragOutLen_readByte (n : Nat) (sp : Space) (k : Nat) : (s.setFragOutLen n).readByte sp k = s.readByte sp k := by cases sp <;> rfl
@[simp] theorem State.setFragOutLen_readBytes (n : Nat) (sp : Space) (k m : Nat) : (s.setFragOutLen n).readBytes sp k m = s.readBytes sp k m := by cases sp <;> rfl
@[simp] theorem State.setFragOutLen_memRead (n : Nat) (sp : Space) (k m : Nat) : (s.setFragOutLen n).memRead sp k m = s.memRead sp k m := by cases sp <;> rfl
@[simp] theorem State.setFragOutLen_codec (n : Nat) : (s.setFragOutLen n).codec = s.codec := rfl

/-! ### `setTransientLen` -/

@[simp] theorem State.setTransientLen_cfg (n : Nat) : (s.setTransientLen n).cfg = s.cfg := rfl
@[simp] theorem State.setTransientLen_run (n : Nat) : (s.setTransientLen n).run = s.run := rfl
@[simp] theorem State.setTransientLen_haltCause (n : Nat) : (s.setTransientLen n).haltCause = s.haltCause := rfl
@[simp] theorem State.setTransientLen_log (n : Nat) : (s.setTransientLen n).log = s.log := rfl
@[simp] theorem State.setTransientLen_enc (n : Nat) : (s.setTransientLen n).enc = s.enc := rfl
@[simp] theorem State.setTransientLen_fragOutLen (n : Nat) : (s.setTransientLen n).fragOutLen = s.fragOutLen := rfl
@[simp] theorem State.setTransientLen_tgts (n : Nat) : (s.setTransientLen n).tgts = s.tgts := rfl
@[simp] theorem State.setTransientLen_transientLen (n : Nat) : (s.setTransientLen n).transientLen = n := rfl
@[simp] theorem State.setTransientLen_slots (n : Nat) : (s.setTransientLen n).slots = s.slots := rfl
@[simp] theorem State.setTransientLen_pduIn (n : Nat) : (s.setTransientLen n).pduIn = s.pduIn := rfl
@[simp] theorem State.setTransientLen_fragOut (n : Nat) : (s.setTransientLen n).fragOut = s.fragOut := rfl
@[simp] theorem State.setTransientLen_dgramIn (n : Nat) : (s.setTransientLen n).dgramIn = s.dgramIn := rfl
@[simp] theorem State.setTransientLen_transient (n : Nat) : (s.setTransientLen n).transient = s.transient := rfl
@[simp] theorem State.setTransientLen_rsp (n : Nat) : (s.setTransientLen n).rsp = s.rsp := rfl
@[simp] theorem State.setTransientLen_seq (n : Nat) : (s.setTransientLen n).seq = s.seq := rfl
@[simp] theorem State.setTransientLen_ports (n : Nat) : (s.setTransientLen n).ports = s.ports := rfl
@[simp] theorem State.setTransientLen_epoch (n : Nat) : (s.setTransientLen n).epoch = s.epoch := rfl
@[simp] theorem State.setTransientLen_tgt (n : Nat) (f' : Fid) : (s.setTransientLen n).tgt f' = s.tgt f' := rfl
@[simp] theorem State.setTransientLen_mem (n : Nat) (sp : Space) : (s.setTransientLen n).mem sp = s.mem sp := by cases sp <;> rfl
@[simp] theorem State.setTransientLen_memSize (n : Nat) (sp : Space) : (s.setTransientLen n).memSize sp = s.memSize sp := by cases sp <;> rfl
@[simp] theorem State.setTransientLen_readByte (n : Nat) (sp : Space) (k : Nat) : (s.setTransientLen n).readByte sp k = s.readByte sp k := by cases sp <;> rfl
@[simp] theorem State.setTransientLen_readBytes (n : Nat) (sp : Space) (k m : Nat) : (s.setTransientLen n).readBytes sp k m = s.readBytes sp k m := by cases sp <;> rfl
@[simp] theorem State.setTransientLen_memRead (n : Nat) (sp : Space) (k m : Nat) : (s.setTransientLen n).memRead sp k m = s.memRead sp k m := by cases sp <;> rfl
@[simp] theorem State.setTransientLen_codec (n : Nat) : (s.setTransientLen n).codec = s.codec := rfl

/-! ### `closeEnc` -/

@[simp] theorem State.closeEnc_cfg : (s.closeEnc).cfg = s.cfg := rfl
@[simp] theorem State.closeEnc_run : (s.closeEnc).run = s.run := rfl
@[simp] theorem State.closeEnc_haltCause : (s.closeEnc).haltCause = s.haltCause := rfl
@[simp] theorem State.closeEnc_log : (s.closeEnc).log = s.log := rfl
@[simp] theorem State.closeEnc_enc : (s.closeEnc).enc = s.enc.close s.epoch s.cfg.lw := rfl
@[simp] theorem State.closeEnc_fragOutLen : (s.closeEnc).fragOutLen = s.fragOutLen := rfl
@[simp] theorem State.closeEnc_tgts : (s.closeEnc).tgts = s.tgts := rfl
@[simp] theorem State.closeEnc_transientLen : (s.closeEnc).transientLen = s.transientLen := rfl
@[simp] theorem State.closeEnc_slots : (s.closeEnc).slots = s.slots := rfl
@[simp] theorem State.closeEnc_pduIn : (s.closeEnc).pduIn = s.pduIn := rfl
@[simp] theorem State.closeEnc_fragOut : (s.closeEnc).fragOut = s.fragOut := rfl
@[simp] theorem State.closeEnc_dgramIn : (s.closeEnc).dgramIn = s.dgramIn := rfl
@[simp] theorem State.closeEnc_transient : (s.closeEnc).transient = s.transient := rfl
@[simp] theorem State.closeEnc_rsp : (s.closeEnc).rsp = s.rsp := rfl
@[simp] theorem State.closeEnc_seq : (s.closeEnc).seq = s.seq := rfl
@[simp] theorem State.closeEnc_ports : (s.closeEnc).ports = s.ports := rfl
@[simp] theorem State.closeEnc_epoch : (s.closeEnc).epoch = s.epoch := rfl
@[simp] theorem State.closeEnc_tgt (f' : Fid) : (s.closeEnc).tgt f' = s.tgt f' := rfl
@[simp] theorem State.closeEnc_mem (sp : Space) : (s.closeEnc).mem sp = s.mem sp := by cases sp <;> rfl
@[simp] theorem State.closeEnc_memSize (sp : Space) : (s.closeEnc).memSize sp = s.memSize sp := by cases sp <;> rfl
@[simp] theorem State.closeEnc_readByte (sp : Space) (k : Nat) : (s.closeEnc).readByte sp k = s.readByte sp k := by cases sp <;> rfl
@[simp] theorem State.closeEnc_readBytes (sp : Space) (k m : Nat) : (s.closeEnc).readBytes sp k m = s.readBytes sp k m := by cases sp <;> rfl
@[simp] theorem State.closeEnc_memRead (sp : Space) (k m : Nat) : (s.closeEnc).memRead sp k m = s.memRead sp k m := by cases sp <;> rfl
@[simp] theorem State.closeEnc_codec : (s.closeEnc).codec = s.codec := rfl

/-! ### `closeTgt` -/

@[simp] theorem State.closeTgt_cfg (f : Fid) : (s.closeTgt f).cfg = s.cfg := rfl
@[simp] theorem State.closeTgt_run (f : Fid) : (s.closeTgt f).run = s.run := rfl
@[simp] theorem State.closeTgt_haltCause (f : Fid) : (s.closeTgt f).haltCause = s.haltCause := rfl
@[simp] theorem State.closeTgt_log (f : Fid) : (s.closeTgt f).log = s.log := rfl
@[simp] theorem State.closeTgt_enc (f : Fid) : (s.closeTgt f).enc = s.enc := rfl
@[simp] theorem State.closeTgt_fragOutLen (f : Fid) : (s.closeTgt f).fragOutLen = s.fragOutLen := rfl
@[simp] theorem State.closeTgt_tgts (f : Fid) : (s.closeTgt f).tgts = s.tgts.set f.toNat ((s.tgt f).close s.epoch s.cfg.lw f) := rfl
@[simp] theorem State.closeTgt_transientLen (f : Fid) : (s.closeTgt f).transientLen = s.transientLen := rfl
@[simp] theorem State.closeTgt_slots (f : Fid) : (s.closeTgt f).slots = s.slots := rfl
@[simp] theorem State.closeTgt_pduIn (f : Fid) : (s.closeTgt f).pduIn = s.pduIn := rfl
@[simp] theorem State.closeTgt_fragOut (f : Fid) : (s.closeTgt f).fragOut = s.fragOut := rfl
@[simp] theorem State.closeTgt_dgramIn (f : Fid) : (s.closeTgt f).dgramIn = s.dgramIn := rfl
@[simp] theorem State.closeTgt_transient (f : Fid) : (s.closeTgt f).transient = s.transient := rfl
@[simp] theorem State.closeTgt_rsp (f : Fid) : (s.closeTgt f).rsp = s.rsp := rfl
@[simp] theorem State.closeTgt_seq (f : Fid) : (s.closeTgt f).seq = s.seq := rfl
@[simp] theorem State.closeTgt_ports (f : Fid) : (s.closeTgt f).ports = s.ports := rfl
@[simp] theorem State.closeTgt_epoch (f : Fid) : (s.closeTgt f).epoch = s.epoch := rfl
@[simp] theorem State.closeTgt_mem (f : Fid) (sp : Space) : (s.closeTgt f).mem sp = s.mem sp := by cases sp <;> rfl
@[simp] theorem State.closeTgt_memSize (f : Fid) (sp : Space) : (s.closeTgt f).memSize sp = s.memSize sp := by cases sp <;> rfl
@[simp] theorem State.closeTgt_readByte (f : Fid) (sp : Space) (k : Nat) : (s.closeTgt f).readByte sp k = s.readByte sp k := by cases sp <;> rfl
@[simp] theorem State.closeTgt_readBytes (f : Fid) (sp : Space) (k m : Nat) : (s.closeTgt f).readBytes sp k m = s.readBytes sp k m := by cases sp <;> rfl
@[simp] theorem State.closeTgt_memRead (f : Fid) (sp : Space) (k m : Nat) : (s.closeTgt f).memRead sp k m = s.memRead sp k m := by cases sp <;> rfl
@[simp] theorem State.closeTgt_codec (f : Fid) : (s.closeTgt f).codec = s.codec := rfl

/-! ### `discard` -/

@[simp] theorem State.discard_cfg (f : Fid) : (s.discard f).cfg = s.cfg := rfl
@[simp] theorem State.discard_run (f : Fid) : (s.discard f).run = s.run := rfl
@[simp] theorem State.discard_haltCause (f : Fid) : (s.discard f).haltCause = s.haltCause := rfl
@[simp] theorem State.discard_log (f : Fid) : (s.discard f).log = s.log := rfl
@[simp] theorem State.discard_enc (f : Fid) : (s.discard f).enc = s.enc := rfl
@[simp] theorem State.discard_fragOutLen (f : Fid) : (s.discard f).fragOutLen = s.fragOutLen := rfl
@[simp] theorem State.discard_tgts (f : Fid) : (s.discard f).tgts = s.tgts.set f.toNat ((s.tgt f).close s.epoch s.cfg.lw f) := rfl
@[simp] theorem State.discard_transientLen (f : Fid) : (s.discard f).transientLen = s.transientLen := rfl
@[simp] theorem State.discard_slots (f : Fid) : (s.discard f).slots = s.slots.modify (s.tgt f).slot fun sl => { sl with owner := .free } := rfl
@[simp] theorem State.discard_pduIn (f : Fid) : (s.discard f).pduIn = s.pduIn := rfl
@[simp] theorem State.discard_fragOut (f : Fid) : (s.discard f).fragOut = s.fragOut := rfl
@[simp] theorem State.discard_dgramIn (f : Fid) : (s.discard f).dgramIn = s.dgramIn := rfl
@[simp] theorem State.discard_transient (f : Fid) : (s.discard f).transient = s.transient := rfl
@[simp] theorem State.discard_rsp (f : Fid) : (s.discard f).rsp = s.rsp := rfl
@[simp] theorem State.discard_seq (f : Fid) : (s.discard f).seq = s.seq := rfl
@[simp] theorem State.discard_ports (f : Fid) : (s.discard f).ports = s.ports := rfl
@[simp] theorem State.discard_epoch (f : Fid) : (s.discard f).epoch = s.epoch := rfl
@[simp] theorem State.discard_codec (f : Fid) : (s.discard f).codec = s.codec := rfl

/-! ### `addSlot` -/

@[simp] theorem State.addSlot_cfg (n : Nat) : (s.addSlot n).cfg = s.cfg := rfl
@[simp] theorem State.addSlot_run (n : Nat) : (s.addSlot n).run = s.run := rfl
@[simp] theorem State.addSlot_haltCause (n : Nat) : (s.addSlot n).haltCause = s.haltCause := rfl
@[simp] theorem State.addSlot_log (n : Nat) : (s.addSlot n).log = s.log := rfl
@[simp] theorem State.addSlot_enc (n : Nat) : (s.addSlot n).enc = s.enc := rfl
@[simp] theorem State.addSlot_fragOutLen (n : Nat) : (s.addSlot n).fragOutLen = s.fragOutLen := rfl
@[simp] theorem State.addSlot_tgts (n : Nat) : (s.addSlot n).tgts = s.tgts := rfl
@[simp] theorem State.addSlot_transientLen (n : Nat) : (s.addSlot n).transientLen = s.transientLen := rfl
@[simp] theorem State.addSlot_slots (n : Nat) : (s.addSlot n).slots = s.slots ++ [⟨n, .free, []⟩] := rfl
@[simp] theorem State.addSlot_pduIn (n : Nat) : (s.addSlot n).pduIn = s.pduIn := rfl
@[simp] theorem State.addSlot_fragOut (n : Nat) : (s.addSlot n).fragOut = s.fragOut := rfl
@[simp] theorem State.addSlot_dgramIn (n : Nat) : (s.addSlot n).dgramIn = s.dgramIn := rfl
@[simp] theorem State.addSlot_transient (n : Nat) : (s.addSlot n).transient = s.transient := rfl
@[simp] theorem State.addSlot_rsp (n : Nat) : (s.addSlot n).rsp = s.rsp := rfl
@[simp] theorem State.addSlot_seq (n : Nat) : (s.addSlot n).seq = s.seq := rfl
@[simp] theorem State.addSlot_ports (n : Nat) : (s.addSlot n).ports = s.ports := rfl
@[simp] theorem State.addSlot_epoch (n : Nat) : (s.addSlot n).epoch = s.epoch := rfl
@[simp] theorem State.addSlot_tgt (n : Nat) (f' : Fid) : (s.addSlot n).tgt f' = s.tgt f' := rfl
@[simp] theorem State.addSlot_codec (n : Nat) : (s.addSlot n).codec = s.codec := rfl

/-! ### `advanceLabel` -/

@[simp] theorem State.advanceLabel_cfg : (s.advanceLabel).cfg = s.cfg := rfl
@[simp] theorem State.advanceLabel_run : (s.advanceLabel).run = s.run := rfl
@[simp] theorem State.advanceLabel_haltCause : (s.advanceLabel).haltCause = s.haltCause := rfl
@[simp] theorem State.advanceLabel_log : (s.advanceLabel).log = s.log := rfl
@[simp] theorem State.advanceLabel_enc : (s.advanceLabel).enc = { s.enc with labelCtr := (s.enc.labelCtr + 1) % 2 ^ (8 * s.cfg.lw) } := rfl
@[simp] theorem State.advanceLabel_fragOutLen : (s.advanceLabel).fragOutLen = s.fragOutLen := rfl
@[simp] theorem State.advanceLabel_tgts : (s.advanceLabel).tgts = s.tgts := rfl
@[simp] theorem State.advanceLabel_transientLen : (s.advanceLabel).transientLen = s.transientLen := rfl
@[simp] theorem State.advanceLabel_slots : (s.advanceLabel).slots = s.slots := rfl
@[simp] theorem State.advanceLabel_pduIn : (s.advanceLabel).pduIn = s.pduIn := rfl
@[simp] theorem State.advanceLabel_fragOut : (s.advanceLabel).fragOut = s.fragOut := rfl
@[simp] theorem State.advanceLabel_dgramIn : (s.advanceLabel).dgramIn = s.dgramIn := rfl
@[simp] theorem State.advanceLabel_transient : (s.advanceLabel).transient = s.transient := rfl
@[simp] theorem State.advanceLabel_rsp : (s.advanceLabel).rsp = s.rsp := rfl
@[simp] theorem State.advanceLabel_seq : (s.advanceLabel).seq = s.seq := rfl
@[simp] theorem State.advanceLabel_ports : (s.advanceLabel).ports = s.ports := rfl
@[simp] theorem State.advanceLabel_epoch : (s.advanceLabel).epoch = s.epoch := rfl
@[simp] theorem State.advanceLabel_tgt (f' : Fid) : (s.advanceLabel).tgt f' = s.tgt f' := rfl
@[simp] theorem State.advanceLabel_mem (sp : Space) : (s.advanceLabel).mem sp = s.mem sp := by cases sp <;> rfl
@[simp] theorem State.advanceLabel_memSize (sp : Space) : (s.advanceLabel).memSize sp = s.memSize sp := by cases sp <;> rfl
@[simp] theorem State.advanceLabel_readByte (sp : Space) (k : Nat) : (s.advanceLabel).readByte sp k = s.readByte sp k := by cases sp <;> rfl
@[simp] theorem State.advanceLabel_readBytes (sp : Space) (k m : Nat) : (s.advanceLabel).readBytes sp k m = s.readBytes sp k m := by cases sp <;> rfl
@[simp] theorem State.advanceLabel_memRead (sp : Space) (k m : Nat) : (s.advanceLabel).memRead sp k m = s.memRead sp k m := by cases sp <;> rfl
@[simp] theorem State.advanceLabel_codec : (s.advanceLabel).codec = s.codec := rfl

/-! ### `closeAllTgts` -/

@[simp] theorem State.closeAllTgts_cfg : (s.closeAllTgts).cfg = s.cfg := rfl
@[simp] theorem State.closeAllTgts_run : (s.closeAllTgts).run = s.run := rfl
@[simp] theorem State.closeAllTgts_haltCause : (s.closeAllTgts).haltCause = s.haltCause := rfl
@[simp] theorem State.closeAllTgts_log : (s.closeAllTgts).log = s.log := rfl
@[simp] theorem State.closeAllTgts_enc : (s.closeAllTgts).enc = s.enc := rfl
@[simp] theorem State.closeAllTgts_fragOutLen : (s.closeAllTgts).fragOutLen = s.fragOutLen := rfl
@[simp] theorem State.closeAllTgts_transientLen : (s.closeAllTgts).transientLen = s.transientLen := rfl
@[simp] theorem State.closeAllTgts_slots : (s.closeAllTgts).slots = s.slots := rfl
@[simp] theorem State.closeAllTgts_pduIn : (s.closeAllTgts).pduIn = s.pduIn := rfl
@[simp] theorem State.closeAllTgts_fragOut : (s.closeAllTgts).fragOut = s.fragOut := rfl
@[simp] theorem State.closeAllTgts_dgramIn : (s.closeAllTgts).dgramIn = s.dgramIn := rfl
@[simp] theorem State.closeAllTgts_transient : (s.closeAllTgts).transient = s.transient := rfl
@[simp] theorem State.closeAllTgts_rsp : (s.closeAllTgts).rsp = s.rsp := rfl
@[simp] theorem State.closeAllTgts_seq : (s.closeAllTgts).seq = s.seq := rfl
@[simp] theorem State.closeAllTgts_ports : (s.closeAllTgts).ports = s.ports := rfl
@[simp] theorem State.closeAllTgts_epoch : (s.closeAllTgts).epoch = s.epoch := rfl
@[simp] theorem State.closeAllTgts_mem (sp : Space) : (s.closeAllTgts).mem sp = s.mem sp := by cases sp <;> rfl
@[simp] theorem State.closeAllTgts_memSize (sp : Space) : (s.closeAllTgts).memSize sp = s.memSize sp := by cases sp <;> rfl
@[simp] theorem State.closeAllTgts_readByte (sp : Space) (k : Nat) : (s.closeAllTgts).readByte sp k = s.readByte sp k := by cases sp <;> rfl
@[simp] theorem State.closeAllTgts_readBytes (sp : Space) (k m : Nat) : (s.closeAllTgts).readBytes sp k m = s.readBytes sp k m := by cases sp <;> rfl
@[simp] theorem State.closeAllTgts_memRead (sp : Space) (k m : Nat) : (s.closeAllTgts).memRead sp k m = s.memRead sp k m := by cases sp <;> rfl
@[simp] theorem State.closeAllTgts_codec : (s.closeAllTgts).codec = s.codec := rfl

/-! ### `freeAllSlots` -/

@[simp] theorem State.freeAllSlots_cfg : (s.freeAllSlots).cfg = s.cfg := rfl
@[simp] theorem State.freeAllSlots_run : (s.freeAllSlots).run = s.run := rfl
@[simp] theorem State.freeAllSlots_haltCause : (s.freeAllSlots).haltCause = s.haltCause := rfl
@[simp] theorem State.freeAllSlots_log : (s.freeAllSlots).log = s.log := rfl
@[simp] theorem State.freeAllSlots_enc : (s.freeAllSlots).enc = s.enc := rfl
@[simp] theorem State.freeAllSlots_fragOutLen : (s.freeAllSlots).fragOutLen = s.fragOutLen := rfl
@[simp] theorem State.freeAllSlots_tgts : (s.freeAllSlots).tgts = s.tgts := rfl
@[simp] theorem State.freeAllSlots_transientLen : (s.freeAllSlots).transientLen = s.transientLen := rfl
@[simp] theorem State.freeAllSlots_slots : (s.freeAllSlots).slots = s.slots.map fun sl => { sl with owner := .free } := rfl
@[simp] theorem State.freeAllSlots_pduIn : (s.freeAllSlots).pduIn = s.pduIn := rfl
@[simp] theorem State.freeAllSlots_fragOut : (s.freeAllSlots).fragOut = s.fragOut := rfl
@[simp] theorem State.freeAllSlots_dgramIn : (s.freeAllSlots).dgramIn = s.dgramIn := rfl
@[simp] theorem State.freeAllSlots_transient : (s.freeAllSlots).transient = s.transient := rfl
@[simp] theorem State.freeAllSlots_rsp : (s.freeAllSlots).rsp = s.rsp := rfl
@[simp] theorem State.freeAllSlots_seq : (s.freeAllSlots).seq = s.seq := rfl
@[simp] theorem State.freeAllSlots_ports : (s.freeAllSlots).ports = s.ports := rfl
@[simp] theorem State.freeAllSlots_epoch : (s.freeAllSlots).epoch = s.epoch := rfl
@[simp] theorem State.freeAllSlots_tgt (f' : Fid) : (s.freeAllSlots).tgt f' = s.tgt f' := rfl
@[simp] theorem State.freeAllSlots_codec : (s.freeAllSlots).codec = s.codec := rfl

/-! ### `egressAt` -/

@[simp] theorem State.egressAt_cfg (p : EgressPos) : (s.egressAt p).cfg = s.cfg := rfl
@[simp] theorem State.egressAt_run (p : EgressPos) : (s.egressAt p).run = s.run := rfl
@[simp] theorem State.egressAt_haltCause (p : EgressPos) : (s.egressAt p).haltCause = s.haltCause := rfl
@[simp] theorem State.egressAt_log (p : EgressPos) : (s.egressAt p).log = s.log := rfl
@[simp] theorem State.egressAt_enc (p : EgressPos) : (s.egressAt p).enc = s.enc := rfl
@[simp] theorem State.egressAt_fragOutLen (p : EgressPos) : (s.egressAt p).fragOutLen = s.fragOutLen := rfl
@[simp] theorem State.egressAt_tgts (p : EgressPos) : (s.egressAt p).tgts = s.tgts := rfl
@[simp] theorem State.egressAt_transientLen (p : EgressPos) : (s.egressAt p).transientLen = s.transientLen := rfl
@[simp] theorem State.egressAt_slots (p : EgressPos) : (s.egressAt p).slots = s.slots := rfl
@[simp] theorem State.egressAt_pduIn (p : EgressPos) : (s.egressAt p).pduIn = s.pduIn := rfl
@[simp] theorem State.egressAt_fragOut (p : EgressPos) : (s.egressAt p).fragOut = s.fragOut := rfl
@[simp] theorem State.egressAt_dgramIn (p : EgressPos) : (s.egressAt p).dgramIn = s.dgramIn := rfl
@[simp] theorem State.egressAt_transient (p : EgressPos) : (s.egressAt p).transient = s.transient := rfl
@[simp] theorem State.egressAt_rsp (p : EgressPos) : (s.egressAt p).rsp = s.rsp := rfl
@[simp] theorem State.egressAt_seq (p : EgressPos) : (s.egressAt p).seq = { s.seq with egress := p } := rfl
@[simp] theorem State.egressAt_ports (p : EgressPos) : (s.egressAt p).ports = s.ports := rfl
@[simp] theorem State.egressAt_epoch (p : EgressPos) : (s.egressAt p).epoch = s.epoch := rfl
@[simp] theorem State.egressAt_tgt (p : EgressPos) (f' : Fid) : (s.egressAt p).tgt f' = s.tgt f' := rfl
@[simp] theorem State.egressAt_mem (p : EgressPos) (sp : Space) : (s.egressAt p).mem sp = s.mem sp := by cases sp <;> rfl
@[simp] theorem State.egressAt_memSize (p : EgressPos) (sp : Space) : (s.egressAt p).memSize sp = s.memSize sp := by cases sp <;> rfl
@[simp] theorem State.egressAt_readByte (p : EgressPos) (sp : Space) (k : Nat) : (s.egressAt p).readByte sp k = s.readByte sp k := by cases sp <;> rfl
@[simp] theorem State.egressAt_readBytes (p : EgressPos) (sp : Space) (k m : Nat) : (s.egressAt p).readBytes sp k m = s.readBytes sp k m := by cases sp <;> rfl
@[simp] theorem State.egressAt_memRead (p : EgressPos) (sp : Space) (k m : Nat) : (s.egressAt p).memRead sp k m = s.memRead sp k m := by cases sp <;> rfl
@[simp] theorem State.egressAt_codec (p : EgressPos) : (s.egressAt p).codec = s.codec := rfl

/-! ### `ingressAt` -/

@[simp] theorem State.ingressAt_cfg (p : IngressPos) : (s.ingressAt p).cfg = s.cfg := rfl
@[simp] theorem State.ingressAt_run (p : IngressPos) : (s.ingressAt p).run = s.run := rfl
@[simp] theorem State.ingressAt_haltCause (p : IngressPos) : (s.ingressAt p).haltCause = s.haltCause := rfl
@[simp] theorem State.ingressAt_log (p : IngressPos) : (s.ingressAt p).log = s.log := rfl
@[simp] theorem State.ingressAt_enc (p : IngressPos) : (s.ingressAt p).enc = s.enc := rfl
@[simp] theorem State.ingressAt_fragOutLen (p : IngressPos) : (s.ingressAt p).fragOutLen = s.fragOutLen := rfl
@[simp] theorem State.ingressAt_tgts (p : IngressPos) : (s.ingressAt p).tgts = s.tgts := rfl
@[simp] theorem State.ingressAt_transientLen (p : IngressPos) : (s.ingressAt p).transientLen = s.transientLen := rfl
@[simp] theorem State.ingressAt_slots (p : IngressPos) : (s.ingressAt p).slots = s.slots := rfl
@[simp] theorem State.ingressAt_pduIn (p : IngressPos) : (s.ingressAt p).pduIn = s.pduIn := rfl
@[simp] theorem State.ingressAt_fragOut (p : IngressPos) : (s.ingressAt p).fragOut = s.fragOut := rfl
@[simp] theorem State.ingressAt_dgramIn (p : IngressPos) : (s.ingressAt p).dgramIn = s.dgramIn := rfl
@[simp] theorem State.ingressAt_transient (p : IngressPos) : (s.ingressAt p).transient = s.transient := rfl
@[simp] theorem State.ingressAt_rsp (p : IngressPos) : (s.ingressAt p).rsp = s.rsp := rfl
@[simp] theorem State.ingressAt_seq (p : IngressPos) : (s.ingressAt p).seq = { s.seq with ingress := p } := rfl
@[simp] theorem State.ingressAt_ports (p : IngressPos) : (s.ingressAt p).ports = s.ports := rfl
@[simp] theorem State.ingressAt_epoch (p : IngressPos) : (s.ingressAt p).epoch = s.epoch := rfl
@[simp] theorem State.ingressAt_tgt (p : IngressPos) (f' : Fid) : (s.ingressAt p).tgt f' = s.tgt f' := rfl
@[simp] theorem State.ingressAt_mem (p : IngressPos) (sp : Space) : (s.ingressAt p).mem sp = s.mem sp := by cases sp <;> rfl
@[simp] theorem State.ingressAt_memSize (p : IngressPos) (sp : Space) : (s.ingressAt p).memSize sp = s.memSize sp := by cases sp <;> rfl
@[simp] theorem State.ingressAt_readByte (p : IngressPos) (sp : Space) (k : Nat) : (s.ingressAt p).readByte sp k = s.readByte sp k := by cases sp <;> rfl
@[simp] theorem State.ingressAt_readBytes (p : IngressPos) (sp : Space) (k m : Nat) : (s.ingressAt p).readBytes sp k m = s.readBytes sp k m := by cases sp <;> rfl
@[simp] theorem State.ingressAt_memRead (p : IngressPos) (sp : Space) (k m : Nat) : (s.ingressAt p).memRead sp k m = s.memRead sp k m := by cases sp <;> rfl
@[simp] theorem State.ingressAt_codec (p : IngressPos) : (s.ingressAt p).codec = s.codec := rfl

/-! ### `setPorts` -/

@[simp] theorem State.setPorts_cfg (p : Ports) : (s.setPorts p).cfg = s.cfg := rfl
@[simp] theorem State.setPorts_run (p : Ports) : (s.setPorts p).run = s.run := rfl
@[simp] theorem State.setPorts_haltCause (p : Ports) : (s.setPorts p).haltCause = s.haltCause := rfl
@[simp] theorem State.setPorts_log (p : Ports) : (s.setPorts p).log = s.log := rfl
@[simp] theorem State.setPorts_enc (p : Ports) : (s.setPorts p).enc = s.enc := rfl
@[simp] theorem State.setPorts_fragOutLen (p : Ports) : (s.setPorts p).fragOutLen = s.fragOutLen := rfl
@[simp] theorem State.setPorts_tgts (p : Ports) : (s.setPorts p).tgts = s.tgts := rfl
@[simp] theorem State.setPorts_transientLen (p : Ports) : (s.setPorts p).transientLen = s.transientLen := rfl
@[simp] theorem State.setPorts_slots (p : Ports) : (s.setPorts p).slots = s.slots := rfl
@[simp] theorem State.setPorts_pduIn (p : Ports) : (s.setPorts p).pduIn = s.pduIn := rfl
@[simp] theorem State.setPorts_fragOut (p : Ports) : (s.setPorts p).fragOut = s.fragOut := rfl
@[simp] theorem State.setPorts_dgramIn (p : Ports) : (s.setPorts p).dgramIn = s.dgramIn := rfl
@[simp] theorem State.setPorts_transient (p : Ports) : (s.setPorts p).transient = s.transient := rfl
@[simp] theorem State.setPorts_rsp (p : Ports) : (s.setPorts p).rsp = s.rsp := rfl
@[simp] theorem State.setPorts_seq (p : Ports) : (s.setPorts p).seq = s.seq := rfl
@[simp] theorem State.setPorts_ports (p : Ports) : (s.setPorts p).ports = p := rfl
@[simp] theorem State.setPorts_epoch (p : Ports) : (s.setPorts p).epoch = s.epoch := rfl
@[simp] theorem State.setPorts_tgt (p : Ports) (f' : Fid) : (s.setPorts p).tgt f' = s.tgt f' := rfl
@[simp] theorem State.setPorts_mem (p : Ports) (sp : Space) : (s.setPorts p).mem sp = s.mem sp := by cases sp <;> rfl
@[simp] theorem State.setPorts_memSize (p : Ports) (sp : Space) : (s.setPorts p).memSize sp = s.memSize sp := by cases sp <;> rfl
@[simp] theorem State.setPorts_readByte (p : Ports) (sp : Space) (k : Nat) : (s.setPorts p).readByte sp k = s.readByte sp k := by cases sp <;> rfl
@[simp] theorem State.setPorts_readBytes (p : Ports) (sp : Space) (k m : Nat) : (s.setPorts p).readBytes sp k m = s.readBytes sp k m := by cases sp <;> rfl
@[simp] theorem State.setPorts_memRead (p : Ports) (sp : Space) (k m : Nat) : (s.setPorts p).memRead sp k m = s.memRead sp k m := by cases sp <;> rfl
@[simp] theorem State.setPorts_codec (p : Ports) : (s.setPorts p).codec = s.codec := rfl

/-! ### `setShutdownReq` -/

@[simp] theorem State.setShutdownReq_cfg (b : Bool) : (s.setShutdownReq b).cfg = s.cfg := rfl
@[simp] theorem State.setShutdownReq_run (b : Bool) : (s.setShutdownReq b).run = s.run := rfl
@[simp] theorem State.setShutdownReq_haltCause (b : Bool) : (s.setShutdownReq b).haltCause = s.haltCause := rfl
@[simp] theorem State.setShutdownReq_log (b : Bool) : (s.setShutdownReq b).log = s.log := rfl
@[simp] theorem State.setShutdownReq_enc (b : Bool) : (s.setShutdownReq b).enc = s.enc := rfl
@[simp] theorem State.setShutdownReq_fragOutLen (b : Bool) : (s.setShutdownReq b).fragOutLen = s.fragOutLen := rfl
@[simp] theorem State.setShutdownReq_tgts (b : Bool) : (s.setShutdownReq b).tgts = s.tgts := rfl
@[simp] theorem State.setShutdownReq_transientLen (b : Bool) : (s.setShutdownReq b).transientLen = s.transientLen := rfl
@[simp] theorem State.setShutdownReq_slots (b : Bool) : (s.setShutdownReq b).slots = s.slots := rfl
@[simp] theorem State.setShutdownReq_pduIn (b : Bool) : (s.setShutdownReq b).pduIn = s.pduIn := rfl
@[simp] theorem State.setShutdownReq_fragOut (b : Bool) : (s.setShutdownReq b).fragOut = s.fragOut := rfl
@[simp] theorem State.setShutdownReq_dgramIn (b : Bool) : (s.setShutdownReq b).dgramIn = s.dgramIn := rfl
@[simp] theorem State.setShutdownReq_transient (b : Bool) : (s.setShutdownReq b).transient = s.transient := rfl
@[simp] theorem State.setShutdownReq_rsp (b : Bool) : (s.setShutdownReq b).rsp = s.rsp := rfl
@[simp] theorem State.setShutdownReq_seq (b : Bool) : (s.setShutdownReq b).seq = { s.seq with shutdownReq := b } := rfl
@[simp] theorem State.setShutdownReq_ports (b : Bool) : (s.setShutdownReq b).ports = s.ports := rfl
@[simp] theorem State.setShutdownReq_epoch (b : Bool) : (s.setShutdownReq b).epoch = s.epoch := rfl
@[simp] theorem State.setShutdownReq_tgt (b : Bool) (f' : Fid) : (s.setShutdownReq b).tgt f' = s.tgt f' := rfl
@[simp] theorem State.setShutdownReq_mem (b : Bool) (sp : Space) : (s.setShutdownReq b).mem sp = s.mem sp := by cases sp <;> rfl
@[simp] theorem State.setShutdownReq_memSize (b : Bool) (sp : Space) : (s.setShutdownReq b).memSize sp = s.memSize sp := by cases sp <;> rfl
@[simp] theorem State.setShutdownReq_readByte (b : Bool) (sp : Space) (k : Nat) : (s.setShutdownReq b).readByte sp k = s.readByte sp k := by cases sp <;> rfl
@[simp] theorem State.setShutdownReq_readBytes (b : Bool) (sp : Space) (k m : Nat) : (s.setShutdownReq b).readBytes sp k m = s.readBytes sp k m := by cases sp <;> rfl
@[simp] theorem State.setShutdownReq_memRead (b : Bool) (sp : Space) (k m : Nat) : (s.setShutdownReq b).memRead sp k m = s.memRead sp k m := by cases sp <;> rfl
@[simp] theorem State.setShutdownReq_codec (b : Bool) : (s.setShutdownReq b).codec = s.codec := rfl

/-! ### `takeInput` -/

@[simp] theorem State.takeInput_cfg (l : List Input) : (s.takeInput l).cfg = s.cfg := rfl
@[simp] theorem State.takeInput_run (l : List Input) : (s.takeInput l).run = s.run := rfl
@[simp] theorem State.takeInput_haltCause (l : List Input) : (s.takeInput l).haltCause = s.haltCause := rfl
@[simp] theorem State.takeInput_log (l : List Input) : (s.takeInput l).log = s.log := rfl
@[simp] theorem State.takeInput_enc (l : List Input) : (s.takeInput l).enc = s.enc := rfl
@[simp] theorem State.takeInput_fragOutLen (l : List Input) : (s.takeInput l).fragOutLen = s.fragOutLen := rfl
@[simp] theorem State.takeInput_tgts (l : List Input) : (s.takeInput l).tgts = s.tgts := rfl
@[simp] theorem State.takeInput_transientLen (l : List Input) : (s.takeInput l).transientLen = s.transientLen := rfl
@[simp] theorem State.takeInput_slots (l : List Input) : (s.takeInput l).slots = s.slots := rfl
@[simp] theorem State.takeInput_pduIn (l : List Input) : (s.takeInput l).pduIn = s.pduIn := rfl
@[simp] theorem State.takeInput_fragOut (l : List Input) : (s.takeInput l).fragOut = s.fragOut := rfl
@[simp] theorem State.takeInput_dgramIn (l : List Input) : (s.takeInput l).dgramIn = s.dgramIn := rfl
@[simp] theorem State.takeInput_transient (l : List Input) : (s.takeInput l).transient = s.transient := rfl
@[simp] theorem State.takeInput_rsp (l : List Input) : (s.takeInput l).rsp = s.rsp := rfl
@[simp] theorem State.takeInput_seq (l : List Input) : (s.takeInput l).seq = s.seq := rfl
@[simp] theorem State.takeInput_ports (l : List Input) : (s.takeInput l).ports = { s.ports with inputs := l } := rfl
@[simp] theorem State.takeInput_epoch (l : List Input) : (s.takeInput l).epoch = s.epoch := rfl
@[simp] theorem State.takeInput_tgt (l : List Input) (f' : Fid) : (s.takeInput l).tgt f' = s.tgt f' := rfl
@[simp] theorem State.takeInput_mem (l : List Input) (sp : Space) : (s.takeInput l).mem sp = s.mem sp := by cases sp <;> rfl
@[simp] theorem State.takeInput_memSize (l : List Input) (sp : Space) : (s.takeInput l).memSize sp = s.memSize sp := by cases sp <;> rfl
@[simp] theorem State.takeInput_readByte (l : List Input) (sp : Space) (k : Nat) : (s.takeInput l).readByte sp k = s.readByte sp k := by cases sp <;> rfl
@[simp] theorem State.takeInput_readBytes (l : List Input) (sp : Space) (k m : Nat) : (s.takeInput l).readBytes sp k m = s.readBytes sp k m := by cases sp <;> rfl
@[simp] theorem State.takeInput_memRead (l : List Input) (sp : Space) (k m : Nat) : (s.takeInput l).memRead sp k m = s.memRead sp k m := by cases sp <;> rfl
@[simp] theorem State.takeInput_codec (l : List Input) : (s.takeInput l).codec = s.codec := rfl

/-! ### `setMem` -/

@[simp] theorem State.setMem_cfg (sp : Space) (m : Memory) : (s.setMem sp m).cfg = s.cfg := by cases sp <;> rfl
@[simp] theorem State.setMem_run (sp : Space) (m : Memory) : (s.setMem sp m).run = s.run := by cases sp <;> rfl
@[simp] theorem State.setMem_haltCause (sp : Space) (m : Memory) : (s.setMem sp m).haltCause = s.haltCause := by cases sp <;> rfl
@[simp] theorem State.setMem_log (sp : Space) (m : Memory) : (s.setMem sp m).log = s.log := by cases sp <;> rfl
@[simp] theorem State.setMem_enc (sp : Space) (m : Memory) : (s.setMem sp m).enc = s.enc := by cases sp <;> rfl
@[simp] theorem State.setMem_fragOutLen (sp : Space) (m : Memory) : (s.setMem sp m).fragOutLen = s.fragOutLen := by cases sp <;> rfl
@[simp] theorem State.setMem_tgts (sp : Space) (m : Memory) : (s.setMem sp m).tgts = s.tgts := by cases sp <;> rfl
@[simp] theorem State.setMem_transientLen (sp : Space) (m : Memory) : (s.setMem sp m).transientLen = s.transientLen := by cases sp <;> rfl
@[simp] theorem State.setMem_rsp (sp : Space) (m : Memory) : (s.setMem sp m).rsp = s.rsp := by cases sp <;> rfl
@[simp] theorem State.setMem_seq (sp : Space) (m : Memory) : (s.setMem sp m).seq = s.seq := by cases sp <;> rfl
@[simp] theorem State.setMem_ports (sp : Space) (m : Memory) : (s.setMem sp m).ports = s.ports := by cases sp <;> rfl
@[simp] theorem State.setMem_epoch (sp : Space) (m : Memory) : (s.setMem sp m).epoch = s.epoch := by cases sp <;> rfl
@[simp] theorem State.setMem_tgt (sp : Space) (m : Memory) (f : Fid) : (s.setMem sp m).tgt f = s.tgt f := by cases sp <;> rfl
@[simp] theorem State.setMem_codec (sp : Space) (m : Memory) : (s.setMem sp m).codec = s.codec := by cases sp <;> rfl
@[simp] theorem State.setMem_pduIn_slots (m : Memory) : (s.setMem .pduIn m).slots = s.slots := rfl
@[simp] theorem State.setMem_pduIn_pduIn (m : Memory) : (s.setMem .pduIn m).pduIn = m := rfl
@[simp] theorem State.setMem_pduIn_fragOut (m : Memory) : (s.setMem .pduIn m).fragOut = s.fragOut := rfl
@[simp] theorem State.setMem_pduIn_dgramIn (m : Memory) : (s.setMem .pduIn m).dgramIn = s.dgramIn := rfl
@[simp] theorem State.setMem_pduIn_transient (m : Memory) : (s.setMem .pduIn m).transient = s.transient := rfl
@[simp] theorem State.setMem_fragOut_slots (m : Memory) : (s.setMem .fragOut m).slots = s.slots := rfl
@[simp] theorem State.setMem_fragOut_pduIn (m : Memory) : (s.setMem .fragOut m).pduIn = s.pduIn := rfl
@[simp] theorem State.setMem_fragOut_fragOut (m : Memory) : (s.setMem .fragOut m).fragOut = m := rfl
@[simp] theorem State.setMem_fragOut_dgramIn (m : Memory) : (s.setMem .fragOut m).dgramIn = s.dgramIn := rfl
@[simp] theorem State.setMem_fragOut_transient (m : Memory) : (s.setMem .fragOut m).transient = s.transient := rfl
@[simp] theorem State.setMem_dgramIn_slots (m : Memory) : (s.setMem .dgramIn m).slots = s.slots := rfl
@[simp] theorem State.setMem_dgramIn_pduIn (m : Memory) : (s.setMem .dgramIn m).pduIn = s.pduIn := rfl
@[simp] theorem State.setMem_dgramIn_fragOut (m : Memory) : (s.setMem .dgramIn m).fragOut = s.fragOut := rfl
@[simp] theorem State.setMem_dgramIn_dgramIn (m : Memory) : (s.setMem .dgramIn m).dgramIn = m := rfl
@[simp] theorem State.setMem_dgramIn_transient (m : Memory) : (s.setMem .dgramIn m).transient = s.transient := rfl
@[simp] theorem State.setMem_transient_slots (m : Memory) : (s.setMem .transient m).slots = s.slots := rfl
@[simp] theorem State.setMem_transient_pduIn (m : Memory) : (s.setMem .transient m).pduIn = s.pduIn := rfl
@[simp] theorem State.setMem_transient_fragOut (m : Memory) : (s.setMem .transient m).fragOut = s.fragOut := rfl
@[simp] theorem State.setMem_transient_dgramIn (m : Memory) : (s.setMem .transient m).dgramIn = s.dgramIn := rfl
@[simp] theorem State.setMem_transient_transient (m : Memory) : (s.setMem .transient m).transient = m := rfl
@[simp] theorem State.setMem_slot_pduIn (i : Nat) (m : Memory) : (s.setMem (.slot i) m).pduIn = s.pduIn := rfl
@[simp] theorem State.setMem_slot_fragOut (i : Nat) (m : Memory) : (s.setMem (.slot i) m).fragOut = s.fragOut := rfl
@[simp] theorem State.setMem_slot_dgramIn (i : Nat) (m : Memory) : (s.setMem (.slot i) m).dgramIn = s.dgramIn := rfl
@[simp] theorem State.setMem_slot_transient (i : Nat) (m : Memory) : (s.setMem (.slot i) m).transient = s.transient := rfl
@[simp] theorem State.setMem_slot_slots (i : Nat) (m : Memory) : (s.setMem (.slot i) m).slots = s.slots.modify i fun sl => { sl with data := m } := rfl

end Sys2Proof.Machine
end

