-- ==== Sys2Proof/Laws/Check.lean ====
section
/-! SUPPORT. A test of the invariant that computes, for engines with REFCODEC, and the proof that passing it
is enough. -/

namespace Sys2Proof.Machine

/-- Canonical form and bound of one memory. -/
def Memory.check (m : Memory) (size : Nat) : Bool :=
  decide m.wf && decide (m.within size)

/-- The four staging memories, the slots, and the two lengths. -/
def MemInv.check (s : State) : Bool :=
  [s.pduIn, s.fragOut, s.dgramIn, s.transient].all (Memory.check · Config.stagingSize) &&
    s.slots.all (fun sl => sl.data.check sl.size) &&
    decide (max s.fragOutLen s.transientLen ≤ Config.stagingSize)

def EncInv.check (s : State) : Bool :=
  decide (s.enc.total ≤ Config.maxPdu ∧ s.enc.offset ≤ Config.maxPdu ∧
    s.enc.label.length = s.cfg.lw ∧ s.enc.labelCtr < 2 ^ (8 * s.cfg.lw) ∧
    (s.enc.state = .fragmenting → 1 ≤ s.enc.offset ∧ s.enc.offset ≤ s.enc.total))

def ContextOk.check (s : State) (f : Fid) (sl : Slot) : Bool :=
  decide (sl.owner = .ctx f ∧ (s.tgt f).acc ≤ gatherBound sl ∧
    (s.tgt f).crc =
      s.codec.crcUpdate s.codec.crcInit (s.readBytes (.slot (s.tgt f).slot) 0 (s.tgt f).acc))

/-- One target: its ranges and, when it is Reassembling, its slot. -/
def Target.check (s : State) (f : Fid) : Bool :=
  decide ((s.tgt f).acc ≤ Config.maxPdu ∧ (s.tgt f).label.length = s.cfg.lw) &&
    match (s.tgt f).state with
    | .awaitingFirst => true
    | .reassembling =>
      match s.slots[(s.tgt f).slot]? with
      | none => false
      | some sl => ContextOk.check s f sl

/-- The owner of one slot: a context that is bound to it. -/
def Owner.check (s : State) (i : Nat) (o : Owner) : Bool :=
  match o with
  | .ctx f => decide ((s.tgt f).state = .reassembling ∧ (s.tgt f).slot = i)
  | .free => true
  | .held => true

/-- All 256 fragment-ids. -/
def allFids (p : Fid → Bool) : Bool :=
  (List.range 256).all fun k => p (BitVec.ofNat 8 k)

def PoolInv.check (s : State) : Bool :=
  decide (s.slots.length ≤ s.cfg.n) && s.slots.all (fun sl => decide (sl.size < 2 ^ 32)) &&
    allFids (Target.check s) && s.slots.zipIdx.all fun (sl, i) => Owner.check s i sl.owner

def RunInv.check (s : State) : Bool :=
  decide ((s.run = .running → s.cfg.Legal) ∧ s.cfg.codec = .refcodec ∧ (s.run = .running → s.haltCause = .ok) ∧
    (s.haltCause = .ok ∨ s.haltCause = .setupError ∨ s.haltCause = .ioError) ∧
    (s.run = .halted → s.enc.state = .idle) ∧ (s.run = .halted → ∀ sl ∈ s.slots, sl.owner = .free)) &&
    (decide (s.run = .running) || allFids fun f => decide ((s.tgt f).state = .awaitingFirst))

def Input.check : Input → Bool
  | .hostWrite _ a bytes => decide (a + bytes.length ≤ Config.stagingSize)
  | .request _ => true
  | .shutdownReq _ => true
  | .egressTurn => true
  | .ingressTurn => true
  | .reset cfg => decide (cfg.codec = .refcodec)

def IngressPos.check (s : State) : IngressPos → Bool
  | .decap n => decide (n ≤ Config.maxPdu)
  | .deliver h len => decide (s.run = .running → len ≤ s.memSize (handleSpace h))
  | .boot _ => true
  | .top => true
  | .release _ => true
  | .stopped => true

def SeqInv.check (s : State) : Bool :=
  s.ports.inputs.all Input.check && IngressPos.check s s.seq.ingress

/-- The invariant, tested. -/
def Inv.check (s : State) : Bool :=
  MemInv.check s && EncInv.check s && PoolInv.check s && RunInv.check s && SeqInv.check s

theorem Memory.check_sound {m : Memory} {n : Nat} (h : m.check n = true) : m.wf ∧ m.within n := by
  simpa only [Memory.check, Bool.and_eq_true, decide_eq_true_eq] using h

theorem allFids_sound {p : Fid → Bool} (h : allFids p = true) (f : Fid) : p f = true := by
  have := List.all_eq_true.mp h f.toNat (by simpa using f.isLt)
  simpa using this

theorem MemInv.check_sound {s : State} (h : MemInv.check s = true) : MemInv s := by
  rw [MemInv.check, Bool.and_eq_true, Bool.and_eq_true, List.all_eq_true, List.all_eq_true] at h
  have staging : ∀ m ∈ [s.pduIn, s.fragOut, s.dgramIn, s.transient], m.wf ∧ m.within Config.stagingSize :=
    fun m hm => Memory.check_sound (h.1.1 m hm)
  have slot : ∀ sl ∈ s.slots, sl.data.wf ∧ sl.data.within sl.size :=
    fun sl hs => Memory.check_sound (h.1.2 sl hs)
  have lengths := max_le_iff.mp (of_decide_eq_true h.2)
  simp only [List.forall_mem_cons] at staging
  exact
    { pduIn_wf := staging.1.1
      pduIn_within := staging.1.2
      fragOut_wf := staging.2.1.1
      fragOut_within := staging.2.1.2
      dgramIn_wf := staging.2.2.1.1
      dgramIn_within := staging.2.2.1.2
      transient_wf := staging.2.2.2.1.1
      transient_within := staging.2.2.2.1.2
      slot_wf := fun sl hs => (slot sl hs).1
      slot_within := fun sl hs => (slot sl hs).2
      fragOutLen_le := lengths.1
      transientLen_le := lengths.2 }

theorem EncInv.check_sound {s : State} (h : EncInv.check s = true) : EncInv s := by
  simp only [EncInv.check, decide_eq_true_eq] at h
  exact ⟨h.1, h.2.1, h.2.2.1, h.2.2.2.1, h.2.2.2.2⟩

theorem PoolInv.check_sound {s : State} (h : PoolInv.check s = true) : PoolInv s := by
  simp only [PoolInv.check, Bool.and_eq_true, decide_eq_true_eq, List.all_eq_true] at h
  obtain ⟨⟨⟨h1, h2⟩, h3⟩, h4⟩ := h
  have ht : ∀ f, Target.check s f = true := allFids_sound h3
  simp only [Target.check, Bool.and_eq_true, decide_eq_true_eq] at ht
  refine ⟨h1, h2, fun f => (ht f).1.1, fun f => (ht f).1.2, fun f hf => ?_, fun i sl f hi ho => ?_⟩
  · have := (ht f).2
    simp only [hf] at this
    split at this
    · cases this
    · rename_i sl hsl
      simp only [ContextOk.check, decide_eq_true_eq] at this
      exact ⟨sl, hsl, this.1, this.2.1, this.2.2⟩
  · have := h4 (sl, i) (List.mk_mem_zipIdx_iff_getElem?.mpr hi)
    simpa only [Owner.check, ho, decide_eq_true_eq] using this

theorem RunInv.check_sound {s : State} (h : RunInv.check s = true) : RunInv s := by
  simp only [RunInv.check, Bool.and_eq_true, Bool.or_eq_true, decide_eq_true_eq] at h
  obtain ⟨⟨h1, hc, h2, h3, h4, h5⟩, h6⟩ := h
  refine ⟨h1, fun _ => .inl hc, h2, h3, h4, fun hr f => ?_, h5⟩
  rcases h6 with h6 | h6
  · rw [h6] at hr; cases hr
  · simpa using allFids_sound h6 f

theorem SeqInv.check_sound {s : State} (h : SeqInv.check s = true) : SeqInv s := by
  simp only [SeqInv.check, Bool.and_eq_true, List.all_eq_true] at h
  refine ⟨fun x hx => ?_, ?_⟩
  · have := h.1 x hx
    cases x with
    | reset cfg => exact fun _ => .inl (by simpa [Input.check] using this)
    | _ => simp_all [Input.check, Input.InRange]
  · have := h.2
    cases hi : s.seq.ingress with
    | decap n => simpa [hi, IngressPos.check, IngressPos.InRange] using this
    | deliver hd len =>
      rw [hi] at this
      intro hr
      exact of_decide_eq_true (p := s.run = .running → len ≤ s.memSize (handleSpace hd)) this hr
    | _ => trivial

/-- A state that passes the test meets the invariant. -/
theorem Inv.check_sound {s : State} (h : Inv.check s = true) : Inv s := by
  simp only [Inv.check, Bool.and_eq_true] at h
  exact
    { mem := MemInv.check_sound h.1.1.1.1
      enc := EncInv.check_sound h.1.1.1.2
      pool := PoolInv.check_sound h.1.1.2
      run := RunInv.check_sound h.1.2
      seq := SeqInv.check_sound h.2 }

end Sys2Proof.Machine
end

