-- ==== Sys2Proof/Laws/Memory.lean ====
section
/-! SUPPORT. Byte memories: every operation keeps the canonical form, and a read after a write (R66, R67). -/

namespace Sys2Proof.Machine

theorem Memory.mem_cells {a : Nat} {bs : List Byte} {c : Host.Cell} (h : c ∈ Memory.cells a bs) :
    a ≤ c.1 ∧ c.1 < a + bs.length := by
  induction bs generalizing a with
  | nil => simp [Memory.cells] at h
  | cons b bs ih =>
    rw [Memory.cells, List.mem_cons] at h
    rcases h with rfl | h
    · simp
    · have := ih h; simp only [List.length_cons]; omega

theorem Memory.cells_wf (a : Nat) (bs : List Byte) : (Memory.cells a bs).wf := by
  induction bs generalizing a with
  | nil => exact List.Pairwise.nil
  | cons b bs ih =>
    rw [Memory.cells]
    refine List.Pairwise.cons (fun c hc => ?_) (ih (a + 1))
    have := Memory.mem_cells hc
    simp only; omega

/-- A write keeps the canonical form. -/
theorem Memory.write_wf {m : Memory} (h : m.wf) (a : Nat) (bs : List Byte) : (m.write a bs).wf := by
  unfold Memory.write Memory.wf
  rw [List.append_assoc, List.pairwise_append, List.pairwise_append]
  refine ⟨h.filter _, ⟨Memory.cells_wf a bs, h.filter _, ?_⟩, ?_⟩
  · intro x hx y hy
    have := Memory.mem_cells hx
    have hy := List.of_mem_filter hy
    simp only [decide_eq_true_eq] at hy
    omega
  · intro x hx y hy
    have hx := List.of_mem_filter hx
    simp only [decide_eq_true_eq] at hx
    rcases List.mem_append.mp hy with hy | hy
    · have := Memory.mem_cells hy; omega
    · have hy := List.of_mem_filter hy
      simp only [decide_eq_true_eq] at hy
      omega

/-- A write inside a bound stays inside it. -/
theorem Memory.write_within {m : Memory} {n a : Nat} {bs : List Byte} (h : m.within n)
    (hb : a + bs.length ≤ n) : (m.write a bs).within n := by
  intro c hc
  simp only [Memory.write, List.mem_append] at hc
  rcases hc with (hc | hc) | hc
  · exact h c (List.mem_of_mem_filter hc)
  · have := Memory.mem_cells hc; omega
  · exact h c (List.mem_of_mem_filter hc)

theorem Memory.read?_append (m n : Memory) (k : Nat) :
    Memory.read? (m ++ n) k = (Memory.read? m k).or (Memory.read? n k) := by
  unfold Memory.read?
  induction m with
  | nil => simp
  | cons c m ih =>
    obtain ⟨a, b⟩ := c
    simp only [List.cons_append, List.lookup_cons]
    cases hk : k == a <;> simp [ih]

theorem Memory.read?_cells (a : Nat) (bs : List Byte) (k : Nat) :
    Memory.read? (Memory.cells a bs) k = if a ≤ k then bs[k - a]? else none := by
  induction bs generalizing a with
  | nil => simp [Memory.cells, Memory.read?]
  | cons b bs ih =>
    have ih := ih (a + 1)
    rw [Memory.read?] at ih ⊢
    rw [Memory.cells, List.lookup_cons]
    by_cases hk : k = a
    · subst hk; simp
    · have : (k == a) = false := by simpa using hk
      rw [this]
      show List.lookup k (Memory.cells (a + 1) bs) = _
      rw [ih]
      by_cases hlt : a ≤ k
      · have e : k - a = (k - (a + 1)) + 1 := by omega
        have h1 : a + 1 ≤ k := by omega
        rw [if_pos hlt, if_pos h1, e, List.getElem?_cons_succ]
      · have h1 : ¬ a + 1 ≤ k := by omega
        rw [if_neg hlt, if_neg h1]

theorem Memory.read?_filter (m : Memory) (p : Nat → Bool) (k : Nat) :
    Memory.read? (m.filter fun c => p c.1) k = if p k then Memory.read? m k else none := by
  unfold Memory.read?
  induction m with
  | nil => simp
  | cons c m ih =>
    obtain ⟨a, b⟩ := c
    rw [List.filter_cons]
    by_cases hk : k = a
    · subst hk
      cases hp : p k
      · simp [hp, ih]
      · simp
    · have hk' : (k == a) = false := by simpa using hk
      cases hp : p a <;> simp [List.lookup_cons, hk', ih]

/-- A read after a write: inside the bytes written it gives them, elsewhere what was there (R67). -/
theorem Memory.read?_write (m : Memory) (a : Nat) (bs : List Byte) (k : Nat) :
    (m.write a bs).read? k =
      if a ≤ k ∧ k < a + bs.length then bs[k - a]? else m.read? k := by
  rw [Memory.write, Memory.read?_append, Memory.read?_append, Memory.read?_cells,
    Memory.read?_filter m (fun x => decide (x < a)) k,
    Memory.read?_filter m (fun x => decide (a + bs.length ≤ x)) k]
  by_cases h1 : k < a
  · have h2 : ¬ a ≤ k := by omega
    have h3 : ¬ a + bs.length ≤ k := by omega
    simp [h1, h2, h3]
  · have h2 : a ≤ k := by omega
    by_cases h3 : k < a + bs.length
    · have h4 : ¬ a + bs.length ≤ k := by omega
      have h5 : k - a < bs.length := by omega
      simp [h1, h2, h3, h4, h5]
    · have h4 : a + bs.length ≤ k := by omega
      have h5 : bs.length ≤ k - a := by omega
      simp [h1, h2, h3, h4, h5]

/-! ### MemRead and MemWrite on the state -/

variable {s t : State} {sp : Space} {a n : Nat} {bs : List Byte}

theorem State.memRead_eq (h : a + n ≤ s.memSize sp) : s.memRead sp a n = some (s.readBytes sp a n) :=
  if_pos h

theorem State.memWrite_eq (h : a + bs.length ≤ s.memSize sp) :
    s.memWrite sp a bs = some (s.setMem sp ((s.mem sp).write a bs)) :=
  if_pos h

/-- All MemWrite can do: it was inside the memory, and only that memory's content changed. -/
theorem State.memWrite_some (h : s.memWrite sp a bs = some t) :
    a + bs.length ≤ s.memSize sp ∧ t = s.setMem sp ((s.mem sp).write a bs) := by
  unfold State.memWrite at h
  split at h
  · exact ⟨‹_›, (Option.some.inj h).symm⟩
  · cases h

theorem State.memRead_some {p : List Byte} (h : s.memRead sp a n = some p) :
    a + n ≤ s.memSize sp ∧ p = s.readBytes sp a n := by
  unfold State.memRead at h
  split at h
  · exact ⟨‹_›, (Option.some.inj h).symm⟩
  · cases h

@[simp] theorem State.readBytes_length (s : State) (sp : Space) (a n : Nat) :
    (s.readBytes sp a n).length = n := by
  simp [State.readBytes]

theorem State.readBytes_getElem {k : Nat} (h : k < n) :
    (s.readBytes sp a n)[k]'(by simpa using h) = s.readByte sp (a + k) := by
  simp [State.readBytes]

theorem State.readBytes_congr {sp' : Space} {a' : Nat}
    (h : ∀ k < n, s.readByte sp (a + k) = t.readByte sp' (a' + k)) :
    s.readBytes sp a n = t.readBytes sp' a' n := by
  apply List.ext_getElem (by simp)
  intro k hk _
  have hk : k < n := by simpa using hk
  rw [State.readBytes_getElem hk, State.readBytes_getElem hk, h k hk]

theorem State.readBytes_append (s : State) (sp : Space) (a n m : Nat) :
    s.readBytes sp a (n + m) = s.readBytes sp a n ++ s.readBytes sp (a + n) m := by
  unfold State.readBytes
  rw [← List.map_append, List.range'_append_1]

theorem State.mem_slot {i : Nat} {sl : Slot} (h : s.slots[i]? = some sl) : s.mem (.slot i) = sl.data := by
  simp [State.mem, h]

theorem State.memSize_slot {i : Nat} {sl : Slot} (h : s.slots[i]? = some sl) :
    s.memSize (.slot i) = sl.size := by
  simp [State.memSize, h]

/-- The content of a memory after its own write; a slot must exist. -/
theorem State.mem_setMem_same (m : Memory) (h : ∀ i, sp = .slot i → i < s.slots.length) :
    (s.setMem sp m).mem sp = m := by
  cases sp with
  | slot i =>
    have hi := h i rfl
    simp [State.mem, hi]
  | _ => rfl

theorem State.mem_setMem_ne {sp' : Space} (m : Memory) (h : sp' ≠ sp) :
    (s.setMem sp m).mem sp' = s.mem sp' := by
  cases sp <;> cases sp' <;> first | rfl | exact absurd rfl h | skip
  rename_i i j
  have hij : i ≠ j := fun e => h (by rw [e])
  simp [State.mem, hij]

@[simp] theorem State.memSize_setMem (s : State) (sp sp' : Space) (m : Memory) :
    (s.setMem sp m).memSize sp' = s.memSize sp' := by
  cases sp <;> cases sp' <;> first | rfl | skip
  rename_i i j
  by_cases hij : i = j
  · subst hij
    cases hs : s.slots[i]? <;> simp [State.memSize, hs]
  · simp [State.memSize, hij]

theorem State.memWrite_slot_lt {i : Nat} (hb : bs ≠ []) (h : s.memWrite (.slot i) a bs = some t) :
    i < s.slots.length := by
  have hle := (State.memWrite_some h).1
  by_contra hi
  have hn : s.slots[i]? = none := List.getElem?_eq_none (by omega)
  have hl : bs.length ≠ 0 := fun e => hb (List.length_eq_zero_iff.mp e)
  simp only [State.memSize, hn] at hle
  omega

/-- One byte after MemWrite: the bytes written inside, everything else as it was (R67). -/
theorem State.readByte_setMem_write (sp sp' : Space) (a : Nat) (bs : List Byte) (k : Nat)
    (hs : ∀ i, sp = .slot i → i < s.slots.length) :
    (s.setMem sp ((s.mem sp).write a bs)).readByte sp' k =
      if h : sp' = sp ∧ a ≤ k ∧ k < a + bs.length then bs[k - a]'(by omega)
      else s.readByte sp' k := by
  unfold State.readByte
  by_cases hsp : sp' = sp
  · subst hsp
    rw [State.mem_setMem_same _ hs, Memory.read?_write, State.setMem_epoch]
    by_cases hk : a ≤ k ∧ k < a + bs.length
    · have h5 : k - a < bs.length := by omega
      rw [if_pos hk, dif_pos ⟨rfl, hk⟩, List.getElem?_eq_getElem h5]
    · rw [if_neg hk, dif_neg (fun h => hk h.2)]
  · rw [State.mem_setMem_ne _ hsp, State.setMem_epoch, dif_neg (fun h => hsp h.1)]

theorem State.readByte_memWrite {k : Nat} {sp' : Space} (h : s.memWrite sp a bs = some t)
    (hs : ∀ i, sp = .slot i → i < s.slots.length) :
    t.readByte sp' k =
      if h : sp' = sp ∧ a ≤ k ∧ k < a + bs.length then bs[k - a]'(by omega)
      else s.readByte sp' k := by
  rw [(State.memWrite_some h).2, State.readByte_setMem_write sp sp' a bs k hs]

/-- Reading back exactly what was written. -/
theorem State.readBytes_setMem_same (sp : Space) (a : Nat) (bs : List Byte)
    (hs : ∀ i, sp = .slot i → i < s.slots.length) :
    (s.setMem sp ((s.mem sp).write a bs)).readBytes sp a bs.length = bs := by
  apply List.ext_getElem (by simp)
  intro k hk _
  have hk : k < bs.length := by simpa using hk
  rw [State.readBytes_getElem hk, State.readByte_setMem_write sp sp a bs (a + k) hs,
    dif_pos ⟨rfl, by omega, by omega⟩]
  congr 1
  omega

/-- Reading below what was written. -/
theorem State.readBytes_setMem_below (sp : Space) (a n b : Nat) (bs : List Byte) (h : b + n ≤ a)
    (hs : ∀ i, sp = .slot i → i < s.slots.length) :
    (s.setMem sp ((s.mem sp).write a bs)).readBytes sp b n = s.readBytes sp b n := by
  apply State.readBytes_congr
  intro k hk
  rw [State.readByte_setMem_write sp sp a bs (b + k) hs, dif_neg (by omega)]

/-- Reading another memory. -/
theorem State.readBytes_setMem_ne {sp' : Space} (m : Memory) (h : sp' ≠ sp) (b n : Nat) :
    (s.setMem sp m).readBytes sp' b n = s.readBytes sp' b n := by
  apply State.readBytes_congr
  intro k _
  simp [State.readByte, State.mem_setMem_ne m h]

/-! ### Owners do not touch the bytes -/

theorem State.slots_setOwner (s : State) (i j : Nat) (o : Owner) :
    (s.setOwner i o).slots[j]? =
      (s.slots[j]?).map fun sl => if i = j then { sl with owner := o } else sl := by
  by_cases hij : i = j
  · subst hij; simp
  · simp [hij]

@[simp] theorem State.setOwner_mem (s : State) (i : Nat) (o : Owner) (sp : Space) :
    (s.setOwner i o).mem sp = s.mem sp := by
  cases sp <;> try rfl
  rename_i j
  simp only [State.mem, State.slots_setOwner]
  cases hs : s.slots[j]? with
  | none => rfl
  | some sl => simp only [Option.map_some]; split <;> rfl

@[simp] theorem State.setOwner_memSize (s : State) (i : Nat) (o : Owner) (sp : Space) :
    (s.setOwner i o).memSize sp = s.memSize sp := by
  cases sp <;> try rfl
  rename_i j
  simp only [State.memSize, State.slots_setOwner]
  cases hs : s.slots[j]? with
  | none => rfl
  | some sl => simp only [Option.map_some]; split <;> rfl

@[simp] theorem State.setOwner_readByte (s : State) (i : Nat) (o : Owner) (sp : Space) (k : Nat) :
    (s.setOwner i o).readByte sp k = s.readByte sp k := by
  simp [State.readByte]

@[simp] theorem State.setOwner_readBytes (s : State) (i : Nat) (o : Owner) (sp : Space) (k n : Nat) :
    (s.setOwner i o).readBytes sp k n = s.readBytes sp k n :=
  State.readBytes_congr fun _ _ => by simp

@[simp] theorem State.poolFree_mem (s : State) (i : Nat) (sp : Space) : (s.poolFree i).mem sp = s.mem sp :=
  State.setOwner_mem s i _ sp

@[simp] theorem State.poolFree_memSize (s : State) (i : Nat) (sp : Space) :
    (s.poolFree i).memSize sp = s.memSize sp :=
  State.setOwner_memSize s i _ sp

@[simp] theorem State.poolFree_readByte (s : State) (i : Nat) (sp : Space) (k : Nat) :
    (s.poolFree i).readByte sp k = s.readByte sp k :=
  State.setOwner_readByte s i _ sp k

@[simp] theorem State.discard_mem (s : State) (f : Fid) (sp : Space) : (s.discard f).mem sp = s.mem sp := by
  simp [State.discard]

@[simp] theorem State.discard_memSize (s : State) (f : Fid) (sp : Space) :
    (s.discard f).memSize sp = s.memSize sp := by
  simp [State.discard]

@[simp] theorem State.discard_readByte (s : State) (f : Fid) (sp : Space) (k : Nat) :
    (s.discard f).readByte sp k = s.readByte sp k := by
  simp [State.discard]

@[simp] theorem State.discard_readBytes (s : State) (f : Fid) (sp : Space) (k n : Nat) :
    (s.discard f).readBytes sp k n = s.readBytes sp k n :=
  State.readBytes_congr fun _ _ => by simp

@[simp] theorem State.freeAllSlots_mem (s : State) (sp : Space) : s.freeAllSlots.mem sp = s.mem sp := by
  cases sp <;> try rfl
  rename_i j
  simp only [State.mem, State.freeAllSlots_slots, List.getElem?_map]
  cases s.slots[j]? <;> rfl

@[simp] theorem State.freeAllSlots_memSize (s : State) (sp : Space) :
    s.freeAllSlots.memSize sp = s.memSize sp := by
  cases sp <;> try rfl
  rename_i j
  simp only [State.memSize, State.freeAllSlots_slots, List.getElem?_map]
  cases s.slots[j]? <;> rfl

@[simp] theorem State.freeAllSlots_readByte (s : State) (sp : Space) (k : Nat) :
    s.freeAllSlots.readByte sp k = s.readByte sp k := by
  simp [State.readByte]

end Sys2Proof.Machine
end

