-- ==== Sys2Proof/Laws/Ops.lean ====
section
/-! SUPPORT. The shared operations: one lemma per operation saying all it can do. -/

namespace Sys2Proof.Machine

/-! ### The codec -/

@[simp] theorem codecOf_refcodec {cfg : Cfg} (h : cfg.codec = .refcodec) :
    codecOf cfg = refCodec cfg.lw := by
  rw [codecOf, h]

@[simp] theorem codecOf_given {cfg : Cfg} {id : Nat} (h : cfg.codec = .given id) :
    codecOf cfg = Config.givenCodec id cfg.lw := by
  rw [codecOf, h]

/-- States with one configuration have one codec. -/
theorem State.codec_congr {s t : State} (h : t.cfg = s.cfg) : t.codec = s.codec := by
  rw [State.codec, State.codec, h]

variable {s t : State}

/-! ### Ending a command -/

@[simp] theorem respond_eq (r : Rsp16) (s : State) : respond r s = .next (s.setRsp r) := rfl

/-- Raising an error: one event, then the response with the code and the fragment-id alone (R281). -/
@[simp] theorem raise_eq (u : LogUnit) (c : RespCode) (f : Fid) (s : State) :
    raise u c f s = .next ((s.addEvent u c f).setRsp { code := c, fid := f }) := rfl

@[simp] theorem illegalCommand_eq (s : State) :
    illegalCommand s = .next (s.setRsp { code := .illegalCommand }) := rfl

theorem whenRunning_running (h : s.run = .running) (k : State → Res) : whenRunning s k = k s := by
  rw [whenRunning, h]

theorem whenRunning_halted (h : s.run = .halted) (k : State → Res) :
    whenRunning s k = .next (s.setRsp { code := .illegalCommand }) := by
  rw [whenRunning, h]; rfl

/-- What a guarded command can do: it ran while Running, or was turned away while Halted (R94). -/
theorem whenRunning_next {k : State → Res} (h : whenRunning s k = .next t) :
    (s.run = .running ∧ k s = .next t) ∨
      (s.run = .halted ∧ t = s.setRsp { code := .illegalCommand }) := by
  cases hr : s.run with
  | running => exact .inl ⟨rfl, by rwa [whenRunning_running hr] at h⟩
  | halted =>
    rw [whenRunning_halted hr] at h
    exact .inr ⟨rfl, by injection h with h; exact h.symm⟩

@[simp] theorem orStop_some {α : Type} (a : α) (f : Fault) (k : α → Res) : orStop (some a) f k = k a := rfl

@[simp] theorem orStop_none {α : Type} (f : Fault) (k : α → Res) : orStop none f k = .fault f := rfl

/-- Going on happens only with a value. -/
theorem orStop_next {α : Type} {o : Option α} {f : Fault} {k : α → Res} (h : orStop o f k = .next t) :
    ∃ a, o = some a ∧ k a = .next t := by
  cases o with
  | none => cases h
  | some a => exact ⟨a, rfl, h⟩

/-! ### Targets -/

@[simp] theorem State.tgt_setTgt_same (s : State) (f : Fid) (x : Target) : (s.setTgt f x).tgt f = x := by
  simp [State.tgt]

theorem State.tgt_setTgt_ne (s : State) {f g : Fid} (x : Target) (h : g ≠ f) :
    (s.setTgt f x).tgt g = s.tgt g := by
  have : f.toNat ≠ g.toNat := fun e => h (BitVec.eq_of_toNat_eq e.symm)
  simp [State.tgt, this]

@[simp] theorem State.setTgt_self (s : State) (f : Fid) : s.setTgt f (s.tgt f) = s := by
  unfold State.setTgt State.tgt
  congr 1
  simp

@[simp] theorem State.tgt_closeTgt_same (s : State) (f : Fid) :
    (s.closeTgt f).tgt f = (s.tgt f).close s.epoch s.cfg.lw f := by
  simp [State.closeTgt]

theorem State.tgt_closeTgt_ne (s : State) {f g : Fid} (h : g ≠ f) : (s.closeTgt f).tgt g = s.tgt g :=
  State.tgt_setTgt_ne s _ h

@[simp] theorem State.tgt_discard_same (s : State) (f : Fid) :
    (s.discard f).tgt f = (s.tgt f).close s.epoch s.cfg.lw f := by
  simp [State.discard]

theorem State.tgt_discard_ne (s : State) {f g : Fid} (h : g ≠ f) : (s.discard f).tgt g = s.tgt g :=
  State.tgt_setTgt_ne _ _ h

@[simp] theorem Target.close_state (e lw : Nat) (f : Fid) (x : Target) :
    (x.close e lw f).state = .awaitingFirst := rfl

theorem Target.close_label_length {lw : Nat} (h : lw ≤ 6) (e : Nat) (f : Fid) (x : Target) :
    (x.close e lw f).label.length = lw :=
  labelOfField_length h _

theorem Target.close_acc_le (e lw : Nat) (f : Fid) (x : Target) : (x.close e lw f).acc ≤ Config.maxPdu := by
  have := (Config.lostAcc e f x.gen).isLt
  simp only [Target.close, Config.maxPdu]
  omega

@[simp] theorem Enc.close_state (e lw : Nat) (x : Enc) : (x.close e lw).state = .idle := rfl

@[simp] theorem Enc.close_labelCtr (e lw : Nat) (x : Enc) : (x.close e lw).labelCtr = x.labelCtr := rfl

theorem Enc.close_label_length {lw : Nat} (h : lw ≤ 6) (e : Nat) (x : Enc) :
    (x.close e lw).label.length = lw :=
  labelOfField_length h _

theorem Enc.close_total_le (e lw : Nat) (x : Enc) : (x.close e lw).total ≤ Config.maxPdu := by
  have := (Config.lostEncTotal e x.gen).isLt
  simp only [Enc.close, Config.maxPdu]
  omega

theorem Enc.close_offset_le (e lw : Nat) (x : Enc) : (x.close e lw).offset ≤ Config.maxPdu := by
  have := (Config.lostEncOffset e x.gen).isLt
  simp only [Enc.close, Config.maxPdu]
  omega

/-! ### Slots -/

/-- All `pool_take` can do (R143): the least Free slot changes its owner, and nothing else changes. -/
theorem State.poolTake_some {o : Owner} {i : Nat} (h : s.poolTake o = some (i, t)) :
    t = s.setOwner i o ∧ (∃ sl, s.slots[i]? = some sl ∧ sl.owner = .free) ∧
      ∀ j sl, j < i → s.slots[j]? = some sl → sl.owner ≠ .free := by
  unfold State.poolTake State.freeSlot? at h
  split at h
  · cases h
  · rename_i k hk
    injection h with h
    injection h with h1 h2
    subst h1
    obtain ⟨hlt, hfree, hleast⟩ := List.findIdx?_eq_some_iff_getElem.mp hk
    refine ⟨h2.symm, ⟨s.slots[k], by simp [hlt], by simpa using hfree⟩, ?_⟩
    intro j sl hj hsl
    have hjl : j < s.slots.length := by omega
    have := hleast j hj
    rw [List.getElem?_eq_getElem hjl] at hsl
    injection hsl with hsl
    rw [← hsl]
    simpa using this

/-- `pool_take` fails exactly when no slot is Free (R143, R147). -/
theorem State.poolTake_none {o : Owner} : s.poolTake o = none ↔ ∀ sl ∈ s.slots, sl.owner ≠ .free := by
  unfold State.poolTake State.freeSlot?
  cases hk : s.slots.findIdx? fun sl => decide (sl.owner = .free) with
  | none =>
    rw [List.findIdx?_eq_none_iff] at hk
    simpa using hk
  | some k =>
    obtain ⟨hlt, hfree, -⟩ := List.findIdx?_eq_some_iff_getElem.mp hk
    simp only [reduceCtorEq, false_iff, not_forall]
    exact ⟨s.slots[k], List.getElem_mem hlt, by simpa using hfree⟩

theorem State.slots_discard (s : State) (f : Fid) (j : Nat) :
    (s.discard f).slots[j]? =
      (s.slots[j]?).map fun sl => if (s.tgt f).slot = j then { sl with owner := .free } else sl :=
  State.slots_setOwner s _ j .free

/-! ### Halting -/

theorem State.tgt_closeAllTgts (s : State) (f : Fid) :
    s.closeAllTgts.tgt f = match (s.tgt f).state with
      | .reassembling => (s.tgt f).close s.epoch s.cfg.lw f
      | .awaitingFirst => s.tgt f := by
  have hf := f.isLt
  simp only [State.closeAllTgts, State.tgt, Vector.getElem_mk, List.getElem_toArray, List.getElem_map,
    List.getElem_zipIdx, Vector.getElem_toList, Nat.zero_add, BitVec.ofNat_toNat, BitVec.setWidth_eq]
    <;> rfl

@[simp] theorem State.closeAllTgts_tgt_state (s : State) (f : Fid) :
    (s.closeAllTgts.tgt f).state = .awaitingFirst := by
  rw [State.tgt_closeAllTgts]
  cases h : (s.tgt f).state <;> simp [h]

/-- ENC after `idleEnc`: Idle, the label counter kept. -/
@[simp] theorem State.idleEnc_enc_state (s : State) : s.idleEnc.enc.state = .idle := by
  unfold State.idleEnc
  cases h : s.enc.state <;> simp [h]

@[simp] theorem State.idleEnc_enc_labelCtr (s : State) : s.idleEnc.enc.labelCtr = s.enc.labelCtr := by
  unfold State.idleEnc
  cases h : s.enc.state <;> simp

/-- All `idleEnc` can do: nothing but to ENC. -/
theorem State.idleEnc_eq (s : State) : ∃ e, s.idleEnc = s.setEnc e := by
  unfold State.idleEnc
  cases h : s.enc.state
  · exact ⟨s.enc, rfl⟩
  · exact ⟨_, rfl⟩

/-- All `haltEvent` can do: nothing but to LOG. -/
theorem State.haltEvent_eq (s : State) (c : RespCode) :
    s.haltEvent c = { s with log := s.log ++ if c = .ok then [] else [⟨.seq, c, 0⟩] } := by
  cases c <;> simp [State.haltEvent, State.addEvent]

@[simp] theorem State.halt_run (s : State) (c : RespCode) : (s.halt c).run = .halted := by
  simp [State.halt, State.haltEvent_eq]

@[simp] theorem State.halt_haltCause (s : State) (c : RespCode) : (s.halt c).haltCause = c := by
  simp [State.halt, State.haltEvent_eq]

@[simp] theorem State.halt_log (s : State) (c : RespCode) :
    (s.halt c).log = s.log ++ if c = .ok then [] else [⟨.seq, c, 0⟩] := by
  obtain ⟨e, he⟩ := s.closeAllTgts.freeAllSlots.idleEnc_eq
  simp [State.halt, State.haltEvent_eq, he]

@[simp] theorem State.halt_slots (s : State) (c : RespCode) :
    (s.halt c).slots = s.slots.map fun sl => { sl with owner := .free } := by
  obtain ⟨e, he⟩ := s.closeAllTgts.freeAllSlots.idleEnc_eq
  simp [State.halt, State.haltEvent_eq, he]

@[simp] theorem State.halt_enc_state (s : State) (c : RespCode) : (s.halt c).enc.state = .idle := by
  simp [State.halt, State.haltEvent_eq]

@[simp] theorem State.halt_enc_labelCtr (s : State) (c : RespCode) :
    (s.halt c).enc.labelCtr = s.enc.labelCtr := by
  simp [State.halt, State.haltEvent_eq]

theorem State.halt_tgt (s : State) (c : RespCode) (f : Fid) : (s.halt c).tgt f = s.closeAllTgts.tgt f := by
  obtain ⟨e, he⟩ := s.closeAllTgts.freeAllSlots.idleEnc_eq
  simp only [State.halt, State.haltEvent_eq, he]
  rfl

@[simp] theorem State.halt_tgt_state (s : State) (c : RespCode) (f : Fid) :
    ((s.halt c).tgt f).state = .awaitingFirst := by
  rw [State.halt_tgt, State.closeAllTgts_tgt_state]

/-- What halting leaves alone (R262). -/
theorem State.halt_frame (s : State) (c : RespCode) :
    (s.halt c).cfg = s.cfg ∧ (s.halt c).fragOutLen = s.fragOutLen ∧
    (s.halt c).transientLen = s.transientLen ∧ (s.halt c).pduIn = s.pduIn ∧
    (s.halt c).fragOut = s.fragOut ∧ (s.halt c).dgramIn = s.dgramIn ∧
    (s.halt c).transient = s.transient ∧ (s.halt c).rsp = s.rsp ∧ (s.halt c).seq = s.seq ∧
    (s.halt c).ports = s.ports ∧ (s.halt c).epoch = s.epoch := by
  obtain ⟨e, he⟩ := s.closeAllTgts.freeAllSlots.idleEnc_eq
  simp [State.halt, State.haltEvent_eq, he]

/-! ### SEQ -/

theorem afterCommand_next {r : Res} {k : Rsp16 → State → Res} (h : afterCommand r k = .next t) :
    ∃ u, r = .next u ∧ k u.rsp u = .next t := by
  cases r with
  | next u => exact ⟨u, rfl, h⟩
  | fault _ => cases h
  | refused _ => cases h

@[simp] theorem afterCommand_of_next (u : State) (k : Rsp16 → State → Res) :
    afterCommand (.next u) k = k u.rsp u := rfl

end Sys2Proof.Machine
end

