-- ==== Sys2Proof/Laws/PerInstr.lean ====
section
/-! SUPPORT. Statements about every instruction, one lemma per constructor. -/

namespace Sys2Proof.Laws

/-- The bytes an instruction's body adds to the fixed part of its format (R93, R111). -/
def bodyLength : Instr → Nat
  | .fragSingle _ _ body => body.length
  | .fragFirst _ _ body => body.length
  | .fragCont _ _ body => body.length
  | .fragLast _ _ body => body.length
  | .provision _ => 0
  | .acquire => 0
  | .release _ => 0
  | .nextLabel => 0
  | .beginEncap _ _ _ _ _ => 0
  | .continueEncap _ => 0
  | .pad _ => 0
  | .decap _ => 0
  | .shutdown => 0

/-- The fixed part of a format: a record of 20 bytes (R93), or the two header bytes (R111). -/
def fixedLength : Format → Nat
  | .req20 => 20
  | .frag => 2

/-- The encoder writes as many bytes as the format has. -/
def EncodeLength.Statement (i : Instr) : Prop :=
  (encode i).length = fixedLength i.format + bodyLength i

theorem requestRecord_length (op : Byte) (fid : Fid) (proto : Proto) (len cap : Word32)
    (label : LabelField) : (requestRecord op fid proto len cap label).length = 20 := by
  simp [requestRecord, zeros]

theorem fragmentBytes_length (s e : Bool) (lt : BitVec 2) (len : BitVec 12) (body : List Byte) :
    (fragmentBytes s e lt len body).length = 2 + body.length := by
  simp only [fragmentBytes, List.length_cons]; omega

theorem EncodeLength.provision (size : Word32) : EncodeLength.Statement (.provision size) :=
  requestRecord_length ..
theorem EncodeLength.acquire : EncodeLength.Statement .acquire := requestRecord_length ..
theorem EncodeLength.release (handle : Word32) : EncodeLength.Statement (.release handle) :=
  requestRecord_length ..
theorem EncodeLength.nextLabel : EncodeLength.Statement .nextLabel := requestRecord_length ..
theorem EncodeLength.beginEncap (fid : Fid) (proto : Proto) (len cap : Word32) (label : LabelField) :
    EncodeLength.Statement (.beginEncap fid proto len cap label) := requestRecord_length ..
theorem EncodeLength.continueEncap (cap : Word32) : EncodeLength.Statement (.continueEncap cap) :=
  requestRecord_length ..
theorem EncodeLength.pad (len : Word32) : EncodeLength.Statement (.pad len) := requestRecord_length ..
theorem EncodeLength.decap (len : Word32) : EncodeLength.Statement (.decap len) :=
  requestRecord_length ..
theorem EncodeLength.shutdown : EncodeLength.Statement .shutdown := requestRecord_length ..
theorem EncodeLength.fragSingle (lt : BitVec 2) (len : BitVec 12) (body : List Byte) :
    EncodeLength.Statement (.fragSingle lt len body) := fragmentBytes_length ..
theorem EncodeLength.fragFirst (lt : BitVec 2) (len : BitVec 12) (body : List Byte) :
    EncodeLength.Statement (.fragFirst lt len body) := fragmentBytes_length ..
theorem EncodeLength.fragCont (lt : BitVec 2) (len : BitVec 12) (body : List Byte) :
    EncodeLength.Statement (.fragCont lt len body) := fragmentBytes_length ..
theorem EncodeLength.fragLast (lt : BitVec 2) (len : BitVec 12) (body : List Byte) :
    EncodeLength.Statement (.fragLast lt len body) := fragmentBytes_length ..

end Sys2Proof.Laws
end

