-- ==== Sys2Proof/Tests/Slice0.lean ====
section
/-! SUPPORT. Tests: expected values are those of spec/95_test_vectors.md and of the examples in the rules,
or worked out by hand from the rules. Then the witnesses: for each statement of Obligations.lean with
hypotheses, a state and operands that meet them, at the boundaries of its clauses. -/

open Sys2Proof Sys2Proof.Machine

namespace Sys2Proof.Tests

set_option Elab.async false

/-! ### Helpers -/

/-- Whether a step answered a next state. -/
def isNext (r : Res) : Bool :=
  match r with
  | .next _ => true
  | .fault _ => false
  | .refused _ => false

/-- The state a step answered. -/
def after (r : Res) : State :=
  match r with
  | .next s => s
  | .fault _ => State.reset
  | .refused _ => State.reset

theorem next_after {r : Res} (h : isNext r = true) : r = .next (after r) := by
  cases r with
  | next s => rfl
  | fault e => cases h
  | refused e => cases h

/-- One command. -/
def go (i : Instr) (s : State) : State := after (exec i s)

/-- The reset state of a configuration that differs in label width and capacity. -/
def fresh (lw n : Nat) : State :=
  State.resetWith { Cfg.default with lw := lw, n := n } 0 false Ports.empty

/-- Bytes put into PDU_IN. -/
def withPdu (p : List Byte) (s : State) : State := s.setMem .pduIn (s.pduIn.write 0 p)

/-- Bytes put into DGRAM_IN. -/
def withDgram (d : List Byte) (s : State) : State := s.setMem .dgramIn (s.dgramIn.write 0 d)

/-- A datagram received. -/
def recv (d : List Byte) (s : State) : State := after (receive d s)

def single7 : List Byte :=
  [0xD0, 0x0C, 0x07, 0x08, 0x00, 0xA1, 0xB2, 0xC3, 0xDE, 0xAD, 0x7C, 0x50, 0x67, 0x93]
def single7bad : List Byte :=
  [0xD0, 0x0C, 0x07, 0x08, 0x00, 0xA1, 0xB2, 0xC3, 0xDE, 0xAD, 0x7C, 0x50, 0x67, 0x92]
def first7 : List Byte := [0x90, 0x08, 0x07, 0x08, 0x00, 0xA1, 0xB2, 0xC3, 0xDE, 0xAD]
def first8 : List Byte := [0x90, 0x08, 0x08, 0x08, 0x00, 0xA1, 0xB2, 0xC3, 0xDE, 0xAD]
def cont7 : List Byte := [0x10, 0x06, 0x07, 0xA1, 0xB2, 0xC3, 0xDE, 0xAD]
def cont7one : List Byte := [0x10, 0x05, 0x07, 0xA1, 0xB2, 0xC3, 0x01]
def cont7other : List Byte := [0x10, 0x06, 0x07, 0xA1, 0xB2, 0xC4, 0xDE, 0xAD]
def last7 : List Byte := [0x50, 0x0A, 0x07, 0xA1, 0xB2, 0xC3, 0xDE, 0xAD, 0x46, 0x1B, 0x29, 0xFF]
def last7bad : List Byte := [0x50, 0x0A, 0x07, 0xA1, 0xB2, 0xC3, 0xDE, 0xAD, 0x11, 0x22, 0x33, 0x44]
/-- An empty LAST fragment for `first8`. -/
def last8empty : List Byte := [0x50, 0x08, 0x08, 0xA1, 0xB2, 0xC3, 0x7C, 0x50, 0x67, 0x93]

/-- N = 2, slots of 4 and 8192 bytes (the start of the V-DEC chain). -/
def pool2 : State := go (.provision 8192) (go (.provision 4) (fresh 3 2))

/-- Target 7 Reassembling on slot 0 with 2 bytes (V-DEC4). -/
def open7 : State := recv first7 pool2

/-- Target 7 Reassembling on slot 0 with 4 bytes, the slot full (V-DEC6). -/
def full7 : State := recv cont7 open7

/-- Targets 7 and 8 Reassembling, no slot Free (V-DEC10). -/
def open78 : State := recv first8 open7

/-- Target 7 Reassembling on slot 0, slot 1 Held (V-DEC11). -/
def held1 : State := recv last8empty open78

/-- Target 7 Reassembling on slot 0, slot 1 Held by ACQUIRE (V-POOL6). -/
def acquired : State := go .acquire open7

/-- Target 7 with 4 bytes in a slot of 8192 (the start of V-DEC13). -/
def ready7 : State := recv cont7 (recv first7 (go (.provision 8192) (fresh 3 1)))

/-- The PDU 00 01 … 1D (program P1). -/
def pdu30 : List Byte := (List.range 30).map (BitVec.ofNat 8)

/-- Program P1 before and after its steps 2, 3 and 4. -/
def p1start : State := withPdu pdu30 (fresh 3 0)
def p1first : State := go (.beginEncap 1 0x1234 30 20 0) p1start
def p1cont : State := go (.continueEncap 20) p1first
def p1last : State := go (.continueEncap 20) p1cont

/-! ### Ill-formed instructions are refused by their check -/

theorem test_wf_decapLength : (Instr.decap 65536).failedChecks = [.decapLength] := by decide
theorem test_wf_padLength : (Instr.pad 65536).failedChecks = [.padLength] := by decide
theorem test_wf_labelType : (Instr.fragCont 3 1 [7]).failedChecks = [.labelType] := by decide
theorem test_wf_cutShort : (Instr.fragCont 2 3 [7, 0xDE]).failedChecks = [.cutShort] := by decide
theorem test_wf_tooShort : (Instr.fragLast 1 7 [7, 1, 2, 3, 1, 2, 3]).failedChecks = [.tooShort] := by decide
theorem test_wf_good : (Instr.fragLast 1 8 [7, 1, 2, 3, 1, 2, 3, 4]).WellFormed := by decide

/-! ### Words written out from the encodings (R92, R93, V-REC1 to V-REC10, R124) -/

/-- V-REC4. -/
theorem test_decode_provision :
    decodeRequest [1, 0, 0, 0, 0, 0, 0x20, 0, 0, 0, 0, 0, 0, 0, 0, 0, 0, 0, 0, 0] = .ok (.provision 8192) := by
  decide +kernel
/-- V-REC10. -/
theorem test_decode_acquire :
    decodeRequest (2 :: List.replicate 19 0xFF) = .ok .acquire := by decide +kernel
/-- V-REC3. -/
theorem test_decode_release :
    decodeRequest [3, 0, 0, 0, 0, 0, 0xFF, 0xFF, 0, 0, 0, 0, 0, 0, 0, 0, 0, 0, 0, 0] =
      .ok (.release 65535) := by decide +kernel
/-- Program P1, step 1. -/
theorem test_decode_nextLabel : decodeRequest (0x10 :: List.replicate 19 0) = .ok .nextLabel := by
  decide +kernel
/-- V-REC2. -/
theorem test_decode_beginEncap :
    decodeRequest [0x11, 1, 0x12, 0x34, 0, 0, 0, 0x1E, 0, 0, 0, 0x14, 1, 2, 3, 4, 5, 6, 0, 0] =
      .ok (.beginEncap 1 0x1234 30 20 0x010203040506) := by decide +kernel
/-- Program P1, step 3. -/
theorem test_decode_continueEncap :
    decodeRequest [0x12, 0, 0, 0, 0, 0, 0, 0, 0, 0, 0, 0x14, 0, 0, 0, 0, 0, 0, 0, 0] =
      .ok (.continueEncap 20) := by decide +kernel
/-- V-REC9. -/
theorem test_decode_pad :
    decodeRequest [0x13, 0, 0, 0, 0, 1, 0, 0, 0, 0, 0, 0, 0, 0, 0, 0, 0, 0, 0, 0] = .ok (.pad 65536) := by
  decide +kernel
/-- V-REC8. -/
theorem test_decode_decap :
    decodeRequest [0x20, 0, 0, 0, 0, 1, 0, 0, 0, 0, 0, 0, 0, 0, 0, 0, 0, 0, 0, 0] = .ok (.decap 65536) := by
  decide +kernel
/-- Program P4, step 21. -/
theorem test_decode_shutdown : decodeRequest (0x30 :: List.replicate 19 0) = .ok .shutdown := by
  decide +kernel
/-- V-REC7. -/
theorem test_decode_reserved : decodeRequest (0x7F :: List.replicate 19 0) = .error (.reservedOpcode 0x7F) := by
  decide +kernel
/-- R124, SINGLE: LT 01, LEN 12. -/
theorem test_decode_fragSingle : decodeDatagram single7 = .ok (.fragSingle 1 12 (single7.drop 2)) := by
  decide +kernel
/-- R124, FIRST: LT 01, LEN 8. -/
theorem test_decode_fragFirst : decodeDatagram first7 = .ok (.fragFirst 1 8 (first7.drop 2)) := by
  decide +kernel
/-- V-COD14: LEN 4095 uses the high 4 bits. -/
theorem test_decode_fragCont :
    decodeDatagram [0x1F, 0xFF, 7, 0xA1] = .ok (.fragCont 1 4095 [7, 0xA1]) := by decide +kernel
/-- R124, LAST: LT 01, LEN 10. -/
theorem test_decode_fragLast : decodeDatagram last7 = .ok (.fragLast 1 10 (last7.drop 2)) := by
  decide +kernel
/-- The opcode table's numbering: byte 0 is the least significant, DECAP len = 1 has its 1 in byte 7. -/
theorem test_table_decap : decodeTableWord 160 (0x20 + 2 ^ 56) = some (.decap 1) := by decide +kernel
/-- FRAG.LAST of LW = 0 with an empty payload and trailer 0: `60 05` and zeros. -/
theorem test_table_fragLast :
    decodeTableWord 16 0x0560 = some (.fragLast 2 5 [0, 0, 0, 0, 0]) := by decide +kernel
/-- V-DCD12, V-DCD13: a FIRST fragment needs LEN 6 with LW = 3. -/
theorem test_decode_minimum :
    refDecode 3 [0x90, 5, 7, 8, 0, 0xA1, 0xB2] = none ∧
      refDecode 3 [0x90, 6, 7, 8, 0, 0xA1, 0xB2, 0xC3] =
        some (.first 7 0x0800 [0xA1, 0xB2, 0xC3] []) := by decide +kernel
/-- V-REC6: a response record's bytes. -/
theorem test_response_bytes :
    (recv single7 (fresh 3 0)).rsp.bytes =
      [1, 7, 8, 0, 0, 0, 0, 2, 0xFF, 0xFF, 0xA1, 0xB2, 0xC3, 0, 0, 0] := by decide +kernel

/-! ### CRC (R240, V-CRC1, V-CRC3, V-CRC11 and the chunk values beside it) -/

theorem test_crc_check_value :
    crcUpdate crcInit [0x31, 0x32, 0x33, 0x34, 0x35, 0x36, 0x37, 0x38, 0x39] = 0x0376E6E7 ∧
      crcUpdate crcInit [] = 0xFFFFFFFF ∧ crcUpdate crcInit [0] = 0x4E08BFB4 := by decide +kernel
theorem test_crc_chunks :
    crcUpdate crcInit (pdu30.take 12) = 0xAD88945B ∧
      crcUpdate 0xAD88945B (pdu30.drop 12) = 0xDE33E164 := by decide +kernel

/-! ### POOL -/

/-- V-POOL1, V-POOL2. -/
theorem test_provision_ok :
    pool2.rsp.bytes = [0, 0, 0, 0, 0, 0, 0x20, 0, 0, 1, 0, 0, 0, 0, 0, 0] ∧ pool2.poolCount = 2 := by
  decide +kernel
/-- V-POOL3. -/
theorem test_provision_full :
    (go (.provision 8192) pool2).rsp.bytes = 0x80 :: List.replicate 15 0 ∧
      (go (.provision 8192) pool2).log = [⟨.pool, .poolFull, 0⟩] := by decide +kernel
/-- V-POOL6 (slot 0 is Ctx(7) here). -/
theorem test_acquire_ok :
    (go .acquire open7).rsp.bytes = [0, 0, 0, 0, 0, 0, 0x20, 0, 0, 1, 0, 0, 0, 0, 0, 0] ∧
      (go .acquire open7).slotEntry 1 = some (8192, .held) := by decide +kernel
/-- V-POOL5. -/
theorem test_acquire_exhausted :
    (go .acquire (fresh 3 2)).rsp.bytes = 0x81 :: List.replicate 15 0 ∧
      (go .acquire (fresh 3 2)).log = [⟨.pool, .poolExhausted, 0⟩] := by decide +kernel
/-- V-POOL8, on slot 1 after V-DEC11. -/
theorem test_release_ok :
    (go (.release 1) held1).rsp.handle = 1 ∧
      (go (.release 1) held1).slotEntry 1 = some (8192, .free) := by decide +kernel
/-- V-POOL10, V-POOL13: the handle is not cut to 16 bits. -/
theorem test_release_refused :
    (go (.release 0) open7).rsp.bytes = 0x82 :: 7 :: List.replicate 14 0 ∧
      (go (.release 0x10001) held1).rsp.code = .badHandle := by decide +kernel

/-! ### ENC -/

/-- V-LAB2. -/
theorem test_nextLabel :
    let s := (fresh 3 0).setEnc { (fresh 3 0).enc with labelCtr := 0xFFFF }
    (go .nextLabel s).rsp.bytes = [0, 0, 0, 0, 0, 0, 0, 0, 0, 0, 0, 0xFF, 0xFF, 0, 0, 0] ∧
      (go .nextLabel s).enc.labelCtr = 0x10000 := by decide +kernel
/-- V-LAB4: the wrap. -/
theorem test_nextLabel_wraps :
    let s := (fresh 6 0).setEnc { (fresh 6 0).enc with labelCtr := 0xFFFFFFFFFFFF }
    (go .nextLabel s).rsp.label = 0xFFFFFFFFFFFF ∧ (go .nextLabel s).enc.labelCtr = 0 := by decide +kernel
/-- R165's example. -/
theorem test_beginEncap_single :
    let t := go (.beginEncap 1 0x1234 5 64 0) (withPdu [0x48, 0x45, 0x4C, 0x4C, 0x4F] (fresh 3 0))
    t.fragment = [0xD0, 0x0F, 1, 0x12, 0x34, 0, 0, 0, 0x48, 0x45, 0x4C, 0x4C, 0x4F, 0x8C, 0xD7, 0xCD, 0xBA] ∧
      t.rsp.bytes = [1, 1, 0, 0, 0, 0, 0, 17, 0, 0, 0, 0, 0, 0, 0, 0] := by decide +kernel
/-- Program P1, step 2. -/
theorem test_beginEncap_first :
    p1first.fragment = [0x90, 0x12, 1, 0x12, 0x34, 0, 0, 0, 0, 1, 2, 3, 4, 5, 6, 7, 8, 9, 10, 11] ∧
      (p1first.enc.total, p1first.enc.offset, p1first.enc.crc) = (30, 12, 0xAD88945B) := by decide +kernel
/-- Program P1, step 3. -/
theorem test_continueEncap_cont :
    p1cont.fragment = [0x10, 0x0E, 1, 0, 0, 0, 12, 13, 14, 15, 16, 17, 18, 19, 20, 21] ∧
      (p1cont.enc.offset, p1cont.enc.crc) = (22, 0x8D897BDF) := by decide +kernel
/-- Program P1, step 4. -/
theorem test_continueEncap_last :
    p1last.fragment =
        [0x50, 0x10, 1, 0, 0, 0, 22, 23, 24, 25, 26, 27, 28, 29, 0xDE, 0x33, 0xE1, 0x64] ∧
      p1last.enc.state = .idle := by decide +kernel

/-! ### DEC -/

/-- V-DEC3. -/
theorem test_fragSingle_completed :
    (go (.fragSingle 1 12 (single7.drop 2)) open7).completedPdu (recv single7 open7).rsp = [0xDE, 0xAD] ∧
      (recv single7 open7).tgt 7 = open7.tgt 7 := by decide +kernel
/-- V-DEC2. -/
theorem test_fragSingle_mismatch :
    (go (.fragSingle 1 12 (single7bad.drop 2)) pool2).rsp.bytes = 0xA0 :: 7 :: List.replicate 14 0 ∧
      (recv single7bad pool2).transientLen = 0 := by decide +kernel
/-- V-DEC4. -/
theorem test_fragFirst_opens :
    let t := go (.fragFirst 1 8 (first7.drop 2)) pool2
    (t.tgt 7).slot = 0 ∧ (t.tgt 7).acc = 2 ∧ (t.tgt 7).crc = 0x7C506793 ∧ (t.tgt 7).proto = 0x0800 ∧
      t.slotEntry 0 = some (4, .ctx 7) ∧ t.readBytes (.slot 0) 0 2 = [0xDE, 0xAD] := by decide +kernel
/-- V-DEC21: the restart takes the buffer just freed, whatever the label. -/
theorem test_fragFirst_restarts :
    let t := recv [0x90, 8, 7, 8, 0, 0xA1, 0xB2, 0xC4, 0xCA, 0xFE] open7
    t.rsp.bytes = [2, 7, 0, 0, 0, 0, 0, 2, 0, 0, 0, 0, 0, 0, 0, 0] ∧
      t.log = [⟨.dec, .contextRestarted, 7⟩] ∧ (t.tgt 7).crc = 0x5CF150F7 := by decide +kernel
/-- V-DEC6. -/
theorem test_fragCont_appends :
    let t := go (.fragCont 1 6 (cont7.drop 2)) open7
    t.rsp.bytes = [2, 7, 0, 0, 0, 0, 0, 4, 0, 0, 0, 0, 0, 0, 0, 0] ∧ (t.tgt 7).crc = 0xDD3B0B6B ∧
      t.readBytes (.slot 0) 0 4 = [0xDE, 0xAD, 0xDE, 0xAD] := by decide +kernel
/-- V-DEC8: one byte too many. -/
theorem test_fragCont_overrun :
    let t := recv cont7one full7
    t.rsp.bytes = 0xA1 :: 7 :: List.replicate 14 0 ∧ (t.tgt 7).state = .awaitingFirst ∧
      t.slotEntry 0 = some (4, .free) := by decide +kernel
/-- V-DEC13. -/
theorem test_fragLast_completed :
    let t := go (.fragLast 1 10 (last7.drop 2)) ready7
    t.rsp.bytes = [1, 7, 8, 0, 0, 0, 0, 6, 0, 0, 0xA1, 0xB2, 0xC3, 0, 0, 0] ∧
      t.slotEntry 0 = some (8192, .held) := by decide +kernel
/-- V-DEC14. -/
theorem test_fragLast_mismatch :
    let t := recv last7bad ready7
    t.rsp.bytes = 0xA0 :: 7 :: List.replicate 14 0 ∧ t.slotEntry 0 = some (8192, .free) := by
  decide +kernel
/-- V-DEC12. -/
theorem test_decap_padding :
    (recv (zeros 20) open78).rsp.bytes = 0xA1 :: List.replicate 15 0 ∧
      (recv (zeros 20) open78).log = [⟨.dec, .malformed, 0⟩] := by decide +kernel
/-- V-DEC22: padding after a fragment is ignored. -/
theorem test_decap_padded :
    (recv ([0xE0, 0x0C, 0x2A, 8, 0, 0x48, 0x45, 0x4C, 0x4C, 0x4F, 0x8C, 0xD7, 0xCD, 0xBA] ++ zeros 18)
        (fresh 0 0)).rsp.bytes = [1, 0x2A, 8, 0, 0, 0, 0, 5, 0xFF, 0xFF, 0, 0, 0, 0, 0, 0] := by
  decide +kernel

/-! ### The codec is an argument of reset (R100, R320) -/

/-- An engine given codec number 7. -/
def given7 : State :=
  State.resetWith { Cfg.default with codec := .given 7 } 0 false Ports.empty

theorem test_codec_refcodec : (fresh 6 2).codec = refCodec 6 := rfl
theorem test_codec_given : given7.codec = Config.givenCodec 7 3 := rfl
/-- DECAP asks the codec given: what it does not decode is MALFORMED, whatever REFCODEC says of it. -/
theorem test_codec_decides (h : (Config.givenCodec 7 3).decode [] = none) :
    exec (.decap 0) given7 = .next (given7.raised .dec .malformed 0) := by
  show decapDatagram (Config.givenCodec 7 3) [] given7 = _
  rw [decapDatagram, h]
  rfl

/-! ### SEQ -/

/-- V-SEQ1, on program P1's third fragment (18 bytes). -/
theorem test_pad :
    (go (.pad 20) p1last).fragment = p1last.fragment ++ [0, 0] ∧
      (go (.pad 20) p1last).rsp.len = 20 := by decide +kernel
/-- V-SEQ4: a fragment is never cut. -/
theorem test_pad_shorter :
    (go (.pad 10) p1last).fragOutLen = 18 ∧ (go (.pad 10) p1last).rsp.len = 18 := by decide +kernel
/-- V-SEQ6: target 7 on slot 0, slot 1 Held. -/
theorem test_shutdown :
    let t := go .shutdown held1
    t.run = .halted ∧ t.haltCause = .ok ∧ (t.tgt 7).state = .awaitingFirst ∧
      t.slots.map (·.owner) = [.free, .free] ∧ t.log = held1.log := by decide +kernel
/-- V-SEQ7. -/
theorem test_shutdown_then_acquire :
    (go .acquire (go .shutdown held1)).rsp.bytes = 0xFF :: List.replicate 15 0 := by decide +kernel

/-! ### Witnesses: the hypotheses of each statement, met -/

/-- A datagram in DGRAM_IN arrives by the DECAP of its length. -/
theorem arrives_decap {n : Word32} {s : State} {fr : Option Frag}
    (h : n.toNat ≤ Config.maxPdu ∧ s.codec.decode (s.readBytes .dgramIn 0 n.toNat) = fr) :
    Arrives (.decap n) s fr :=
  Or.inl ⟨n, rfl, h.1, h.2⟩

/-- A fragment row arrives as itself. -/
theorem arrives_row {i : Instr} {s : State} {fr : Option Frag}
    (h : i.format = .frag ∧ (s.codec.decode (encode i)).filter (carries i) = fr) : Arrives i s fr :=
  Or.inr h

/-- An engine with REFCODEC has a codec in range. -/
theorem codecOk_of {cfg : Cfg} (h : cfg.codec = .refcodec) : CodecOk cfg := .inl h

/-- The A1 B2 C3 of the examples. -/
def lab : Label := [0xA1, 0xB2, 0xC3]

theorem inv_open78 : Inv open78 := Inv.check_sound (by decide +kernel)
theorem inv_acquired : Inv acquired := Inv.check_sound (by decide +kernel)
theorem inv_p1first : Inv p1first := Inv.check_sound (by decide +kernel)
theorem inv_halted : Inv (go .shutdown pool2) := Inv.check_sound (by decide +kernel)
theorem inv_illegal : Inv (fresh 4 2) := Inv.check_sound (by decide +kernel)

/-- A record and a fragment at the edge of what is well formed. -/
theorem test_wf_edges :
    (Instr.decap 65535).WellFormed ∧ (Instr.fragSingle 1 10 (zeros 10)).WellFormed := by decide

/-- FragmentRoundTripWithPadding: each clause at CODEC_MAX_FRAG (V-COD14 for CONT). -/
theorem witness_roundTripWithPadding :
    Cfg.lwLegal 3 ∧ lab.length = 3 ∧
      (refCodec 3).hSingle + (zeros 4085).length + 4 ≤ (refCodec 3).maxFrag ∧
      (refCodec 3).hFirst + (zeros 4089).length ≤ (refCodec 3).maxFrag ∧
      (refCodec 3).hCont + (zeros 4091).length ≤ (refCodec 3).maxFrag ∧
      (refCodec 3).hCont + (zeros 4087).length + 4 ≤ (refCodec 3).maxFrag := by
  have h : ∀ n, (zeros n).length = n := fun n => List.length_replicate
  simp only [h, refCodec]
  decide

/-- PaddingCutsAndTails: V-DCD22 and V-DCD18 decode. -/
theorem witness_cuts :
    Cfg.lwLegal 6 ∧ refDecode 6 [0, 7, 7, 1, 2, 3, 4, 5, 6] = some (.cont 7 [1, 2, 3, 4, 5, 6] []) ∧
      refDecode 3 (cont7 ++ [0x99, 0x98, 0x97]) = some (.cont 7 lab [0xDE, 0xAD]) := by decide +kernel

/-- LabelTypeIsTheConfiguredOne: V-DCD6 to V-DCD8 for the decoder, each encoder defined. -/
theorem witness_labelType :
    widthOfLabelType ((0x30 : Byte).extractLsb' 4 2) ≠ some 3 ∧
      widthOfLabelType ((0x00 : Byte).extractLsb' 4 2) ≠ some 3 ∧
      widthOfLabelType ((0x20 : Byte).extractLsb' 4 2) ≠ some 3 ∧
      (refEncodeSingle 3 7 0x0800 lab [] 0).isSome ∧ (refEncodeFirst 3 7 0x0800 lab []).isSome ∧
      (refEncodeCont 3 7 lab []).isSome ∧ (refEncodeLast 3 7 lab [] 0).isSome := by decide +kernel

/-- UnusedRequestBytesAreIgnored: BEGIN_ENCAP with LW = 3, all unused bytes different (bytes 15 to 19). -/
theorem witness_unusedBytes :
    let r : Vector Byte 20 := #v[0x11, 1, 0x12, 0x34, 0, 0, 0, 30, 0, 0, 0, 20, 1, 2, 3, 0, 0, 0, 0, 0]
    let r' : Vector Byte 20 := #v[0x11, 1, 0x12, 0x34, 0, 0, 0, 30, 0, 0, 0, 20, 1, 2, 3, 4, 5, 6, 7, 8]
    Cfg.lwLegal (fresh 3 2).cfg.lw ∧ r[0] = r'[0] ∧ r ≠ r' ∧
      ∀ k ∈ usedOffsets (fresh 3 2).cfg.lw r[0], r[k]? = r'[k]? := by decide +kernel

/-- StepRunsTheDecodedRequest: a command, and V-REC7's record that is none. -/
theorem witness_step :
    let s := (fresh 3 2).withRequest (encode .acquire)
    let r := (fresh 3 2).withRequest (0x7F :: List.replicate 19 0)
    s.ports.inputs = [.request (recordOf (encode .acquire))] ∧
      decodeRequest (recordOf (encode .acquire)).toList = .ok .acquire ∧
      r.ports.inputs = [.request (recordOf (0x7F :: List.replicate 19 0))] ∧
      decodeRequest (recordOf (0x7F :: List.replicate 19 0)).toList = .error (.reservedOpcode 0x7F) := by
  decide +kernel

/-- DecapRunsTheFragmentInstruction. -/
theorem witness_decapRuns :
    (withDgram first7 pool2).run = .running ∧ (10 : Word32).toNat ≤ Config.maxPdu ∧
      decodeDatagram ((withDgram first7 pool2).readBytes .dgramIn 0 (10 : Word32).toNat) =
        .ok (.fragFirst 1 8 (first7.drop 2)) ∧
      (withDgram first7 pool2).cfg.codec = .refcodec := by decide +kernel

/-- ReservedAndOutOfRangeRequests: V-REC7, V-REC8. -/
theorem witness_reserved :
    exec (.pad 65536) pool2 = .next (go (.pad 65536) pool2) ∧
    (recordOf (0x7F :: List.replicate 19 0))[0] ∉ opcodes ∧ Config.maxPdu < (65536 : Word32).toNat ∧
    pool2.run = .running ∧ (go (.pad 65536) pool2).rsp.code = .illegalCommand :=
  ⟨next_after (by decide +kernel), by decide +kernel⟩

/-- HaltedRefusesAllButShutdown, OnlyResetLeavesHalted. -/
theorem witness_halted :
    (go .shutdown held1).run = .halted ∧ (go .shutdown held1).ports.inputs = [] ∧
      Instr.acquire ≠ .shutdown := by decide +kernel

theorem witness_haltedStep : ∃ t, step (go .shutdown held1) = .next t :=
  ⟨_, next_after (by decide +kernel)⟩

/-- ResponseCodesByCommand, ErrorsAnswerCodeAndOneEvent, CommandsLeaveInputsAndConfiguration,
OwnersMoveAlongTheEdges: commands that answer, with an error after a restart, an error, no error and
ILLEGAL_COMMAND. -/
theorem witness_answers :
    let two := withDgram [0x90, 11, 7, 8, 0, 0xA1, 0xB2, 0xC4, 1, 2, 3, 4, 5] open7
    exec (.decap 13) two = .next (go (.decap 13) two) ∧
    exec .acquire open78 = .next (go .acquire open78) ∧
    exec .acquire open7 = .next (go .acquire open7) ∧
    exec (.pad 65536) open7 = .next (go (.pad 65536) open7) ∧
    (go (.decap 13) two).log = [⟨.dec, .contextRestarted, 7⟩, ⟨.dec, .malformed, 7⟩] ∧
    (go .acquire open78).rsp.code.isError = true ∧ (go .acquire open7).rsp.code.isError = false ∧
    (go (.pad 65536) open7).rsp.code = .illegalCommand :=
  ⟨next_after (by decide +kernel), next_after (by decide +kernel), next_after (by decide +kernel),
    next_after (by decide +kernel), by decide +kernel⟩

/-- LogOnlyGrows: a step that is no reset and appends an event. -/
theorem witness_logGrows :
    let s := open78.withRequest (encode .acquire)
    step s = .next (after (step s)) ∧ s.ports.inputs = [.request (recordOf (encode .acquire))] ∧
    (after (step s)).log = [⟨.pool, .poolExhausted, 0⟩] :=
  ⟨next_after (by decide +kernel), by decide +kernel⟩

/-- LegalResetState and IllegalConfigurationHalts: V-RST1 to V-RST4 and the bounds beside them. -/
theorem witness_configurations :
    Cfg.default.Legal ∧ { Cfg.default with n := 65535, lw := 0, b := 1 }.Legal ∧
      ¬ { Cfg.default with lw := 4 }.Legal ∧ ¬ { Cfg.default with n := 65536 }.Legal ∧
      ¬ { Cfg.default with b := 0 }.Legal ∧ ¬ { Cfg.default with pEgress := 65536 }.Legal := by
  decide +kernel

/-- ResetInputAtAnyTime, in a halted state. -/
theorem witness_resetInput :
    ((go .shutdown held1).takeInput [.reset Cfg.default]).ports.inputs = [.reset Cfg.default] := rfl

/-- ResetMeetsInvariant: a host write up to the last byte. -/
theorem witness_inputsInRange :
    ∀ x ∈ [Input.hostWrite .pduIn 65534 [0xFF], .reset Cfg.default, .egressTurn], x.InRange := by
  simp [Input.InRange, Config.stagingSize, codecOk_of (rfl : Cfg.default.codec = .refcodec)]

/-- ResetMeetsInvariant: the codec of a legal configuration is in range; an illegal one may name any. -/
theorem witness_resetCodec :
    (Cfg.default.Legal → CodecOk Cfg.default) ∧
      ({ Cfg.default with codec := .given 0, lw := 4 }.Legal →
        CodecOk { Cfg.default with codec := .given 0, lw := 4 }) :=
  ⟨fun _ => codecOk_of rfl, fun h => absurd h (by decide)⟩

/-- EveryStepKeepsTheInvariant, EveryRunGoesOn: states that meet the invariant, open contexts among them. -/
theorem witness_invariant : Inv open78 ∧ Inv p1first ∧ Inv (go .shutdown pool2) ∧ Inv (fresh 4 2) :=
  ⟨inv_open78, inv_p1first, inv_halted, inv_illegal⟩

/-- ProvisionRegistersTheNextSlot: at the capacity, and one below it. -/
theorem witness_provision :
    pool2.run = .running ∧ pool2.poolCount = pool2.cfg.n ∧
      (go (.provision 4) (fresh 3 2)).run = .running ∧
      (go (.provision 4) (fresh 3 2)).poolCount ≠ (go (.provision 4) (fresh 3 2)).cfg.n := by
  decide +kernel

theorem least_zero {s : State} {sl : Slot} (h : s.slots[0]? = some sl ∧ sl.owner = .free) :
    s.LeastFree 0 sl :=
  ⟨h.1, h.2, fun _ _ hj => absurd hj (Nat.not_lt_zero _)⟩

theorem least_one {s : State} {sl sl0 : Slot}
    (h : s.slots[1]? = some sl ∧ sl.owner = .free ∧ s.slots[0]? = some sl0 ∧ sl0.owner ≠ .free) :
    s.LeastFree 1 sl := by
  refine ⟨h.1, h.2.1, fun j sl' hj hs => ?_⟩
  obtain rfl : j = 0 := by omega
  rw [h.2.2.1] at hs
  exact (Option.some.inj hs) ▸ h.2.2.2

/-- AcquireTakesTheLeastFreeSlot: no Free slot; the first; the second, behind a context. -/
theorem witness_acquire :
    pool2.LeastFree 0 ⟨4, .free, []⟩ ∧ open7.LeastFree 1 ⟨8192, .free, []⟩ ∧
    (∀ sl ∈ open78.slots, sl.owner ≠ .free) ∧ open78.run = .running ∧ pool2.run = .running ∧
    open7.run = .running :=
  ⟨least_zero (by decide +kernel),
    least_one (sl0 := ⟨4, .ctx 7, [(0, 0xDE), (1, 0xAD)]⟩) (by decide +kernel), by decide +kernel⟩

/-- ReleaseFreesHeldSlotsOnly: the handle at the count, a context's slot, a Held slot, a Free slot. -/
theorem witness_release :
    held1.run = .running ∧ held1.poolCount ≤ (2 : Word32).toNat ∧
      (held1.slots[(0 : Word32).toNat]?).map (·.owner) = some (.ctx 7) ∧
      (held1.slots[(1 : Word32).toNat]?).map (·.owner) = some .held ∧ open7.run = .running ∧
      (open7.slots[(1 : Word32).toNat]?).map (·.owner) = some .free := by decide +kernel

/-- CountingLaw, its last clause: both slots owned by contexts, a FIRST fragment for target 9. -/
theorem witness_counting :
    let s := withDgram [0x90, 7, 9, 8, 0, 0xA1, 0xB2, 0xC3, 0x55] open78
    Inv s ∧ Arrives (.decap 9) s (some (.first 9 0x0800 lab [0x55])) ∧ s.run = .running ∧
    (∀ sl ∈ s.slots, sl.owner.isCtx = true) ∧ (s.tgt 9).state = .awaitingFirst :=
  ⟨Inv.check_sound (by decide +kernel), arrives_decap (by decide +kernel), by decide +kernel⟩

/-- NextLabelCountsAndWraps: the counter at its last value (V-LAB3), and the empty label (V-LAB6). -/
theorem witness_nextLabel :
    let s := (fresh 3 0).setEnc { (fresh 3 0).enc with labelCtr := 0xFFFFFF }
    s.run = .running ∧ Cfg.lwLegal s.cfg.lw ∧ (fresh 0 0).run = .running ∧
      Cfg.lwLegal (fresh 0 0).cfg.lw := by decide +kernel

/-- BeginEncapEmitsSingle: L = singleCap (V-ENC8), and the empty PDU (V-ENC15). -/
theorem witness_beginSingle :
    CodecOk p1start.cfg ∧ p1start.run = .running ∧ Cfg.lwLegal p1start.cfg.lw ∧ p1start.enc.state = .idle ∧
      ((52 : Word32).toNat : Int) = singleCap (64 : Word32).toNat p1start.codec.maxFrag p1start.codec.hSingle ∧
      ((0 : Word32).toNat : Int) ≤ singleCap (12 : Word32).toNat p1start.codec.maxFrag p1start.codec.hSingle :=
  ⟨codecOk_of (by decide +kernel), by decide +kernel⟩

/-- BeginEncapOpensWithFirst: L = singleCap + 1 (V-ENC9), L = firstCap (V-ENC10), L = 65535 (V-ENC18),
firstCap = 1. -/
theorem witness_beginFirst :
    CodecOk p1start.cfg ∧ p1start.run = .running ∧ p1start.enc.state = .idle ∧
      singleCap (64 : Word32).toNat p1start.codec.maxFrag p1start.codec.hSingle < ((53 : Word32).toNat : Int) ∧
      firstCap (64 : Word32).toNat p1start.codec.maxFrag p1start.codec.hFirst = ((56 : Word32).toNat : Int) ∧
      singleCap (4097 : Word32).toNat p1start.codec.maxFrag p1start.codec.hSingle <
        ((65535 : Word32).toNat : Int) ∧
      (65535 : Word32).toNat ≤ Config.maxPdu ∧
      firstCap (9 : Word32).toNat p1start.codec.maxFrag p1start.codec.hFirst = 1 :=
  ⟨codecOk_of (by decide +kernel), by decide +kernel⟩

/-- BeginEncapRefusals: an open context (V-ENC23), L = 65536 (V-ENC16), an empty PDU and a capacity one
too small for each (V-ENC14, V-ENC2 with LW = 3). -/
theorem witness_beginRefusals :
    p1first.run = .running ∧ p1first.enc.state = .fragmenting ∧ p1start.run = .running ∧
      p1start.enc.state = .idle ∧ Config.maxPdu < (65536 : Word32).toNat ∧
      singleCap (11 : Word32).toNat p1start.codec.maxFrag p1start.codec.hSingle < ((0 : Word32).toNat : Int) ∧
      singleCap (8 : Word32).toNat p1start.codec.maxFrag p1start.codec.hSingle < ((3 : Word32).toNat : Int) ∧
      firstCap (8 : Word32).toNat p1start.codec.maxFrag p1start.codec.hFirst < 1 := by decide +kernel

/-- ContinueEncapEmitsLast and ContinueEncapEmitsCont: 18 bytes remain; capacity 28 just fits them, 27
does not, 11 leaves room for one byte. -/
theorem witness_continue :
    CodecOk p1first.cfg ∧ EncInv p1first ∧ p1first.run = .running ∧ Cfg.lwLegal p1first.cfg.lw ∧
    p1first.enc.state = .fragmenting ∧
    ((p1first.enc.total - p1first.enc.offset : Nat) : Int) =
      contCap (28 : Word32).toNat p1first.codec.maxFrag p1first.codec.hCont ∧
    contCap (27 : Word32).toNat p1first.codec.maxFrag p1first.codec.hCont <
      ((p1first.enc.total - p1first.enc.offset : Nat) : Int) ∧
    contCap (11 : Word32).toNat p1first.codec.maxFrag p1first.codec.hCont = 1 :=
  ⟨codecOk_of (by decide +kernel), inv_p1first.enc, by decide +kernel⟩

/-- ContinueEncapRefusals and OutputTooSmallExactly: V-ENC22, V-ENC24, V-ENC25. -/
theorem witness_continueRefusals :
    exec (.continueEncap 11) p1first = .next (go (.continueEncap 11) p1first) ∧ p1start.run = .running ∧
    p1start.enc.state = .idle ∧ p1first.enc.state = .fragmenting ∧
    contCap (9 : Word32).toNat p1first.codec.maxFrag p1first.codec.hCont < 0 ∧
    contCap (10 : Word32).toNat p1first.codec.maxFrag p1first.codec.hCont = 0 ∧
    p1first.enc.offset < p1first.enc.total ∧
    p1first.codec.hCont + 5 ≤ effectiveCap (11 : Word32).toNat p1first.codec.maxFrag :=
  ⟨next_after (by decide +kernel), by decide +kernel⟩

/-- FragmentsKeepTheCapacity: a FIRST, a CONT and a LAST fragment emitted. -/
theorem witness_capacity :
    CodecOk p1start.cfg ∧ CodecOk p1first.cfg ∧
    exec (.beginEncap 1 0x1234 30 20 0) p1start = .next p1first ∧ EncInv p1start ∧ EncInv p1first ∧
    exec (.continueEncap 20) p1first = .next p1cont ∧ exec (.continueEncap 20) p1cont = .next p1last ∧
    p1first.rsp.code.isError = false ∧ p1cont.rsp.code = .fragmented ∧ p1last.rsp.code = .completed :=
  ⟨codecOk_of (by decide +kernel), codecOk_of (by decide +kernel), next_after (by decide +kernel),
    EncInv.check_sound (by decide +kernel), inv_p1first.enc, next_after (by decide +kernel),
    next_after (by decide +kernel), by decide +kernel⟩

/-- How many fragments, and the last code. -/
def counted (r : List (List Byte) × RespCode) : Nat × RespCode := (r.1.length, r.2)

/-- FragmentationEnds and FragmentCount: program P1 at capacity 20 (3 fragments) and at LW + 8 = 11, the
band (V-ENC9), the single fragment. -/
theorem witness_fragmentCount :
    CodecOk p1start.cfg ∧ (encapsulate 1 0x1234 30 20 0 p1start).map counted = some (3, .completed) ∧
      (encapsulate 1 0x1234 30 11 0 p1start).map counted = some (28, .completed) ∧
      p1start.cfg.lw + 8 ≤ (11 : Word32).toNat ∧ p1start.enc.state = .idle ∧ p1start.run = .running ∧
      (encapsulate 1 0x1234 9 20 0 p1start).map counted = some (2, .completed) ∧
      (encapsulate 1 0x1234 8 20 0 p1start).map counted = some (1, .completed) ∧
      p1start.codec.hCont + 5 ≤ effectiveCap (11 : Word32).toNat p1start.codec.maxFrag ∧
      p1start.codec.hFirst + 1 ≤ effectiveCap (11 : Word32).toNat p1start.codec.maxFrag ∧
      p1start.cfg.codec = .refcodec :=
  ⟨codecOk_of (by decide +kernel), by decide +kernel⟩

/-- SingleCompletesInTransient: V-DEC3 and V-DEC2, by DECAP and as the row. -/
theorem witness_single :
    Arrives (.decap 14) (withDgram single7 pool2) (some (.single 7 0x0800 lab [0xDE, 0xAD] 0x7C506793)) ∧
    Arrives (.fragSingle 1 12 (single7bad.drop 2)) pool2
      (some (.single 7 0x0800 lab [0xDE, 0xAD] 0x7C506792)) ∧
    (withDgram single7 pool2).run = .running ∧ crcFinal (crcUpdate crcInit [0xDE, 0xAD]) = 0x7C506793 :=
  ⟨arrives_decap (by decide +kernel), arrives_row (by decide +kernel), by decide +kernel⟩

/-- SingleCompletesInTransient, the clause REFCODEC cannot reach: any codec that decodes the empty datagram
to a SINGLE fragment of 65536 bytes. -/
theorem witness_singleTooLong
    (h : (Config.givenCodec 7 3).decode [] = some (.single 7 0x0800 lab (zeros 65536) 0)) :
    given7.run = .running ∧ Arrives (.decap 0) given7 (some (.single 7 0x0800 lab (zeros 65536) 0)) ∧
      Config.maxPdu < (zeros 65536).length :=
  ⟨by decide +kernel, arrives_decap ⟨by decide, h⟩, by rw [List.length_replicate]; decide⟩

/-- MalformedDatagramChangesNothing: V-DEC1, V-DEC12, and each row too short by one byte. -/
theorem witness_malformed :
    Arrives (.decap 0) pool2 none ∧ Arrives (.decap 20) (withDgram (zeros 20) pool2) none ∧
    Arrives (.fragSingle 1 9 (zeros 9)) pool2 none ∧ Arrives (.fragFirst 1 5 (zeros 5)) pool2 none ∧
    Arrives (.fragCont 1 3 (zeros 3)) pool2 none ∧ Arrives (.fragLast 1 7 (zeros 7)) pool2 none ∧
    pool2.run = .running :=
  ⟨arrives_decap (by decide +kernel), arrives_decap (by decide +kernel),
    arrives_row (by decide +kernel), arrives_row (by decide +kernel), arrives_row (by decide +kernel),
    arrives_row (by decide +kernel), by decide +kernel⟩

/-- DiscardFreesAndCloses: target 7 on slot 0. -/
theorem witness_discard :
    open7.slots[(open7.tgt 7).slot]? = some ⟨4, .ctx 7, [(0, 0xDE), (1, 0xAD)]⟩ := by decide +kernel

/-- FirstOpensAContext: a payload of the slot's size 4, one of 5, and no Free slot (V-DEC17). -/
theorem witness_first :
    pool2.LeastFree 0 ⟨4, .free, []⟩ ∧
    Arrives (.fragFirst 1 10 ([7, 8, 0] ++ lab ++ [1, 2, 3, 4])) pool2
      (some (.first 7 0x0800 lab [1, 2, 3, 4])) ∧
    Arrives (.fragFirst 1 11 ([7, 8, 0] ++ lab ++ [1, 2, 3, 4, 5])) pool2
      (some (.first 7 0x0800 lab [1, 2, 3, 4, 5])) ∧
    Arrives (.fragFirst 1 8 ([9] ++ first7.drop 3)) open78 (some (.first 9 0x0800 lab [0xDE, 0xAD])) ∧
    pool2.run = .running ∧ (pool2.tgt 7).state = .awaitingFirst ∧ open78.run = .running ∧
    (open78.tgt 9).state = .awaitingFirst ∧ (∀ sl ∈ open78.slots, sl.owner ≠ .free) :=
  ⟨least_zero (by decide +kernel), arrives_row (by decide +kernel), arrives_row (by decide +kernel),
    arrives_row (by decide +kernel), by decide +kernel⟩

/-- FirstRestartsAnOpenContext: V-DEC21. -/
theorem witness_restart :
    Arrives (.fragFirst 1 8 (first7.drop 2)) open7 (some (.first 7 0x0800 lab [0xDE, 0xAD])) ∧
    open7.run = .running ∧ (open7.tgt 7).state = .reassembling ∧
    open7.slots[(open7.tgt 7).slot]? = some ⟨4, .ctx 7, [(0, 0xDE), (1, 0xAD)]⟩ :=
  ⟨arrives_row (by decide +kernel), by decide +kernel⟩

/-- ContAppends: no context (V-DEC16's start), another label (V-DEC15), the slot filled exactly (V-DEC6),
one byte too many (V-DEC8), by DECAP and as the row. -/
theorem witness_cont :
    Arrives (.decap 8) (withDgram cont7 open7) (some (.cont 7 lab [0xDE, 0xAD])) ∧
    Arrives (.fragCont 1 6 (cont7other.drop 2)) open7 (some (.cont 7 [0xA1, 0xB2, 0xC4] [0xDE, 0xAD])) ∧
    Arrives (.fragCont 1 5 (cont7one.drop 2)) full7 (some (.cont 7 lab [1])) ∧
    (pool2.tgt 7).state ≠ .reassembling ∧ (open7.tgt 7).state = .reassembling ∧
    (open7.tgt 7).label = lab ∧ (open7.tgt 7).acc = 2 ∧ open7.slotEntry 0 = some (4, .ctx 7) ∧
    (open7.tgt 7).slot = 0 ∧ (full7.tgt 7).acc = 4 ∧ full7.run = .running ∧ open7.run = .running :=
  ⟨arrives_decap (by decide +kernel), arrives_row (by decide +kernel), arrives_row (by decide +kernel),
    by decide +kernel⟩

/-- LastCompletesOrFails: V-DEC13, V-DEC14, V-DEC16, and a LAST fragment that overruns the full slot. -/
theorem witness_last :
    Arrives (.decap 12) (withDgram last7 ready7) (some (.last 7 lab [0xDE, 0xAD] 0x461B29FF)) ∧
    Arrives (.fragLast 1 10 (last7bad.drop 2)) ready7 (some (.last 7 lab [0xDE, 0xAD] 0x11223344)) ∧
    Arrives (.fragLast 1 10 (last7.drop 2)) full7 (some (.last 7 lab [0xDE, 0xAD] 0x461B29FF)) ∧
    (ready7.tgt 7).state = .reassembling ∧ (ready7.tgt 7).label = lab ∧
    crcFinal (crcUpdate (ready7.tgt 7).crc [0xDE, 0xAD]) = 0x461B29FF ∧ ready7.poolCount ≤ 65535 ∧
    (ready7.tgt 7).slot = 0 ∧ (ready7.tgt 7).acc = 4 ∧ ready7.slotEntry 0 = some (8192, .ctx 7) ∧
    full7.slotEntry 0 = some (4, .ctx 7) ∧ (pool2.tgt 7).state ≠ .reassembling :=
  ⟨arrives_decap (by decide +kernel), arrives_row (by decide +kernel), arrives_row (by decide +kernel),
    by decide +kernel⟩

/-- OtherContextsAreUntouched: a fragment for target 8 beside the open target 7. -/
theorem witness_others :
    Inv open78 ∧ Arrives (.fragLast 1 8 (last8empty.drop 2)) open78 (some (.last 8 lab [] 0x7C506793)) ∧
    open78.run = .running ∧ (open78.tgt 7).state = .reassembling :=
  ⟨inv_open78, arrives_row (by decide +kernel), by decide +kernel⟩

/-- CompletedMeansCrcMatched: a SINGLE and a LAST fragment completed. -/
theorem witness_completed :
    Inv open78 ∧ DecCommand (.fragLast 1 8 (last8empty.drop 2)) ∧
    exec (.fragLast 1 8 (last8empty.drop 2)) open78 = .next (go (.fragLast 1 8 (last8empty.drop 2)) open78) ∧
    Inv (withDgram single7 open7) ∧ DecCommand (.decap 14) ∧
    exec (.decap 14) (withDgram single7 open7) = .next (go (.decap 14) (withDgram single7 open7)) ∧
    (go (.fragLast 1 8 (last8empty.drop 2)) open78).rsp.code = .completed ∧
    (go (.decap 14) (withDgram single7 open7)).rsp.code = .completed :=
  ⟨inv_open78, Or.inr rfl, next_after (by decide +kernel), Inv.check_sound (by decide +kernel),
    Or.inl ⟨_, rfl⟩, next_after (by decide +kernel), by decide +kernel⟩

/-- HeldSlotsKeepTheirBytes: slot 1 Held while target 7 goes on in slot 0. -/
theorem witness_held :
    Inv acquired ∧
    exec (.fragCont 1 6 (cont7.drop 2)) acquired = .next (go (.fragCont 1 6 (cont7.drop 2)) acquired) ∧
    (acquired.slots[1]?).map (·.owner) = some .held :=
  ⟨inv_acquired, next_after (by decide +kernel), by decide +kernel⟩

/-- FlippedPayloadBitIsDetected and CrcLaws: bit 0 of the last byte of DE AD flipped. -/
theorem witness_flip :
    CodecOk ready7.cfg ∧ OneBitApart [0xDE, 0xAD] [0xDE, 0xAC] ∧
    Arrives (.fragSingle 1 12 ([7, 8, 0] ++ lab ++ [0xDE, 0xAC, 0x7C, 0x50, 0x67, 0x93])) ready7
      (some (.single 7 0x0800 lab [0xDE, 0xAC] (crcFinal (crcUpdate crcInit [0xDE, 0xAD])))) ∧
    Arrives (.fragLast 1 10 ([7] ++ lab ++ [0xDE, 0xAC, 0x46, 0x1B, 0x29, 0xFF])) ready7
      (some (.last 7 lab [0xDE, 0xAC] (crcFinal (crcUpdate (ready7.tgt 7).crc [0xDE, 0xAD])))) ∧
    ready7.cfg.codec = .refcodec ∧ ready7.run = .running ∧
    (ready7.tgt 7).acc + [0xDE, 0xAC].length ≤ min 8192 Config.maxPdu :=
  ⟨codecOk_of (by decide +kernel), ⟨1, 0, by decide, by decide, by decide⟩,
    arrives_row (by decide +kernel), arrives_row (by decide +kernel), by decide +kernel⟩

/-- PadFillsWithZeros: one byte more than the fragment, its length exactly, and 65535. -/
theorem witness_pad :
    p1last.run = .running ∧ p1last.fragOutLen < (19 : Word32).toNat ∧
      p1last.fragOutLen = (18 : Word32).toNat ∧ (65535 : Word32).toNat ≤ Config.maxPdu := by decide +kernel

/-- ShutdownHalts: contexts open, a slot Held; and ENC Fragmenting. -/
theorem witness_shutdown : held1.run = .running ∧ p1first.run = .running ∧ RespCode.ioError ≠ .ok := by
  decide +kernel

/-- The egress direction at `top` with a port result and a shutdown_req. -/
def egressAtTop (r : RecvResult) (req : Bool) : State :=
  ((fresh 3 0).setPorts { Ports.empty with ifRecv := [r] }).setShutdownReq req

/-- The ingress direction at `top` with a port result and a shutdown_req. -/
def ingressAtTop (r : RecvResult) (req : Bool) : State :=
  ((pool2.setPorts { Ports.empty with sockRecv := [r] }).setShutdownReq req).ingressAt .top

/-- FatalPortResultHalts: each of the four port primitives about to return Fatal. -/
theorem witness_fatal :
    let send := (p1first.setPorts { Ports.empty with sockSend := [.fatal] }).egressAt (.send .fragmented)
    let del := (held1.setPorts { Ports.empty with ifSend := [.fatal] }).ingressAt (.deliver 1 2)
    (egressAtTop .fatal false).run = .running ∧ (egressAtTop .fatal false).seq.egress = .top ∧
      (egressAtTop .fatal false).ports.ifRecv = [.fatal] ∧ send.run = .running ∧
      send.seq.egress = .send .fragmented ∧ send.fragOutLen ≤ 65535 ∧ send.ports.sockSend = [.fatal] ∧
      (ingressAtTop .fatal false).run = .running ∧ (ingressAtTop .fatal false).seq.ingress = .top ∧
      (ingressAtTop .fatal false).ports.sockRecv = [.fatal] ∧ del.run = .running ∧
      del.seq.ingress = .deliver 1 2 ∧ 2 ≤ del.memSize (handleSpace 1) ∧ del.ports.ifSend = [.fatal] := by
  decide +kernel

/-- StartOfAnIteration: shutdown_req set, an explicit Timeout and an empty queue, for each direction. -/
theorem witness_iterationStart :
    (egressAtTop .timeout true).run = .running ∧ (egressAtTop .timeout true).seq.egress = .top ∧
      (egressAtTop .timeout true).seq.shutdownReq = true ∧
      (egressAtTop .timeout false).seq.shutdownReq = false ∧
      (egressAtTop .timeout false).ports.ifRecv = [.timeout] ∧ (fresh 3 0).ports.ifRecv = [] ∧
      (ingressAtTop .timeout true).run = .running ∧ (ingressAtTop .timeout true).seq.ingress = .top ∧
      (ingressAtTop .timeout true).seq.shutdownReq = true ∧
      (ingressAtTop .timeout false).ports.sockRecv = [.timeout] ∧
      (pool2.ingressAt .top).ports.sockRecv = [] ∧ (pool2.ingressAt .top).seq.shutdownReq = false := by
  decide +kernel

/-- BootProvisionsThePool: N = 2 turns, and none for N = 0. -/
theorem witness_boot :
    Cfg.default.Legal ∧ { Cfg.default with n := 0 }.Legal ∧
      ({ Ports.empty with inputs := [.ingressTurn, .ingressTurn] } : Ports).inputs =
        List.replicate Cfg.default.n .ingressTurn ++ [] := by decide +kernel

/-- EgressIterationSendsTheFrame: a frame of 30 bytes, sent in one fragment by default; with P = 20 in
three, an explicit Ok before the empty queue; with P = 9 one FIRST fragment goes out before ENC rejects the
rest; with B = 29 the frame is above the read bound. -/
theorem witness_egress :
    let s := egressAtTop (.data pdu30) false
    let p := fun n : Word32 => { s with
      cfg := { s.cfg with pEgress := n }, ports := { s.ports with sockSend := [.ok] } }
    let out := fun s : State =>
      (encapsulate s.cfg.fragIdEgress s.cfg.protoEgress (BitVec.ofNat 32 pdu30.length)
        (BitVec.ofNat 32 (egressCap s.cfg)) (fieldOfLabel (beBytes s.cfg.lw s.enc.labelCtr))
        (s.setMem .pduIn (s.pduIn.write 0 (pdu30.take Config.maxPdu)))).map counted
    Inv s ∧ Inv (p 20) ∧ Inv (p 9) ∧ Inv { s with cfg := { s.cfg with b := 29 } } ∧ s.run = .running ∧
    s.enc.state = .idle ∧ s.seq.egress = .top ∧ s.seq.shutdownReq = false ∧
    s.ports.ifRecv = [.data pdu30] ∧ s.ports.sockSend = [] ∧ (∀ r ∈ (p 20).ports.sockSend, r = .ok) ∧
    frameBytes s.cfg.b.toNat pdu30 = pdu30 ∧ out s = some (1, .completed) ∧
    out (p 20) = some (3, .completed) ∧ out (p 9) = some (1, .outputTooSmall) ∧ 29 < pdu30.length :=
  ⟨Inv.check_sound (by decide +kernel), Inv.check_sound (by decide +kernel),
    Inv.check_sound (by decide +kernel), Inv.check_sound (by decide +kernel), by decide +kernel⟩

/-- IngressIterationDelivers: each of its four turns. -/
theorem witness_ingress :
    Inv (ingressAtTop (.data first7) false) ∧ Inv ((withDgram first7 pool2).ingressAt (.decap 10)) ∧
    Inv (acquired.ingressAt (.deliver 1 2)) ∧ Inv (acquired.ingressAt (.release 1)) ∧
    (ingressAtTop (.data first7) false).run = .running ∧
    (ingressAtTop (.data first7) false).ports.sockRecv = [.data first7] ∧
    ((withDgram first7 pool2).ingressAt (.decap 10)).seq.ingress = .decap 10 ∧
    (acquired.ingressAt (.deliver 1 2)).ports.ifSend.head? ≠ some .fatal ∧
    (acquired.ingressAt (.release 1)).slotEntry (1 : BitVec 16).toNat = some (8192, .held) :=
  ⟨Inv.check_sound (by decide +kernel), Inv.check_sound (by decide +kernel),
    Inv.check_sound (by decide +kernel), Inv.check_sound (by decide +kernel), by decide +kernel⟩

/-- EgressAndIngressCommute: CONTINUE_ENCAP and PROVISION in the middle of a PDU. -/
theorem witness_commute :
    Inv p1first ∧ EgressCommand (.continueEncap 20) ∧ IngressCommand (.provision 64) :=
  ⟨inv_p1first, Or.inr (Or.inr (Or.inl ⟨20, rfl⟩)), Or.inl ⟨64, rfl⟩⟩

/-- MemWriteSetsExactlyItsBytes: a slot's last byte, one byte past it, and PDU_IN's last byte by the
host. -/
theorem witness_memWrite :
    0 < pool2.poolCount ∧ 3 + [(0xFF : Byte)].length ≤ pool2.memSize (.slot 0) ∧
      pool2.memSize (.slot 0) < 4 + [(0xFF : Byte)].length ∧
      65534 + [(0xFF : Byte)].length ≤ (pool2.memSize (HostMemory.space .pduIn)) ∧
      (pool2.takeInput [.hostWrite .pduIn 65534 [0xFF]]).ports.inputs =
        [.hostWrite .pduIn 65534 [0xFF]] := by decide +kernel

/-- RoundTrip: program P1 into program P2's receiver with a slot of exactly 30 bytes, the first fragment
padded. -/
theorem witness_roundTrip :
    let u := go (.provision 30) (fresh 3 2)
    let frags := [p1first.fragment, p1cont.fragment, p1last.fragment]
    CodecOk p1start.cfg ∧ u.LeastFree 0 ⟨30, .free, []⟩ ∧ p1start.run = .running ∧ u.run = .running ∧
    Cfg.lwLegal p1start.cfg.lw ∧ u.cfg.codec = p1start.cfg.codec ∧ u.cfg.lw = p1start.cfg.lw ∧
    p1start.enc.state = .idle ∧ (u.tgt 1).state = .awaitingFirst ∧ (30 : Word32).toNat ≤ 30 ∧
    u.poolCount ≤ 65535 ∧ encapsulate 1 0x1234 30 20 0 p1start = some (frags, .completed) ∧
    [zeros 5, [], []].length = frags.length ∧
    ∀ d ∈ List.zipWith (· ++ ·) frags [zeros 5, [], []], d.length ≤ 65535 :=
  ⟨codecOk_of (by decide +kernel), least_zero (by decide +kernel), by decide +kernel⟩

end Sys2Proof.Tests
end

/-! SUPPORT. What an instruction can do, said once: DEC's answer to a fragment, the states a command can
answer with, and what such a state keeps of the one before. -/

namespace Sys2Proof.Machine

/-! ### DECAP and the fragment rows have one meaning (R192, log 9) -/

/-- What DEC does with what a datagram decodes to; `none` is one that does not decode (R192, R193). -/
def onFragment (cd : Codec) (fr : Option Frag) (s : State) : Res :=
  match fr with
  | none => malformedDatagram s
  | some (.single f proto label p crc) => onSingle cd f proto label p crc s
  | some (.first f proto label p) => onFirst cd f proto label p s
  | some (.cont f label p) => onCont cd f label p s
  | some (.last f label p crc) => onLast cd f label p crc s

theorem decapDatagram_eq (cd : Codec) (d : List Byte) (s : State) :
    decapDatagram cd d s = onFragment cd (cd.decode d) s := by
  rw [decapDatagram]
  cases cd.decode d with
  | none => rfl
  | some fr => cases fr <;> rfl

/-- A fragment row runs what its bytes decode to, if that is of the row's class. -/
theorem exec_row {i : Instr} (h : i.format = .frag) (s : State) :
    exec i s = whenRunning s fun s =>
      onFragment s.codec ((s.codec.decode (encode i)).filter (carries i)) s := by
  cases i with
  | fragSingle lt len body =>
    rw [exec, execFragSingle]
    refine congrArg (whenRunning s) (funext fun s => ?_)
    rcases s.codec.decode (encode (.fragSingle lt len body)) with _ | (_ | _ | _ | _) <;> rfl
  | fragFirst lt len body =>
    rw [exec, execFragFirst]
    refine congrArg (whenRunning s) (funext fun s => ?_)
    rcases s.codec.decode (encode (.fragFirst lt len body)) with _ | (_ | _ | _ | _) <;> rfl
  | fragCont lt len body =>
    rw [exec, execFragCont]
    refine congrArg (whenRunning s) (funext fun s => ?_)
    rcases s.codec.decode (encode (.fragCont lt len body)) with _ | (_ | _ | _ | _) <;> rfl
  | fragLast lt len body =>
    rw [exec, execFragLast]
    refine congrArg (whenRunning s) (funext fun s => ?_)
    rcases s.codec.decode (encode (.fragLast lt len body)) with _ | (_ | _ | _ | _) <;> rfl
  | _ => cases h

/-- DGRAM_IN holds every datagram DECAP may be given (R47, R95). -/
theorem exec_decap {n : Word32} {s : State} (hr : s.run = .running) (hn : n.toNat ≤ Config.maxPdu) :
    exec (.decap n) s =
      onFragment s.codec (s.codec.decode (s.readBytes .dgramIn 0 n.toNat)) s := by
  have hread : s.memRead .dgramIn 0 n.toNat = some (s.readBytes .dgramIn 0 n.toNat) :=
    State.memRead_eq (by rw [Nat.zero_add]; exact hn)
  rw [exec, execDecap, whenRunning_running hr, if_neg (by omega), hread, orStop_some, decapDatagram_eq]

theorem exec_decap_tooLong {n : Word32} {s : State} (hr : s.run = .running)
    (hn : Config.maxPdu < n.toNat) : exec (.decap n) s = illegalCommand s := by
  rw [exec, execDecap, whenRunning_running hr, if_pos hn]

/-- An instruction that brings a fragment to DEC does what DEC does with that fragment. -/
theorem exec_of_arrives {i : Instr} {s : State} {fr : Option Frag} (hr : s.run = .running)
    (h : Arrives i s fr) : exec i s = onFragment s.codec fr s := by
  rcases h with ⟨n, rfl, hn, rfl⟩ | ⟨hi, rfl⟩
  · exact exec_decap hr hn
  · rw [exec_row hi, whenRunning_running hr]

/-- A command of DEC is refused as illegal or brings a fragment to DEC. -/
theorem decCommand_arrives {i : Instr} {s : State} (hr : s.run = .running) (h : DecCommand i) :
    exec i s = illegalCommand s ∨ ∃ fr, Arrives i s fr := by
  rcases h with ⟨n, rfl⟩ | hi
  · by_cases hn : n.toNat ≤ Config.maxPdu
    · exact .inr ⟨_, .inl ⟨n, rfl, hn, rfl⟩⟩
    · exact .inl (exec_decap_tooLong hr (by omega))
  · exact .inr ⟨_, .inr ⟨hi, rfl⟩⟩

/-! ### Composite writes -/

/-- FRAG_OUT after a fragment was emitted (R46, R164). -/
abbrev State.emit (s : State) (frag : List Byte) : State :=
  (s.setMem .fragOut ((s.mem .fragOut).write 0 frag)).setFragOutLen frag.length

/-- ENC after BEGIN_ENCAP sent the first bytes `p` of a PDU of `l` bytes (R24 to R28, R166). -/
def Enc.opened (cd : Codec) (fid : Fid) (proto : Proto) (label : Label) (l : Nat) (p : List Byte)
    (e : Enc) : Enc :=
  { e with
    state := .fragmenting, total := l, offset := p.length, crc := cd.crcUpdate cd.crcInit p,
    label := label, proto := proto, fid := fid }

/-- ENC after CONTINUE_ENCAP sent the further bytes `p` (R170). -/
def Enc.advanced (cd : Codec) (p : List Byte) (e : Enc) : Enc :=
  { e with crc := cd.crcUpdate e.crc p, offset := e.offset + p.length }

/-- TRANSIENT after a complete PDU was copied to it (R194). -/
abbrev State.completeTransient (s : State) (p : List Byte) : State :=
  (s.setMem .transient ((s.mem .transient).write 0 p)).setTransientLen p.length

/-- Slot `k` bound to target `f` with bytes written to it, and the target's registers (R204, R207). -/
abbrev State.bindSlot (s : State) (f : Fid) (k a : Nat) (p : List Byte) (x : Target) : State :=
  ((s.setOwner k (.ctx f)).setMem (.slot k) (((s.setOwner k (.ctx f)).mem (.slot k)).write a p)).setTgt f x

/-- The context of target `f` with `p` appended (R68, R207). -/
abbrev State.append (s : State) (f : Fid) (p : List Byte) : State :=
  (s.setMem (.slot (s.tgt f).slot) ((s.mem (.slot (s.tgt f).slot)).write (s.tgt f).acc p)).setTgt f
    (appendedTarget s.codec p (s.tgt f))

/-- The context of target `f` closed and its slot Held by the host (R209). -/
abbrev State.complete (s : State) (f : Fid) : State :=
  (s.setOwner (s.tgt f).slot .held).closeTgt f

/-- The context of target `f` discarded and the restart logged (R203). -/
abbrev State.restart (s : State) (f : Fid) : State :=
  (s.discard f).addEvent .dec .contextRestarted f

/-! ### What a command can answer with -/

/-- The states DEC answers with after a FIRST fragment on a target that awaits one (R200, R205, R206). -/
inductive OpenEffect (s : State) (f : Fid) (proto : Proto) (label : Label) (p : List Byte) :
    State → Prop
  | refused (c : RespCode) : c = .poolExhausted ∨ c = .malformed →
      OpenEffect s f proto label p (s.raised .dec c f)
  | opened (k : Nat) (sl : Slot) : s.LeastFree k sl → p.length ≤ gatherBound sl →
      OpenEffect s f proto label p
        ((s.bindSlot f k 0 p (openedTarget s.codec k proto label p (s.tgt f))).setRsp
          { code := .fragmented, fid := f, len := BitVec.ofNat 32 p.length })

/-- The target a CONT or LAST fragment is for: its context, and the slot of that context (R196). -/
structure ContextOf (s : State) (f : Fid) (label : Label) (sl : Slot) : Prop where
  reassembling : (s.tgt f).state = .reassembling
  label : (s.tgt f).label = label
  slot : s.slots[(s.tgt f).slot]? = some sl

/-- The fragment-id, label and payload of a fragment that continues a context (R207, R208). -/
def continuation : Frag → Option (Fid × Label × List Byte)
  | .single _ _ _ _ _ => none
  | .first _ _ _ _ => none
  | .cont f label p => some (f, label, p)
  | .last f label p _ => some (f, label, p)

/-- The states DEC answers with after a fragment (R194, R200, R207, R208). -/
inductive FragEffect (s : State) : Option Frag → State → Prop
  | refused (fr : Option Frag) (c : RespCode) (f : Fid) :
      c = .malformed ∨ c = .crcMismatch ∨ c = .unknownContext → FragEffect s fr (s.raised .dec c f)
  | single (f : Fid) (proto : Proto) (label : Label) (p : List Byte) (crc : Crc) :
      p.length ≤ Config.maxPdu → s.codec.crcFinal (s.codec.crcUpdate s.codec.crcInit p) = crc →
      FragEffect s (some (.single f proto label p crc))
        ((s.completeTransient p).setRsp
          { code := .completed, fid := f, proto := proto, label := fieldOfLabel label,
            len := BitVec.ofNat 32 p.length, handle := Config.transientHandle })
  | first (f : Fid) (proto : Proto) (label : Label) (p : List Byte) (t : State) :
      (s.tgt f).state = .awaitingFirst → OpenEffect s f proto label p t →
      FragEffect s (some (.first f proto label p)) t
  | restart (f : Fid) (proto : Proto) (label : Label) (p : List Byte) (sl : Slot) (t : State) :
      (s.tgt f).state = .reassembling → s.slots[(s.tgt f).slot]? = some sl →
      OpenEffect (s.restart f) f proto label p t → FragEffect s (some (.first f proto label p)) t
  | overrun (fr : Frag) (f : Fid) (label : Label) (p : List Byte) (sl : Slot) :
      continuation fr = some (f, label, p) → ContextOf s f label sl →
      gatherBound sl < (s.tgt f).acc + p.length →
      FragEffect s (some fr) ((s.discard f).raised .dec .malformed f)
  | cont (f : Fid) (label : Label) (p : List Byte) (sl : Slot) :
      ContextOf s f label sl → (s.tgt f).acc + p.length ≤ gatherBound sl →
      FragEffect s (some (.cont f label p))
        ((s.append f p).setRsp
          { code := .fragmented, fid := f, len := BitVec.ofNat 32 ((s.tgt f).acc + p.length) })
  | mismatch (f : Fid) (label : Label) (p : List Byte) (crc : Crc) (sl : Slot) :
      ContextOf s f label sl → (s.tgt f).acc + p.length ≤ gatherBound sl →
      s.codec.crcFinal (s.codec.crcUpdate (s.tgt f).crc p) ≠ crc →
      FragEffect s (some (.last f label p crc)) (((s.append f p).discard f).raised .dec .crcMismatch f)
  | last (f : Fid) (label : Label) (p : List Byte) (crc : Crc) (sl : Slot) :
      ContextOf s f label sl → (s.tgt f).acc + p.length ≤ gatherBound sl →
      s.codec.crcFinal (s.codec.crcUpdate (s.tgt f).crc p) = crc →
      FragEffect s (some (.last f label p crc))
        (((s.append f p).complete f).setRsp
          { code := .completed, fid := f, proto := (s.tgt f).proto,
            label := fieldOfLabel (s.tgt f).label,
            len := BitVec.ofNat 32 ((s.tgt f).acc + p.length),
            handle := BitVec.ofNat 16 (s.tgt f).slot })

/-- The states ENC and SEQ answer with, FRAG_OUT written or the context closed (R164, R167, R256). -/
inductive EgressEffect (s : State) : Instr → State → Prop
  | nextLabel :
      EgressEffect s .nextLabel
        (s.advanceLabel.setRsp
          { code := .ok, label := fieldOfLabel (labelOfCounter s.cfg.lw s.enc.labelCtr) })
  | single (fid : Fid) (proto : Proto) (len cap : Word32) (label : LabelField) (frag : List Byte) :
      s.enc.state = .idle → frag.length ≤ Config.stagingSize →
      EgressEffect s (.beginEncap fid proto len cap label)
        ((s.emit frag).setRsp
          { code := .completed, fid := fid, len := BitVec.ofNat 32 frag.length })
  | first (fid : Fid) (proto : Proto) (len cap : Word32) (label : LabelField) (frag p : List Byte) :
      s.enc.state = .idle → frag.length ≤ Config.stagingSize → 1 ≤ p.length → p.length ≤ len.toNat →
      len.toNat ≤ Config.maxPdu →
      EgressEffect s (.beginEncap fid proto len cap label)
        (((s.emit frag).setEnc
            (s.enc.opened s.codec fid proto (labelOfField s.cfg.lw label) len.toNat p)).setRsp
          { code := .fragmented, fid := fid, len := BitVec.ofNat 32 frag.length })
  | abandon (cap : Word32) : s.enc.state = .fragmenting →
      EgressEffect s (.continueEncap cap) (s.closeEnc.raised .enc .outputTooSmall s.enc.fid)
  | last (cap : Word32) (frag : List Byte) :
      s.enc.state = .fragmenting → frag.length ≤ Config.stagingSize →
      EgressEffect s (.continueEncap cap)
        ((s.emit frag).closeEnc.setRsp
          { code := .completed, fid := s.enc.fid, len := BitVec.ofNat 32 frag.length })
  | middle (cap : Word32) (frag p : List Byte) :
      s.enc.state = .fragmenting → frag.length ≤ Config.stagingSize →
      p.length ≤ s.enc.total - s.enc.offset →
      EgressEffect s (.continueEncap cap)
        (((s.emit frag).setEnc (s.enc.advanced s.codec p)).setRsp
          { code := .fragmented, fid := s.enc.fid, len := BitVec.ofNat 32 frag.length })
  | pad (len : Word32) (u : State) :
      len.toNat ≤ Config.maxPdu → padFragment len.toNat s = some u →
      EgressEffect s (.pad len)
        (u.setRsp { code := .ok, len := BitVec.ofNat 32 u.fragOutLen })

/-- The states POOL answers with (R142, R144, R146). -/
inductive PoolEffect (s : State) : Instr → State → Prop
  | provision (size : Word32) : s.poolCount ≠ s.cfg.n →
      PoolEffect s (.provision size)
        ((s.addSlot size.toNat).setRsp
          { code := .ok, handle := BitVec.ofNat 16 s.poolCount, len := size })
  | acquire (k : Nat) (sl : Slot) : s.LeastFree k sl →
      PoolEffect s .acquire
        ((s.setOwner k .held).setRsp
          { code := .ok, handle := BitVec.ofNat 16 k, len := BitVec.ofNat 32 sl.size })
  | release (h : Word32) (sl : Slot) : s.slots[h.toNat]? = some sl → sl.owner = .held →
      PoolEffect s (.release h)
        ((s.poolFree h.toNat).setRsp { code := .ok, handle := BitVec.ofNat 16 h.toNat })

/-- All a command can answer with. The two rules for a command turned away come first: ILLEGAL_COMMAND,
and an error without state effects (R94, R95, R281). -/
inductive Effect (s : State) (i : Instr) : State → Prop
  | illegal : Effect s i (s.setRsp { code := .illegalCommand })
  | refused (u : LogUnit) (c : RespCode) (f : Fid) : s.run = .running →
      c ≠ .completed → Effect s i (s.raised u c f)
  | pool (t : State) : s.run = .running → PoolEffect s i t → Effect s i t
  | egress (t : State) : s.run = .running → EgressEffect s i t → Effect s i t
  | fragment (fr : Option Frag) (t : State) : s.run = .running → Arrives i s fr → FragEffect s fr t →
      Effect s i t
  | shutdown : s.run = .running → i = .shutdown → Effect s i ((s.halt .ok).setRsp { code := .ok })
  | shutdownHalted : s.run = .halted → i = .shutdown → Effect s i (s.setRsp { code := .ok })

end Sys2Proof.Machine

/-! SUPPORT. The inversion lemma of `exec`: every answer of a command is listed in `Effect`, command by command. -/

namespace Sys2Proof.Machine

variable {s t : State}

/-! ### Every answer is one of them -/

theorem execProvision_effect {size : Word32} (h : exec (.provision size) s = .next t) :
    Effect s (.provision size) t := by
  rw [exec, execProvision] at h
  rcases whenRunning_next h with ⟨hr, h⟩ | ⟨-, rfl⟩
  · split at h
    · cases h; exact .refused _ _ _ hr (by decide)
    · cases h; exact .pool _ hr (.provision _ ‹_›)
  · exact .illegal

/-- `pool_take` takes the least Free slot (R143). -/
theorem State.poolTake_leastFree {o : Owner} {k : Nat} (h : s.poolTake o = some (k, t)) :
    t = s.setOwner k o ∧ ∃ sl, s.LeastFree k sl := by
  obtain ⟨rfl, ⟨sl, hk, hfree⟩, hleast⟩ := State.poolTake_some h
  exact ⟨rfl, sl, hk, hfree, hleast⟩

theorem execAcquire_effect (h : exec .acquire s = .next t) : Effect s .acquire t := by
  rw [exec, execAcquire] at h
  rcases whenRunning_next h with ⟨hr, h⟩ | ⟨-, rfl⟩
  · split at h
    · cases h; exact .refused _ _ _ hr (by decide)
    · rename_i k u hk
      obtain ⟨rfl, sl, hl⟩ := State.poolTake_leastFree hk
      rw [State.setOwner_memSize, State.memSize_slot hl.1] at h
      cases h; exact .pool _ hr (.acquire _ _ hl)
  · exact .illegal

theorem execRelease_effect {hd : Word32} (h : exec (.release hd) s = .next t) :
    Effect s (.release hd) t := by
  rw [exec, execRelease] at h
  rcases whenRunning_next h with ⟨hr, h⟩ | ⟨-, rfl⟩
  · split at h
    · cases h; exact .refused _ _ _ hr (by decide)
    · rename_i sl hsl
      split at h
      · cases h; exact .refused _ _ _ hr (by decide)
      · cases h; exact .refused _ _ _ hr (by decide)
      · cases h; exact .pool _ hr (.release _ _ hsl ‹_›)
  · exact .illegal

theorem execNextLabel_effect (h : exec .nextLabel s = .next t) : Effect s .nextLabel t := by
  rw [exec, execNextLabel] at h
  rcases whenRunning_next h with ⟨hr, h⟩ | ⟨-, rfl⟩
  · cases h; exact .egress _ hr .nextLabel
  · exact .illegal

/-- A fragment is emitted only if the encoder gave one and FRAG_OUT holds it (R46, R102). -/
theorem emitFragment_next {o : Option (List Byte)} {k : Nat → State → Res}
    (h : emitFragment s o k = .next t) :
    ∃ frag, o = some frag ∧ frag.length ≤ Config.stagingSize ∧ k frag.length (s.emit frag) = .next t := by
  rw [emitFragment] at h
  obtain ⟨frag, ho, h⟩ := orStop_next h
  obtain ⟨u, hu, h⟩ := orStop_next h
  obtain ⟨hle, rfl⟩ := State.memWrite_some hu
  rw [Nat.zero_add] at hle
  exact ⟨frag, ho, hle, h⟩

theorem emitFragment_of_le {o : Option (List Byte)} {frag : List Byte} (ho : o = some frag)
    (hle : frag.length ≤ Config.stagingSize) (k : Nat → State → Res) :
    emitFragment s o k = k frag.length (s.emit frag) := by
  have hw : s.memWrite .fragOut 0 frag = some (s.setMem .fragOut ((s.mem .fragOut).write 0 frag)) :=
    State.memWrite_eq (by rw [Nat.zero_add]; exact hle)
  rw [emitFragment, ho, orStop_some, hw, orStop_some]

theorem execBeginEncap_effect {fid : Fid} {proto : Proto} {len cap : Word32} {label : LabelField}
    (h : exec (.beginEncap fid proto len cap label) s = .next t) :
    Effect s (.beginEncap fid proto len cap label) t := by
  rcases whenRunning_next h with ⟨hr, h⟩ | ⟨-, rfl⟩
  · simp only [beginEncapWith] at h
    split at h
    · cases h; exact .refused _ _ _ hr (by decide)
    have hidle : s.enc.state = .idle := by
      cases he : s.enc.state with
      | idle => rfl
      | fragmenting => contradiction
    split at h
    · cases h; exact .refused _ _ _ hr (by decide)
    split at h
    · obtain ⟨p, -, h⟩ := orStop_next h
      obtain ⟨frag, -, hle, h⟩ := emitFragment_next h
      cases h; exact .egress _ hr (.single _ _ _ _ _ _ hidle hle)
    split at h
    · cases h; exact .refused _ _ _ hr (by decide)
    · obtain ⟨p, hp, h⟩ := orStop_next h
      obtain ⟨frag, -, hle, h⟩ := emitFragment_next h
      have hlen : p.length = min len.toNat (effectiveCap cap.toNat s.codec.maxFrag - s.codec.hFirst) := by
        rw [(State.memRead_some hp).2, State.readBytes_length]
      rw [← hlen] at h
      cases h; exact .egress _ hr (.first _ _ _ _ _ _ p hidle hle (by omega) (by omega) (by omega))
  · exact .illegal

theorem execContinueEncap_effect {cap : Word32} (h : exec (.continueEncap cap) s = .next t) :
    Effect s (.continueEncap cap) t := by
  rcases whenRunning_next h with ⟨hr, h⟩ | ⟨-, rfl⟩
  · simp only [continueEncapWith] at h
    split at h
    · cases h; exact .refused _ _ _ hr (by decide)
    have hfrag : s.enc.state = .fragmenting := by
      cases he : s.enc.state with
      | idle => contradiction
      | fragmenting => rfl
    split at h
    · cases h; exact .egress _ hr (.abandon _ hfrag)
    split at h
    · obtain ⟨p, -, h⟩ := orStop_next h
      obtain ⟨frag, -, hle, h⟩ := emitFragment_next h
      cases h; exact .egress _ hr (.last _ _ hfrag hle)
    split at h
    · cases h; exact .egress _ hr (.abandon _ hfrag)
    · obtain ⟨p, hp, h⟩ := orStop_next h
      obtain ⟨frag, -, hle, h⟩ := emitFragment_next h
      have hlen : p.length = effectiveCap cap.toNat s.codec.maxFrag - s.codec.hCont - 4 := by
        rw [(State.memRead_some hp).2, State.readBytes_length]
      rw [← hlen] at h
      cases h; exact .egress _ hr (.middle _ _ p hfrag hle (by omega))
  · exact .illegal

theorem execPad_effect {len : Word32} (h : exec (.pad len) s = .next t) : Effect s (.pad len) t := by
  rw [exec, execPad] at h
  rcases whenRunning_next h with ⟨hr, h⟩ | ⟨-, rfl⟩
  · split at h
    · cases h; exact .illegal
    · obtain ⟨u, hu, h⟩ := orStop_next h
      cases h; exact .egress _ hr (.pad _ _ (by omega) hu)
  · exact .illegal

theorem execShutdown_effect (h : exec .shutdown s = .next t) : Effect s .shutdown t := by
  simp only [exec, execShutdown] at h
  split at h
  · cases h; exact .shutdown ‹_› rfl
  · cases h; exact .shutdownHalted ‹_› rfl

/-! ### DEC -/

/-- Giving a slot the owner it has changes nothing. -/
theorem State.setOwner_self {k : Nat} {sl : Slot} (h : s.slots[k]? = some sl) :
    s.setOwner k sl.owner = s := by
  have hslots : (s.setOwner k sl.owner).slots = s.slots := by
    apply List.ext_getElem?
    intro j
    rw [State.slots_setOwner]
    by_cases hj : k = j
    · subst hj; simp [h]
    · simp [hj]
  calc s.setOwner k sl.owner
      = { s with slots := (s.setOwner k sl.owner).slots } := rfl
    _ = s := by rw [hslots]

theorem State.setOwner_setOwner (s : State) (k : Nat) (o o' : Owner) :
    (s.setOwner k o).setOwner k o' = s.setOwner k o' := by
  simp only [State.setOwner, State.modifySlot, List.modify_modify_eq]
  rfl

theorem onSingle_effect {f : Fid} {proto : Proto} {label : Label} {p : List Byte} {crc : Crc}
    (h : onSingle s.codec f proto label p crc s = .next t) :
    FragEffect s (some (.single f proto label p crc)) t := by
  rw [onSingle] at h
  split at h
  · cases h; exact .refused _ _ _ (by decide)
  split at h
  · cases h; exact .refused _ _ _ (by decide)
  · obtain ⟨u, hu, h⟩ := orStop_next h
    obtain ⟨-, rfl⟩ := State.memWrite_some hu
    cases h; exact .single _ _ _ _ _ (by omega) (by tauto)

theorem openContext_effect {f : Fid} {proto : Proto} {label : Label} {p : List Byte}
    (h : openContext s.codec f proto label p s = .next t) : OpenEffect s f proto label p t := by
  rw [openContext] at h
  split at h
  · cases h; exact .refused _ (by decide)
  · rename_i k u hk
    obtain ⟨rfl, sl, hl⟩ := State.poolTake_leastFree hk
    obtain ⟨sl', hsl', h⟩ := orStop_next h
    rw [State.slots_setOwner, hl.1] at hsl'
    obtain rfl : { sl with owner := Owner.ctx f } = sl' := by simpa using hsl'
    split at h
    · rw [State.poolFree, State.setOwner_setOwner, ← hl.2.1, State.setOwner_self hl.1] at h
      cases h; exact .refused _ (by decide)
    · obtain ⟨v, hv, h⟩ := orStop_next h
      obtain ⟨-, rfl⟩ := State.memWrite_some hv
      rw [State.setMem_tgt, State.setOwner_tgt] at h
      have hfit : p.length ≤ gatherBound sl := Nat.le_of_not_lt ‹_›
      cases h; exact .opened k sl hl hfit

theorem onFirst_effect {f : Fid} {proto : Proto} {label : Label} {p : List Byte}
    (h : onFirst s.codec f proto label p s = .next t) :
    FragEffect s (some (.first f proto label p)) t := by
  rw [onFirst] at h
  split at h
  · exact .first _ _ _ _ _ ‹_› (openContext_effect h)
  · obtain ⟨sl, hsl, h⟩ := orStop_next h
    exact .restart _ _ _ _ sl _ ‹_› hsl (openContext_effect h)

/-- What CONT and LAST have in common (R196, R206, R212): no match, too many bytes, or the payload
appended before the class goes on. -/
theorem appendPayload_effect {fr : Frag} {f : Fid} {label : Label} {p : List Byte} {k : State → Res}
    (hfr : continuation fr = some (f, label, p))
    (h : appendPayload s.codec f label p s k = .next t) :
    FragEffect s (some fr) t ∨ ∃ sl, ContextOf s f label sl ∧
      (s.tgt f).acc + p.length ≤ gatherBound sl ∧ k (s.append f p) = .next t := by
  rw [appendPayload] at h
  split at h
  · rename_i hl
    obtain ⟨hst, hlab⟩ := of_decide_eq_true hl
    obtain ⟨sl, hsl, h⟩ := orStop_next h
    have hc : ContextOf s f label sl := ⟨hst, hlab, hsl⟩
    split at h
    · cases h; exact .inl (.overrun _ _ _ _ sl hfr hc ‹_›)
    · obtain ⟨u, hu, h⟩ := orStop_next h
      obtain ⟨-, rfl⟩ := State.memWrite_some hu
      rw [State.setMem_tgt] at h
      exact .inr ⟨sl, hc, by omega, h⟩
  · cases h; exact .inl (.refused _ _ _ (by decide))

@[simp] theorem State.append_tgt_same (s : State) (f : Fid) (p : List Byte) :
    (s.append f p).tgt f = appendedTarget s.codec p (s.tgt f) := by
  simp [State.append]

theorem onCont_effect {f : Fid} {label : Label} {p : List Byte}
    (h : onCont s.codec f label p s = .next t) : FragEffect s (some (.cont f label p)) t := by
  rcases appendPayload_effect (fr := .cont f label p) rfl h with h | ⟨sl, hc, hfit, h⟩
  · exact h
  · rw [State.append_tgt_same] at h
    cases h; exact .cont _ _ _ sl hc hfit

theorem onLast_effect {f : Fid} {label : Label} {p : List Byte} {crc : Crc}
    (h : onLast s.codec f label p crc s = .next t) : FragEffect s (some (.last f label p crc)) t := by
  rcases appendPayload_effect (fr := .last f label p crc) rfl h with h | ⟨sl, hc, hfit, h⟩
  · exact h
  · rw [State.append_tgt_same] at h
    split at h
    · cases h; exact .mismatch _ _ _ _ sl hc hfit ‹_›
    · rw [completeContext, State.append_tgt_same] at h
      have hs : s.codec.crcFinal (s.codec.crcUpdate (s.tgt f).crc p) = crc := not_not.mp ‹_›
      cases h
      have := FragEffect.last (s := s) f label p crc sl hc hfit hs
      rw [State.complete, State.append_tgt_same] at this
      exact this

theorem onFragment_effect {fr : Option Frag} (h : onFragment s.codec fr s = .next t) :
    FragEffect s fr t := by
  cases fr with
  | none => cases h; exact .refused _ _ _ (by decide)
  | some fr =>
    cases fr with
    | single f proto label p crc => exact onSingle_effect h
    | first f proto label p => exact onFirst_effect h
    | cont f label p => exact onCont_effect h
    | last f label p crc => exact onLast_effect h

theorem exec_halted {i : Instr} (hr : s.run = .halted) (hi : i ≠ .shutdown) :
    exec i s = illegalCommand s := by
  cases i with
  | shutdown => exact absurd rfl hi
  | _ =>
    rw [exec]
    exact whenRunning_halted hr _

theorem execDec_effect {i : Instr} (hi : DecCommand i) (h : exec i s = .next t) : Effect s i t := by
  cases hr : s.run with
  | halted =>
    have hne : i ≠ .shutdown := by rcases hi with ⟨n, rfl⟩ | hi <;> rintro ⟨⟩; cases hi
    rw [exec_halted hr hne] at h
    cases h; exact .illegal
  | running =>
    rcases decCommand_arrives hr hi with hill | ⟨fr, ha⟩
    · rw [hill] at h; cases h; exact .illegal
    · rw [exec_of_arrives hr ha] at h
      exact .fragment fr t hr ha (onFragment_effect h)

/-- The inversion lemma of `exec`: whatever a command answers with is listed in `Effect`. -/
theorem exec_effect {i : Instr} (h : exec i s = .next t) : Effect s i t := by
  cases i with
  | provision size => exact execProvision_effect h
  | acquire => exact execAcquire_effect h
  | release hd => exact execRelease_effect h
  | nextLabel => exact execNextLabel_effect h
  | beginEncap fid proto len cap label => exact execBeginEncap_effect h
  | continueEncap cap => exact execContinueEncap_effect h
  | pad len => exact execPad_effect h
  | shutdown => exact execShutdown_effect h
  | decap n => exact execDec_effect (.inl ⟨n, rfl⟩) h
  | fragSingle lt len body => exact execDec_effect (.inr rfl) h
  | fragFirst lt len body => exact execDec_effect (.inr rfl) h
  | fragCont lt len body => exact execDec_effect (.inr rfl) h
  | fragLast lt len body => exact execDec_effect (.inr rfl) h

end Sys2Proof.Machine

/-! SUPPORT. Frames: what no command writes, how many events a step logs, and that slots keep their sizes. -/

namespace Sys2Proof.Machine

variable {s t u : State} {i : Instr}

/-! ### What no command writes (R45, R47, R51, log 8, log 12, log 13, log 26) -/

/-- The configuration, the memories the host owns, SEQ, the ports and the reset counter are as before. -/
structure SameInputs (s t : State) : Prop where
  cfg : t.cfg = s.cfg
  pduIn : t.pduIn = s.pduIn
  dgramIn : t.dgramIn = s.dgramIn
  seq : t.seq = s.seq
  ports : t.ports = s.ports
  epoch : t.epoch = s.epoch

/-- All PAD can do to FRAG_OUT (R256): nothing, or zeros up to the fixed length. -/
theorem padFragment_some {n : Nat} (h : padFragment n s = some u) :
    (n ≤ s.fragOutLen ∧ u = s) ∨
      (s.fragOutLen < n ∧ n ≤ Config.stagingSize ∧
        u = (s.setMem .fragOut ((s.mem .fragOut).write s.fragOutLen (zeros (n - s.fragOutLen)))).setFragOutLen n) := by
  rw [padFragment] at h
  split at h
  · obtain ⟨v, hv, rfl⟩ := Option.map_eq_some_iff.mp h
    obtain ⟨hle, rfl⟩ := State.memWrite_some hv
    rw [List.length_replicate] at hle
    have hsize : s.memSize .fragOut = Config.stagingSize := rfl
    exact .inr ⟨‹_›, by omega, rfl⟩
  · exact .inl ⟨by omega, (Option.some.inj h).symm⟩

theorem padFragment_enc {n : Nat} (h : padFragment n s = some u) : u.enc = s.enc := by
  rcases padFragment_some h with ⟨-, rfl⟩ | ⟨-, -, rfl⟩ <;> simp

theorem OpenEffect.sameInputs {f : Fid} {proto : Proto} {label : Label} {p : List Byte}
    (h : OpenEffect s f proto label p t) : SameInputs s t := by
  cases h <;> constructor <;> simp [State.raised]

theorem FragEffect.sameInputs {fr : Option Frag} (h : FragEffect s fr t) : SameInputs s t := by
  cases h with
  | first f proto label p _ hst ho => exact ho.sameInputs
  | restart f proto label p sl _ hst hsl ho =>
    obtain ⟨hcfg, hpdu, hdgram, hseq, hports, hepoch⟩ := ho.sameInputs
    exact ⟨hcfg, hpdu, hdgram, hseq, hports, hepoch⟩
  | _ => constructor <;> simp [State.raised]

theorem EgressEffect.sameInputs (h : EgressEffect s i t) : SameInputs s t := by
  cases h with
  | pad len u hlen hu => rcases padFragment_some hu with ⟨-, rfl⟩ | ⟨-, -, rfl⟩ <;> constructor <;> simp
  | _ => constructor <;> simp [State.raised]

theorem PoolEffect.sameInputs (h : PoolEffect s i t) : SameInputs s t := by
  cases h <;> constructor <;> simp

theorem State.halt_sameInputs (s : State) (c : RespCode) : SameInputs s (s.halt c) := by
  obtain ⟨hcfg, -, -, hpdu, -, hdgram, -, -, hseq, hports, hepoch⟩ := s.halt_frame c
  exact ⟨hcfg, hpdu, hdgram, hseq, hports, hepoch⟩

theorem Effect.sameInputs (h : Effect s i t) : SameInputs s t := by
  cases h with
  | pool _ hr hp => exact hp.sameInputs
  | egress _ hr he => exact he.sameInputs
  | fragment fr _ hr ha hf => exact hf.sameInputs
  | shutdown hr hi =>
    obtain ⟨hcfg, hpdu, hdgram, hseq, hports, hepoch⟩ := s.halt_sameInputs .ok
    exact ⟨hcfg, hpdu, hdgram, hseq, hports, hepoch⟩
  | _ => constructor <;> simp [State.raised]

/-! ### Events of a command (R52, R299) -/

/-- At most `n` events were appended to LOG. -/
def Appends (n : Nat) (s t : State) : Prop := ∃ es, t.log = s.log ++ es ∧ es.length ≤ n

theorem Appends.of_eq (n : Nat) (h : t.log = s.log) : Appends n s t := ⟨[], by simp [h], by simp⟩

theorem Appends.one {n : Nat} {e : Event} (hn : 1 ≤ n) (h : t.log = s.log ++ [e]) : Appends n s t :=
  ⟨[e], h, hn⟩

theorem OpenEffect.appends {f : Fid} {proto : Proto} {label : Label} {p : List Byte}
    (h : OpenEffect s f proto label p t) : Appends 1 s t := by
  cases h with
  | refused c hc => exact .one (le_refl 1) rfl
  | opened k sl hl hfit => exact .of_eq 1 (by simp)

theorem FragEffect.appends {fr : Option Frag} (h : FragEffect s fr t) : Appends 2 s t := by
  cases h with
  | single => exact .of_eq 2 (by simp)
  | cont => exact .of_eq 2 (by simp)
  | last => exact .of_eq 2 (by simp)
  | refused => exact .one (by decide) rfl
  | overrun => exact .one (by decide) rfl
  | mismatch f => exact .one (e := ⟨.dec, .crcMismatch, f⟩) (by decide) (by simp [State.raised])
  | first f proto label p _ hst ho =>
    obtain ⟨es, hes, hlen⟩ := ho.appends
    exact ⟨es, hes, by omega⟩
  | restart f proto label p sl _ hst hsl ho =>
    obtain ⟨es, hes, hlen⟩ := ho.appends
    exact ⟨⟨.dec, .contextRestarted, f⟩ :: es, by simp [hes], by simpa using hlen⟩

theorem EgressEffect.appends (h : EgressEffect s i t) : Appends 2 s t := by
  cases h with
  | abandon => exact .one (by decide) rfl
  | pad len u hlen hu =>
    rcases padFragment_some hu with ⟨-, rfl⟩ | ⟨-, -, rfl⟩ <;> exact .of_eq 2 (by simp)
  | _ => exact .of_eq 2 (by simp)

theorem PoolEffect.appends (h : PoolEffect s i t) : Appends 2 s t := by
  cases h <;> exact .of_eq 2 (by simp)

theorem Effect.appends (h : Effect s i t) : Appends 2 s t := by
  cases h with
  | illegal => exact .of_eq 2 rfl
  | refused u c f hr hc => exact .one (by decide) rfl
  | pool _ hr hp => exact hp.appends
  | egress _ hr he => exact he.appends
  | fragment fr _ hr ha hf => exact hf.appends
  | shutdown hr hi => exact .of_eq 2 (by simp)
  | shutdownHalted hr hi => exact .of_eq 2 rfl

/-! ### Slots that a write leaves alone -/

theorem State.slots_modifySlot_ne (s : State) {j k : Nat} (g : Slot → Slot) (h : k ≠ j) :
    (s.modifySlot k g).slots[j]? = s.slots[j]? := by
  simp [h]

theorem State.slots_addSlot_ne (s : State) (n : Nat) {j : Nat} (hj : j ≠ s.slots.length) :
    (s.addSlot n).slots[j]? = s.slots[j]? := by
  rw [State.addSlot_slots]
  rcases Nat.lt_or_gt_of_ne hj with hj | hj
  · rw [List.getElem?_append_left hj]
  · rw [List.getElem?_eq_none (by simp; omega), List.getElem?_eq_none (by omega)]

/-! ### Sizes of memories -/

/-- No memory became smaller: slots are neither removed nor resized (R41). -/
def SizesKept (s t : State) : Prop :=
  ∀ (k : Nat) (sl : Slot), s.slots[k]? = some sl → ∃ sl', t.slots[k]? = some sl' ∧ sl'.size = sl.size

theorem SizesKept.refl (s : State) : SizesKept s s := fun _ sl h => ⟨sl, h, rfl⟩

theorem SizesKept.of_slots_eq (h : t.slots = s.slots) : SizesKept s t :=
  fun _ sl hsl => ⟨sl, by rw [h, hsl], rfl⟩

theorem SizesKept.trans (hst : SizesKept s t) (htu : SizesKept t u) : SizesKept s u := by
  intro k sl h
  obtain ⟨sl', h', hsize⟩ := hst k sl h
  obtain ⟨sl'', h'', hsize'⟩ := htu k sl' h'
  exact ⟨sl'', h'', hsize'.trans hsize⟩

theorem SizesKept.modifySlot (s : State) (k : Nat) {g : Slot → Slot} (hg : ∀ sl, (g sl).size = sl.size) :
    SizesKept s (s.modifySlot k g) := by
  intro j sl h
  by_cases hj : k = j
  · subst hj; exact ⟨g sl, by simp [h], hg sl⟩
  · exact ⟨sl, by simp [h, hj], rfl⟩

theorem SizesKept.setOwner (s : State) (k : Nat) (o : Owner) : SizesKept s (s.setOwner k o) :=
  .modifySlot s k fun _ => rfl

theorem SizesKept.setMem (s : State) (sp : Space) (m : Memory) : SizesKept s (s.setMem sp m) := by
  cases sp with
  | slot k => exact .modifySlot s k fun _ => rfl
  | _ => exact .of_slots_eq rfl

theorem SizesKept.addSlot (s : State) (n : Nat) : SizesKept s (s.addSlot n) := by
  intro k sl h
  obtain ⟨hk, -⟩ := List.getElem?_eq_some_iff.mp h
  exact ⟨sl, by rw [s.slots_addSlot_ne n hk.ne, h], rfl⟩

theorem SizesKept.halt (s : State) (c : RespCode) : SizesKept s (s.halt c) := by
  intro k sl h
  exact ⟨{ sl with owner := .free }, by simp [h], rfl⟩

theorem SizesKept.discard (s : State) (f : Fid) : SizesKept s (s.discard f) :=
  .setOwner s _ _

theorem SizesKept.bindSlot (s : State) (f : Fid) (k a : Nat) (p : List Byte) (x : Target) :
    SizesKept s (s.bindSlot f k a p x) :=
  (SizesKept.setOwner s k (.ctx f)).trans (.setMem _ (.slot k) _)

theorem SizesKept.append (s : State) (f : Fid) (p : List Byte) : SizesKept s (s.append f p) :=
  .setMem s _ _

theorem OpenEffect.sizesKept {f : Fid} {proto : Proto} {label : Label} {p : List Byte}
    (h : OpenEffect s f proto label p t) : SizesKept s t := by
  cases h with
  | refused c hc => exact .of_slots_eq rfl
  | opened k sl hl hfit => exact .bindSlot s f k 0 p (openedTarget s.codec k proto label p (s.tgt f))

theorem FragEffect.sizesKept {fr : Option Frag} (h : FragEffect s fr t) : SizesKept s t := by
  cases h with
  | refused => exact .of_slots_eq rfl
  | single => exact .of_slots_eq rfl
  | first f proto label p _ hst ho => exact ho.sizesKept
  | restart f proto label p sl _ hst hsl ho => exact (SizesKept.discard s f).trans ho.sizesKept
  | overrun fr f => exact .discard s f
  | cont f label p => exact .append s f p
  | mismatch f label p => exact (SizesKept.append s f p).trans (.discard _ f)
  | last f label p => exact (SizesKept.append s f p).trans (.setOwner _ _ _)

theorem EgressEffect.sizesKept (h : EgressEffect s i t) : SizesKept s t := by
  cases h with
  | pad len u hlen hu =>
    rcases padFragment_some hu with ⟨-, rfl⟩ | ⟨-, -, rfl⟩ <;> exact .of_slots_eq rfl
  | _ => exact .of_slots_eq rfl

theorem PoolEffect.sizesKept (h : PoolEffect s i t) : SizesKept s t := by
  cases h with
  | provision size hn => exact .addSlot s _
  | acquire k sl hl => exact .setOwner s _ _
  | release hd sl hsl ho => exact .setOwner s _ _

theorem Effect.sizesKept (h : Effect s i t) : SizesKept s t := by
  cases h with
  | pool _ hr hp => exact hp.sizesKept
  | egress _ hr he => exact he.sizesKept
  | fragment fr _ hr ha hf => exact hf.sizesKept
  | shutdown hr hi => exact .halt s .ok
  | _ => exact .of_slots_eq rfl

/-- A memory that kept its size is readable as far as before. -/
theorem SizesKept.memSize_le (h : SizesKept s t) (sp : Space) : s.memSize sp ≤ t.memSize sp := by
  cases sp with
  | slot k =>
    cases hk : s.slots[k]? with
    | none => simp [State.memSize, hk]
    | some sl =>
      obtain ⟨sl', hk', hsize⟩ := h k sl hk
      rw [State.memSize_slot hk, State.memSize_slot hk', hsize]
  | _ => exact le_refl _

/-! ### SEQ's turns -/

/-- Only the queues and the records of the four ports changed, not the schedule (R250 to R253). -/
def PortsOnly (s t : State) : Prop := ∃ p, t = s.setPorts p ∧ p.inputs = s.ports.inputs

theorem PortsOnly.refl (s : State) : PortsOnly s s := ⟨s.ports, rfl, rfl⟩

theorem PortsOnly.log (h : PortsOnly s t) : t.log = s.log := by
  obtain ⟨p, rfl, -⟩ := h
  rfl

theorem ifRecv_portsOnly (bound : Nat) (s : State) : PortsOnly s (ifRecv bound s).2 := by
  rw [ifRecv]
  cases hq : s.ports.ifRecv with
  | nil => exact .refl s
  | cons r rest =>
    cases r with
    | data bytes => dsimp only; split <;> exact ⟨_, rfl, rfl⟩
    | timeout => exact ⟨_, rfl, rfl⟩
    | fatal => exact ⟨_, rfl, rfl⟩

theorem sockRecv_portsOnly (bound : Nat) (s : State) : PortsOnly s (sockRecv bound s).2 := by
  rw [sockRecv]
  cases hq : s.ports.sockRecv with
  | nil => exact .refl s
  | cons r rest => cases r <;> exact ⟨_, rfl, rfl⟩

theorem sockSend_portsOnly (bytes : List Byte) (s : State) : PortsOnly s (sockSend bytes s).2 := by
  rw [sockSend]
  cases hq : s.ports.sockSend with
  | nil => exact ⟨_, rfl, rfl⟩
  | cons r rest => cases r <;> exact ⟨_, rfl, rfl⟩

theorem ifSend_portsOnly (bytes : List Byte) (s : State) : PortsOnly s (ifSend bytes s).2 := by
  rw [ifSend]
  cases hq : s.ports.ifSend with
  | nil => exact ⟨_, rfl, rfl⟩
  | cons r rest => cases r <;> exact ⟨_, rfl, rfl⟩

/-- A datagram received is within the bound (R252). -/
theorem sockRecv_length {bound : Nat} {bytes : List Byte} (h : sockRecv bound s = (.data bytes, t)) :
    bytes.length ≤ bound := by
  rw [sockRecv] at h
  cases hq : s.ports.sockRecv with
  | nil => rw [hq] at h; cases h
  | cons r rest =>
    rw [hq] at h
    cases r with
    | data d => cases h; exact List.length_take_le _ _
    | timeout => cases h
    | fatal => cases h

/-- A command of a turn logs what it logs by itself; the turn goes on without LOG. -/
theorem afterCommand_appends {k : Rsp16 → State → Res} (hk : ∀ r u t, k r u = .next t → t.log = u.log)
    (h : afterCommand (exec i s) k = .next t) : Appends 2 s t := by
  obtain ⟨u, hu, ht⟩ := afterCommand_next h
  obtain ⟨es, hes, hlen⟩ := (exec_effect hu).appends
  exact ⟨es, by rw [hk _ _ _ ht, hes], hlen⟩

/-- A fatal port result logs the event of the halt alone (R262, R300). -/
theorem PortsOnly.halt_appends (h : PortsOnly s u) (ht : t.log = (u.halt .ioError).log) :
    Appends 2 s t := by
  refine .one (e := ⟨.seq, .ioError, 0⟩) (by decide) ?_
  rw [ht, State.halt_log, h.log]
  rfl

theorem egressAfterEnc_log {code : RespCode} (h : egressAfterEnc code s = .next t) : t.log = s.log := by
  rw [egressAfterEnc] at h
  split at h <;> (cases h; rfl)

theorem ingressAfterDecap_log {r : Rsp16} (h : ingressAfterDecap r s = .next t) : t.log = s.log := by
  rw [ingressAfterDecap] at h
  split at h <;> (cases h; rfl)

theorem egressTop_appends (h : egressTop s = .next t) : Appends 2 s t := by
  rw [egressTop] at h
  split at h
  · exact afterCommand_appends (by rintro r u t ⟨⟩; rfl) h
  · have hp := ifRecv_portsOnly s.cfg.b.toNat s
    split at h <;> rename_i u hq <;> rw [hq] at hp
    · cases h; exact .of_eq 2 hp.log
    · cases h; exact hp.halt_appends rfl
    · obtain ⟨v, hv, h⟩ := orStop_next h
      obtain ⟨-, rfl⟩ := State.memWrite_some hv
      cases h; exact .of_eq 2 hp.log

theorem egressSend_appends {code : RespCode} (h : egressSend code s = .next t) : Appends 2 s t := by
  rw [egressSend] at h
  obtain ⟨bytes, -, h⟩ := orStop_next h
  have hp := sockSend_portsOnly bytes s
  split at h <;> rename_i u hq <;> rw [hq] at hp
  · cases h; exact hp.halt_appends rfl
  · cases h; exact .of_eq 2 hp.log

theorem egressTurn_appends (h : egressTurn s = .next t) : Appends 2 s t := by
  rw [egressTurn] at h
  cases hr : s.run with
  | halted => rw [hr] at h; cases h; exact .of_eq 2 rfl
  | running =>
    rw [hr] at h
    cases hp : s.seq.egress with
    | top => rw [hp] at h; exact egressTop_appends h
    | label l => rw [hp] at h; exact afterCommand_appends (by rintro r u t ⟨⟩; rfl) h
    | begin_ l lab => rw [hp] at h; exact afterCommand_appends (fun _ _ _ hk => egressAfterEnc_log hk) h
    | pad code =>
      rw [hp] at h
      dsimp only at h
      split at h
      · exact afterCommand_appends (by rintro r u t ⟨⟩; rfl) h
      · cases h; exact .of_eq 2 rfl
    | send code => rw [hp] at h; exact egressSend_appends h
    | continue_ => rw [hp] at h; exact afterCommand_appends (fun _ _ _ hk => egressAfterEnc_log hk) h
    | stopped => rw [hp] at h; cases h; exact .of_eq 2 rfl

theorem ingressTop_appends (h : ingressTop s = .next t) : Appends 2 s t := by
  rw [ingressTop] at h
  split at h
  · exact afterCommand_appends (by rintro r u t ⟨⟩; rfl) h
  · have hp := sockRecv_portsOnly (rxBound s.cfg) s
    split at h <;> rename_i u hq <;> rw [hq] at hp
    · cases h; exact .of_eq 2 hp.log
    · cases h; exact hp.halt_appends rfl
    · obtain ⟨v, hv, h⟩ := orStop_next h
      obtain ⟨-, rfl⟩ := State.memWrite_some hv
      cases h; exact .of_eq 2 hp.log

theorem ingressDeliver_appends {hd : BitVec 16} {len : Nat} (h : ingressDeliver hd len s = .next t) :
    Appends 2 s t := by
  rw [ingressDeliver] at h
  obtain ⟨pdu, -, h⟩ := orStop_next h
  have hp := ifSend_portsOnly pdu s
  split at h <;> rename_i u hq <;> rw [hq] at hp
  · cases h; exact hp.halt_appends rfl
  · cases h; exact .of_eq 2 hp.log

theorem ingressTurn_appends (h : ingressTurn s = .next t) : Appends 2 s t := by
  rw [ingressTurn] at h
  cases hr : s.run with
  | halted => rw [hr] at h; cases h; exact .of_eq 2 rfl
  | running =>
    rw [hr] at h
    cases hp : s.seq.ingress with
    | boot left =>
      rw [hp] at h
      cases left with
      | zero => cases h; exact .of_eq 2 rfl
      | succ left => exact afterCommand_appends (by rintro r u t ⟨⟩; rfl) h
    | top => rw [hp] at h; exact ingressTop_appends h
    | decap n => rw [hp] at h; exact afterCommand_appends (fun _ _ _ hk => ingressAfterDecap_log hk) h
    | deliver hd len => rw [hp] at h; exact ingressDeliver_appends h
    | release hd => rw [hp] at h; exact afterCommand_appends (by rintro r u t ⟨⟩; rfl) h
    | stopped => rw [hp] at h; cases h; exact .of_eq 2 rfl

/-- A request record runs a command or is turned away (R95). -/
theorem runRequest_appends {record : Vector Byte 20} (h : runRequest record s = .next t) :
    Appends 2 s t := by
  rw [runRequest] at h
  split at h
  · exact (exec_effect h).appends
  · cases h; exact .of_eq 2 rfl

theorem step_nil (h : s.ports.inputs = []) : step s = .next s := by
  rw [step, h]

theorem step_cons {x : Input} {rest : List Input} (h : s.ports.inputs = x :: rest) :
    step s = runInput x (s.takeInput rest) := by
  rw [step, h]

theorem runInput_appends {x : Input} (hx : ∀ cfg, x ≠ .reset cfg) (h : runInput x s = .next t) :
    Appends 2 s t := by
  cases x with
  | request record => exact runRequest_appends h
  | hostWrite m a bytes =>
    obtain ⟨u, hu, h⟩ := orStop_next h
    obtain ⟨-, rfl⟩ := State.memWrite_some hu
    cases h; exact .of_eq 2 (by simp)
  | shutdownReq level => cases h; exact .of_eq 2 rfl
  | egressTurn => exact egressTurn_appends h
  | ingressTurn => exact ingressTurn_appends h
  | reset cfg => exact absurd rfl (hx cfg)

/-- Settles O13, by the kinds of happening: a command appends at most two events, and a turn of SEQ is at
most one command or one halt. -/
theorem logOnlyGrows : Obligations.LogOnlyGrows := by
  intro s t h hreset
  cases hq : s.ports.inputs with
  | nil =>
    rw [step_nil hq] at h
    cases h; exact Appends.of_eq 2 rfl
  | cons x rest =>
    rw [step_cons hq] at h
    have hx : ∀ cfg, x ≠ .reset cfg := by rintro cfg rfl; exact hreset cfg rest hq
    exact (runInput_appends hx h : Appends 2 (s.takeInput rest) t)

/-- Settles O14: the inputs and the configuration are in the frame of every effect. -/
theorem commandsLeaveInputsAndConfiguration : Obligations.CommandsLeaveInputsAndConfiguration := by
  intro i s t h
  obtain ⟨hcfg, hpdu, hdgram, hseq, hports, hepoch⟩ := (exec_effect h).sameInputs
  exact ⟨hcfg, hpdu, hdgram, hseq, hports, hepoch⟩

end Sys2Proof.Machine

/-! SUPPORT. What the engine's safety asks of a codec, and that every codec in range offers it. -/

namespace Sys2Proof.Machine

variable {lw : Nat} {cd : Codec}

/-! ### What the safety of the engine asks of a codec -/

/-- The part of the codec's laws that keeps the engine inside its memories and its CRC on its bytes: the
encoders are defined with the lengths of R102, a decoded label has LW bytes (R105), the CRC may be taken in
chunks (R231). -/
structure CodecSound (lw : Nat) (cd : Codec) : Prop where
  maxFrag_le : cd.maxFrag ≤ Config.stagingSize
  single : ∀ fid proto label p crc, label.length = lw → cd.hSingle + p.length + 4 ≤ cd.maxFrag →
    ∃ d, cd.encodeSingle fid proto label p crc = some d ∧ d.length = cd.hSingle + p.length + 4
  first : ∀ fid proto label p, label.length = lw → cd.hFirst + p.length ≤ cd.maxFrag →
    ∃ d, cd.encodeFirst fid proto label p = some d ∧ d.length = cd.hFirst + p.length
  cont : ∀ fid label p, label.length = lw → cd.hCont + p.length ≤ cd.maxFrag →
    ∃ d, cd.encodeCont fid label p = some d ∧ d.length = cd.hCont + p.length
  last : ∀ fid label p crc, label.length = lw → cd.hCont + p.length + 4 ≤ cd.maxFrag →
    ∃ d, cd.encodeLast fid label p crc = some d ∧ d.length = cd.hCont + p.length + 4
  label : ∀ d fr, cd.decode d = some fr → (fragLabel fr).length = lw
  chunk_append : ∀ acc x y, cd.crcUpdate (cd.crcUpdate acc x) y = cd.crcUpdate acc (x ++ y)

theorem CodecLaws.sound (h : CodecLaws lw cd) : CodecSound lw cd where
  maxFrag_le := h.maxFrag_le
  single := fun fid proto label p crc hl hp =>
    let ⟨d, hd, hlen, _⟩ := h.single fid proto label p crc hl hp
    ⟨d, hd, hlen⟩
  first := fun fid proto label p hl hp =>
    let ⟨d, hd, hlen, _⟩ := h.first fid proto label p hl hp
    ⟨d, hd, hlen⟩
  cont := fun fid label p hl hp =>
    let ⟨d, hd, hlen, _⟩ := h.cont fid label p hl hp
    ⟨d, hd, hlen⟩
  last := fun fid label p crc hl hp =>
    let ⟨d, hd, hlen, _⟩ := h.last fid label p crc hl hp
    ⟨d, hd, hlen⟩
  label := h.label
  chunk_append := h.chunk_append

/-- A REFCODEC fragment is two bytes longer than what its length field counts (R111, R119). -/
theorem refFragment_some (hlw : Cfg.lwLegal lw) (s e : Bool) {label : Label} (hl : label.length = lw)
    {rest : List Byte} (hr : rest.length ≤ 4095) :
    ∃ d, refFragment lw s e label rest = some d ∧ d.length = 2 + rest.length := by
  obtain ⟨lt, hlt⟩ : ∃ lt, labelTypeOf lw = some lt := by
    rcases hlw with rfl | rfl | rfl <;> exact ⟨_, rfl⟩
  refine ⟨_, by rw [refFragment, hlt]; exact if_pos ⟨hl, hr⟩, ?_⟩
  simp only [fragmentBytes, List.length_cons]
  omega

/-- What passes the decoder's checks holds the label behind the fixed fields before it (R120). -/
theorem fragmentBody_slice_length {fixed a : Nat} {lt : BitVec 2} {len : BitVec 12} {body g : List Byte}
    (h : fragmentBody lw fixed lt len body = some g) (ha : a ≤ fixed) : (slice g a lw).length = lw := by
  rw [fragmentBody] at h
  split at h
  · cases h
  split at h
  · cases h
  split at h
  · cases h
  · cases h
    rw [slice_length, List.length_take]
    omega

/-- A label REFCODEC decodes has the configured width (R105, R120). -/
theorem refDecode_label_length {d : List Byte} {fr : Frag} (h : refDecode lw d = some fr) :
    (fragLabel fr).length = lw := by
  rw [refDecode] at h
  split at h
  · rw [singleFields, Option.map_map, Option.map_eq_some_iff] at h
    obtain ⟨g, hg, rfl⟩ := h
    exact fragmentBody_slice_length hg (by decide)
  · rw [firstFields, Option.map_map, Option.map_eq_some_iff] at h
    obtain ⟨g, hg, rfl⟩ := h
    exact fragmentBody_slice_length hg (by decide)
  · rw [contFields, Option.map_map, Option.map_eq_some_iff] at h
    obtain ⟨g, hg, rfl⟩ := h
    exact fragmentBody_slice_length hg (by decide)
  · rw [lastFields, Option.map_map, Option.map_eq_some_iff] at h
    obtain ⟨g, hg, rfl⟩ := h
    exact fragmentBody_slice_length hg (by decide)
  · cases h

theorem refCodec_sound (hlw : Cfg.lwLegal lw) : CodecSound lw (refCodec lw) where
  maxFrag_le := show (4097 : Nat) ≤ 65535 by decide
  single := by
    intro fid proto label p crc hl hp
    simp only [refCodec] at hp ⊢
    obtain ⟨d, hd, hlen⟩ := refFragment_some hlw true true hl
      (rest := fid :: (beBytes 2 proto.toNat ++ label ++ p ++ beBytes 4 crc.toNat))
      (by simp; omega)
    exact ⟨d, hd, by rw [hlen]; simp; omega⟩
  first := by
    intro fid proto label p hl hp
    simp only [refCodec] at hp ⊢
    obtain ⟨d, hd, hlen⟩ := refFragment_some hlw true false hl
      (rest := fid :: (beBytes 2 proto.toNat ++ label ++ p)) (by simp; omega)
    exact ⟨d, hd, by rw [hlen]; simp; omega⟩
  cont := by
    intro fid label p hl hp
    simp only [refCodec] at hp ⊢
    obtain ⟨d, hd, hlen⟩ := refFragment_some hlw false false hl
      (rest := fid :: (label ++ p)) (by simp; omega)
    exact ⟨d, hd, by rw [hlen]; simp; omega⟩
  last := by
    intro fid label p crc hl hp
    simp only [refCodec] at hp ⊢
    obtain ⟨d, hd, hlen⟩ := refFragment_some hlw false true hl
      (rest := fid :: (label ++ p ++ beBytes 4 crc.toNat)) (by simp; omega)
    exact ⟨d, hd, by rw [hlen]; simp; omega⟩
  label := fun _ _ h => refDecode_label_length h
  chunk_append := fun acc x y => (List.foldl_append (f := crcByte)).symm

/-- A codec in range is sound, whichever it is (R100). -/
theorem CodecOk.sound {cfg : Cfg} (h : CodecOk cfg) (hlw : Cfg.lwLegal cfg.lw) :
    CodecSound cfg.lw (codecOf cfg) := by
  rcases h with h | h
  · rw [codecOf_refcodec h]; exact refCodec_sound hlw
  · exact h.sound

theorem Arrives.label_length {i : Instr} {s : State} {fr : Frag} (hc : CodecSound lw s.codec)
    (h : Arrives i s (some fr)) : (fragLabel fr).length = lw := by
  rcases h with ⟨n, -, -, h⟩ | ⟨-, h⟩
  · exact hc.label _ _ h
  · exact hc.label _ _ (Option.filter_eq_some_iff.mp h).1

end Sys2Proof.Machine

/-! SUPPORT. The parts of the invariant under single writes: memories, the ENC registers, the ownership of slots. -/

namespace Sys2Proof.Machine

variable {s t : State} {i : Instr} {f : Fid} {p : List Byte}

/-! ### Memories stay in form and in bounds -/

theorem forall_mem_modify {α : Type} {l : List α} {k : Nat} {g : α → α} {P : α → Prop}
    (h : ∀ x ∈ l, P x) (hg : ∀ x, l[k]? = some x → P (g x)) : ∀ x ∈ l.modify k g, P x := by
  intro y hy
  obtain ⟨j, hj⟩ := List.mem_iff_getElem?.mp hy
  rw [List.getElem?_modify] at hj
  obtain ⟨x, hx, rfl⟩ := Option.map_eq_some_iff.mp hj
  split
  · subst k; exact hg x hx
  · exact h x (List.mem_of_getElem? hx)

theorem MemInv.setMem_write (h : MemInv s) {sp : Space} {a : Nat} {bs : List Byte}
    (hfit : a + bs.length ≤ s.memSize sp) : MemInv (s.setMem sp ((s.mem sp).write a bs)) := by
  cases sp with
  | pduIn =>
    exact { h with
      pduIn_wf := Memory.write_wf h.pduIn_wf a bs
      pduIn_within := Memory.write_within h.pduIn_within hfit }
  | fragOut =>
    exact { h with
      fragOut_wf := Memory.write_wf h.fragOut_wf a bs
      fragOut_within := Memory.write_within h.fragOut_within hfit }
  | dgramIn =>
    exact { h with
      dgramIn_wf := Memory.write_wf h.dgramIn_wf a bs
      dgramIn_within := Memory.write_within h.dgramIn_within hfit }
  | transient =>
    exact { h with
      transient_wf := Memory.write_wf h.transient_wf a bs
      transient_within := Memory.write_within h.transient_within hfit }
  | slot k =>
    refine { h with slot_wf := forall_mem_modify h.slot_wf ?_, slot_within := forall_mem_modify h.slot_within ?_ }
    · intro sl hsl
      rw [State.mem_slot hsl]
      exact Memory.write_wf (h.slot_wf sl (List.mem_of_getElem? hsl)) a bs
    · intro sl hsl
      rw [State.memSize_slot hsl] at hfit
      rw [State.mem_slot hsl]
      exact Memory.write_within (h.slot_within sl (List.mem_of_getElem? hsl)) hfit

theorem MemInv.setFragOutLen (h : MemInv s) {n : Nat} (hn : n ≤ Config.stagingSize) :
    MemInv (s.setFragOutLen n) :=
  { h with fragOutLen_le := hn }

theorem MemInv.setTransientLen (h : MemInv s) {n : Nat} (hn : n ≤ Config.stagingSize) :
    MemInv (s.setTransientLen n) :=
  { h with transientLen_le := hn }

theorem MemInv.setOwner (h : MemInv s) (k : Nat) (o : Owner) : MemInv (s.setOwner k o) :=
  { h with
    slot_wf := forall_mem_modify h.slot_wf fun sl hsl => h.slot_wf sl (List.mem_of_getElem? hsl)
    slot_within := forall_mem_modify h.slot_within fun sl hsl =>
      h.slot_within sl (List.mem_of_getElem? hsl) }

theorem MemInv.addSlot (h : MemInv s) (n : Nat) : MemInv (s.addSlot n) := by
  refine { h with slot_wf := ?_, slot_within := ?_ } <;>
    rw [State.addSlot_slots, List.forall_mem_append, List.forall_mem_singleton]
  · exact ⟨h.slot_wf, List.Pairwise.nil⟩
  · exact ⟨h.slot_within, List.forall_mem_nil _⟩

theorem MemInv.discard (h : MemInv s) (f : Fid) : MemInv (s.discard f) :=
  { h.setOwner (s.tgt f).slot .free with }

theorem MemInv.bindSlot (h : MemInv s) {k a : Nat} {x : Target}
    (hfit : a + p.length ≤ s.memSize (.slot k)) : MemInv (s.bindSlot f k a p x) :=
  { (h.setOwner k (.ctx f)).setMem_write (sp := .slot k) (a := a) (bs := p)
      (by rw [State.setOwner_memSize]; exact hfit) with }

theorem MemInv.append (h : MemInv s) (hfit : (s.tgt f).acc + p.length ≤ s.memSize (.slot (s.tgt f).slot)) :
    MemInv (s.append f p) :=
  { h.setMem_write (sp := .slot (s.tgt f).slot) hfit with }

theorem MemInv.complete (h : MemInv s) (f : Fid) : MemInv (s.complete f) :=
  { h.setOwner (s.tgt f).slot .held with }

theorem MemInv.emit (h : MemInv s) {frag : List Byte} (hle : frag.length ≤ Config.stagingSize) :
    MemInv (s.emit frag) :=
  (h.setMem_write (sp := .fragOut) (by rw [Nat.zero_add]; exact hle)).setFragOutLen hle

theorem MemInv.completeTransient (h : MemInv s) (hle : p.length ≤ Config.stagingSize) :
    MemInv (s.completeTransient p) :=
  (h.setMem_write (sp := .transient) (by rw [Nat.zero_add]; exact hle)).setTransientLen hle

theorem MemInv.padFragment (h : MemInv s) {n : Nat} (hu : padFragment n s = some t) : MemInv t := by
  rcases padFragment_some hu with ⟨-, rfl⟩ | ⟨hlt, hn, rfl⟩
  · exact h
  · have hfit : s.fragOutLen + (zeros (n - s.fragOutLen)).length ≤ s.memSize .fragOut := by
      have hsize : s.memSize .fragOut = Config.stagingSize := rfl
      rw [List.length_replicate]; omega
    exact (h.setMem_write hfit).setFragOutLen hn

/-! ### The ENC registers stay in their ranges -/

theorem EncInv.congr (h : EncInv s) (henc : t.enc = s.enc) (hcfg : t.cfg = s.cfg) : EncInv t := by
  obtain ⟨htotal, hoffset, hlabel, hctr, hfrag⟩ := h
  exact ⟨by rwa [henc], by rwa [henc], by rwa [henc, hcfg], by rwa [henc, hcfg], by rwa [henc]⟩

theorem EncInv.close (h : EncInv s) (hlw : s.cfg.lw ≤ 6) : EncInv s.closeEnc where
  total_le := Enc.close_total_le ..
  offset_le := Enc.close_offset_le ..
  label_length := Enc.close_label_length hlw ..
  labelCtr_lt := h.labelCtr_lt
  fragmenting := nofun

theorem EncInv.advanceLabel (h : EncInv s) : EncInv s.advanceLabel :=
  { h with labelCtr_lt := Nat.mod_lt _ (Nat.two_pow_pos _) }

theorem EncInv.opened (h : EncInv s) {cd : Codec} {fid : Fid} {proto : Proto} {label : Label} {l : Nat}
    (hlabel : label.length = s.cfg.lw) (hp : 1 ≤ p.length) (hpl : p.length ≤ l) (hl : l ≤ Config.maxPdu) :
    EncInv (s.setEnc (s.enc.opened cd fid proto label l p)) where
  total_le := hl
  offset_le := hpl.trans hl
  label_length := hlabel
  labelCtr_lt := h.labelCtr_lt
  fragmenting := fun _ => ⟨hp, hpl⟩

theorem EncInv.advanced (h : EncInv s) {cd : Codec} (hst : s.enc.state = .fragmenting)
    (hp : p.length ≤ s.enc.total - s.enc.offset) : EncInv (s.setEnc (s.enc.advanced cd p)) := by
  obtain ⟨hone, hle⟩ := h.fragmenting hst
  have htotal := h.total_le
  refine { h with offset_le := ?_, fragmenting := fun _ => ⟨?_, ?_⟩ }
  all_goals simp only [State.setEnc_enc, Enc.advanced]; omega

/-! ### Ownership: one slot and the targets bound to it change -/

/-- Only the targets in `touched` and slot `k` change. -/
structure LocalChange (touched : Fid → Prop) (k : Nat) (s t : State) : Prop where
  cfg : t.cfg = s.cfg
  epoch : t.epoch = s.epoch
  tgt : ∀ g, ¬ touched g → t.tgt g = s.tgt g
  slot : ∀ j, j ≠ k → t.slots[j]? = s.slots[j]?

/-- A target's registers are in their ranges (R34, R36). -/
structure TargetOk (s : State) (g : Fid) : Prop where
  acc_le : (s.tgt g).acc ≤ Config.maxPdu
  label_length : (s.tgt g).label.length = s.cfg.lw

theorem PoolInv.targetOk (h : PoolInv s) (g : Fid) : TargetOk s g := ⟨h.acc_le g, h.label_length g⟩

/-- The number of slots and their sizes are in range (R40, R43). -/
structure SlotsOk (s : State) : Prop where
  count_le : s.slots.length ≤ s.cfg.n
  size_lt : ∀ sl ∈ s.slots, sl.size < 2 ^ 32

theorem PoolInv.slotsOk (h : PoolInv s) : SlotsOk s := ⟨h.count_le, h.size_lt⟩

theorem SlotsOk.modifySlot (h : SlotsOk s) (k : Nat) {g : Slot → Slot} (hg : ∀ sl, (g sl).size = sl.size) :
    SlotsOk (s.modifySlot k g) where
  count_le := by rw [State.modifySlot_slots, List.length_modify]; exact h.count_le
  size_lt := forall_mem_modify h.size_lt fun sl hsl => by
    rw [hg]; exact h.size_lt sl (List.mem_of_getElem? hsl)

theorem SlotsOk.setOwner (h : SlotsOk s) (k : Nat) (o : Owner) : SlotsOk (s.setOwner k o) :=
  h.modifySlot k fun _ => rfl

theorem State.readBytes_slot_congr {j : Nat} (hslot : t.slots[j]? = s.slots[j]?)
    (hepoch : t.epoch = s.epoch) (a n : Nat) : t.readBytes (.slot j) a n = s.readBytes (.slot j) a n :=
  State.readBytes_congr fun _ _ => by simp only [State.readByte, State.mem, hslot, hepoch]

/-- A context that a change does not touch is as good as before. -/
theorem ContextOk.of_untouched {sl : Slot} (h : ContextOk s f sl) (htgt : t.tgt f = s.tgt f)
    (hslot : t.slots[(s.tgt f).slot]? = s.slots[(s.tgt f).slot]?) (hcfg : t.cfg = s.cfg)
    (hepoch : t.epoch = s.epoch) : ContextOk t f sl := by
  obtain ⟨howned, hfits, hcrc⟩ := h
  refine ⟨howned, by rwa [htgt], ?_⟩
  rw [htgt, State.codec_congr hcfg, State.readBytes_slot_congr hslot hepoch, hcrc]

/-- The ownership invariant after a local change (R44): the slot was no other context's, and now it and
the targets touched agree. -/
theorem PoolInv.of_localChange {touched : Fid → Prop} {k : Nat} (h : PoolInv s)
    (hc : LocalChange touched k s t) (hslots : SlotsOk t)
    (hbefore : ∀ sl g, s.slots[k]? = some sl → sl.owner = .ctx g → touched g)
    (hbound : ∀ g, touched g → (s.tgt g).state = .reassembling → (s.tgt g).slot = k)
    (hok : ∀ g, touched g → TargetOk t g)
    (hctx : ∀ g, touched g → (t.tgt g).state = .reassembling →
      ∃ sl, t.slots[(t.tgt g).slot]? = some sl ∧ ContextOk t g sl)
    (hafter : ∀ sl g, t.slots[k]? = some sl → sl.owner = .ctx g →
      (t.tgt g).state = .reassembling ∧ (t.tgt g).slot = k) : PoolInv t := by
  have htargets : ∀ g, TargetOk t g := by
    intro g
    by_cases hg : touched g
    · exact hok g hg
    · exact ⟨by rw [hc.tgt g hg]; exact h.acc_le g, by rw [hc.tgt g hg, hc.cfg]; exact h.label_length g⟩
  refine ⟨hslots.count_le, hslots.size_lt, fun g => (htargets g).acc_le,
    fun g => (htargets g).label_length, fun g hst => ?_, fun j sl g hsl ho => ?_⟩
  · by_cases hg : touched g
    · exact hctx g hg hst
    · rw [hc.tgt g hg] at hst ⊢
      obtain ⟨sl, hsl, hok⟩ := h.context g hst
      have hk : (s.tgt g).slot ≠ k := fun e => hg (hbefore sl g (e ▸ hsl) hok.owned)
      exact ⟨sl, by rw [hc.slot _ hk, hsl], hok.of_untouched (hc.tgt g hg) (hc.slot _ hk) hc.cfg hc.epoch⟩
  · by_cases hj : j = k
    · subst hj; exact hafter sl g hsl ho
    · rw [hc.slot j hj] at hsl
      obtain ⟨hst, hslot⟩ := h.owner j sl g hsl ho
      have hg : ¬ touched g := fun hg => hj (hslot ▸ hbound g hg hst)
      rw [hc.tgt g hg]
      exact ⟨hst, hslot⟩

/-- A slot of no context given another owner that is none (R144, R146). -/
theorem PoolInv.setOwner (h : PoolInv s) {k : Nat} {sl : Slot} {o : Owner} (hsl : s.slots[k]? = some sl)
    (hbefore : ∀ g, sl.owner ≠ .ctx g) (hafter : ∀ g, o ≠ .ctx g) : PoolInv (s.setOwner k o) := by
  have hc : LocalChange (fun _ => False) k s (s.setOwner k o) :=
    ⟨rfl, rfl, fun _ _ => rfl, fun j hj => s.slots_modifySlot_ne _ hj.symm⟩
  refine h.of_localChange hc (h.slotsOk.setOwner k o) (fun sl' g hsl' ho => ?_) nofun nofun nofun
    fun sl' g hsl' ho => ?_
  · rw [hsl] at hsl'; cases hsl'; exact hbefore g ho
  · rw [State.slots_setOwner, hsl] at hsl'
    obtain rfl : { sl with owner := o } = sl' := by simpa using hsl'
    exact absurd ho (hafter g)

/-- The next slot registered, Free (R142). -/
theorem PoolInv.addSlot (h : PoolInv s) {n : Nat} (hcount : s.poolCount ≠ s.cfg.n) (hn : n < 2 ^ 32) :
    PoolInv (s.addSlot n) := by
  have hlt : s.slots.length < s.cfg.n := lt_of_le_of_ne h.count_le hcount
  have hc : LocalChange (fun _ => False) s.slots.length s (s.addSlot n) :=
    ⟨rfl, rfl, fun _ _ => rfl, fun j hj => s.slots_addSlot_ne n hj⟩
  have hslots : SlotsOk (s.addSlot n) := by
    refine ⟨by simpa using hlt, ?_⟩
    rw [State.addSlot_slots, List.forall_mem_append, List.forall_mem_singleton]
    exact ⟨h.size_lt, hn⟩
  refine h.of_localChange hc hslots (fun sl g hsl ho => ?_) nofun nofun nofun fun sl g hsl ho => ?_
  · simp at hsl
  · obtain rfl : (⟨n, .free, []⟩ : Slot) = sl := by simpa using hsl
    cases ho

/-- A context closed, and its slot given to no other (R198, R209). -/
theorem PoolInv.closeContext (h : PoolInv s) {o : Owner} (hlw : s.cfg.lw ≤ 6)
    (hst : (s.tgt f).state = .reassembling) (ho : ∀ g, o ≠ .ctx g) :
    PoolInv ((s.setOwner (s.tgt f).slot o).closeTgt f) := by
  obtain ⟨sl, hsl, hok⟩ := h.context f hst
  have hc : LocalChange (· = f) (s.tgt f).slot s ((s.setOwner (s.tgt f).slot o).closeTgt f) := by
    refine ⟨rfl, rfl, fun g hg => ?_, fun j hj => s.slots_modifySlot_ne _ hj.symm⟩
    rw [State.tgt_closeTgt_ne _ hg, State.setOwner_tgt]
  refine h.of_localChange hc { h.slotsOk.setOwner (s.tgt f).slot o with } (fun sl' g hsl' ho' => ?_) ?_ ?_ ?_
    fun sl' g hsl' ho' => ?_
  · rw [hsl] at hsl'; cases hsl'
    rw [hok.owned] at ho'; cases ho'; rfl
  · rintro g rfl -; rfl
  · rintro g rfl
    refine ⟨?_, ?_⟩ <;> rw [State.tgt_closeTgt_same]
    · exact Target.close_acc_le ..
    · exact Target.close_label_length hlw ..
  · rintro g rfl hst'
    rw [State.tgt_closeTgt_same] at hst'; cases hst'
  · rw [State.closeTgt_slots, State.slots_setOwner, hsl] at hsl'
    obtain rfl : { sl with owner := o } = sl' := by simpa using hsl'
    exact absurd ho' (ho g)

/-- What a slot must be to take the bytes of target `f`: Free, or `f`'s already; and `f` has no other. -/
structure Bindable (s : State) (f : Fid) (k : Nat) (sl : Slot) : Prop where
  slot : s.slots[k]? = some sl
  owner : ∀ g, sl.owner = .ctx g → g = f
  only : (s.tgt f).state = .reassembling → (s.tgt f).slot = k

/-- The registers of a target after `a` bytes of slot `k` and then `p` were gathered (R34, R35, R237). -/
structure Gathered (s : State) (k a : Nat) (p : List Byte) (sl : Slot) (x : Target) : Prop where
  slot : x.slot = k
  acc : x.acc = a + p.length
  fits : a + p.length ≤ gatherBound sl
  crc : x.crc = s.codec.crcUpdate s.codec.crcInit (s.readBytes (.slot k) 0 a ++ p)
  label_length : x.label.length = s.cfg.lw

theorem State.slots_bindSlot_same {k : Nat} {sl : Slot} (hsl : s.slots[k]? = some sl) (a : Nat) (x : Target) :
    (s.bindSlot f k a p x).slots[k]? = some ⟨sl.size, .ctx f, sl.data.write a p⟩ := by
  simp [hsl, State.mem_slot hsl]

theorem State.slots_bindSlot_ne {j k : Nat} (hj : j ≠ k) (a : Nat) (x : Target) :
    (s.bindSlot f k a p x).slots[j]? = s.slots[j]? := by
  simp [Ne.symm hj]

/-- The bytes of a slot after it was bound: those before the offset, then those written (R67). -/
theorem State.readBytes_bindSlot {k : Nat} {sl : Slot} (hsl : s.slots[k]? = some sl) (a : Nat) (x : Target) :
    (s.bindSlot f k a p x).readBytes (.slot k) 0 (a + p.length) = s.readBytes (.slot k) 0 a ++ p := by
  have hk : ∀ j, Space.slot k = .slot j → j < (s.setOwner k (.ctx f)).slots.length := by
    rintro j ⟨⟩
    simpa using (List.getElem?_eq_some_iff.mp hsl).1
  rw [State.setTgt_readBytes, State.readBytes_append, Nat.zero_add, State.readBytes_setMem_same _ _ _ hk,
    State.readBytes_setMem_below _ _ _ _ _ (Nat.zero_add a).le hk, State.setOwner_readBytes]

/-- A context opened or extended (R200, R207): the accumulator stays the CRC of the bytes (R237). -/
theorem PoolInv.bindSlot (h : PoolInv s) {k a : Nat} {sl : Slot} {x : Target} (hb : Bindable s f k sl)
    (hx : Gathered s k a p sl x) (hst : x.state = .reassembling) : PoolInv (s.bindSlot f k a p x) := by
  have hsame := State.slots_bindSlot_same (f := f) (p := p) hb.slot a x
  have hc : LocalChange (· = f) k s (s.bindSlot f k a p x) := by
    refine ⟨by simp, by simp, fun g hg => ?_, fun j hj => State.slots_bindSlot_ne hj a x⟩
    rw [State.tgt_setTgt_ne _ _ hg, State.setMem_tgt, State.setOwner_tgt]
  have hslots : SlotsOk (s.bindSlot f k a p x) := 
    { (h.slotsOk.setOwner k (.ctx f)).modifySlot k
        (g := fun sl => { sl with data := ((s.setOwner k (.ctx f)).mem (.slot k)).write a p })
        fun _ => rfl with }
  have htgt : (s.bindSlot f k a p x).tgt f = x := State.tgt_setTgt_same ..
  have hcodec : (s.bindSlot f k a p x).codec = s.codec := by simp
  have hfits := hx.fits
  refine h.of_localChange hc hslots (fun sl' g hsl' ho => ?_) ?_ ?_ ?_ fun sl' g hsl' ho => ?_
  · rw [hb.slot] at hsl'; cases hsl'; exact hb.owner g ho
  · rintro g rfl hg; exact hb.only hg
  · rintro g rfl
    refine ⟨?_, by rw [htgt, hx.label_length]; simp⟩
    rw [htgt, hx.acc]
    exact hfits.trans (Nat.min_le_right _ _)
  · rintro g rfl -
    rw [htgt, hx.slot]
    refine ⟨_, hsame, rfl, ?_, ?_⟩
    · rw [htgt, hx.acc]; exact hfits
    · rw [htgt, hcodec, hx.slot, hx.acc, State.readBytes_bindSlot hb.slot, hx.crc]
  · rw [hsame] at hsl'; cases hsl'; cases ho
    rw [htgt]
    exact ⟨hst, hx.slot⟩

/-- Appending is binding again the slot the target is bound to. -/
theorem State.append_eq_bindSlot {sl : Slot} (hsl : s.slots[(s.tgt f).slot]? = some sl)
    (ho : sl.owner = .ctx f) :
    s.append f p = s.bindSlot f (s.tgt f).slot (s.tgt f).acc p (appendedTarget s.codec p (s.tgt f)) := by
  rw [State.bindSlot, ← ho, State.setOwner_self hsl]

end Sys2Proof.Machine

/-! SUPPORT. Every effect of a command keeps the invariant, the halt among them. -/

namespace Sys2Proof.Machine

variable {s t : State} {i : Instr} {f : Fid} {p : List Byte} {label : Label} {sl : Slot}

/-! ### POOL and DEC keep the ownership invariant -/

theorem PoolInv.congr (h : PoolInv s) (hslots : t.slots = s.slots) (htgt : ∀ g, t.tgt g = s.tgt g)
    (hcfg : t.cfg = s.cfg) (hepoch : t.epoch = s.epoch) : PoolInv t where
  count_le := by rw [hslots, hcfg]; exact h.count_le
  size_lt := by rw [hslots]; exact h.size_lt
  acc_le := fun g => by rw [htgt]; exact h.acc_le g
  label_length := fun g => by rw [htgt, hcfg]; exact h.label_length g
  context := fun g hst => by
    rw [htgt] at hst ⊢
    obtain ⟨sl, hsl, hok⟩ := h.context g hst
    exact ⟨sl, by rw [hslots, hsl], hok.of_untouched (htgt g) (by rw [hslots]) hcfg hepoch⟩
  owner := fun j sl g hsl ho => by
    rw [htgt]
    exact h.owner j sl g (hslots ▸ hsl) ho

theorem PoolInv.raised (h : PoolInv s) (u : LogUnit) (c : RespCode) (f : Fid) : PoolInv (s.raised u c f) :=
  h.congr rfl (fun _ => rfl) rfl rfl

theorem PoolInv.setRsp (h : PoolInv s) (r : Rsp16) : PoolInv (s.setRsp r) :=
  h.congr rfl (fun _ => rfl) rfl rfl

theorem MemInv.raised (h : MemInv s) (u : LogUnit) (c : RespCode) (f : Fid) : MemInv (s.raised u c f) :=
  { h with }

theorem MemInv.setRsp (h : MemInv s) (r : Rsp16) : MemInv (s.setRsp r) :=
  { h with }

theorem PoolInv.discard (h : PoolInv s) (hlw : s.cfg.lw ≤ 6) (hst : (s.tgt f).state = .reassembling) :
    PoolInv (s.discard f) :=
  h.closeContext hlw hst nofun

theorem PoolInv.complete (h : PoolInv s) (hlw : s.cfg.lw ≤ 6) (hst : (s.tgt f).state = .reassembling) :
    PoolInv (s.complete f) :=
  h.closeContext hlw hst nofun

/-- The payload appended to a context that has room for it (R207). -/
theorem PoolInv.append (h : PoolInv s) (hc : CodecSound s.cfg.lw s.codec) (hx : ContextOf s f label sl)
    (hfit : (s.tgt f).acc + p.length ≤ gatherBound sl) : PoolInv (s.append f p) := by
  obtain ⟨sl', hsl', hok⟩ := h.context f hx.reassembling
  obtain rfl : sl = sl' := Option.some.inj (hx.slot.symm.trans hsl')
  have hb : Bindable s f (s.tgt f).slot sl :=
    ⟨hsl', fun g hg => by rw [hok.owned] at hg; cases hg; rfl, fun _ => rfl⟩
  have hg : Gathered s (s.tgt f).slot (s.tgt f).acc p sl (appendedTarget s.codec p (s.tgt f)) := by
    refine ⟨rfl, rfl, hfit, ?_, h.label_length f⟩
    simp only [appendedTarget]
    rw [hok.crc, hc.chunk_append]
  rw [State.append_eq_bindSlot hsl' hok.owned]
  exact h.bindSlot hb hg hx.reassembling

theorem ContextOf.memSize (hx : ContextOf s f label sl) : s.memSize (.slot (s.tgt f).slot) = sl.size :=
  State.memSize_slot hx.slot

/-- The context stays open, on its slot, while its bytes grow. -/
theorem ContextOf.append_reassembling (hx : ContextOf s f label sl) :
    ((s.append f p).tgt f).state = .reassembling := by
  rw [State.append_tgt_same]; exact hx.reassembling

theorem MemInv.append_of_fits (h : MemInv s) (hx : ContextOf s f label sl)
    (hfit : (s.tgt f).acc + p.length ≤ gatherBound sl) : MemInv (s.append f p) :=
  h.append (hx.memSize ▸ hfit.trans (Nat.min_le_left _ _))

theorem OpenEffect.keeps {proto : Proto} (h : OpenEffect s f proto label p t) (hm : MemInv s)
    (hp : PoolInv s) (hst : (s.tgt f).state = .awaitingFirst) (hlabel : label.length = s.cfg.lw) :
    MemInv t ∧ PoolInv t := by
  cases h with
  | refused c hc => exact ⟨hm.raised _ _ _, hp.raised _ _ _⟩
  | opened k sl hl hfit =>
    obtain ⟨hsl, hfree, -⟩ := hl
    have hb : Bindable s f k sl :=
      ⟨hsl, fun g hg => by simp [hfree] at hg, fun hre => by simp [hst] at hre⟩
    have hg : Gathered s k 0 p sl (openedTarget s.codec k proto label p (s.tgt f)) :=
      ⟨rfl, (Nat.zero_add _).symm, by rwa [Nat.zero_add], rfl, hlabel⟩
    have hsize : 0 + p.length ≤ s.memSize (.slot k) := by
      rw [Nat.zero_add, State.memSize_slot hsl]
      exact hfit.trans (Nat.min_le_left _ _)
    exact ⟨(hm.bindSlot hsize).setRsp _, (hp.bindSlot hb hg rfl).setRsp _⟩

theorem FragEffect.keeps {fr : Option Frag} (h : FragEffect s fr t) (hm : MemInv s) (hp : PoolInv s)
    (hc : CodecSound s.cfg.lw s.codec) (hlw : s.cfg.lw ≤ 6)
    (hlabel : ∀ fr', fr = some fr' → (fragLabel fr').length = s.cfg.lw) : MemInv t ∧ PoolInv t := by
  cases h with
  | refused _ c f hcode => exact ⟨hm.raised _ _ _, hp.raised _ _ _⟩
  | single f proto label p crc hle hcrc =>
    exact ⟨(hm.completeTransient hle).setRsp _, hp.congr rfl (fun _ => rfl) rfl rfl⟩
  | first f proto label p _ hst ho => exact ho.keeps hm hp hst (hlabel _ rfl)
  | restart f proto label p sl _ hst hsl ho =>
    have hm' : MemInv (s.restart f) := { hm.discard f with }
    have hp' : PoolInv (s.restart f) := (hp.discard hlw hst).congr rfl (fun _ => rfl) rfl rfl
    have hst' : ((s.restart f).tgt f).state = .awaitingFirst := by
      rw [State.addEvent_tgt, State.tgt_discard_same, Target.close_state]
    exact ho.keeps hm' hp' hst' (hlabel _ rfl)
  | overrun fr f label p sl hfr hx hover =>
    exact ⟨(hm.discard f).raised _ _ _, (hp.discard hlw hx.reassembling).raised _ _ _⟩
  | cont f label p sl hx hfit =>
    exact ⟨(hm.append_of_fits hx hfit).setRsp _, (hp.append hc hx hfit).setRsp _⟩
  | mismatch f label p crc sl hx hfit hcrc =>
    exact ⟨((hm.append_of_fits hx hfit).discard f).raised _ _ _,
      ((hp.append hc hx hfit).discard (by simpa using hlw) hx.append_reassembling).raised _ _ _⟩
  | last f label p crc sl hx hfit hcrc =>
    exact ⟨((hm.append_of_fits hx hfit).complete f).setRsp _,
      ((hp.append hc hx hfit).complete (by simpa using hlw) hx.append_reassembling).setRsp _⟩

theorem PoolEffect.keeps (h : PoolEffect s i t) (hm : MemInv s) (hp : PoolInv s) :
    MemInv t ∧ PoolInv t := by
  cases h with
  | provision size hn => exact ⟨(hm.addSlot _).setRsp _, (hp.addSlot hn size.isLt).setRsp _⟩
  | acquire k sl hl =>
    obtain ⟨hsl, hfree, -⟩ := hl
    exact ⟨(hm.setOwner k _).setRsp _, (hp.setOwner (o := .held) hsl (by rw [hfree]; nofun) nofun).setRsp _⟩
  | release hd sl hsl hheld =>
    exact ⟨{ hm.setOwner hd.toNat .free with },
      (hp.setOwner (o := .free) hsl (by rw [hheld]; nofun) nofun).congr rfl (fun _ => rfl) rfl rfl⟩

/-! ### ENC and PAD keep the registers and FRAG_OUT in range -/

theorem EgressEffect.keeps (h : EgressEffect s i t) (hm : MemInv s) (he : EncInv s)
    (hlw : s.cfg.lw ≤ 6) : MemInv t ∧ EncInv t := by
  cases h with
  | nextLabel => exact ⟨{ hm with }, { he.advanceLabel with }⟩
  | single fid proto len cap label frag hst hle => exact ⟨(hm.emit hle).setRsp _, { he with }⟩
  | first fid proto len cap label frag p hst hle hp hpl hl =>
    exact ⟨{ hm.emit hle with }, { he.opened (labelOfField_length hlw label) hp hpl hl with }⟩
  | abandon cap hst => exact ⟨{ hm with }, { he.close hlw with }⟩
  | last cap frag hst hle => exact ⟨{ hm.emit hle with }, { he.close hlw with }⟩
  | middle cap frag p hst hle hp => exact ⟨{ hm.emit hle with }, { he.advanced hst hp with }⟩
  | pad len u hlen hu =>
    have hcfg := (EgressEffect.pad len u hlen hu).sameInputs.cfg
    exact ⟨(hm.padFragment hu).setRsp _, he.congr ((State.setRsp_enc ..).trans (padFragment_enc hu)) hcfg⟩

theorem EgressEffect.sameDec (h : EgressEffect s i t) : t.slots = s.slots ∧ ∀ g, t.tgt g = s.tgt g := by
  cases h with
  | pad len u hlen hu => rcases padFragment_some hu with ⟨-, rfl⟩ | ⟨-, -, rfl⟩ <;> simp
  | _ => exact ⟨rfl, fun _ => rfl⟩

theorem FragEffect.sameEnc {fr : Option Frag} (h : FragEffect s fr t) : t.enc = s.enc := by
  cases h with
  | first f proto label p _ hst ho => cases ho <;> simp [State.raised]
  | restart f proto label p sl _ hst hsl ho => cases ho <;> simp [State.raised]
  | _ => simp [State.raised]

theorem PoolEffect.sameEnc (h : PoolEffect s i t) : t.enc = s.enc := by
  cases h <;> rfl

/-! ### Only SHUTDOWN stops the engine -/

/-- `run` and `halt_cause` are as before. -/
structure SameRun (s t : State) : Prop where
  run : t.run = s.run
  haltCause : t.haltCause = s.haltCause

theorem OpenEffect.sameRun {proto : Proto} (h : OpenEffect s f proto label p t) : SameRun s t := by
  cases h <;> constructor <;> simp [State.raised]

theorem FragEffect.sameRun {fr : Option Frag} (h : FragEffect s fr t) : SameRun s t := by
  cases h with
  | first f proto label p _ hst ho => exact ho.sameRun
  | restart f proto label p sl _ hst hsl ho => exact ⟨ho.sameRun.run, ho.sameRun.haltCause⟩
  | _ => constructor <;> simp [State.raised]

theorem EgressEffect.sameRun (h : EgressEffect s i t) : SameRun s t := by
  cases h with
  | pad len u hlen hu => rcases padFragment_some hu with ⟨-, rfl⟩ | ⟨-, -, rfl⟩ <;> constructor <;> simp
  | _ => constructor <;> simp [State.raised]

theorem PoolEffect.sameRun (h : PoolEffect s i t) : SameRun s t := by
  cases h <;> constructor <;> simp

/-! ### Running, and what SEQ is about to read -/

/-- While Running, RUN and the cause are all that the halting part speaks of (R21, R22). -/
theorem RunInv.of_running (h : RunInv s) (hr : s.run = .running) (hcfg : t.cfg = s.cfg)
    (hsame : SameRun s t) : RunInv t := by
  have hrun : t.run = .running := hsame.run.trans hr
  have hnot : t.run ≠ .halted := by rw [hrun]; decide
  refine ⟨fun _ => hcfg ▸ h.legal hr, fun _ => hcfg ▸ h.codec hr, fun _ => ?_, ?_, fun hh => absurd hh hnot,
    fun hh => absurd hh hnot, fun hh => absurd hh hnot⟩
  · rw [hsame.haltCause]; exact h.running_cause hr
  · rw [hsame.haltCause]; exact h.halted_cause

theorem Inv.legal (h : Inv s) (hr : s.run = .running) : s.cfg.Legal := h.run.legal hr

theorem Inv.lw_le_six (h : Inv s) (hr : s.run = .running) : s.cfg.lw ≤ 6 := Cfg.lw_le_six (h.legal hr)

theorem Inv.codecSound (h : Inv s) (hr : s.run = .running) : CodecSound s.cfg.lw s.codec :=
  (h.run.codec hr).sound (h.legal hr).1

/-- A position of the ingress direction stays in range as long as the memories keep their sizes. -/
theorem IngressPos.InRange.of_sizes {pos : IngressPos} (h : pos.InRange s)
    (hrun : t.run = .running → s.run = .running) (hsize : ∀ sp, s.memSize sp ≤ t.memSize sp) :
    pos.InRange t := by
  cases pos with
  | deliver hd len => exact fun hr => (h (hrun hr)).trans (hsize _)
  | decap n => exact h
  | _ => trivial

theorem SeqInv.of_sizes (h : SeqInv s) (hports : t.ports = s.ports) (hseq : t.seq = s.seq)
    (hrun : t.run = .running → s.run = .running) (hsize : SizesKept s t) : SeqInv t where
  inputs := by rw [hports]; exact h.inputs
  ingress := by rw [hseq]; exact h.ingress.of_sizes hrun hsize.memSize_le

/-! ### Halting keeps the invariant (R262) -/

/-- ENC after a halt: as it was when it was Idle, else its context closed (log 22). -/
theorem State.halt_enc (s : State) (c : RespCode) :
    (s.halt c).enc = s.idleEnc.enc := by
  simp only [State.halt, State.haltEvent_eq, State.setHalted_enc, State.idleEnc, State.freeAllSlots_enc,
    State.closeAllTgts_enc]
  cases s.enc.state <;> rfl

theorem EncInv.halt (h : EncInv s) (hlw : s.cfg.lw ≤ 6) (c : RespCode) : EncInv (s.halt c) := by
  have hidle : EncInv s.idleEnc := by
    unfold State.idleEnc
    cases s.enc.state
    · exact h
    · exact h.close hlw
  refine hidle.congr (s.halt_enc c) ?_
  obtain ⟨e, he⟩ := s.idleEnc_eq
  rw [he, (s.halt_sameInputs c).cfg, State.setEnc_cfg]

theorem MemInv.halt (h : MemInv s) (c : RespCode) : MemInv (s.halt c) := by
  obtain ⟨-, hlen, htlen, hpdu, hfrag, hdgram, htrans, -⟩ := s.halt_frame c
  have hslots : ∀ P : Slot → Prop, (∀ sl ∈ s.slots, P { sl with owner := .free }) →
      ∀ sl ∈ (s.halt c).slots, P sl := by
    intro P hP sl hsl
    rw [State.halt_slots] at hsl
    obtain ⟨sl', hsl', rfl⟩ := List.mem_map.mp hsl
    exact hP sl' hsl'
  exact
    { pduIn_wf := by rw [hpdu]; exact h.pduIn_wf
      fragOut_wf := by rw [hfrag]; exact h.fragOut_wf
      dgramIn_wf := by rw [hdgram]; exact h.dgramIn_wf
      transient_wf := by rw [htrans]; exact h.transient_wf
      pduIn_within := by rw [hpdu]; exact h.pduIn_within
      fragOut_within := by rw [hfrag]; exact h.fragOut_within
      dgramIn_within := by rw [hdgram]; exact h.dgramIn_within
      transient_within := by rw [htrans]; exact h.transient_within
      slot_wf := hslots _ h.slot_wf
      slot_within := hslots _ h.slot_within
      fragOutLen_le := by rw [hlen]; exact h.fragOutLen_le
      transientLen_le := by rw [htlen]; exact h.transientLen_le }

theorem TargetOk.halt (h : TargetOk s f) (hlw : s.cfg.lw ≤ 6) (c : RespCode) : TargetOk (s.halt c) f := by
  have hcfg := (s.halt_sameInputs c).cfg
  constructor <;> rw [State.halt_tgt, State.tgt_closeAllTgts] <;> cases (s.tgt f).state
  · exact h.acc_le
  · exact Target.close_acc_le ..
  · rw [hcfg]; exact h.label_length
  · rw [hcfg]; exact Target.close_label_length hlw ..

theorem State.halt_slot_free {c : RespCode} (h : sl ∈ (s.halt c).slots) : sl.owner = .free := by
  rw [State.halt_slots] at h
  obtain ⟨sl', -, rfl⟩ := List.mem_map.mp h
  rfl

theorem PoolInv.halt (h : PoolInv s) (hlw : s.cfg.lw ≤ 6) (c : RespCode) : PoolInv (s.halt c) := by
  have htargets := fun g => (h.targetOk g).halt hlw c
  refine ⟨?_, ?_, fun g => (htargets g).acc_le, fun g => (htargets g).label_length, fun g hst => ?_,
    fun j sl g hsl ho => ?_⟩
  · rw [State.halt_slots, List.length_map, (s.halt_sameInputs c).cfg]; exact h.count_le
  · rw [State.halt_slots, List.forall_mem_map]; exact h.size_lt
  · rw [State.halt_tgt_state] at hst; cases hst
  · rw [State.halt_slot_free (List.mem_of_getElem? hsl)] at ho; cases ho

theorem Inv.halt (h : Inv s) (hr : s.run = .running) {c : RespCode} (hc : c = .ok ∨ c = .ioError) :
    Inv (s.halt c) := by
  have hlw := h.lw_le_six hr
  have hsame := s.halt_sameInputs c
  have hnot : ∀ P : Prop, (s.halt c).run = .running → P := by
    intro P hrun
    rw [State.halt_run] at hrun; cases hrun
  exact
    { mem := h.mem.halt c
      enc := h.enc.halt hlw c
      pool := h.pool.halt hlw c
      run :=
        { legal := hnot _
          codec := hnot _
          running_cause := hnot _
          halted_cause := by rw [State.halt_haltCause]; tauto
          halted_enc := fun _ => State.halt_enc_state s c
          halted_tgts := fun _ g => State.halt_tgt_state s c g
          halted_slots := fun _ _ hsl => State.halt_slot_free hsl }
      seq := h.seq.of_sizes hsame.ports hsame.seq (hnot _) (.halt s c) }

/-! ### Commands keep the invariant -/

theorem Inv.setRsp (h : Inv s) (r : Rsp16) : Inv (s.setRsp r) where
  mem := h.mem.setRsp r
  enc := { h.enc with }
  pool := h.pool.setRsp r
  run := { h.run with }
  seq := h.seq.of_sizes rfl rfl id (.of_slots_eq rfl)

theorem Inv.raised (h : Inv s) (u : LogUnit) (c : RespCode) (f : Fid) : Inv (s.raised u c f) where
  mem := h.mem.raised u c f
  enc := { h.enc with }
  pool := h.pool.raised u c f
  run := { h.run with }
  seq := h.seq.of_sizes rfl rfl id (.of_slots_eq rfl)

/-- A command answered while Running keeps the invariant if it keeps the parts for memories, ENC and POOL. -/
theorem Inv.of_running (h : Inv s) (hr : s.run = .running) (hin : SameInputs s t) (hrun : SameRun s t)
    (hsize : SizesKept s t) (hm : MemInv t) (he : EncInv t) (hp : PoolInv t) : Inv t :=
  ⟨hm, he, hp, h.run.of_running hr hin.cfg hrun,
    h.seq.of_sizes hin.ports hin.seq (fun _ => hr) hsize⟩

theorem Effect.keeps_inv (he : Effect s i t) (h : Inv s) : Inv t := by
  cases he with
  | illegal => exact h.setRsp _
  | refused u c f hr hc => exact h.raised u c f
  | pool _ hr hp =>
    obtain ⟨hm, hpool⟩ := hp.keeps h.mem h.pool
    exact h.of_running hr hp.sameInputs hp.sameRun hp.sizesKept hm
      (h.enc.congr hp.sameEnc hp.sameInputs.cfg) hpool
  | egress _ hr he =>
    obtain ⟨hm, henc⟩ := he.keeps h.mem h.enc (h.lw_le_six hr)
    obtain ⟨hslots, htgt⟩ := he.sameDec
    exact h.of_running hr he.sameInputs he.sameRun he.sizesKept hm henc
      (h.pool.congr hslots htgt he.sameInputs.cfg he.sameInputs.epoch)
  | fragment fr _ hr ha hf =>
    have hc := h.codecSound hr
    obtain ⟨hm, hpool⟩ := hf.keeps h.mem h.pool hc (h.lw_le_six hr)
      fun fr' hfr => (hfr ▸ ha).label_length hc
    exact h.of_running hr hf.sameInputs hf.sameRun hf.sizesKept hm
      (h.enc.congr hf.sameEnc hf.sameInputs.cfg) hpool
  | shutdown hr hi => exact (h.halt hr (.inl rfl)).setRsp _
  | shutdownHalted hr hi => exact h.setRsp _

end Sys2Proof.Machine

/-! SUPPORT. The invariant holds after reset, and from a state that meets it every command answers. -/

namespace Sys2Proof.Machine

variable {s t : State} {i : Instr} {f : Fid} {p : List Byte} {label : Label} {sl : Slot}

/-! ### Reset meets the invariant (R320 to R323) -/

@[simp] theorem State.resetWith_tgt (cfg : Cfg) (epoch : Nat) (req : Bool) (ports : Ports) (f : Fid) :
    (State.resetWith cfg epoch req ports).tgt f = Target.reset cfg.lw := by
  simp [State.tgt, State.resetWith]

theorem State.resetWith_running {cfg : Cfg} {epoch : Nat} {req : Bool} {ports : Ports} :
    (State.resetWith cfg epoch req ports).run = .running ↔ cfg.Legal := by
  refine ⟨fun h => ?_, fun h => if_pos h⟩
  by_contra hn
  have hrun : (State.resetWith cfg epoch req ports).run = .halted := if_neg hn
  rw [hrun] at h; cases h

theorem RunInv.resetWith {cfg : Cfg} (epoch : Nat) (req : Bool) (ports : Ports)
    (hcodec : cfg.Legal → CodecOk cfg) : RunInv (State.resetWith cfg epoch req ports) where
  legal := State.resetWith_running.mp
  codec := fun hr => hcodec (State.resetWith_running.mp hr)
  running_cause := fun hr => if_pos (State.resetWith_running.mp hr)
  halted_cause := by
    by_cases hl : cfg.Legal
    · exact .inl (if_pos hl)
    · exact .inr (.inl (if_neg hl))
  halted_enc := fun _ => rfl
  halted_tgts := fun _ f => by rw [State.resetWith_tgt]; rfl
  halted_slots := fun _ => List.forall_mem_nil _

theorem PoolInv.resetWith (cfg : Cfg) (epoch : Nat) (req : Bool) (ports : Ports) :
    PoolInv (State.resetWith cfg epoch req ports) where
  count_le := Nat.zero_le _
  size_lt := List.forall_mem_nil _
  acc_le := fun f => by rw [State.resetWith_tgt]; exact Nat.zero_le _
  label_length := fun f => by rw [State.resetWith_tgt]; exact List.length_replicate
  context := fun f hst => by rw [State.resetWith_tgt] at hst; cases hst
  owner := nofun

theorem MemInv.resetWith (cfg : Cfg) (epoch : Nat) (req : Bool) (ports : Ports) :
    MemInv (State.resetWith cfg epoch req ports) where
  pduIn_wf := .nil
  fragOut_wf := .nil
  dgramIn_wf := .nil
  transient_wf := .nil
  pduIn_within := List.forall_mem_nil _
  fragOut_within := List.forall_mem_nil _
  dgramIn_within := List.forall_mem_nil _
  transient_within := List.forall_mem_nil _
  slot_wf := List.forall_mem_nil _
  slot_within := List.forall_mem_nil _
  fragOutLen_le := Nat.zero_le _
  transientLen_le := Nat.zero_le _

theorem EncInv.resetWith (cfg : Cfg) (epoch : Nat) (req : Bool) (ports : Ports) :
    EncInv (State.resetWith cfg epoch req ports) where
  total_le := Nat.zero_le _
  offset_le := Nat.zero_le _
  label_length := List.length_replicate
  labelCtr_lt := Nat.two_pow_pos _
  fragmenting := nofun

theorem Inv.resetWith {cfg : Cfg} (epoch : Nat) (req : Bool) {ports : Ports}
    (hcodec : cfg.Legal → CodecOk cfg) (hin : ∀ x ∈ ports.inputs, x.InRange) :
    Inv (State.resetWith cfg epoch req ports) where
  mem := .resetWith cfg epoch req ports
  enc := .resetWith cfg epoch req ports
  pool := .resetWith cfg epoch req ports
  run := .resetWith epoch req ports hcodec
  seq := ⟨hin, trivial⟩

/-- Settles O19. -/
theorem resetMeetsInvariant : Obligations.ResetMeetsInvariant :=
  ⟨fun _ epoch req _ hcodec hin => .resetWith epoch req hcodec hin,
    .resetWith 0 false (fun _ => .inl rfl) (List.forall_mem_nil _)⟩

/-! ### Commands answer -/

/-- A command or a turn goes on: neither a fault nor a refusal. -/
def Answers (r : Res) : Prop := ∃ t, r = .next t

theorem Answers.next (s : State) : Answers (.next s) := ⟨s, rfl⟩

/-- The single-fragment path within its capacity (R165). -/
theorem beginSingle_eq (hc : CodecSound s.cfg.lw s.codec) (fid : Fid) (proto : Proto)
    (hlabel : label.length = s.cfg.lw) {l : Nat} (hl : l ≤ Config.maxPdu)
    (hcap : s.codec.hSingle + l + 4 ≤ s.codec.maxFrag) :
    ∃ frag, s.codec.encodeSingle fid proto label (s.readBytes .pduIn 0 l)
          (s.codec.crcFinal (s.codec.crcUpdate s.codec.crcInit (s.readBytes .pduIn 0 l))) = some frag ∧
      frag.length = s.codec.hSingle + l + 4 ∧ frag.length ≤ Config.stagingSize ∧
      beginSingle s.codec fid proto label l s =
        .next ((s.emit frag).setRsp
          { code := .completed, fid := fid, len := BitVec.ofNat 32 frag.length }) := by
  have hread : s.memRead .pduIn 0 l = some (s.readBytes .pduIn 0 l) :=
    State.memRead_eq (by rw [Nat.zero_add]; exact hl)
  obtain ⟨frag, henc, hlen⟩ := hc.single fid proto label (s.readBytes .pduIn 0 l)
    (s.codec.crcFinal (s.codec.crcUpdate s.codec.crcInit (s.readBytes .pduIn 0 l))) hlabel
    (by rw [State.readBytes_length]; exact hcap)
  rw [State.readBytes_length] at hlen
  have hle : frag.length ≤ Config.stagingSize := hlen ▸ hcap.trans hc.maxFrag_le
  exact ⟨frag, henc, hlen, hle, by rw [beginSingle, hread, orStop_some, emitFragment_of_le henc hle]; rfl⟩

/-- The first-fragment path within its capacity (R166). -/
theorem beginFirst_eq (hc : CodecSound s.cfg.lw s.codec) (fid : Fid) (proto : Proto)
    (hlabel : label.length = s.cfg.lw) (l : Nat) {k : Nat} (hk : k ≤ Config.maxPdu)
    (hcap : s.codec.hFirst + k ≤ s.codec.maxFrag) :
    ∃ frag, s.codec.encodeFirst fid proto label (s.readBytes .pduIn 0 k) = some frag ∧
      frag.length = s.codec.hFirst + k ∧ frag.length ≤ Config.stagingSize ∧
      beginFirst s.codec fid proto label l k s =
        .next (((s.emit frag).setEnc
          (s.enc.opened s.codec fid proto label l (s.readBytes .pduIn 0 k))).setRsp
          { code := .fragmented, fid := fid, len := BitVec.ofNat 32 frag.length }) := by
  have hread : s.memRead .pduIn 0 k = some (s.readBytes .pduIn 0 k) :=
    State.memRead_eq (by rw [Nat.zero_add]; exact hk)
  obtain ⟨frag, henc, hlen⟩ := hc.first fid proto label (s.readBytes .pduIn 0 k) hlabel
    (by rw [State.readBytes_length]; exact hcap)
  rw [State.readBytes_length] at hlen
  have hle : frag.length ≤ Config.stagingSize := hlen ▸ hcap.trans hc.maxFrag_le
  refine ⟨frag, henc, hlen, hle, ?_⟩
  rw [beginFirst, hread, orStop_some, emitFragment_of_le henc hle, Enc.opened, State.readBytes_length]
  rfl

/-- The terminal path within its capacity (R169). -/
theorem continueLast_eq (hc : CodecSound s.cfg.lw s.codec) (hlabel : s.enc.label.length = s.cfg.lw)
    {r : Nat} (hr : s.enc.offset + r ≤ Config.maxPdu)
    (hcap : s.codec.hCont + r + 4 ≤ s.codec.maxFrag) :
    ∃ frag, s.codec.encodeLast s.enc.fid s.enc.label (s.readBytes .pduIn s.enc.offset r)
          (s.codec.crcFinal (s.codec.crcUpdate s.enc.crc (s.readBytes .pduIn s.enc.offset r))) = some frag ∧
      frag.length = s.codec.hCont + r + 4 ∧ frag.length ≤ Config.stagingSize ∧
      continueLast s.codec r s =
        .next ((s.emit frag).closeEnc.setRsp
          { code := .completed, fid := s.enc.fid, len := BitVec.ofNat 32 frag.length }) := by
  have hread : s.memRead .pduIn s.enc.offset r = some (s.readBytes .pduIn s.enc.offset r) :=
    State.memRead_eq hr
  obtain ⟨frag, henc, hlen⟩ := hc.last s.enc.fid s.enc.label (s.readBytes .pduIn s.enc.offset r)
    (s.codec.crcFinal (s.codec.crcUpdate s.enc.crc (s.readBytes .pduIn s.enc.offset r))) hlabel
    (by rw [State.readBytes_length]; exact hcap)
  rw [State.readBytes_length] at hlen
  have hle : frag.length ≤ Config.stagingSize := hlen ▸ hcap.trans hc.maxFrag_le
  exact ⟨frag, henc, hlen, hle, by rw [continueLast, hread, orStop_some, emitFragment_of_le henc hle]; rfl⟩

/-- The non-terminal path within its capacity (R170). -/
theorem continueMiddle_eq (hc : CodecSound s.cfg.lw s.codec) (hlabel : s.enc.label.length = s.cfg.lw)
    {k : Nat} (hk : s.enc.offset + k ≤ Config.maxPdu) (hcap : s.codec.hCont + k ≤ s.codec.maxFrag) :
    ∃ frag, s.codec.encodeCont s.enc.fid s.enc.label (s.readBytes .pduIn s.enc.offset k) = some frag ∧
      frag.length = s.codec.hCont + k ∧ frag.length ≤ Config.stagingSize ∧
      continueMiddle s.codec k s =
        .next (((s.emit frag).setEnc
          (s.enc.advanced s.codec (s.readBytes .pduIn s.enc.offset k))).setRsp
          { code := .fragmented, fid := s.enc.fid, len := BitVec.ofNat 32 frag.length }) := by
  have hread : s.memRead .pduIn s.enc.offset k = some (s.readBytes .pduIn s.enc.offset k) :=
    State.memRead_eq hk
  obtain ⟨frag, henc, hlen⟩ := hc.cont s.enc.fid s.enc.label (s.readBytes .pduIn s.enc.offset k) hlabel
    (by rw [State.readBytes_length]; exact hcap)
  rw [State.readBytes_length] at hlen
  have hle : frag.length ≤ Config.stagingSize := hlen ▸ hcap.trans hc.maxFrag_le
  refine ⟨frag, henc, hlen, hle, ?_⟩
  rw [continueMiddle, hread, orStop_some, emitFragment_of_le henc hle, Enc.advanced, State.readBytes_length]
  rfl

theorem effectiveCap_le (c maxFrag : Nat) : effectiveCap c maxFrag ≤ maxFrag := Nat.min_le_right _ _

theorem beginEncapWith_answers (hc : CodecSound s.cfg.lw s.codec) (fid : Fid) (proto : Proto)
    (hlabel : label.length = s.cfg.lw) (l c : Nat) :
    Answers (beginEncapWith s.codec fid proto label l c s) := by
  have hcap := effectiveCap_le c s.codec.maxFrag
  rw [beginEncapWith]
  split
  · exact .next _
  split
  · exact .next _
  split
  · obtain ⟨frag, -, -, -, h⟩ := beginSingle_eq hc fid proto hlabel (l := l) (by omega) (by omega)
    exact ⟨_, h⟩
  split
  · exact .next _
  · obtain ⟨frag, -, -, -, h⟩ := beginFirst_eq hc fid proto hlabel l
      (k := min l (effectiveCap c s.codec.maxFrag - s.codec.hFirst)) (by omega) (by omega)
    exact ⟨_, h⟩

theorem continueEncapWith_answers (hc : CodecSound s.cfg.lw s.codec) (he : EncInv s) (c : Nat) :
    Answers (continueEncapWith s.codec c s) := by
  have hcap := effectiveCap_le c s.codec.maxFrag
  have htotal := he.total_le
  have hoffset := he.offset_le
  rw [continueEncapWith]
  split
  · exact .next _
  split
  · exact .next _
  split
  · obtain ⟨frag, -, -, -, h⟩ := continueLast_eq hc he.label_length
      (r := s.enc.total - s.enc.offset) (by omega) (by omega)
    exact ⟨_, h⟩
  split
  · exact .next _
  · obtain ⟨frag, -, -, -, h⟩ := continueMiddle_eq hc he.label_length
      (k := effectiveCap c s.codec.maxFrag - s.codec.hCont - 4) (by omega) (by omega)
    exact ⟨_, h⟩

/-- PAD up to FRAG_OUT's size never reaches outside it (R256). -/
theorem padFragment_isSome {n : Nat} (hn : n ≤ Config.stagingSize) : ∃ u, padFragment n s = some u := by
  rw [padFragment]
  split
  · have hfit : s.fragOutLen + (zeros (n - s.fragOutLen)).length ≤ s.memSize .fragOut := by
      have hsize : s.memSize .fragOut = Config.stagingSize := rfl
      rw [List.length_replicate]; omega
    exact ⟨_, by rw [State.memWrite_eq hfit]; rfl⟩
  · exact ⟨s, rfl⟩

theorem onSingle_answers (cd : Codec) (f : Fid) (proto : Proto) (label : Label) (p : List Byte) (crc : Crc)
    (s : State) : Answers (onSingle cd f proto label p crc s) := by
  rw [onSingle]
  split
  · exact .next _
  split
  · exact .next _
  · have hfit : 0 + p.length ≤ s.memSize .transient := by
      have hsize : s.memSize .transient = Config.maxPdu := rfl
      omega
    rw [State.memWrite_eq hfit]
    exact .next _

theorem openContext_answers (cd : Codec) (f : Fid) (proto : Proto) (label : Label) (p : List Byte)
    (s : State) : Answers (openContext cd f proto label p s) := by
  rw [openContext]
  split
  · exact .next _
  · rename_i k u hk
    obtain ⟨rfl, sl, hsl, -⟩ := State.poolTake_leastFree hk
    have hslot : (s.setOwner k (.ctx f)).slots[k]? = some { sl with owner := .ctx f } := by simp [hsl]
    rw [hslot, orStop_some]
    split
    · exact .next _
    · have hle : p.length ≤ gatherBound { sl with owner := .ctx f } := by omega
      have hfit : 0 + p.length ≤ (s.setOwner k (.ctx f)).memSize (.slot k) := by
        rw [Nat.zero_add, State.memSize_slot hslot]
        exact hle.trans (Nat.min_le_left _ _)
      rw [State.memWrite_eq hfit]
      exact .next _

theorem onFirst_answers (hp : PoolInv s) (cd : Codec) (f : Fid) (proto : Proto) (label : Label)
    (p : List Byte) : Answers (onFirst cd f proto label p s) := by
  rw [onFirst]
  cases hst : (s.tgt f).state with
  | awaitingFirst => exact openContext_answers ..
  | reassembling =>
    obtain ⟨sl, hsl, -⟩ := hp.context f hst
    dsimp only
    rw [hsl, orStop_some]
    exact openContext_answers ..

theorem appendPayload_answers (hp : PoolInv s) (cd : Codec) (f : Fid) (label : Label) (p : List Byte)
    {k : State → Res} (hk : ∀ u, Answers (k u)) : Answers (appendPayload cd f label p s k) := by
  rw [appendPayload]
  split
  · rename_i hl
    obtain ⟨hst, -⟩ := of_decide_eq_true hl
    obtain ⟨sl, hsl, -⟩ := hp.context f hst
    dsimp only
    rw [hsl, orStop_some]
    split
    · exact .next _
    · have hle : (s.tgt f).acc + p.length ≤ gatherBound sl := by omega
      have hfit : (s.tgt f).acc + p.length ≤ s.memSize (.slot (s.tgt f).slot) := by
        rw [State.memSize_slot hsl]
        exact hle.trans (Nat.min_le_left _ _)
      rw [State.memWrite_eq hfit, orStop_some]
      exact hk _
  · exact .next _

theorem onFragment_answers (hp : PoolInv s) (cd : Codec) (fr : Option Frag) :
    Answers (onFragment cd fr s) := by
  cases fr with
  | none => exact .next _
  | some fr =>
    cases fr with
    | single f proto label p crc => exact onSingle_answers ..
    | first f proto label p => exact onFirst_answers hp ..
    | cont f label p =>
      rw [onFragment, onCont]
      exact appendPayload_answers hp _ _ _ _ fun _ => .next _
    | last f label p crc =>
      rw [onFragment, onLast]
      refine appendPayload_answers hp _ _ _ _ fun u => ?_
      split
      · exact .next _
      · exact .next _

theorem decCommand_answers (h : Inv s) (hr : s.run = .running) (hi : DecCommand i) : Answers (exec i s) := by
  rcases decCommand_arrives hr hi with hill | ⟨fr, ha⟩
  · rw [hill]; exact .next _
  · rw [exec_of_arrives hr ha]; exact onFragment_answers h.pool _ fr

theorem exec_answers_running (h : Inv s) (hr : s.run = .running) (i : Instr) : Answers (exec i s) := by
  cases i with
  | provision size =>
    rw [exec, execProvision, whenRunning_running hr]
    split <;> exact .next _
  | acquire =>
    rw [exec, execAcquire, whenRunning_running hr]
    split <;> exact .next _
  | release hd =>
    rw [exec, execRelease, whenRunning_running hr]
    split
    · exact .next _
    · split <;> exact .next _
  | nextLabel =>
    rw [exec, execNextLabel, whenRunning_running hr]
    exact .next _
  | beginEncap fid proto len cap label =>
    rw [exec, execBeginEncap, whenRunning_running hr]
    exact beginEncapWith_answers (h.codecSound hr) _ _ (labelOfField_length (h.lw_le_six hr) _) _ _
  | continueEncap cap =>
    rw [exec, execContinueEncap, whenRunning_running hr]
    exact continueEncapWith_answers (h.codecSound hr) h.enc _
  | pad len =>
    rw [exec, execPad, whenRunning_running hr]
    split
    · exact .next _
    · obtain ⟨u, hu⟩ := padFragment_isSome (s := s) (n := len.toNat) (Nat.le_of_not_lt ‹_›)
      rw [hu]; exact .next _
  | shutdown =>
    rw [exec, execShutdown, hr]
    exact .next _
  | decap n => exact decCommand_answers h hr (.inl ⟨n, rfl⟩)
  | fragSingle lt len body => exact decCommand_answers h hr (.inr rfl)
  | fragFirst lt len body => exact decCommand_answers h hr (.inr rfl)
  | fragCont lt len body => exact decCommand_answers h hr (.inr rfl)
  | fragLast lt len body => exact decCommand_answers h hr (.inr rfl)

theorem exec_answers (h : Inv s) (i : Instr) : Answers (exec i s) := by
  cases hr : s.run with
  | running => exact exec_answers_running h hr i
  | halted =>
    by_cases hi : i = .shutdown
    · subst hi
      rw [exec, execShutdown, hr]
      exact .next _
    · rw [exec_halted hr hi]; exact .next _

/-- Every command answers, and keeps the invariant. -/
theorem exec_keeps_inv (h : Inv s) (i : Instr) : ∃ t, exec i s = .next t ∧ Inv t := by
  obtain ⟨t, ht⟩ := exec_answers h i
  exact ⟨t, ht, (exec_effect ht).keeps_inv h⟩

end Sys2Proof.Machine

/-! SUPPORT. The turns of SEQ and every other happening keep the invariant. -/

namespace Sys2Proof.Machine

variable {s t : State} {i : Instr} {f : Fid} {p : List Byte} {label : Label} {sl : Slot}

/-! ### A completed PDU lies inside the memory its handle names (R98, R260) -/

theorem handleSpace_ofNat {k : Nat} (hk : k < 65535) : handleSpace (BitVec.ofNat 16 k) = .slot k := by
  have hne : BitVec.ofNat 16 k ≠ Config.transientHandle := by
    simp only [Config.transientHandle]; bv_omega
  rw [handleSpace, if_neg hne, BitVec.toNat_ofNat, Nat.mod_eq_of_lt (by omega)]

theorem handleSpace_transientHandle : handleSpace Config.transientHandle = .transient := if_pos rfl

/-- The response names no more bytes than its memory has. -/
def ResponseFits (t : State) : Prop := t.rsp.len.toNat ≤ t.memSize (handleSpace t.rsp.handle)

theorem OpenEffect.not_completed {proto : Proto} (h : OpenEffect s f proto label p t) :
    t.rsp.code ≠ .completed := by
  cases h with
  | refused c hc => rintro rfl; simp at hc
  | opened k sl hl hfit => nofun

theorem FragEffect.completed_fits {fr : Option Frag} (h : FragEffect s fr t) (hn : s.slots.length ≤ 65535)
    (hcode : t.rsp.code = .completed) : ResponseFits t := by
  cases h with
  | refused _ c f hc => subst hcode; simp at hc
  | single f proto label p crc hle hcrc =>
    show (BitVec.ofNat 32 p.length).toNat ≤ State.memSize _ (handleSpace Config.transientHandle)
    rw [handleSpace_transientHandle, BitVec.toNat_ofNat]
    exact (Nat.mod_le _ _).trans hle
  | first f proto label p _ hst ho => exact absurd hcode ho.not_completed
  | restart f proto label p sl _ hst hsl ho => exact absurd hcode ho.not_completed
  | overrun => cases hcode
  | cont => cases hcode
  | mismatch => cases hcode
  | last f label p crc sl hx hfit hcrc =>
    obtain ⟨hlt, -⟩ := List.getElem?_eq_some_iff.mp hx.slot
    have hk : (s.tgt f).slot < 65535 := hlt.trans_le hn
    have hsize := ((SizesKept.append s f p).trans (.setOwner _ (s.tgt f).slot .held)).memSize_le
      (.slot (s.tgt f).slot)
    rw [hx.memSize] at hsize
    simp only [ResponseFits, State.setRsp_rsp, State.setRsp_memSize, handleSpace_ofNat hk,
      BitVec.toNat_ofNat, State.closeTgt_memSize, State.append_tgt_same, appendedTarget]
    exact ((Nat.mod_le _ _).trans (hfit.trans (Nat.min_le_left _ _))).trans hsize

theorem decap_completed_fits {n : Word32} (h : Inv s) (he : Effect s (.decap n) t)
    (hcode : t.rsp.code = .completed) : ResponseFits t := by
  cases he with
  | illegal => cases hcode
  | refused u c f hr hc => exact absurd hcode hc
  | pool _ hr hp => cases hp
  | egress _ hr he => cases he
  | fragment fr _ hr ha hf =>
    obtain ⟨-, hn, -⟩ := h.legal hr
    exact hf.completed_fits (h.pool.count_le.trans hn) hcode
  | shutdown hr hi => cases hi
  | shutdownHalted hr hi => cases hi

/-! ### What is not a command keeps the invariant -/

theorem Inv.egressAt (h : Inv s) (pos : EgressPos) : Inv (s.egressAt pos) where
  mem := { h.mem with }
  enc := { h.enc with }
  pool := h.pool.congr rfl (fun _ => rfl) rfl rfl
  run := { h.run with }
  seq := ⟨h.seq.inputs, h.seq.ingress.of_sizes id (SizesKept.of_slots_eq rfl).memSize_le⟩

theorem Inv.ingressAt (h : Inv s) {pos : IngressPos} (hpos : pos.InRange s) : Inv (s.ingressAt pos) where
  mem := { h.mem with }
  enc := { h.enc with }
  pool := h.pool.congr rfl (fun _ => rfl) rfl rfl
  run := { h.run with }
  seq := ⟨h.seq.inputs, hpos.of_sizes id (SizesKept.of_slots_eq rfl).memSize_le⟩

theorem Inv.setShutdownReq (h : Inv s) (level : Bool) : Inv (s.setShutdownReq level) where
  mem := { h.mem with }
  enc := { h.enc with }
  pool := h.pool.congr rfl (fun _ => rfl) rfl rfl
  run := { h.run with }
  seq := ⟨h.seq.inputs, h.seq.ingress.of_sizes id (SizesKept.of_slots_eq rfl).memSize_le⟩

theorem Inv.setPorts (h : Inv s) {ports : Ports} (hin : ∀ x ∈ ports.inputs, x.InRange) :
    Inv (s.setPorts ports) where
  mem := { h.mem with }
  enc := { h.enc with }
  pool := h.pool.congr rfl (fun _ => rfl) rfl rfl
  run := { h.run with }
  seq := ⟨hin, h.seq.ingress.of_sizes id (SizesKept.of_slots_eq rfl).memSize_le⟩

theorem Inv.portsOnly (h : Inv s) (hp : PortsOnly s t) : Inv t := by
  obtain ⟨ports, rfl, hin⟩ := hp
  exact h.setPorts (by rw [hin]; exact h.seq.inputs)

/-- A write inside PDU_IN or DGRAM_IN, by the host or by SEQ (R61, R67). -/
theorem Inv.setMem_write (h : Inv s) (m : HostMemory) {a : Nat} {bs : List Byte}
    (hfit : a + bs.length ≤ s.memSize m.space) :
    Inv (s.setMem m.space ((s.mem m.space).write a bs)) where
  mem := h.mem.setMem_write hfit
  enc := h.enc.congr (State.setMem_enc ..) (State.setMem_cfg ..)
  pool := h.pool.congr (by cases m <;> rfl) (State.setMem_tgt s _ _) (State.setMem_cfg ..) (State.setMem_epoch ..)
  run := by cases m <;> exact { h.run with }
  seq := h.seq.of_sizes (State.setMem_ports ..) (State.setMem_seq ..) (by rw [State.setMem_run]; exact id)
    (.setMem s _ _)

/-! ### Turns of SEQ keep the invariant -/

/-- An answer that meets the invariant. -/
def Safe (r : Res) : Prop := ∃ t, r = .next t ∧ Inv t

theorem Safe.next (h : Inv s) : Safe (.next s) := ⟨s, rfl, h⟩

/-- A turn that issues a command. -/
theorem Safe.afterCommand (h : Inv s) (i : Instr) {k : Rsp16 → State → Res}
    (hk : ∀ t, exec i s = .next t → Inv t → Safe (k t.rsp t)) : Safe (afterCommand (exec i s) k) := by
  obtain ⟨t, ht, hinv⟩ := exec_keeps_inv h i
  rw [ht, afterCommand_of_next]
  exact hk t ht hinv

/-- A fatal port result: the engine halts and the direction stops (R300). -/
theorem Inv.fatal (h : Inv s) (hr : s.run = .running) (hp : PortsOnly s t) : Inv (t.halt .ioError) := by
  have hrt : t.run = .running := by obtain ⟨ports, rfl, -⟩ := hp; exact hr
  exact (h.portsOnly hp).halt hrt (.inr rfl)

theorem egressTop_safe (h : Inv s) (hr : s.run = .running) : Safe (egressTop s) := by
  rw [egressTop]
  split
  · exact .afterCommand h _ fun t _ ht => .next (ht.egressAt _)
  · have hp := ifRecv_portsOnly s.cfg.b.toNat s
    split <;> rename_i u hq <;> rw [hq] at hp
    · exact .next (h.portsOnly hp)
    · exact .next ((h.fatal hr hp).egressAt _)
    · rename_i bytes
      have hfit : 0 + (bytes.take 65535).length ≤ u.memSize .pduIn := by
        rw [Nat.zero_add]; exact List.length_take_le _ _
      rw [State.memWrite_eq hfit, orStop_some]
      exact .next (((h.portsOnly hp).setMem_write .pduIn hfit).egressAt _)

theorem egressAfterEnc_safe (h : Inv s) (code : RespCode) : Safe (egressAfterEnc code s) := by
  rw [egressAfterEnc]
  split <;> exact .next (h.egressAt _)

theorem egressSend_safe (h : Inv s) (hr : s.run = .running) (code : RespCode) : Safe (egressSend code s) := by
  have hread : s.memRead .fragOut 0 s.fragOutLen = some s.fragment :=
    State.memRead_eq (by rw [Nat.zero_add]; exact h.mem.fragOutLen_le)
  rw [egressSend, hread, orStop_some]
  have hp := sockSend_portsOnly s.fragment s
  split <;> rename_i u hq <;> rw [hq] at hp
  · exact .next ((h.fatal hr hp).egressAt _)
  · exact .next ((h.portsOnly hp).egressAt _)

theorem egressTurn_safe (h : Inv s) : Safe (egressTurn s) := by
  rw [egressTurn]
  cases hr : s.run with
  | halted => exact .next (h.egressAt _)
  | running =>
    cases s.seq.egress with
    | top => exact egressTop_safe h hr
    | label l => exact .afterCommand h _ fun t _ ht => .next (ht.egressAt _)
    | begin_ l lab => exact .afterCommand h _ fun t _ ht => egressAfterEnc_safe ht _
    | pad code =>
      dsimp only
      split
      · exact .afterCommand h _ fun t _ ht => .next (ht.egressAt _)
      · exact .next (h.egressAt _)
    | send code => exact egressSend_safe h hr code
    | continue_ => exact .afterCommand h _ fun t _ ht => egressAfterEnc_safe ht _
    | stopped => exact .next h

theorem rxBound_le {cfg : Cfg} (h : cfg.Legal) : rxBound cfg ≤ Config.maxPdu := by
  obtain ⟨-, -, -, hin, -⟩ := h
  rw [rxBound]
  split
  · exact hin
  · exact Nat.min_le_right _ _

theorem ingressTop_safe (h : Inv s) (hr : s.run = .running) : Safe (ingressTop s) := by
  rw [ingressTop]
  split
  · exact .afterCommand h _ fun t _ ht => .next (ht.ingressAt trivial)
  · have hp := sockRecv_portsOnly (rxBound s.cfg) s
    split <;> rename_i u hq
    · rw [hq] at hp; exact .next (h.portsOnly hp)
    · rw [hq] at hp; exact .next ((h.fatal hr hp).ingressAt trivial)
    · rename_i bytes
      have hle : bytes.length ≤ Config.maxPdu := (sockRecv_length hq).trans (rxBound_le (h.legal hr))
      rw [hq] at hp
      have hfit : 0 + bytes.length ≤ u.memSize .dgramIn := by
        rw [Nat.zero_add]; exact hle
      rw [State.memWrite_eq hfit, orStop_some]
      exact .next (((h.portsOnly hp).setMem_write .dgramIn hfit).ingressAt hle)

theorem ingressDecap_safe (h : Inv s) (n : Word32) :
    Safe (afterCommand (exec (.decap n) s) fun r s' => ingressAfterDecap r s') := by
  refine .afterCommand h _ fun t ht hinv => ?_
  rw [ingressAfterDecap]
  split
  · exact .next (hinv.ingressAt fun _ => decap_completed_fits h (exec_effect ht) ‹_›)
  · exact .next (hinv.ingressAt trivial)

theorem ingressDeliver_safe (h : Inv s) (hr : s.run = .running) {hd : BitVec 16} {len : Nat}
    (hlen : len ≤ s.memSize (handleSpace hd)) : Safe (ingressDeliver hd len s) := by
  have hread : s.memRead (handleSpace hd) 0 len = some (s.readBytes (handleSpace hd) 0 len) :=
    State.memRead_eq (by rw [Nat.zero_add]; exact hlen)
  rw [ingressDeliver, hread, orStop_some]
  have hp := ifSend_portsOnly (s.readBytes (handleSpace hd) 0 len) s
  split <;> rename_i u hq <;> rw [hq] at hp
  · exact .next ((h.fatal hr hp).ingressAt trivial)
  · refine .next ((h.portsOnly hp).ingressAt ?_)
    split <;> trivial

theorem ingressTurn_safe (h : Inv s) : Safe (ingressTurn s) := by
  have hpos := h.seq.ingress
  rw [ingressTurn]
  cases hr : s.run with
  | halted => exact .next (h.ingressAt trivial)
  | running =>
    cases hp : s.seq.ingress with
    | boot left =>
      cases left with
      | zero => exact .next (h.ingressAt trivial)
      | succ left => exact .afterCommand h _ fun t _ ht => .next (ht.ingressAt trivial)
    | top => exact ingressTop_safe h hr
    | decap n => exact ingressDecap_safe h _
    | deliver hd len =>
      rw [hp] at hpos
      exact ingressDeliver_safe h hr (hpos hr)
    | release hd => exact .afterCommand h _ fun t _ ht => .next (ht.ingressAt trivial)
    | stopped => exact .next h

/-! ### Every step keeps the invariant -/

theorem runRequest_safe (h : Inv s) (record : Vector Byte 20) : Safe (runRequest record s) := by
  rw [runRequest]
  split
  · exact exec_keeps_inv h _
  · exact .next (h.setRsp _)

theorem runInput_safe (h : Inv s) {x : Input} (hx : x.InRange) : Safe (runInput x s) := by
  cases x with
  | request record => exact runRequest_safe h record
  | hostWrite m a bytes =>
    have hfit : a + bytes.length ≤ s.memSize m.space := by cases m <;> exact hx
    rw [runInput, State.memWrite_eq hfit, orStop_some]
    exact .next (h.setMem_write m hfit)
  | shutdownReq level => exact .next (h.setShutdownReq level)
  | egressTurn => exact egressTurn_safe h
  | ingressTurn => exact ingressTurn_safe h
  | reset cfg => exact .next (.resetWith _ _ hx h.seq.inputs)

/-- Settles O20: the next happening is in range, and each kind of happening keeps the invariant. -/
theorem everyStepKeepsTheInvariant : Obligations.EveryStepKeepsTheInvariant := by
  intro s h
  have hin := h.seq.inputs
  cases hq : s.ports.inputs with
  | nil => exact ⟨s, step_nil hq, h⟩
  | cons x rest =>
    rw [hq, List.forall_mem_cons] at hin
    obtain ⟨hx, hrest⟩ := hin
    rw [step_cons hq]
    exact runInput_safe (h.setPorts hrest) hx

end Sys2Proof.Machine

/-! SUPPORT. The single commands: requests, Halted, PROVISION, NEXT_LABEL, BEGIN_ENCAP, Held slots, SHUTDOWN. -/

namespace Sys2Proof.Machine

variable {s t : State} {i : Instr} {f : Fid} {p : List Byte} {label : Label} {sl : Slot}

/-! ### Steps and requests -/

/-- Settles O7. -/
theorem stepRunsTheDecodedRequest : Obligations.StepRunsTheDecodedRequest := by
  intro s record rest hq
  rw [step_cons hq, runInput, runRequest]
  cases hd : decodeRequest record.toList with
  | ok i => exact ⟨fun j hj => by cases hj; rfl, fun hno => absurd rfl (hno i)⟩
  | error e => exact ⟨nofun, fun _ => rfl⟩

/-! ### Halted is left by reset alone (R21, R262, R323) -/

/-- A command while Halted writes the response and nothing else (R94). -/
theorem exec_of_halted (hr : s.run = .halted) (h : exec i s = .next t) : ∃ r, t = s.setRsp r := by
  by_cases hi : i = .shutdown
  · subst hi
    rw [exec, execShutdown, hr] at h
    cases h; exact ⟨_, rfl⟩
  · rw [exec_halted hr hi] at h
    cases h; exact ⟨_, rfl⟩

/-- `run`, `halt_cause` and the ports are as before. -/
structure StaysHalted (s t : State) : Prop where
  run : t.run = .halted
  haltCause : t.haltCause = s.haltCause
  ports : t.ports = s.ports

theorem runInput_staysHalted {x : Input} (hr : s.run = .halted) (hx : ∀ cfg, x ≠ .reset cfg)
    (h : runInput x s = .next t) : StaysHalted s t := by
  cases x with
  | request record =>
    rw [runInput, runRequest] at h
    split at h
    · obtain ⟨r, rfl⟩ := exec_of_halted hr h
      exact ⟨hr, rfl, rfl⟩
    · cases h; exact ⟨hr, rfl, rfl⟩
  | hostWrite m a bytes =>
    obtain ⟨u, hu, h⟩ := orStop_next h
    obtain ⟨-, rfl⟩ := State.memWrite_some hu
    cases h; exact ⟨by simpa using hr, by simp, by simp⟩
  | shutdownReq level => cases h; exact ⟨hr, rfl, rfl⟩
  | egressTurn =>
    rw [runInput, egressTurn, hr] at h
    cases h; exact ⟨hr, rfl, rfl⟩
  | ingressTurn =>
    rw [runInput, ingressTurn, hr] at h
    cases h; exact ⟨hr, rfl, rfl⟩
  | reset cfg => exact absurd rfl (hx cfg)

/-- Settles O15, by the kinds of happening. -/
theorem onlyResetLeavesHalted : Obligations.OnlyResetLeavesHalted := by
  intro s t hr h hreset
  cases hq : s.ports.inputs with
  | nil =>
    rw [step_nil hq] at h
    cases h
    exact ⟨hr, rfl, by rw [List.tail_nil, ← hq]⟩
  | cons x rest =>
    rw [step_cons hq] at h
    have hx : ∀ cfg, x ≠ .reset cfg := by rintro cfg rfl; exact hreset cfg rest hq
    obtain ⟨hrun, hcause, hports⟩ := runInput_staysHalted (s := s.takeInput rest) hr hx h
    exact ⟨hrun, hcause, hports⟩

/-! ### PROVISION -/

theorem State.slotEntry_congr {j : Nat} (h : t.slots[j]? = s.slots[j]?) : t.slotEntry j = s.slotEntry j := by
  rw [State.slotEntry, State.slotEntry, h]

/-- A memory reads as before when its content is as before and no reset came between (R65). -/
theorem State.readByte_congr {sp : Space} (hmem : t.mem sp = s.mem sp) (hepoch : t.epoch = s.epoch) (a : Nat) :
    t.readByte sp a = s.readByte sp a := by
  rw [State.readByte, State.readByte, hmem, hepoch]

theorem State.mem_addSlot (s : State) (n : Nat) {sp : Space} (h : sp ≠ .slot s.poolCount) :
    (s.addSlot n).mem sp = s.mem sp := by
  cases sp with
  | slot j =>
    have hj : j ≠ s.slots.length := fun e => h (congrArg Space.slot e)
    simp only [State.mem, State.slots_addSlot_ne s n hj]
  | _ => rfl

theorem exec_provision (size : Word32) (hr : s.run = .running) (hn : s.poolCount ≠ s.cfg.n) :
    exec (.provision size) s = .next ((s.addSlot size.toNat).setRsp
      { code := .ok, handle := BitVec.ofNat 16 s.poolCount, len := size }) := by
  rw [exec, execProvision, whenRunning_running hr, if_neg hn, respond_eq]

theorem exec_provision_full (size : Word32) (hr : s.run = .running) (hn : s.poolCount = s.cfg.n) :
    exec (.provision size) s = .next (s.raised .pool .poolFull 0) := by
  rw [exec, execProvision, whenRunning_running hr, if_pos hn]
  rfl

/-- Settles O22. -/
theorem provisionRegistersTheNextSlot : Obligations.ProvisionRegistersTheNextSlot := by
  intro size s hr
  refine ⟨exec_provision_full size hr, fun hn => ⟨_, exec_provision size hr hn, rfl, ?_, ?_, ?_, ?_, ?_, rfl, ?_⟩⟩
  · simp [State.poolCount]
  · simp [State.slotEntry, State.poolCount]
  · intro i hi
    exact State.slotEntry_congr (State.slots_addSlot_ne s _ hi)
  · exact ⟨⟨rfl, rfl, rfl, rfl, rfl, rfl⟩, ⟨rfl, rfl⟩, (List.append_nil _).symm⟩
  · exact fun _ _ => rfl
  · intro sp a hsp
    exact State.readByte_congr (s := s) (t := s.addSlot size.toNat) (State.mem_addSlot s _ hsp) rfl a

/-! ### NEXT_LABEL -/

theorem exec_nextLabel (hr : s.run = .running) :
    exec .nextLabel s = .next (s.advanceLabel.setRsp
      { code := .ok, label := fieldOfLabel (labelOfCounter s.cfg.lw s.enc.labelCtr) }) := by
  rw [exec, execNextLabel, whenRunning_running hr, respond_eq]

theorem lwLegal_le_six {lw : Nat} (h : Cfg.lwLegal lw) : lw ≤ 6 := by
  rcases h with rfl | rfl | rfl <;> decide

/-- Settles O27. -/
theorem nextLabelCountsAndWraps : Obligations.NextLabelCountsAndWraps := by
  intro s hr hlw
  have hround : labelOfField s.cfg.lw (fieldOfLabel (beBytes s.cfg.lw s.enc.labelCtr)) =
      beBytes s.cfg.lw s.enc.labelCtr := by
    have := labelOfField_fieldOfLabel (l := beBytes s.cfg.lw s.enc.labelCtr)
      (by rw [beBytes_length]; exact lwLegal_le_six hlw)
    rwa [beBytes_length] at this
  exact ⟨_, exec_nextLabel hr, rfl, hround, rfl, rfl, rfl, ⟨rfl, rfl, rfl, rfl, rfl, rfl⟩,
    ⟨fun _ _ => rfl, ⟨rfl, fun _ _ => rfl⟩, rfl⟩, fun sp a => by simp⟩

/-! ### BEGIN_ENCAP, first-fragment path -/

/-- Emitting a fragment, whatever is then done to ENC and answered (R164, R167). -/
theorem emittedFragment_emit (s : State) {frag : List Byte} (e : Enc) (r : Rsp16) :
    EmittedFragment frag s (((s.emit frag).setEnc e).setRsp r) where
  fragment := by
    simp only [State.fragment, State.setRsp_readBytes, State.setEnc_readBytes, State.setFragOutLen_readBytes,
      State.setRsp_fragOutLen, State.setEnc_fragOutLen, State.setFragOutLen_fragOutLen]
    exact State.readBytes_setMem_same .fragOut 0 frag nofun
  fragOutLen := rfl
  bytes := by
    intro sp a h
    simp only [State.setRsp_readByte, State.setEnc_readByte, State.setFragOutLen_readByte]
    rw [State.readByte_setMem_write .fragOut sp 0 frag a nofun, dif_neg h]
  control := ⟨rfl, rfl, rfl, rfl, rfl, rfl⟩
  dec := ⟨fun _ _ => rfl, ⟨rfl, fun _ _ => rfl⟩, rfl⟩
  log := rfl

theorem exec_beginEncap_first {fid : Fid} {proto : Proto} {len cap : Word32} {label : LabelField}
    (hr : s.run = .running) (hidle : s.enc.state = .idle) (hone : 1 ≤ len.toNat)
    (hmax : len.toNat ≤ Config.maxPdu)
    (hsingle : singleCap cap.toNat s.codec.maxFrag s.codec.hSingle < (len.toNat : Int))
    (hfirst : 1 ≤ firstCap cap.toNat s.codec.maxFrag s.codec.hFirst) :
    exec (.beginEncap fid proto len cap label) s =
      beginFirst s.codec fid proto (labelOfField s.cfg.lw label) len.toNat
        (min len.toNat (firstCap cap.toNat s.codec.maxFrag s.codec.hFirst).toNat) s := by
  have hne : s.enc.state ≠ .fragmenting := by rw [hidle]; decide
  simp only [singleCap, firstCap, Config.crcLen] at hsingle hfirst ⊢
  have hk : ((effectiveCap cap.toNat s.codec.maxFrag : Int) - s.codec.hFirst).toNat =
      effectiveCap cap.toNat s.codec.maxFrag - s.codec.hFirst := by omega
  rw [exec, execBeginEncap, whenRunning_running hr, beginEncapWith, if_neg hne, if_neg (by omega),
    if_neg (by omega), if_neg (by omega), hk]

/-- Settles O29. -/
theorem beginEncapOpensWithFirst : Obligations.BeginEncapOpensWithFirst := by
  intro fid proto len cap label s hr hlw hcodec hidle hone hmax hsingle hfirst k p
  have hk : k ≤ Config.maxPdu := (Nat.min_le_left _ _).trans hmax
  have hcap : s.codec.hFirst + k ≤ s.codec.maxFrag := by
    have := effectiveCap_le cap.toNat s.codec.maxFrag
    have : k ≤ (firstCap cap.toNat s.codec.maxFrag s.codec.hFirst).toNat := Nat.min_le_right _ _
    simp only [firstCap] at this hfirst
    omega
  obtain ⟨frag, henc, hlen, hle, hexec⟩ := beginFirst_eq (hcodec.sound hlw) fid proto
    (labelOfField_length (lwLegal_le_six hlw) label) len.toNat hk hcap
  refine ⟨_, frag, (exec_beginEncap_first hr hidle hone hmax hsingle hfirst).trans hexec, henc, hlen,
    emittedFragment_emit s _ _, ?_, rfl⟩
  rw [State.setRsp_enc, State.setEnc_enc, Enc.opened, State.readBytes_length]

/-! ### Held slots (R43, R61, R331) -/

/-- A Held slot is bound to no target (R44). -/
theorem PoolInv.held_ne_slot (h : PoolInv s) {k : Nat} (hsl : s.slots[k]? = some sl) (ho : sl.owner = .held)
    (hst : (s.tgt f).state = .reassembling) : (s.tgt f).slot ≠ k := by
  rintro rfl
  obtain ⟨sl', hsl', hok⟩ := h.context f hst
  rw [hsl] at hsl'; cases hsl'
  have howned := hok.owned
  rw [ho] at howned; cases howned

theorem OpenEffect.held_slot {proto : Proto} {k : Nat} (h : OpenEffect s f proto label p t)
    (hsl : s.slots[k]? = some sl) (ho : sl.owner = .held) : t.slots[k]? = s.slots[k]? := by
  cases h with
  | refused c hc => rfl
  | opened j sl' hl hfit =>
    have hj : k ≠ j := by
      rintro rfl
      obtain ⟨hsl', hfree, -⟩ := hl
      rw [hsl] at hsl'; cases hsl'
      rw [ho] at hfree; cases hfree
    exact State.slots_bindSlot_ne hj 0 (openedTarget s.codec j proto label p (s.tgt f))

/-- Another slot, when a payload was appended and the slot it stands in given up. -/
theorem State.slots_append_setOwner_ne (s : State) {k : Nat} (hk : (s.tgt f).slot ≠ k) (o : Owner) :
    ((s.append f p).setOwner ((s.append f p).tgt f).slot o).slots[k]? = s.slots[k]? := by
  rw [State.append_tgt_same]
  exact ((s.append f p).slots_modifySlot_ne _ hk).trans (s.slots_modifySlot_ne _ hk)

theorem FragEffect.held_slot {fr : Option Frag} {k : Nat} (h : FragEffect s fr t) (hp : PoolInv s)
    (hsl : s.slots[k]? = some sl) (ho : sl.owner = .held) : t.slots[k]? = s.slots[k]? := by
  have hne : ∀ f, (s.tgt f).state = .reassembling → (s.tgt f).slot ≠ k :=
    fun f hst => hp.held_ne_slot hsl ho hst
  cases h with
  | refused => rfl
  | single => rfl
  | first f proto label p _ hst hopen => exact hopen.held_slot hsl ho
  | restart f proto label p sl' _ hst hsl' hopen =>
    have hdiscard : (s.restart f).slots[k]? = s.slots[k]? := s.slots_modifySlot_ne _ (hne f hst)
    exact (hopen.held_slot (hdiscard.trans hsl) ho).trans hdiscard
  | overrun fr f label p sl' hfr hx hover => exact s.slots_modifySlot_ne _ (hne f hx.reassembling)
  | cont f label p sl' hx hfit => exact s.slots_modifySlot_ne _ (hne f hx.reassembling)
  | mismatch f label p crc sl' hx hfit hcrc => exact s.slots_append_setOwner_ne (hne f hx.reassembling) _
  | last f label p crc sl' hx hfit hcrc => exact s.slots_append_setOwner_ne (hne f hx.reassembling) _

/-- A Held slot stays as it is, or is freed with its bytes by RELEASE or SHUTDOWN. -/
theorem Effect.held_slot {k : Nat} (h : Effect s i t) (hp : PoolInv s) (hsl : s.slots[k]? = some sl)
    (ho : sl.owner = .held) :
    t.slots[k]? = some sl ∨
      ((∃ hd, i = .release hd) ∨ i = .shutdown) ∧ t.slots[k]? = some { sl with owner := .free } := by
  cases h with
  | illegal => exact .inl hsl
  | refused => exact .inl hsl
  | pool _ hr he =>
    cases he with
    | provision size hn =>
      obtain ⟨hlt, -⟩ := List.getElem?_eq_some_iff.mp hsl
      exact .inl ((s.slots_addSlot_ne _ hlt.ne).trans hsl)
    | acquire j sl' hl =>
      have hj : j ≠ k := by
        rintro rfl
        obtain ⟨hsl', hfree, -⟩ := hl
        rw [hsl] at hsl'; cases hsl'
        rw [ho] at hfree; cases hfree
      exact .inl ((s.slots_modifySlot_ne _ hj).trans hsl)
    | release hd sl' hsl' hheld =>
      by_cases hk : hd.toNat = k
      · exact .inr ⟨.inl ⟨hd, rfl⟩, by simp [hk, hsl]⟩
      · exact .inl ((s.slots_modifySlot_ne _ hk).trans hsl)
  | egress _ hr he =>
    obtain ⟨hslots, -⟩ := he.sameDec
    exact .inl (hslots ▸ hsl)
  | fragment fr _ hr ha hf => exact .inl ((hf.held_slot hp hsl ho).trans hsl)
  | shutdown hr hi => exact .inr ⟨.inr hi, by simp [hsl]⟩
  | shutdownHalted => exact .inl hsl

/-- Settles O47: the slot's list entry is as before but for the owner, which only RELEASE and SHUTDOWN
change. -/
theorem heldSlotsKeepTheirBytes : Obligations.HeldSlotsKeepTheirBytes := by
  intro i s t k sl h hexec hsl ho
  have he := exec_effect hexec
  have hepoch := he.sameInputs.epoch
  rcases he.held_slot h.pool hsl ho with hk | ⟨hi, hk⟩
  · have hsame : t.slots[k]? = s.slots[k]? := hk.trans hsl.symm
    exact ⟨State.readByte_congr (by simp only [State.mem, hsame]) hepoch,
      fun _ _ => State.slotEntry_congr hsame⟩
  · refine ⟨State.readByte_congr (by rw [State.mem_slot hk, State.mem_slot hsl]) hepoch,
      fun hrel hshut => ?_⟩
    rcases hi with ⟨hd, hi⟩ | hi
    · exact absurd hi (hrel hd)
    · exact absurd hi hshut

/-! ### Halting (R262) -/

theorem State.halt_mem (s : State) (c : RespCode) (sp : Space) : (s.halt c).mem sp = s.mem sp := by
  obtain ⟨-, -, -, hpdu, hfrag, hdgram, htrans, -⟩ := s.halt_frame c
  cases sp with
  | pduIn => exact hpdu
  | fragOut => exact hfrag
  | dgramIn => exact hdgram
  | transient => exact htrans
  | slot k =>
    simp only [State.mem, State.halt_slots, List.getElem?_map]
    cases s.slots[k]? <;> rfl

theorem haltedBy_halt (s : State) (c : RespCode) : HaltedBy c s (s.halt c) := by
  obtain ⟨hcfg, hfragLen, htransLen, -, -, -, -, -, -, -, hepoch⟩ := s.halt_frame c
  exact
    { run := State.halt_run s c
      haltCause := State.halt_haltCause s c
      closed := State.halt_tgt_state s c
      idleTargets := fun f hf => by rw [State.halt_tgt, State.tgt_closeAllTgts, hf]
      count := by rw [State.poolCount, State.halt_slots, List.length_map]; rfl
      slots := fun i => by
        simp only [State.slotEntry, State.halt_slots, List.getElem?_map, Option.map_map]
        rfl
      enc := State.halt_enc_state s c
      labelCtr := State.halt_enc_labelCtr s c
      fragOutLen := hfragLen
      transientLen := htransLen
      bytes := fun sp a => State.readByte_congr (s.halt_mem c sp) hepoch a
      cfg := hcfg }

/-- A response changes nothing of what a halt leaves. -/
theorem HaltedBy.setRsp {c : RespCode} (h : HaltedBy c s t) (r : Rsp16) : HaltedBy c s (t.setRsp r) :=
  { h with bytes := fun sp a => by rw [State.setRsp_readByte]; exact h.bytes sp a }

/-- Settles O51. -/
theorem shutdownHalts : Obligations.ShutdownHalts := by
  intro s
  refine ⟨fun c => ⟨haltedBy_halt s c, fun hc => by rw [State.halt_log, if_neg hc]⟩, fun hr => ?_⟩
  have hexec : exec .shutdown s = .next ((s.halt .ok).setRsp { code := .ok }) := by
    rw [exec, execShutdown, hr, respond_eq]
  have hsame := s.halt_sameInputs .ok
  exact ⟨_, hexec, (haltedBy_halt s .ok).setRsp _, by simp, rfl, hsame.seq, hsame.ports⟩

end Sys2Proof.Machine

/-! SUPPORT. What a command ignores: a part of the state it neither reads nor writes can be replaced before
the command or after it. Said first of the shared operations, then of every egress and ingress command (R72).
That a value read lies outside of the part replaced holds by definition, and is the default of its argument. -/

namespace Sys2Proof.Machine

variable {s t : State} {i : Instr}

/-! ### Replacing what a command ignores -/

/-- An answer with its next state changed. -/
def onNext (g : State → State) : Res → Res
  | .next t => .next (g t)
  | .fault e => .fault e
  | .refused e => .refused e

theorem onNext_eq_next {g : State → State} {x : Res} (h : onNext g x = .next t) :
    ∃ u, x = .next u ∧ t = g u := by
  cases x with
  | next u => cases h; exact ⟨u, rfl, rfl⟩
  | fault _ => cases h
  | refused _ => cases h

/-- `G r` replaces a part of the state, RUN excepted, and puts the response `r`; a response after it takes
the place of `r`, and an event is logged before it as after it. -/
structure Replacement (G : Rsp16 → State → State) : Prop where
  run : ∀ r s, (G r s).run = s.run
  setRsp : ∀ r r' s, (G r s).setRsp r' = G r' (s.setRsp r')
  addEvent : ∀ r u c f s, (G r s).addEvent u c f = G r (s.addEvent u c f)

/-- `k` neither reads nor writes what `G` replaces, nor reads the last response: replaced before or after
`k`, the answer is the same, its response the one `k` gives. -/
def Ignores (G : Rsp16 → State → State) (k : State → Res) : Prop :=
  ∀ r s, k (G r s) = onNext (fun t => G t.rsp t) (k s)

variable {G : Rsp16 → State → State} {k l : State → Res}

theorem Ignores.respond (hG : Replacement G) {ρ : State → Rsp16}
    (hρ : ∀ r s, ρ (G r s) = ρ s := by exact fun _ _ => rfl) :
    Ignores G fun s => Machine.respond (ρ s) s := by
  intro r s
  simp only [respond_eq, onNext, State.setRsp_rsp, hρ, hG.setRsp]

/-- A change of the state before `k` that `G` does not interfere with. -/
theorem Ignores.after (g : State → State) (hk : Ignores G k)
    (hg : ∀ r s, g (G r s) = G r (g s) := by exact fun _ _ => rfl) : Ignores G fun s => k (g s) := by
  intro r s
  dsimp only
  rw [hg, hk]

theorem Ignores.raise (hG : Replacement G) {u : LogUnit} {c : RespCode} {φ : State → Fid}
    (hφ : ∀ r s, φ (G r s) = φ s := by exact fun _ _ => rfl) :
    Ignores G fun s => Machine.raise u c (φ s) s := by
  intro r s
  simp only [raise_eq, onNext, State.setRsp_rsp, hφ, hG.addEvent, hG.setRsp]

theorem Ignores.illegal (hG : Replacement G) : Ignores G illegalCommand :=
  .respond hG

theorem Ignores.whenRunning (hG : Replacement G) (hk : Ignores G k) :
    Ignores G fun s => Machine.whenRunning s k := by
  intro r s
  dsimp only
  cases hr : s.run with
  | running => rw [whenRunning_running hr, whenRunning_running ((hG.run r s).trans hr), hk]
  | halted => rw [whenRunning_halted hr, whenRunning_halted ((hG.run r s).trans hr), hG.setRsp]; rfl

theorem Ignores.ite {c : State → Prop} [DecidablePred c] (hk : Ignores G k) (hl : Ignores G l)
    (hc : ∀ r s, c (G r s) ↔ c s := by exact fun _ _ => Iff.rfl) :
    Ignores G fun s => if c s then k s else l s := by
  intro r s
  by_cases h : c s
  · simp only [if_pos h, if_pos ((hc r s).mpr h), hk r s]
  · simp only [if_neg h, if_neg (mt (hc r s).mp h), hl r s]

/-- Going on with a value read outside of what `G` replaces. -/
theorem Ignores.read {α : Type} {o : State → Option α} {e : State → Fault} {k : α → State → Res}
    (hk : ∀ a, Ignores G (k a)) (ho : ∀ r s, o (G r s) = o s := by exact fun _ _ => rfl)
    (he : ∀ r s, e (G r s) = e s := by exact fun _ _ => rfl) :
    Ignores G fun s => orStop (o s) (e s) fun a => k a s := by
  intro r s
  simp only [ho, he]
  cases o s with
  | none => rfl
  | some a => exact hk a r s

/-- Going on after a write outside of what `G` replaces. -/
theorem Ignores.write {w : State → Option State} {e : State → Fault}
    (hw : ∀ r s, w (G r s) = (w s).map (G r)) (hk : Ignores G k)
    (he : ∀ r s, e (G r s) = e s := by exact fun _ _ => rfl) : Ignores G fun s => orStop (w s) (e s) k := by
  intro r s
  simp only [hw, he]
  cases w s with
  | none => rfl
  | some u => exact hk r u

/-- MemWrite to a memory that `G` leaves alone. -/
theorem memWrite_replaced {sp : Space} (a : Nat) (bs : List Byte) (r : Rsp16) (s : State)
    (hmem : (G r s).mem sp = s.mem sp) (hsize : (G r s).memSize sp = s.memSize sp)
    (hset : ∀ m, (G r s).setMem sp m = G r (s.setMem sp m)) :
    (G r s).memWrite sp a bs = (s.memWrite sp a bs).map (G r) := by
  simp only [State.memWrite, hmem, hsize, hset]
  split <;> rfl

/-! ### Ingress commands ignore the ENC side -/

/-- `s` with the ENC registers and FRAG_OUT of `e`, more events before its own, and another response. -/
def replaceEncSide (e : State) (earlier : List Event) (r : Rsp16) (s : State) : State :=
  { s with
    enc := e.enc, fragOutLen := e.fragOutLen, fragOut := e.fragOut, log := earlier ++ s.log, rsp := r }

section

variable (e : State) (earlier : List Event) (cd : Codec)

theorem replaceEncSide_replacement : Replacement (replaceEncSide e earlier) where
  run _ _ := rfl
  setRsp _ _ _ := rfl
  addEvent _ _ _ _ _ := by simp [replaceEncSide, State.addEvent]

theorem memWrite_replaceEncSide {sp : Space} (hsp : sp ≠ .fragOut) (a : Nat) (bs : List Byte) (r : Rsp16)
    (s : State) : (replaceEncSide e earlier r s).memWrite sp a bs =
      (s.memWrite sp a bs).map (replaceEncSide e earlier r) := by
  cases sp with
  | fragOut => exact absurd rfl hsp
  | _ => exact memWrite_replaced a bs r s rfl rfl fun _ => rfl

theorem poolTake_replaceEncSide (o : Owner) (r : Rsp16) (s : State) :
    (replaceEncSide e earlier r s).poolTake o =
      (s.poolTake o).map fun x => (x.1, replaceEncSide e earlier r x.2) := by
  simp only [State.poolTake, show (replaceEncSide e earlier r s).freeSlot? = s.freeSlot? from rfl]
  cases s.freeSlot? <;> rfl

theorem onSingle_ignores (f : Fid) (proto : Proto) (label : Label) (p : List Byte) (crc : Crc) :
    Ignores (replaceEncSide e earlier) (onSingle cd f proto label p crc) :=
  have hG := replaceEncSide_replacement e earlier
  .ite (.raise hG) <| .ite (.raise hG) <|
    .write (memWrite_replaceEncSide e earlier (sp := .transient) nofun 0 p) <|
    .after (State.setTransientLen · p.length) (.respond hG)

theorem openContext_ignores (f : Fid) (proto : Proto) (label : Label) (p : List Byte) :
    Ignores (replaceEncSide e earlier) (openContext cd f proto label p) := by
  have hG := replaceEncSide_replacement e earlier
  intro r s
  rw [openContext, openContext, poolTake_replaceEncSide]
  cases s.poolTake (.ctx f) with
  | none => exact Ignores.raise hG (φ := fun _ => f) (fun _ _ => rfl) r s
  | some x =>
    obtain ⟨k, u⟩ := x
    have hslot : Ignores (replaceEncSide e earlier) fun s =>
        orStop s.slots[k]? (.noSuchSlot k) fun sl =>
          if gatherBound sl < p.length then raise .dec .malformed f (s.poolFree k)
          else orStop (s.memWrite (.slot k) 0 p) (.memOutOfRange (.slot k)) fun s' =>
            respond { code := .fragmented, fid := f, len := BitVec.ofNat 32 p.length }
              (s'.setTgt f (openedTarget cd k proto label p (s'.tgt f))) :=
      .read fun _ => .ite (.after (State.poolFree · k) (.raise hG)) <|
        .write (memWrite_replaceEncSide e earlier (sp := .slot k) nofun 0 p) <|
        .after (fun s' => s'.setTgt f (openedTarget cd k proto label p (s'.tgt f))) (.respond hG)
    exact hslot r u

theorem onFirst_ignores (f : Fid) (proto : Proto) (label : Label) (p : List Byte) :
    Ignores (replaceEncSide e earlier) (onFirst cd f proto label p) := by
  have hopen := openContext_ignores e earlier cd f proto label p
  have hevent := (replaceEncSide_replacement e earlier).addEvent
  have hrestart : Ignores (replaceEncSide e earlier) fun s =>
      orStop s.slots[(s.tgt f).slot]? (.noSuchSlot (s.tgt f).slot) fun _ =>
        openContext cd f proto label p (s.restart f) :=
    .read fun _ => .after (State.restart · f) hopen fun r s => hevent r _ _ _ (s.discard f)
  intro r s
  rw [onFirst, onFirst, show (replaceEncSide e earlier r s).tgt f = s.tgt f from rfl]
  cases (s.tgt f).state with
  | awaitingFirst => exact hopen r s
  | reassembling => exact hrestart r s

theorem appendPayload_ignores (f : Fid) (label : Label) (p : List Byte) {k : State → Res}
    (hk : Ignores (replaceEncSide e earlier) k) :
    Ignores (replaceEncSide e earlier) fun s => appendPayload cd f label p s k :=
  have hG := replaceEncSide_replacement e earlier
  .ite
    (.read fun _ => .ite (.after (State.discard · f) (.raise hG)) <|
      .write (fun r s => memWrite_replaceEncSide e earlier (sp := .slot (s.tgt f).slot) nofun _ p r s) <|
      .after (fun s => s.setTgt f (appendedTarget cd p (s.tgt f))) hk)
    (.raise hG)

theorem onCont_ignores (f : Fid) (label : Label) (p : List Byte) :
    Ignores (replaceEncSide e earlier) (onCont cd f label p) :=
  appendPayload_ignores e earlier cd f label p (.respond (replaceEncSide_replacement e earlier))

theorem onLast_ignores (f : Fid) (label : Label) (p : List Byte) (crc : Crc) :
    Ignores (replaceEncSide e earlier) (onLast cd f label p crc) :=
  appendPayload_ignores e earlier cd f label p <|
    .ite (.after (State.discard · f) (.raise (replaceEncSide_replacement e earlier))) fun _ _ => rfl

theorem onFragment_ignores (fr : Option Frag) :
    Ignores (replaceEncSide e earlier) (onFragment cd fr) := by
  cases fr with
  | none => exact .raise (replaceEncSide_replacement e earlier)
  | some fr =>
    cases fr with
    | single f proto label p crc => exact onSingle_ignores e earlier cd f proto label p crc
    | first f proto label p => exact onFirst_ignores e earlier cd f proto label p
    | cont f label p => exact onCont_ignores e earlier cd f label p
    | last f label p crc => exact onLast_ignores e earlier cd f label p crc

theorem execProvision_ignores (size : Word32) : Ignores (replaceEncSide e earlier) (execProvision size) :=
  have hG := replaceEncSide_replacement e earlier
  .whenRunning hG <| .ite (.raise hG) fun _ _ => rfl

theorem execAcquire_ignores : Ignores (replaceEncSide e earlier) execAcquire := by
  have hG := replaceEncSide_replacement e earlier
  refine .whenRunning hG fun r s => ?_
  rw [poolTake_replaceEncSide]
  cases s.poolTake .held with
  | none => exact Ignores.raise hG (φ := fun _ => 0) (fun _ _ => rfl) r s
  | some x => rfl

theorem execRelease_ignores (h : Word32) : Ignores (replaceEncSide e earlier) (execRelease h) := by
  have hG := replaceEncSide_replacement e earlier
  have hbad : Ignores (replaceEncSide e earlier) fun s => raise .pool .badHandle 0 s := .raise hG
  have huse (f : Fid) : Ignores (replaceEncSide e earlier) fun s => raise .pool .bufferInUse f s := .raise hG
  refine .whenRunning hG fun r s => ?_
  rw [show (replaceEncSide e earlier r s).slots = s.slots from rfl]
  cases s.slots[h.toNat]? with
  | none => exact hbad r s
  | some sl =>
    cases ho : sl.owner with
    | free => simpa only [ho] using hbad r s
    | held => simp only [ho]; rfl
    | ctx f => simpa only [ho] using huse f r s

theorem execDecap_ignores (n : Word32) : Ignores (replaceEncSide e earlier) (execDecap n) := by
  have hG := replaceEncSide_replacement e earlier
  refine .whenRunning hG <| .ite (.illegal hG) <| .read fun d r s => ?_
  rw [decapDatagram_eq, decapDatagram_eq]
  exact onFragment_ignores e earlier s.codec _ r s

/-- DEC and POOL neither read nor write the ENC registers and FRAG_OUT (R72). -/
theorem IngressCommand.ignores (hi : IngressCommand i) : Ignores (replaceEncSide e earlier) (exec i) := by
  rcases hi with ⟨size, rfl⟩ | rfl | ⟨h, rfl⟩ | ⟨n, rfl⟩ | hfrag
  · exact execProvision_ignores e earlier size
  · exact execAcquire_ignores e earlier
  · exact execRelease_ignores e earlier h
  · exact execDecap_ignores e earlier n
  · intro r s
    rw [exec_row hfrag, exec_row hfrag]
    exact Ignores.whenRunning (replaceEncSide_replacement e earlier)
      (fun r s => onFragment_ignores e earlier s.codec _ r s) r s

end

/-! ### Egress commands ignore the DEC side -/

/-- `s` with the targets, the slots and TRANSIENT of `e`, more events before its own, and another
response. -/
def replaceDecSide (e : State) (earlier : List Event) (r : Rsp16) (s : State) : State :=
  { s with
    tgts := e.tgts, slots := e.slots, transientLen := e.transientLen, transient := e.transient,
    log := earlier ++ s.log, rsp := r }

section

variable (e : State) (earlier : List Event) (cd : Codec)

theorem replaceDecSide_replacement : Replacement (replaceDecSide e earlier) where
  run _ _ := rfl
  setRsp _ _ _ := rfl
  addEvent _ _ _ _ _ := by simp [replaceDecSide, State.addEvent]

theorem memWrite_replaceDecSide (a : Nat) (bs : List Byte) (r : Rsp16) (s : State) :
    (replaceDecSide e earlier r s).memWrite .fragOut a bs =
      (s.memWrite .fragOut a bs).map (replaceDecSide e earlier r) :=
  memWrite_replaced a bs r s rfl rfl fun _ => rfl

/-- What follows on the emitted fragment decides; the encoder is given the ENC registers alone. -/
theorem emitFragment_ignores {frag : State → Option (List Byte)} {k : Nat → State → Res}
    (hk : ∀ n, Ignores (replaceDecSide e earlier) (k n))
    (hfrag : ∀ r s, frag (replaceDecSide e earlier r s) = frag s := by exact fun _ _ => rfl) :
    Ignores (replaceDecSide e earlier) fun s => emitFragment s (frag s) k :=
  .read (ho := hfrag) fun d =>
    .write (memWrite_replaceDecSide e earlier 0 d) <| .after (State.setFragOutLen · d.length) (hk d.length)

theorem beginSingle_ignores (fid : Fid) (proto : Proto) (label : Label) (l : Nat) :
    Ignores (replaceDecSide e earlier) (beginSingle cd fid proto label l) :=
  .read fun _ => emitFragment_ignores e earlier fun _ => .respond (replaceDecSide_replacement e earlier)

theorem beginFirst_ignores (fid : Fid) (proto : Proto) (label : Label) (l k : Nat) :
    Ignores (replaceDecSide e earlier) (beginFirst cd fid proto label l k) :=
  .read fun _ => emitFragment_ignores e earlier fun _ _ _ => rfl

theorem beginEncapWith_ignores (fid : Fid) (proto : Proto) (label : Label) (l c : Nat) :
    Ignores (replaceDecSide e earlier) (beginEncapWith cd fid proto label l c) :=
  have hG := replaceDecSide_replacement e earlier
  .ite (.raise hG) <| .ite (.raise hG) <|
    .ite (beginSingle_ignores e earlier cd fid proto label l) <|
    .ite (.raise hG) <| beginFirst_ignores e earlier cd fid proto label l _

theorem abandonEncap_ignores : Ignores (replaceDecSide e earlier) abandonEncap := fun r s =>
  have hraise : Ignores (replaceDecSide e earlier) fun u => raise .enc .outputTooSmall s.enc.fid u :=
    .raise (replaceDecSide_replacement e earlier)
  hraise r s.closeEnc

/-- The fragment-id answered is read before the context is closed. -/
theorem continueLast_ignores (r : Nat) :
    Ignores (replaceDecSide e earlier) (continueLast cd r) := fun q s =>
  have hread : Ignores (replaceDecSide e earlier) fun u =>
      orStop (u.memRead .pduIn s.enc.offset r) (.memOutOfRange .pduIn) fun p =>
        emitFragment u (cd.encodeLast s.enc.fid s.enc.label p (cd.crcFinal (cd.crcUpdate s.enc.crc p)))
          fun n u' => emitted .completed s.enc.fid n u'.closeEnc :=
    .read fun _ => emitFragment_ignores e earlier fun _ _ _ => rfl
  hread q s

theorem continueMiddle_ignores (k : Nat) :
    Ignores (replaceDecSide e earlier) (continueMiddle cd k) := fun q s =>
  have hread : Ignores (replaceDecSide e earlier) fun u =>
      orStop (u.memRead .pduIn s.enc.offset k) (.memOutOfRange .pduIn) fun p =>
        emitFragment u (cd.encodeCont s.enc.fid s.enc.label p) fun n u' =>
          emitted .fragmented s.enc.fid n (u'.setEnc
            { u'.enc with crc := cd.crcUpdate u'.enc.crc p, offset := u'.enc.offset + k }) :=
    .read fun _ => emitFragment_ignores e earlier fun _ _ _ => rfl
  hread q s

theorem continueEncapWith_ignores (c : Nat) :
    Ignores (replaceDecSide e earlier) (continueEncapWith cd c) :=
  have hG := replaceDecSide_replacement e earlier
  have habandon := abandonEncap_ignores e earlier
  .ite (.raise hG) <| .ite habandon <|
    .ite (fun r s => continueLast_ignores e earlier cd (s.enc.total - s.enc.offset) r s) <|
    .ite habandon <| continueMiddle_ignores e earlier cd _

theorem padFragment_replaceDecSide (p : Nat) (r : Rsp16) (s : State) :
    padFragment p (replaceDecSide e earlier r s) = (padFragment p s).map (replaceDecSide e earlier r) := by
  rw [padFragment, padFragment, memWrite_replaceDecSide,
    show (replaceDecSide e earlier r s).fragOutLen = s.fragOutLen from rfl]
  split
  · rw [Option.map_map, Option.map_map]; rfl
  · rfl

theorem execPad_ignores (len : Word32) : Ignores (replaceDecSide e earlier) (execPad len) :=
  have hG := replaceDecSide_replacement e earlier
  .whenRunning hG <| .ite (.illegal hG) <|
    .write (padFragment_replaceDecSide e earlier len.toNat) (.respond hG)

/-- ENC and PAD neither read nor write the targets, the slots and TRANSIENT (R72). -/
theorem EgressCommand.ignores (hi : EgressCommand i) : Ignores (replaceDecSide e earlier) (exec i) := by
  have hG := replaceDecSide_replacement e earlier
  rcases hi with rfl | ⟨fid, proto, len, cap, label, rfl⟩ | ⟨cap, rfl⟩ | ⟨len, rfl⟩
  · exact .whenRunning hG fun _ _ => rfl
  · exact .whenRunning hG fun r s => beginEncapWith_ignores e earlier s.codec fid proto _ _ _ r s
  · exact .whenRunning hG fun r s => continueEncapWith_ignores e earlier s.codec _ r s
  · exact execPad_ignores e earlier len

end

/-! ### The two directions commute (R72) -/

theorem EgressCommand.ne_shutdown (hi : EgressCommand i) : i ≠ .shutdown := by
  rintro rfl
  simp [EgressCommand] at hi

theorem IngressCommand.ne_shutdown (hi : IngressCommand i) : i ≠ .shutdown := by
  rintro rfl
  simp [IngressCommand, Instr.format] at hi

/-- A command other than SHUTDOWN leaves RUN and its cause alone (R21, R22). -/
theorem Effect.sameRun (h : Effect s i t) (hi : i ≠ .shutdown) : SameRun s t := by
  cases h with
  | pool _ hr hp => exact hp.sameRun
  | egress _ hr he => exact he.sameRun
  | fragment fr _ hr ha hf => exact hf.sameRun
  | shutdown hr h => exact absurd h hi
  | _ => exact ⟨rfl, rfl⟩

theorem Ignores.next (hk : Ignores G k) (h : k s = .next t) (r : Rsp16) : k (G r s) = .next (G t.rsp t) := by
  rw [hk, h]
  rfl

/-- The state with an empty LOG. -/
def State.withoutLog (s : State) : State := { s with log := [] }

/-- An egress command does on `s` what it does with an empty LOG; the DEC side is that of `s`. -/
theorem EgressCommand.from_emptyLog (hi : EgressCommand i) (h : exec i s = .next t) :
    ∃ u, exec i s.withoutLog = .next u ∧ t = replaceDecSide s s.log u.rsp u := by
  have hs : replaceDecSide s s.log s.rsp s.withoutLog = s := by simp [replaceDecSide, State.withoutLog]
  have hg := hi.ignores s s.log s.rsp s.withoutLog
  rw [hs, h] at hg
  exact onNext_eq_next hg.symm

/-- An ingress command does on `s` what it does with an empty LOG; the ENC side is that of `s`. -/
theorem IngressCommand.from_emptyLog (hi : IngressCommand i) (h : exec i s = .next t) :
    ∃ u, exec i s.withoutLog = .next u ∧ t = replaceEncSide s s.log u.rsp u := by
  have hs : replaceEncSide s s.log s.rsp s.withoutLog = s := by simp [replaceEncSide, State.withoutLog]
  have hg := hi.ignores s s.log s.rsp s.withoutLog
  rw [hs, h] at hg
  exact onNext_eq_next hg.symm

/-- Everything but LOG, the response and the ENC side is as before. -/
structure OnlyEncSide (s t : State) : Prop extends SameInputs s t, SameRun s t where
  tgts : t.tgts = s.tgts
  slots : t.slots = s.slots
  transientLen : t.transientLen = s.transientLen
  transient : t.transient = s.transient

/-- Everything but LOG, the response and the DEC side is as before. -/
structure OnlyDecSide (s t : State) : Prop extends SameInputs s t, SameRun s t where
  enc : t.enc = s.enc
  fragOutLen : t.fragOutLen = s.fragOutLen
  fragOut : t.fragOut = s.fragOut

theorem EgressCommand.onlyEncSide (hi : EgressCommand i) (h : exec i s = .next t) : OnlyEncSide s t := by
  have he := exec_effect h
  obtain ⟨u, -, rfl⟩ := hi.from_emptyLog h
  exact ⟨he.sameInputs, he.sameRun hi.ne_shutdown, rfl, rfl, rfl, rfl⟩

theorem IngressCommand.onlyDecSide (hi : IngressCommand i) (h : exec i s = .next t) : OnlyDecSide s t := by
  have he := exec_effect h
  obtain ⟨u, -, rfl⟩ := hi.from_emptyLog h
  exact ⟨he.sameInputs, he.sameRun hi.ne_shutdown, rfl, rfl, rfl⟩

/-- A state that differs from `s` in the ENC side alone, seen from `s`. -/
theorem OnlyEncSide.replace (h : OnlyEncSide s.withoutLog t) (earlier : List Event) (r : Rsp16) :
    replaceDecSide s earlier r t = replaceEncSide t (earlier ++ t.log) r s.withoutLog := by
  obtain ⟨⟨hcfg, hpdu, hdgram, hseq, hports, hepoch⟩, ⟨hrun, hcause⟩, -, -, -, -⟩ := h
  simp [replaceEncSide, replaceDecSide, State.withoutLog, *]

/-- A state that differs from `s` in the DEC side alone, seen from `s`. -/
theorem OnlyDecSide.replace (h : OnlyDecSide s.withoutLog t) (earlier : List Event) (r : Rsp16) :
    replaceEncSide s earlier r t = replaceDecSide t (earlier ++ t.log) r s.withoutLog := by
  obtain ⟨⟨hcfg, hpdu, hdgram, hseq, hports, hepoch⟩, ⟨hrun, hcause⟩, -, -, -⟩ := h
  simp [replaceEncSide, replaceDecSide, State.withoutLog, *]

/-- The ENC side of `a` and the DEC side of `b`, brought together either way. -/
theorem OnlyEncSide.join {a b : State} (ha : OnlyEncSide s a) (hb : OnlyDecSide s b)
    (earlier earlier' : List Event) (r r' : Rsp16) :
    { replaceEncSide a earlier r b with log := earlier' ++ a.log, rsp := r' } =
      replaceDecSide b earlier' r' a := by
  obtain ⟨⟨hcfg, hpdu, hdgram, hseq, hports, hepoch⟩, ⟨hrun, hcause⟩, -, -, -, -⟩ := ha
  obtain ⟨⟨hcfg', hpdu', hdgram', hseq', hports', hepoch'⟩, ⟨hrun', hcause'⟩, -, -, -⟩ := hb
  simp [replaceEncSide, replaceDecSide, *]

/-- Settles O57: each command is run from an empty LOG, and either order brings the ENC side of the one and
the DEC side of the other together. -/
theorem egressAndIngressCommute : Obligations.EgressAndIngressCommute := by
  intro i j s h hi hj
  obtain ⟨a, ha⟩ := exec_answers h i
  obtain ⟨b, hb⟩ := exec_answers h j
  obtain ⟨u, hu, rfl⟩ := hi.from_emptyLog ha
  obtain ⟨v, hv, rfl⟩ := hj.from_emptyLog hb
  have henc := hi.onlyEncSide hu
  have hdec := hj.onlyDecSide hv
  have hab : exec j (replaceDecSide s s.log u.rsp u) =
      .next (replaceEncSide u (s.log ++ u.log) v.rsp v) := by
    rw [henc.replace]
    exact (hj.ignores u _).next hv u.rsp
  have hba : exec i (replaceEncSide s s.log v.rsp v) =
      .next (replaceDecSide v (s.log ++ v.log) u.rsp u) := by
    rw [hdec.replace]
    exact (hi.ignores v _).next hu v.rsp
  have hlog : List.Perm (s.log ++ u.log ++ v.log) (s.log ++ v.log ++ u.log) := by
    rw [List.append_assoc, List.append_assoc]
    exact List.perm_append_comm.append_left s.log
  exact ⟨_, _, _, _, ha, hab, hb, hba, rfl, rfl, hlog, henc.join hdec _ _ _ _⟩

end Sys2Proof.Machine

/-! SUPPORT. MemWrite and host writes (R66, R67), and the turns of the ingress direction (R260). -/

namespace Sys2Proof.Machine

variable {s : State}

/-! ### MemWrite -/

/-- A write inside an existing memory changes no byte outside of it (R67). -/
theorem sameBytesBut_setMem_write (s : State) (sp : Space) (a : Nat) (bs : List Byte)
    (hs : ∀ k, sp = .slot k → k < s.slots.length) :
    SameBytesBut sp a bs.length s (s.setMem sp ((s.mem sp).write a bs)) := by
  intro sp' k hk
  rw [State.readByte_setMem_write sp sp' a bs k hs, dif_neg hk]

/-- A host write is a MemWrite to its memory (R61, log 11). -/
theorem step_hostWrite {m : HostMemory} {a : Nat} {bs : List Byte} {rest : List Input}
    (hq : s.ports.inputs = .hostWrite m a bs :: rest) (hfit : a + bs.length ≤ s.memSize m.space) :
    step s = .next ((s.setMem m.space ((s.mem m.space).write a bs)).takeInput rest) := by
  rw [step_cons hq, runInput, State.memWrite_eq (by rw [State.takeInput_memSize]; exact hfit), orStop_some]
  cases m <;> rfl

/-- Settles O58. -/
theorem memWriteSetsExactlyItsBytes : Obligations.MemWriteSetsExactlyItsBytes := by
  intro s sp a bs hs
  refine ⟨fun hfit => ⟨_, State.memWrite_eq hfit, State.readBytes_setMem_same sp a bs hs,
    sameBytesBut_setMem_write s sp a bs hs, fun sp' => s.memSize_setMem sp sp' _,
    State.memRead_eq hfit, ?_⟩, fun hout => ⟨if_neg (by omega), if_neg (by omega)⟩⟩
  rintro m rest rfl hq
  exact step_hostWrite hq hfit

/-! ### The turns of an ingress iteration -/

theorem ingressTurn_top (hr : s.run = .running) (hpos : s.seq.ingress = .top) :
    ingressTurn s = ingressTop s := by
  rw [ingressTurn, hr, hpos]

theorem ingressTurn_decap {n : Nat} (hr : s.run = .running) (hpos : s.seq.ingress = .decap n) :
    ingressTurn s =
      afterCommand (exec (.decap (BitVec.ofNat 32 n)) s) fun r s' => ingressAfterDecap r s' := by
  rw [ingressTurn, hr, hpos]

theorem ingressTurn_deliver {h : BitVec 16} {len : Nat} (hr : s.run = .running)
    (hpos : s.seq.ingress = .deliver h len) : ingressTurn s = ingressDeliver h len s := by
  rw [ingressTurn, hr, hpos]

theorem ingressTurn_release {h : BitVec 16} (hr : s.run = .running) (hpos : s.seq.ingress = .release h) :
    ingressTurn s =
      afterCommand (exec (.release (h.setWidth 32)) s) fun _ s' => .next (s'.ingressAt .top) := by
  rw [ingressTurn, hr, hpos]

theorem sockRecv_data {d : List Byte} {rest : List RecvResult} (hq : s.ports.sockRecv = .data d :: rest)
    (bound : Nat) :
    sockRecv bound s = (.data (d.take bound), s.setPorts { s.ports with sockRecv := rest }) := by
  rw [sockRecv, hq]

/-- An empty queue is Ok, as an Ok in it (R253, log 13). -/
theorem ifSend_ok (h : s.ports.ifSend.head? ≠ some .fatal) (bytes : List Byte) :
    ifSend bytes s = (.ok, s.setPorts { s.ports with
      ifSend := s.ports.ifSend.tail, delivered := s.ports.delivered ++ [bytes] }) := by
  rw [ifSend]
  cases hq : s.ports.ifSend with
  | nil => simp [hq]
  | cons r rest =>
    cases r with
    | ok => rfl
    | fatal => rw [hq] at h; exact absurd rfl h

theorem length_take_datagram (d : List Byte) (bound : Nat) :
    (d.take bound).length = min d.length bound := by
  rw [List.length_take, Nat.min_comm]

/-- A datagram that came in stands in DGRAM_IN, cut to the receive bound (R252, R255, R260). -/
theorem ingressTop_data (h : Inv s) (hr : s.run = .running) (hreq : s.seq.shutdownReq = false)
    {d : List Byte} {rest : List RecvResult} (hq : s.ports.sockRecv = .data d :: rest) :
    ingressTop s = .next
      (((s.setMem .dgramIn ((s.mem .dgramIn).write 0 (d.take (rxBound s.cfg)))).setPorts
        { s.ports with sockRecv := rest }).ingressAt (.decap (min d.length (rxBound s.cfg)))) := by
  have hlen := length_take_datagram d (rxBound s.cfg)
  have hfit : 0 + (d.take (rxBound s.cfg)).length ≤
      (s.setPorts { s.ports with sockRecv := rest }).memSize .dgramIn := by
    rw [hlen, Nat.zero_add]
    exact (Nat.min_le_right _ _).trans (rxBound_le (h.legal hr))
  rw [ingressTop, hreq, if_neg Bool.false_ne_true, sockRecv_data hq]
  simp only [State.memWrite_eq hfit, orStop_some, hlen]
  rfl

/-- A completed PDU is delivered from the memory its handle names (R98, R260). -/
theorem ingressDeliver_ok (hd : BitVec 16) {len : Nat} (hfit : len ≤ s.memSize (handleSpace hd))
    (hok : s.ports.ifSend.head? ≠ some .fatal) :
    ingressDeliver hd len s = .next
      ((s.setPorts { s.ports with
          ifSend := s.ports.ifSend.tail
          delivered := s.ports.delivered ++ [s.readBytes (handleSpace hd) 0 len] }).ingressAt
        (if hd = Config.transientHandle then .top else .release hd)) := by
  rw [ingressDeliver, State.memRead_eq (by rw [Nat.zero_add]; exact hfit), orStop_some, ifSend_ok hok]

/-- RELEASE of a Held slot frees it (R145, R146). -/
theorem exec_release_held (hr : s.run = .running) {hd : Word32} {sl : Slot}
    (hsl : s.slots[hd.toNat]? = some sl) (ho : sl.owner = .held) :
    exec (.release hd) s =
      .next ((s.poolFree hd.toNat).setRsp { code := .ok, handle := BitVec.ofNat 16 hd.toNat }) := by
  simp only [exec, execRelease, whenRunning_running hr, hsl, ho, respond_eq]

theorem slotEntry_poolFree_same {k size : Nat} {o : Owner} (h : s.slotEntry k = some (size, o)) :
    (s.poolFree k).slotEntry k = some (size, .free) := by
  obtain ⟨sl, hsl, he⟩ := Option.map_eq_some_iff.mp h
  cases he
  simp [State.slotEntry, hsl]

theorem sameSlotTable_poolFree (s : State) (k : Nat) : SameSlotTable [k] s (s.poolFree k) := by
  refine ⟨by simp [State.poolCount], fun j hj => State.slotEntry_congr ?_⟩
  exact s.slots_modifySlot_ne _ fun hjk => hj (by simp [hjk])

/-- Settles O56: receive, DECAP, deliver, release, each by the lemma of its turn. -/
theorem ingressIterationDelivers : Obligations.IngressIterationDelivers := by
  intro s h hr
  refine ⟨fun d rest hpos hreq hq => ?_, fun n hpos => ?_, fun hd len hpos hok => ?_,
    fun hd size hpos hentry => ?_⟩
  · refine ⟨_, (ingressTurn_top hr hpos).trans (ingressTop_data h hr hreq hq), rfl, ?_, ?_, rfl⟩
    · rw [← length_take_datagram]
      exact State.readBytes_setMem_same .dgramIn 0 _ nofun
    · rw [← length_take_datagram]
      exact sameBytesBut_setMem_write s .dgramIn 0 _ nofun
  · obtain ⟨u, hu⟩ := exec_answers h (.decap (BitVec.ofNat 32 n))
    refine ⟨u, _, hu, ?_, rfl⟩
    rw [ingressTurn_decap hr hpos, hu, afterCommand_of_next, ingressAfterDecap]
    split <;> rfl
  · have hfit := h.seq.ingress
    rw [hpos] at hfit
    exact ⟨_, (ingressTurn_deliver hr hpos).trans (ingressDeliver_ok hd (hfit hr) hok), rfl, rfl, rfl⟩
  · obtain ⟨sl, hsl, he⟩ := Option.map_eq_some_iff.mp hentry
    have hwide : (hd.setWidth 32).toNat = hd.toNat := by bv_omega
    have hexec := exec_release_held (hd := hd.setWidth 32) hr (by rw [hwide]; exact hsl)
      (congrArg Prod.snd he)
    have hturn := ingressTurn_release hr hpos
    rw [hexec, afterCommand_of_next, hwide] at hturn
    exact ⟨_, hturn, rfl, slotEntry_poolFree_same hentry, sameSlotTable_poolFree s hd.toNat, rfl, rfl⟩

end Sys2Proof.Machine

/-! SUPPORT. The encodings: request records (R92, R93), the header of a fragment (R111, R112), and REFCODEC's
decoder as one equation over its classes (R120). -/

namespace Sys2Proof

/-! ### Fields of a byte sequence -/

/-- A field stands where the bytes before it end. -/
theorem slice_of_eq_append {d x y z : List Byte} {a n : Nat} (hd : d = x ++ (y ++ z)) (hx : x.length = a)
    (hy : y.length = n) : slice d a n = y := by
  subst hd hx hy
  simp [slice]

/-- A number of n bytes is read back from its spelling (R19, R62). -/
theorem ofNat_natBe_beBytes {w n : Nat} (hw : 2 ^ w = 256 ^ n) (x : BitVec w) :
    BitVec.ofNat w (natBe (beBytes n x.toNat)) = x := by
  rw [natBe_beBytes (hw ▸ x.isLt), BitVec.ofNat_toNat, BitVec.setWidth_eq]

/-! ### Request records (R92, R93) -/

/-- The command of an opcode over the fields of its record (R92). -/
def commandOf (op : Byte) (fid : Fid) (proto : Proto) (len cap : Word32) (label : LabelField) :
    Except DecodeError Instr :=
  if op = 0x01 then .ok (.provision len)
  else if op = 0x02 then .ok .acquire
  else if op = 0x03 then .ok (.release len)
  else if op = 0x10 then .ok .nextLabel
  else if op = 0x11 then .ok (.beginEncap fid proto len cap label)
  else if op = 0x12 then .ok (.continueEncap cap)
  else if op = 0x13 then .ok (.pad len)
  else if op = 0x20 then .ok (.decap len)
  else if op = 0x30 then .ok .shutdown
  else .error (.reservedOpcode op)

/-- The fields of a record stand at the offsets of R93. -/
theorem decodeRequest_eq {r : List Byte} (h : r.length = 20) :
    decodeRequest r =
      commandOf (byteAt r 0) (byteAt r 1) (BitVec.ofNat 16 (natBe (slice r 2 2)))
        (BitVec.ofNat 32 (natBe (slice r 4 4))) (BitVec.ofNat 32 (natBe (slice r 8 4)))
        (BitVec.ofNat 48 (natBe (slice r 12 6))) := by
  rw [decodeRequest, if_neg (not_not_intro h)]
  rfl

/-- No bit of a record's fields is dropped (R93). -/
theorem decodeRequest_requestRecord (op : Byte) (fid : Fid) (proto : Proto) (len cap : Word32)
    (label : LabelField) :
    decodeRequest (requestRecord op fid proto len cap label) = commandOf op fid proto len cap label := by
  have hproto : slice (requestRecord op fid proto len cap label) 2 2 = beBytes 2 proto.toNat :=
    slice_of_eq_append (x := [op, fid]) (by simp [requestRecord]; rfl) rfl (by simp)
  have hlen : slice (requestRecord op fid proto len cap label) 4 4 = beBytes 4 len.toNat :=
    slice_of_eq_append (x := [op, fid] ++ beBytes 2 proto.toNat) (by simp [requestRecord]; rfl)
      (by simp) (by simp)
  have hcap : slice (requestRecord op fid proto len cap label) 8 4 = beBytes 4 cap.toNat :=
    slice_of_eq_append (x := [op, fid] ++ beBytes 2 proto.toNat ++ beBytes 4 len.toNat)
      (by simp [requestRecord]; rfl) (by simp) (by simp)
  have hlabel : slice (requestRecord op fid proto len cap label) 12 6 = beBytes 6 label.toNat :=
    slice_of_eq_append
      (x := [op, fid] ++ beBytes 2 proto.toNat ++ beBytes 4 len.toNat ++ beBytes 4 cap.toNat)
      (by simp [requestRecord]; rfl) (by simp) (by simp)
  rw [decodeRequest_eq (Laws.requestRecord_length ..), hproto, hlen, hcap, hlabel,
    ofNat_natBe_beBytes (by norm_num), ofNat_natBe_beBytes (by norm_num),
    ofNat_natBe_beBytes (by norm_num), ofNat_natBe_beBytes (by norm_num)]
  rfl

/-! ### The header of a fragment (R111, R112) -/

/-- Byte 0 of a fragment: S, E, the label type and the high 4 bits of the length (R111). -/
def headerByte (s e : Bool) (lt : BitVec 2) (lenHigh : BitVec 4) : Byte :=
  BitVec.ofBool s ++ BitVec.ofBool e ++ lt ++ lenHigh

theorem fragmentBytes_eq (s e : Bool) (lt : BitVec 2) (len : BitVec 12) (body : List Byte) :
    fragmentBytes s e lt len body =
      headerByte s e lt (len.extractLsb' 8 4) :: len.extractLsb' 0 8 :: body := rfl

section
variable (s e : Bool) (lt : BitVec 2) (lenHigh : BitVec 4)

@[simp] theorem headerByte_start : (headerByte s e lt lenHigh).getLsbD 7 = s := by
  rw [headerByte, BitVec.getLsbD_append, BitVec.getLsbD_append, BitVec.getLsbD_append,
    BitVec.getLsbD_ofBool, BitVec.getLsbD_ofBool]
  rfl

@[simp] theorem headerByte_end : (headerByte s e lt lenHigh).getLsbD 6 = e := by
  rw [headerByte, BitVec.getLsbD_append, BitVec.getLsbD_append, BitVec.getLsbD_append,
    BitVec.getLsbD_ofBool]
  rfl

@[simp] theorem headerByte_labelType : (headerByte s e lt lenHigh).extractLsb' 4 2 = lt := by
  rw [headerByte, BitVec.extractLsb'_append_eq_of_le (le_refl 4),
    BitVec.extractLsb'_append_eq_of_add_le (by decide), BitVec.extractLsb'_eq_self]

@[simp] theorem headerByte_lenHigh : (headerByte s e lt lenHigh).extractLsb' 0 4 = lenHigh := by
  rw [headerByte, BitVec.extractLsb'_append_eq_of_add_le (by decide), BitVec.extractLsb'_eq_self]

end

/-- The row of the opcode table that S and E name (R112). -/
def fragmentRow (s e : Bool) (lt : BitVec 2) (len : BitVec 12) (body : List Byte) : Instr :=
  match s, e with
  | true, true => .fragSingle lt len body
  | true, false => .fragFirst lt len body
  | false, false => .fragCont lt len body
  | false, true => .fragLast lt len body

theorem decodeDatagram_cons (b0 b1 : Byte) (body : List Byte) :
    decodeDatagram (b0 :: b1 :: body) =
      .ok (fragmentRow (b0.getLsbD 7) (b0.getLsbD 6) (b0.extractLsb' 4 2) (b0.extractLsb' 0 4 ++ b1)
        body) := by
  rw [decodeDatagram]
  cases b0.getLsbD 7 <;> cases b0.getLsbD 6 <;> rfl

/-- No bit of a fragment's header is dropped (R111). -/
theorem decodeDatagram_fragmentBytes (s e : Bool) (lt : BitVec 2) (len : BitVec 12) (body : List Byte) :
    decodeDatagram (fragmentBytes s e lt len body) = .ok (fragmentRow s e lt len body) := by
  have hlen : len.extractLsb' 8 4 ++ len.extractLsb' 0 8 = len :=
    BitVec.extractLsb'_append_extractLsb'
  rw [fragmentBytes_eq, decodeDatagram_cons, headerByte_start, headerByte_end, headerByte_labelType,
    headerByte_lenHigh, hlen]

/-- Settles O1: a command's record and a fragment's header are read back field by field. -/
theorem decodeOfEncodeIsTheInstruction : Obligations.DecodeOfEncodeIsTheInstruction := by
  intro i
  cases i with
  | provision size => exact decodeRequest_requestRecord 0x01 0 0 size 0 0
  | acquire => exact decodeRequest_requestRecord 0x02 0 0 0 0 0
  | release handle => exact decodeRequest_requestRecord 0x03 0 0 handle 0 0
  | nextLabel => exact decodeRequest_requestRecord 0x10 0 0 0 0 0
  | beginEncap fid proto len cap label => exact decodeRequest_requestRecord 0x11 fid proto len cap label
  | continueEncap cap => exact decodeRequest_requestRecord 0x12 0 0 0 cap 0
  | pad len => exact decodeRequest_requestRecord 0x13 0 0 len 0 0
  | decap len => exact decodeRequest_requestRecord 0x20 0 0 len 0 0
  | shutdown => exact decodeRequest_requestRecord 0x30 0 0 0 0 0
  | fragSingle lt len body => exact decodeDatagram_fragmentBytes true true lt len body
  | fragFirst lt len body => exact decodeDatagram_fragmentBytes true false lt len body
  | fragCont lt len body => exact decodeDatagram_fragmentBytes false false lt len body
  | fragLast lt len body => exact decodeDatagram_fragmentBytes false true lt len body

/-! ### REFCODEC's decoder (R120) -/

/-- Bytes of a fragment after byte 1 that are neither label nor payload: the fragment-id, the protocol
identifier of a starting class, the trailer of a terminal one (R118). -/
def fixedBytes (s e : Bool) : Nat := 1 + (if s then 2 else 0) + (if e then 4 else 0)

/-- The fragment whose bytes after byte 1 are `g` (R118, R120). -/
def fragmentOf (lw : Nat) (s e : Bool) (g : List Byte) : Frag :=
  match s, e with
  | true, true =>
    .single (byteAt g 0) (BitVec.ofNat 16 (natBe (slice g 1 2))) (slice g 3 lw)
      (slice g (3 + lw) (g.length - 4 - (3 + lw))) (trailerOf g)
  | true, false =>
    .first (byteAt g 0) (BitVec.ofNat 16 (natBe (slice g 1 2))) (slice g 3 lw) (g.drop (3 + lw))
  | false, false => .cont (byteAt g 0) (slice g 1 lw) (g.drop (1 + lw))
  | false, true =>
    .last (byteAt g 0) (slice g 1 lw) (slice g (1 + lw) (g.length - 4 - (1 + lw))) (trailerOf g)

variable {lw : Nat}

/-- The decoder makes one series of checks, whatever the class, and then reads the class's fields. -/
theorem refDecode_of_row {d body : List Byte} {s e : Bool} {lt : BitVec 2} {len : BitVec 12}
    (h : decodeDatagram d = .ok (fragmentRow s e lt len body)) :
    refDecode lw d = (fragmentBody lw (fixedBytes s e) lt len body).map (fragmentOf lw s e) := by
  rw [refDecode, h]
  cases s <;> cases e <;> exact Option.map_map ..

theorem refDecode_cons (b0 b1 : Byte) (body : List Byte) :
    refDecode lw (b0 :: b1 :: body) =
      (fragmentBody lw (fixedBytes (b0.getLsbD 7) (b0.getLsbD 6)) (b0.extractLsb' 4 2)
        (b0.extractLsb' 0 4 ++ b1) body).map (fragmentOf lw (b0.getLsbD 7) (b0.getLsbD 6)) :=
  refDecode_of_row (decodeDatagram_cons b0 b1 body)

theorem refDecode_nil : refDecode lw [] = none := rfl

theorem refDecode_singleton (b : Byte) : refDecode lw [b] = none := rfl

/-- What the checks of R120 let through, and what they leave of it. -/
theorem fragmentBody_eq_some {fixed : Nat} {lt : BitVec 2} {len : BitVec 12} {body g : List Byte} :
    fragmentBody lw fixed lt len body = some g ↔
      labelTypeOf lw = some lt ∧ len.toNat ≤ body.length ∧ fixed + lw ≤ len.toNat ∧
        g = body.take len.toNat := by
  rw [fragmentBody]
  split
  · simp [*]
  split
  · simp; omega
  split
  · simp; omega
  · exact ⟨fun h => ⟨not_not.mp ‹_›, by omega, by omega, (Option.some.inj h).symm⟩,
      fun ⟨_, _, _, h⟩ => congrArg some h.symm⟩

theorem fragmentBody_eq_none_of_labelType {fixed : Nat} {lt : BitVec 2} {len : BitVec 12}
    {body : List Byte} (h : labelTypeOf lw ≠ some lt) : fragmentBody lw fixed lt len body = none :=
  if_pos h

/-- A fragment cut before its end (R120, third check). -/
theorem fragmentBody_eq_none_of_short {fixed : Nat} {lt : BitVec 2} {len : BitVec 12} {body : List Byte}
    (h : body.length < len.toNat) : fragmentBody lw fixed lt len body = none :=
  Option.eq_none_iff_forall_ne_some.mpr fun g hg => by
    obtain ⟨-, hle, -, -⟩ := fragmentBody_eq_some.mp hg
    omega

/-- A length that does not cover header and trailer (R120, fourth check). -/
theorem fragmentBody_eq_none_of_tooShort {fixed : Nat} {lt : BitVec 2} {len : BitVec 12}
    {body : List Byte} (h : len.toNat < fixed + lw) : fragmentBody lw fixed lt len body = none :=
  Option.eq_none_iff_forall_ne_some.mpr fun g hg => by
    obtain ⟨-, -, hle, -⟩ := fragmentBody_eq_some.mp hg
    omega

/-- Only the bytes the length counts matter (R104). -/
theorem fragmentBody_take_append {fixed : Nat} {lt : BitVec 2} {len : BitVec 12} {body g : List Byte}
    (h : fragmentBody lw fixed lt len body = some g) (t : List Byte) :
    fragmentBody lw fixed lt len (body.take len.toNat ++ t) = some g := by
  obtain ⟨hlt, hlen, hfixed, rfl⟩ := fragmentBody_eq_some.mp h
  have htake : (body.take len.toNat).length = len.toNat := List.length_take_of_le hlen
  refine fragmentBody_eq_some.mpr ⟨hlt, ?_, hfixed, (List.take_left' htake).symm⟩
  rw [List.length_append, htake]
  omega

end Sys2Proof

/-! SUPPORT. REFCODEC: its encoders against its decoder, and its CRC as an injective map, by which it
meets the laws of the codec capability (R100 to R107, R242). -/

namespace Sys2Proof.Machine

variable {lw : Nat}

/-! ### Encoding, then decoding (R102, R104, R119) -/

/-- What a REFCODEC encoder writes (R119). -/
theorem refFragment_eq_some {s e : Bool} {label : Label} {rest d : List Byte}
    (h : refFragment lw s e label rest = some d) :
    ∃ lt, labelTypeOf lw = some lt ∧ rest.length ≤ 4095 ∧
      d = fragmentBytes s e lt (BitVec.ofNat 12 rest.length) rest := by
  rw [refFragment] at h
  split at h
  · cases h
  · rename_i lt hlt
    split at h
    · rename_i hdef
      exact ⟨lt, hlt, hdef.2, (Option.some.inj h).symm⟩
    · cases h

/-- Round trip with padding, whatever the class: the decoder finds the bytes the encoder put behind the
header (R104). -/
theorem refDecode_of_refFragment {s e : Bool} {label : Label} {rest d : List Byte}
    (h : refFragment lw s e label rest = some d) (hfixed : fixedBytes s e + lw ≤ rest.length)
    (t : List Byte) : refDecode lw (d ++ t) = some (fragmentOf lw s e rest) := by
  obtain ⟨lt, hlt, hrest, rfl⟩ := refFragment_eq_some h
  have hlen : (BitVec.ofNat 12 rest.length).toNat = rest.length :=
    Nat.mod_eq_of_lt (show rest.length < 2 ^ 12 by omega)
  have hbody : fragmentBody lw (fixedBytes s e) lt (BitVec.ofNat 12 rest.length) (rest ++ t) = some rest :=
    fragmentBody_eq_some.mpr ⟨hlt, by simp [hlen], by rwa [hlen], by simp [hlen]⟩
  have hrow := refDecode_of_row (lw := lw)
    (decodeDatagram_fragmentBytes s e lt (BitVec.ofNat 12 rest.length) (rest ++ t))
  rw [hbody] at hrow
  exact hrow

theorem trailerOf_append (x : List Byte) (crc : Crc) : trailerOf (x ++ beBytes 4 crc.toNat) = crc := by
  have hdrop : (x ++ beBytes 4 crc.toNat).drop ((x ++ beBytes 4 crc.toNat).length - 4) =
      beBytes 4 crc.toNat := List.drop_left' (by simp)
  rw [trailerOf, hdrop, ofNat_natBe_beBytes (by norm_num)]

/-- A terminal fragment's payload stands between the fields before it and the trailer (R117, R118). -/
theorem terminalFields {g x p : List Byte} {a : Nat} {crc : Crc}
    (hg : g = x ++ (p ++ beBytes 4 crc.toNat)) (hx : x.length = a) :
    slice g a (g.length - 4 - a) = p ∧ trailerOf g = crc := by
  refine ⟨slice_of_eq_append hg hx (by simp [hg, hx]; omega), ?_⟩
  rw [hg, ← List.append_assoc, trailerOf_append]

section
variable {fid : Fid} {proto : Proto} {label g rest : List Byte} (hl : label.length = lw)
include hl

/-- The fields SINGLE and FIRST begin with (R118). -/
theorem startFields (hg : g = fid :: (beBytes 2 proto.toNat ++ (label ++ rest))) :
    byteAt g 0 = fid ∧ BitVec.ofNat 16 (natBe (slice g 1 2)) = proto ∧ slice g 3 lw = label := by
  have hproto : slice g 1 2 = beBytes 2 proto.toNat :=
    slice_of_eq_append (x := [fid]) hg rfl (by simp)
  refine ⟨by rw [hg]; rfl, by rw [hproto, ofNat_natBe_beBytes (by norm_num)], ?_⟩
  exact slice_of_eq_append (x := fid :: beBytes 2 proto.toNat) hg (by simp) hl

/-- The fields CONT and LAST begin with (R118). -/
theorem continuationFields (hg : g = fid :: (label ++ rest)) :
    byteAt g 0 = fid ∧ slice g 1 lw = label :=
  ⟨by rw [hg]; rfl, slice_of_eq_append (x := [fid]) hg rfl hl⟩

end

section
variable (fid : Fid) (proto : Proto) {label : Label} (hl : label.length = lw) (p : List Byte) (crc : Crc)
include hl

theorem fragmentOf_single :
    fragmentOf lw true true (fid :: (beBytes 2 proto.toNat ++ label ++ p ++ beBytes 4 crc.toNat)) =
      .single fid proto label p crc := by
  rw [List.append_assoc, List.append_assoc]
  obtain ⟨hfid, hproto, hlabel⟩ := startFields (fid := fid) (proto := proto) hl rfl
  obtain ⟨hp, hcrc⟩ := terminalFields (a := 3 + lw) (x := fid :: (beBytes 2 proto.toNat ++ label))
    (p := p) (crc := crc) rfl (by simp [hl]; omega)
  rw [List.cons_append, List.append_assoc] at hp hcrc
  rw [fragmentOf, hfid, hproto, hlabel, hp, hcrc]

theorem fragmentOf_first :
    fragmentOf lw true false (fid :: (beBytes 2 proto.toNat ++ label ++ p)) = .first fid proto label p := by
  have hp : (fid :: (beBytes 2 proto.toNat ++ label ++ p)).drop (3 + lw) = p :=
    List.drop_left' (l₁ := fid :: (beBytes 2 proto.toNat ++ label)) (by simp [hl]; omega)
  rw [List.append_assoc] at hp ⊢
  obtain ⟨hfid, hproto, hlabel⟩ := startFields (fid := fid) (proto := proto) (rest := p) hl rfl
  rw [fragmentOf, hfid, hproto, hlabel, hp]

theorem fragmentOf_cont :
    fragmentOf lw false false (fid :: (label ++ p)) = .cont fid label p := by
  have hp : (fid :: (label ++ p)).drop (1 + lw) = p :=
    List.drop_left' (l₁ := fid :: label) (by simp [hl]; omega)
  obtain ⟨hfid, hlabel⟩ := continuationFields (fid := fid) (rest := p) hl rfl
  rw [fragmentOf, hfid, hlabel, hp]

theorem fragmentOf_last :
    fragmentOf lw false true (fid :: (label ++ p ++ beBytes 4 crc.toNat)) = .last fid label p crc := by
  rw [List.append_assoc]
  obtain ⟨hfid, hlabel⟩ := continuationFields (fid := fid) hl rfl
  obtain ⟨hp, hcrc⟩ := terminalFields (a := 1 + lw) (x := fid :: label) (p := p) (crc := crc) rfl
    (by simp [hl]; omega)
  rw [List.cons_append] at hp hcrc
  rw [fragmentOf, hfid, hlabel, hp, hcrc]

end

/-- Settles O2: the encoders are defined with their lengths, and the decoder reads back what stands behind
the header, class by class. -/
theorem fragmentRoundTripWithPadding : Obligations.FragmentRoundTripWithPadding := by
  intro lw fid proto label p crc hlw hl
  have hsound := refCodec_sound hlw
  refine ⟨fun hp => ?single, fun hp => ?first, fun hp => ?cont, fun hp => ?last⟩
  case single =>
    obtain ⟨d, hd, hlen⟩ := hsound.single fid proto label p crc hl hp
    refine ⟨d, hd, hlen, fun t => ?_⟩
    rw [refDecode_of_refFragment hd (by simp [fixedBytes, hl]; omega), fragmentOf_single fid proto hl]
  case first =>
    obtain ⟨d, hd, hlen⟩ := hsound.first fid proto label p hl hp
    refine ⟨d, hd, hlen, fun t => ?_⟩
    rw [refDecode_of_refFragment hd (by simp [fixedBytes, hl]; omega), fragmentOf_first fid proto hl]
  case cont =>
    obtain ⟨d, hd, hlen⟩ := hsound.cont fid label p hl hp
    refine ⟨d, hd, hlen, fun t => ?_⟩
    rw [refDecode_of_refFragment hd (by simp [fixedBytes, hl]; omega), fragmentOf_cont fid hl]
  case last =>
    obtain ⟨d, hd, hlen⟩ := hsound.last fid label p crc hl hp
    refine ⟨d, hd, hlen, fun t => ?_⟩
    rw [refDecode_of_refFragment hd (by simp [fixedBytes, hl]; omega), fragmentOf_last fid hl]

/-! ### Padding, cuts and tails (R121) -/

/-- Pure padding reads as an empty CONT fragment, too short for its own fragment-id. -/
theorem refDecode_zeros (n : Nat) : refDecode lw (zeros n) = none := by
  match n with
  | 0 => exact refDecode_nil
  | 1 => exact refDecode_singleton 0
  | n + 2 =>
    have hlen : ((0 : Byte).extractLsb' 0 4 ++ (0 : Byte)).toNat = 0 := by decide
    have hcons : zeros (n + 2) = 0 :: 0 :: zeros n := rfl
    rw [hcons, refDecode_cons, fragmentBody_eq_none_of_tooShort (by rw [hlen, fixedBytes]; omega)]
    rfl

/-- What decodes is a header, and a body that passes the checks. -/
theorem refDecode_eq_some {d : List Byte} {fr : Frag} (h : refDecode lw d = some fr) :
    ∃ b0 b1 body g, d = b0 :: b1 :: body ∧
      fragmentBody lw (fixedBytes (b0.getLsbD 7) (b0.getLsbD 6)) (b0.extractLsb' 4 2)
        (b0.extractLsb' 0 4 ++ b1) body = some g ∧
      fragmentOf lw (b0.getLsbD 7) (b0.getLsbD 6) g = fr := by
  match d with
  | [] => cases h
  | [_] => cases h
  | b0 :: b1 :: body =>
    rw [refDecode_cons, Option.map_eq_some_iff] at h
    obtain ⟨g, hg, hfr⟩ := h
    exact ⟨b0, b1, body, g, rfl, hg, hfr⟩

/-- Settles O3: the end of a fragment is where its length says, two header bytes included. -/
theorem paddingCutsAndTails : Obligations.PaddingCutsAndTails := by
  intro lw _
  refine ⟨refDecode_zeros, refDecode_nil, fun d fr h => ?_⟩
  obtain ⟨b0, b1, body, g, rfl, hg, rfl⟩ := refDecode_eq_some h
  obtain ⟨-, hle, -, -⟩ := fragmentBody_eq_some.mp hg
  refine ⟨2 + (b0.extractLsb' 0 4 ++ b1).toNat, by omega, by simp only [List.length_cons]; omega,
    fun k hk => ?cut, fun t => ?tail⟩
  case cut =>
    match k with
    | 0 => exact refDecode_nil
    | 1 => exact refDecode_singleton b0
    | k + 2 =>
      have hshort : (body.take k).length < (b0.extractLsb' 0 4 ++ b1).toNat := by
        rw [List.length_take]; omega
      rw [List.take_succ_cons, List.take_succ_cons, refDecode_cons, fragmentBody_eq_none_of_short hshort]
      rfl
  case tail =>
    rw [Nat.add_comm, List.take_succ_cons, List.take_succ_cons, List.cons_append, List.cons_append,
      refDecode_cons, fragmentBody_take_append hg]
    rfl

/-! ### The label type (R113) -/

/-- Label width and label type name each other. -/
theorem labelTypeOf_eq_some (hlw : Cfg.lwLegal lw) {lt : BitVec 2} :
    labelTypeOf lw = some lt ↔ widthOfLabelType lt = some lw := by
  rcases hlw with rfl | rfl | rfl <;> revert lt <;> decide

/-- Settles O4: the label type is the decoder's second check, and every encoder writes it by `hdr`. -/
theorem labelTypeIsTheConfiguredOne : Obligations.LabelTypeIsTheConfiguredOne := by
  intro lw hlw
  refine ⟨fun b0 rest hlt => ?refused, ⟨rfl, rfl, rfl, rfl⟩,
    fun fid proto label p crc d h => ?written⟩
  case refused =>
    cases rest with
    | nil => exact refDecode_singleton b0
    | cons b1 body =>
      rw [refDecode_cons, fragmentBody_eq_none_of_labelType (mt (labelTypeOf_eq_some hlw).mp hlt)]
      rfl
  case written =>
    obtain ⟨s, e, rest, hd⟩ : ∃ s e rest, refFragment lw s e label rest = some d := by
      rcases h with h | h | h | h <;> exact ⟨_, _, _, h⟩
    obtain ⟨lt, hlt, -, rfl⟩ := refFragment_eq_some hd
    rw [fragmentBytes_eq]
    show widthOfLabelType ((headerByte s e lt _).extractLsb' 4 2) = some lw
    rw [headerByte_labelType]
    exact (labelTypeOf_eq_some hlw).mp hlt

/-- Settles O6: each word is evaluated. -/
theorem specWordsDecode : Obligations.SpecWordsDecode := by
  refine ⟨?_, ?_, ?_, ?_, ?_, ?_, ?_, ?_, ?_⟩ <;> decide +kernel

/-! ### REFCODEC's CRC (R231, R232, R242) -/

/-- A shift loses only the top bit. -/
theorem eq_of_shiftLeft_one_eq {a b : Crc} (hmsb : a.msb = b.msb) (h : a <<< 1 = b <<< 1) : a = b := by
  ext k hk
  by_cases htop : k = 31
  · subst htop
    simpa [BitVec.msb_eq_getLsbD_last] using hmsb
  · have hbit := congrArg (·.getLsbD (k + 1)) h
    simpa [show k + 1 < 32 by omega] using hbit

/-- The generator has the constant term 1, so bit 0 tells whether the top bit was shifted out (R242). -/
theorem crcBit_getLsbD_zero (a : Crc) : (crcBit a).getLsbD 0 = a.msb := by
  rw [crcBit]
  split <;> simp [*]

theorem crcBit_injective : Function.Injective crcBit := by
  intro a b h
  have hmsb : a.msb = b.msb := by rw [← crcBit_getLsbD_zero, h, crcBit_getLsbD_zero]
  refine eq_of_shiftLeft_one_eq hmsb ?_
  rw [crcBit, crcBit, hmsb] at h
  split at h
  · exact (BitVec.xor_left_inj _).mp h
  · exact h

theorem crcByte_eq (acc : Crc) (b : Byte) :
    crcByte acc b = crcBit^[8] (acc ^^^ (b.setWidth 32 <<< 24)) := rfl

theorem crcByte_left_injective (b : Byte) : Function.Injective fun acc => crcByte acc b := fun _ _ h =>
  (BitVec.xor_left_inj _).mp (crcBit_injective.iterate 8 h)

theorem crcByte_right_injective (acc : Crc) : Function.Injective (crcByte acc) := by
  intro b c h
  have hshift : b.setWidth 32 <<< 24 = c.setWidth 32 <<< 24 :=
    (BitVec.xor_right_inj _).mp (crcBit_injective.iterate 8 h)
  bv_omega

theorem crcUpdate_append (acc : Crc) (x y : List Byte) :
    crcUpdate acc (x ++ y) = crcUpdate (crcUpdate acc x) y :=
  List.foldl_append

/-- Bytes that follow do not make two accumulators equal. -/
theorem crcUpdate_injective (bytes : List Byte) : Function.Injective fun acc => crcUpdate acc bytes := by
  induction bytes with
  | nil => exact fun _ _ h => h
  | cons b bytes ih => exact fun _ _ h => crcByte_left_injective b (ih h)

/-- Two bytes that differ leave two accumulators, and what follows keeps them apart (R232). -/
theorem crcUpdate_ne_of_oneBitApart {p q : List Byte} (h : OneBitApart p q) (acc : Crc) :
    crcUpdate acc p ≠ crcUpdate acc q := by
  obtain ⟨k, bit, hk, hbit, rfl⟩ := h
  have hp : p = p.take k ++ p[k] :: p.drop (k + 1) := by simp
  have hflip : p[k] ≠ p[k] ^^^ (1#8 <<< bit) := by
    have hmask : (1#8 <<< bit) ≠ 0#8 := by interval_cases bit <;> decide
    exact fun heq => hmask ((BitVec.xor_right_inj p[k]).mp (by rw [← heq, BitVec.xor_zero]))
  rw [List.set_eq_take_append_cons_drop, if_pos hk]
  conv_lhs => rw [hp]
  rw [crcUpdate_append, crcUpdate_append]
  exact fun heq => hflip (crcByte_right_injective _ (crcUpdate_injective _ heq))

/-- Settles O60: definedness and labels from the codec's soundness, the round trip from O2, the CRC from its
injectivity. -/
theorem refCodecMeetsTheLaws : Obligations.RefCodecMeetsTheLaws := by
  intro lw hlw
  have hsound := refCodec_sound hlw
  have hround := fun fid proto label p crc hl =>
    fragmentRoundTripWithPadding lw fid proto label p crc hlw hl
  exact {
    maxFrag_le := hsound.maxFrag_le
    single := fun fid proto label p crc hl =>
      let ⟨hsingle, _, _, _⟩ := hround fid proto label p crc hl
      hsingle
    first := fun fid proto label p hl =>
      let ⟨_, hfirst, _, _⟩ := hround fid proto label p 0 hl
      hfirst
    cont := fun fid label p hl =>
      let ⟨_, _, hcont, _⟩ := hround fid 0 label p 0 hl
      hcont
    last := fun fid label p crc hl =>
      let ⟨_, _, _, hlast⟩ := hround fid 0 label p crc hl
      hlast
    label := hsound.label
    chunk_nil := fun _ => rfl
    chunk_append := hsound.chunk_append
    single_bit := fun b _ _ h => crcUpdate_ne_of_oneBitApart h (crcUpdate crcInit b) }

end Sys2Proof.Machine

/-! SUPPORT. Requests at large: which of a record's bytes a command uses (R93), which codes it responds (R97),
and when it is an illegal command (R94, R95). -/

namespace Sys2Proof.Machine

variable {s t : State} {i : Instr}

/-! ### Request records as the command port brings them (R93) -/

/-- The slice of a record is determined by the bytes at its offsets. -/
theorem slice_congr {r r' : Vector Byte 20} {a n : Nat}
    (h : ∀ k ∈ List.range' a n, r[k]? = r'[k]?) : slice r.toList a n = slice r'.toList a n := by
  apply List.ext_getElem?
  intro j
  by_cases hj : j < n
  · have hmem : a + j ∈ List.range' a n := by simp [List.mem_range']; omega
    simpa [slice, List.getElem?_take, hj] using h _ hmem
  · simp [slice, hj]

/-- The label a record carries is its label bytes 12 to 11 + LW (R93). -/
theorem labelOfField_ofNat_natBe {lw : Nat} (hlw : lw ≤ 6) {r : List Byte} (h : r.length = 20) :
    labelOfField lw (BitVec.ofNat 48 (natBe (slice r 12 6))) = slice r 12 lw := by
  have hlen : (slice r 12 6).length = 6 := by simp [h]
  have hlt := natBe_lt (slice r 12 6)
  have hspell := beBytes_natBe (slice r 12 6)
  rw [hlen] at hlt hspell
  rw [labelOfField, BitVec.toNat_ofNat, Nat.mod_eq_of_lt (hlt.trans_eq (by norm_num)), hspell, slice,
    List.take_take, Nat.min_eq_left hlw, slice]

/-- BEGIN_ENCAP reads the first LW label bytes only (R93). -/
theorem exec_beginEncap_label_congr {fid : Fid} {proto : Proto} {len cap : Word32}
    {label label' : LabelField} (h : labelOfField s.cfg.lw label = labelOfField s.cfg.lw label') :
    exec (.beginEncap fid proto len cap label) s = exec (.beginEncap fid proto len cap label') s := by
  cases hr : s.run with
  | running =>
    rw [exec, exec, execBeginEncap, execBeginEncap, whenRunning_running hr, whenRunning_running hr, h]
  | halted => rw [exec_halted hr Instr.noConfusion, exec_halted hr Instr.noConfusion]

/-- The length is all PROVISION, RELEASE, PAD and DECAP use of a record (R92). -/
theorem commandOf_len {op : Byte} (h : op = 0x01 ∨ op = 0x03 ∨ op = 0x13 ∨ op = 0x20)
    (fid fid' : Fid) (proto proto' : Proto) (len cap cap' : Word32) (label label' : LabelField) :
    commandOf op fid proto len cap label = commandOf op fid' proto' len cap' label' := by
  rcases h with rfl | rfl | rfl | rfl <;> rfl

/-- The other opcodes, reserved ones among them, use no field (R92). -/
theorem commandOf_noField {op : Byte} (hbegin : op ≠ 0x11) (hcontinue : op ≠ 0x12)
    (hlen : ¬ (op = 0x01 ∨ op = 0x03 ∨ op = 0x13 ∨ op = 0x20))
    (fid fid' : Fid) (proto proto' : Proto) (len len' cap cap' : Word32) (label label' : LabelField) :
    commandOf op fid proto len cap label = commandOf op fid' proto' len' cap' label' := by
  simp only [not_or] at hlen
  obtain ⟨h01, h03, h13, h20⟩ := hlen
  simp only [commandOf, hbegin, hcontinue, h01, h03, h13, h20, if_false]

/-- What the command port does with the fields of a record (R92, R95). -/
def runCommand (c : Except DecodeError Instr) (s : State) : Res :=
  match c with
  | .ok i => exec i s
  | .error _ => illegalCommand s

theorem runRequest_eq (r : Vector Byte 20) (s : State) :
    runRequest r s =
      runCommand (commandOf r[0] r[1] (BitVec.ofNat 16 (natBe (slice r.toList 2 2)))
        (BitVec.ofNat 32 (natBe (slice r.toList 4 4))) (BitVec.ofNat 32 (natBe (slice r.toList 8 4)))
        (BitVec.ofNat 48 (natBe (slice r.toList 12 6)))) s := by
  have h0 : byteAt r.toList 0 = r[0] := by simp [byteAt]
  have h1 : byteAt r.toList 1 = r[1] := by simp [byteAt]
  rw [runRequest, decodeRequest_eq r.length_toList, h0, h1]
  rfl

/-- Settles O5, along the rows of `usedOffsets`: BEGIN_ENCAP, CONTINUE_ENCAP, the commands with a length,
and those without a field. -/
theorem unusedRequestBytesAreIgnored : Obligations.UnusedRequestBytesAreIgnored := by
  intro r r' s hlw hop hused
  rw [runRequest_eq, runRequest_eq, ← hop]
  rw [usedOffsets] at hused
  split at hused
  case isTrue hbegin =>
    have hfield {a n : Nat} (hsub : List.range' a n ⊆ List.range' 1 11) :
        slice r.toList a n = slice r'.toList a n :=
      slice_congr fun k hk => hused k (List.mem_append_left _ (hsub hk))
    have hfid : r[1] = r'[1] := by simpa using hused 1 (by simp)
    have hlabel : slice r.toList 12 s.cfg.lw = slice r'.toList 12 s.cfg.lw :=
      slice_congr fun k hk => hused k (List.mem_append_right _ hk)
    rw [hbegin, hfid, hfield (a := 2) (by decide), hfield (a := 4) (by decide),
      hfield (a := 8) (by decide)]
    refine exec_beginEncap_label_congr ?_
    rw [labelOfField_ofNat_natBe (lwLegal_le_six hlw) r.length_toList,
      labelOfField_ofNat_natBe (lwLegal_le_six hlw) r'.length_toList, hlabel]
  split at hused
  case isTrue hcontinue =>
    rw [hcontinue, slice_congr (a := 8) (n := 4) hused]
    rfl
  split at hused
  case isTrue hlen =>
    rw [slice_congr (a := 4) (n := 4) hused, commandOf_len hlen]
  case isFalse hbegin hcontinue hlen =>
    rw [commandOf_noField hbegin hcontinue hlen]

/-! ### Halted (R94) -/

theorem exec_shutdown_halted (hr : s.run = .halted) :
    exec .shutdown s = .next (s.setRsp { code := .ok }) := by
  rw [exec, execShutdown, hr]
  rfl

/-- Settles O10. -/
theorem haltedRefusesAllButShutdown : Obligations.HaltedRefusesAllButShutdown :=
  fun _ _ hr => ⟨fun hi => exec_halted hr hi, exec_shutdown_halted hr⟩

/-! ### The codes a command responds (R97) -/

/-- Whatever is answered, the code is one of `cs`. -/
structure RespondsIn (cs : List RespCode) (r : Res) : Prop where
  code_mem : ∀ t, r = .next t → t.rsp.code ∈ cs

section
variable {cs cs' : List RespCode} {r r' : Res}

theorem RespondsIn.mono (h : RespondsIn cs r) (hsub : cs ⊆ cs') : RespondsIn cs' r :=
  ⟨fun t ht => hsub (h.code_mem t ht)⟩

theorem RespondsIn.respond {ρ : Rsp16} (h : ρ.code ∈ cs) : RespondsIn cs (respond ρ s) :=
  ⟨by rintro t ⟨⟩; exact h⟩

theorem RespondsIn.raise {u : LogUnit} {c : RespCode} {f : Fid} (h : c ∈ cs) :
    RespondsIn cs (raise u c f s) :=
  .respond (ρ := { code := c, fid := f }) h

theorem RespondsIn.orStop {α : Type} {o : Option α} {e : Fault} {k : α → Res}
    (h : ∀ a, RespondsIn cs (k a)) : RespondsIn cs (orStop o e k) := by
  refine ⟨fun t ht => ?_⟩
  obtain ⟨a, -, hk⟩ := orStop_next ht
  exact (h a).code_mem t hk

theorem RespondsIn.ite {c : Prop} [Decidable c] (h : RespondsIn cs r) (h' : RespondsIn cs r') :
    RespondsIn cs (if c then r else r') := by
  split
  · exact h
  · exact h'

theorem RespondsIn.emitFragment {o : Option (List Byte)} {k : Nat → State → Res}
    (h : ∀ n u, RespondsIn cs (k n u)) : RespondsIn cs (emitFragment s o k) :=
  .orStop fun _ => .orStop fun _ => h _ _

end

/-! #### POOL, ENC and SEQ while Running -/

theorem execProvision_respondsIn (hr : s.run = .running) (size : Word32) :
    RespondsIn [.ok, .poolFull] (execProvision size s) := by
  rw [execProvision, whenRunning_running hr]
  exact .ite (.raise (by simp)) (.respond (by simp))

theorem execAcquire_respondsIn (hr : s.run = .running) :
    RespondsIn [.ok, .poolExhausted] (execAcquire s) := by
  rw [execAcquire, whenRunning_running hr]
  split
  · exact .raise (by simp)
  · exact .respond (by simp)

theorem execRelease_respondsIn (hr : s.run = .running) (h : Word32) :
    RespondsIn [.ok, .bufferInUse, .badHandle] (execRelease h s) := by
  rw [execRelease, whenRunning_running hr]
  split
  · exact .raise (by simp)
  · split
    · exact .raise (by simp)
    · exact .raise (by simp)
    · exact .respond (by simp)

theorem execNextLabel_respondsIn (hr : s.run = .running) : RespondsIn [.ok] (execNextLabel s) := by
  rw [execNextLabel, whenRunning_running hr]
  exact .respond (by simp)

theorem execBeginEncap_respondsIn (hr : s.run = .running) (fid : Fid) (proto : Proto)
    (len cap : Word32) (label : LabelField) :
    RespondsIn [.completed, .fragmented, .pduTooLarge, .outputTooSmall, .encBusy]
      (execBeginEncap fid proto len cap label s) := by
  rw [execBeginEncap, whenRunning_running hr]
  refine .ite (.raise (by simp)) (.ite (.raise (by simp)) (.ite ?single
    (.ite (.raise (by simp)) ?first)))
  case single => exact .orStop fun p => .emitFragment (fun n u => .respond (by simp))
  case first => exact .orStop fun p => .emitFragment (fun n u => .respond (by simp))

theorem execContinueEncap_respondsIn (hr : s.run = .running) (cap : Word32) :
    RespondsIn [.completed, .fragmented, .outputTooSmall, .encNoContext] (execContinueEncap cap s) := by
  rw [execContinueEncap, whenRunning_running hr]
  have habandon : RespondsIn [.completed, .fragmented, .outputTooSmall, .encNoContext]
      (abandonEncap s) := .raise (by simp)
  refine .ite (.raise (by simp)) (.ite habandon (.ite ?last (.ite habandon ?middle)))
  case last => exact .orStop fun p => .emitFragment (fun n u => .respond (by simp))
  case middle => exact .orStop fun p => .emitFragment (fun n u => .respond (by simp))

theorem execPad_respondsIn (hr : s.run = .running) {len : Word32} (hlen : ¬ Config.maxPdu < len.toNat) :
    RespondsIn [.ok] (execPad len s) := by
  rw [execPad, whenRunning_running hr, if_neg hlen]
  exact .orStop fun u => .respond (by simp)

theorem execShutdown_respondsIn (s : State) : RespondsIn [.ok] (execShutdown s) := by
  rw [execShutdown]
  split <;> exact .respond (by simp)

/-! #### DEC -/

/-- The codes DEC answers a fragment with, by its class; `none` is a datagram that does not decode. -/
def fragmentCodes : Option Frag → List RespCode
  | none => [.malformed]
  | some (.single _ _ _ _ _) => [.completed, .crcMismatch, .malformed]
  | some (.first _ _ _ _) => [.fragmented, .poolExhausted, .malformed]
  | some (.cont _ _ _) => [.fragmented, .malformed, .unknownContext]
  | some (.last _ _ _ _) => [.completed, .crcMismatch, .malformed, .unknownContext]

theorem openContext_respondsIn (cd : Codec) (f : Fid) (proto : Proto) (label : Label) (p : List Byte)
    (s : State) :
    RespondsIn [.fragmented, .poolExhausted, .malformed] (openContext cd f proto label p s) := by
  rw [openContext]
  split
  · exact .raise (by simp)
  · exact .orStop fun sl => .ite (.raise (by simp)) (.orStop fun u => .respond (by simp))

theorem appendPayload_respondsIn {cs : List RespCode} {k : State → Res} {cd : Codec} {f : Fid}
    {label : Label} {p : List Byte} (hmal : RespCode.malformed ∈ cs)
    (hunk : RespCode.unknownContext ∈ cs) (hk : ∀ u, RespondsIn cs (k u)) :
    RespondsIn cs (appendPayload cd f label p s k) :=
  .ite (.orStop fun _ => .ite (.raise hmal) (.orStop fun _ => hk _)) (.raise hunk)

theorem onSingle_respondsIn (cd : Codec) (f : Fid) (proto : Proto) (label : Label) (p : List Byte)
    (crc : Crc) (s : State) :
    RespondsIn [.completed, .crcMismatch, .malformed] (onSingle cd f proto label p crc s) :=
  .ite (.raise (by simp)) (.ite (.raise (by simp)) (.orStop fun _ => .respond (by simp)))

theorem onFirst_respondsIn (cd : Codec) (f : Fid) (proto : Proto) (label : Label) (p : List Byte)
    (s : State) : RespondsIn [.fragmented, .poolExhausted, .malformed] (onFirst cd f proto label p s) := by
  rw [onFirst]
  split
  · exact openContext_respondsIn ..
  · exact .orStop fun _ => openContext_respondsIn ..

theorem onCont_respondsIn (cd : Codec) (f : Fid) (label : Label) (p : List Byte) (s : State) :
    RespondsIn [.fragmented, .malformed, .unknownContext] (onCont cd f label p s) :=
  appendPayload_respondsIn (by simp) (by simp) fun _ => .respond (by simp)

theorem onLast_respondsIn (cd : Codec) (f : Fid) (label : Label) (p : List Byte) (crc : Crc) (s : State) :
    RespondsIn [.completed, .crcMismatch, .malformed, .unknownContext] (onLast cd f label p crc s) :=
  appendPayload_respondsIn (by simp) (by simp) fun _ => .ite (.raise (by simp)) (.respond (by simp))

theorem onFragment_respondsIn (cd : Codec) (fr : Option Frag) (s : State) :
    RespondsIn (fragmentCodes fr) (onFragment cd fr s) := by
  cases fr with
  | none => exact .raise (List.mem_singleton_self _)
  | some fr =>
    cases fr with
    | single f proto label p crc => exact onSingle_respondsIn ..
    | first f proto label p => exact onFirst_respondsIn ..
    | cont f label p => exact onCont_respondsIn ..
    | last f label p crc => exact onLast_respondsIn ..

/-! #### Every command -/

/-- The codes of R97 for a command that is not turned away as illegal. -/
def workingCodes (i : Instr) : List RespCode := (allowedCodes i).filter (· ≠ .illegalCommand)

theorem mem_workingCodes {c : RespCode} :
    c ∈ workingCodes i ↔ c ∈ allowedCodes i ∧ c ≠ .illegalCommand := by
  rw [workingCodes, List.mem_filter, decide_eq_true_eq]

theorem fragmentCodes_subset_decap (fr : Option Frag) (n : Word32) :
    fragmentCodes fr ⊆ workingCodes (.decap n) := by
  rcases fr with _ | (_ | _ | _ | _) <;> simp [fragmentCodes, workingCodes, allowedCodes]

/-- A row of the opcode table answers with the codes of its own class only. -/
theorem fragmentCodes_subset_row (hi : i.format = .frag) (fr : Option Frag) :
    fragmentCodes (fr.filter (carries i)) ⊆ workingCodes i := by
  cases i <;> cases hi
  all_goals
    rcases fr with _ | (_ | _ | _ | _) <;>
      simp [Option.filter, carries, fragmentCodes, workingCodes, allowedCodes]

theorem Arrives.fragmentCodes_subset {fr : Option Frag} (h : Arrives i s fr) :
    fragmentCodes fr ⊆ workingCodes i := by
  rcases h with ⟨n, rfl, -, -⟩ | ⟨hi, rfl⟩
  · exact fragmentCodes_subset_decap fr n
  · exact fragmentCodes_subset_row hi _

/-- The operands R95 names: a DECAP or PAD length above 65535. -/
def LengthOutOfRange (i : Instr) : Prop :=
  ∃ n : Word32, Config.maxPdu < n.toNat ∧ (i = .decap n ∨ i = .pad n)

theorem exec_fragment_respondsIn {fr : Option Frag} (hr : s.run = .running) (h : Arrives i s fr) :
    RespondsIn (workingCodes i) (exec i s) := by
  rw [exec_of_arrives hr h]
  exact (onFragment_respondsIn ..).mono h.fragmentCodes_subset

/-- While Running a command is turned away as illegal for a length out of range only (R94, R95, R97). -/
theorem exec_respondsIn (hr : s.run = .running) (hlen : ¬ LengthOutOfRange i) :
    RespondsIn (workingCodes i) (exec i s) := by
  cases i with
  | provision size => exact execProvision_respondsIn hr size
  | acquire => exact execAcquire_respondsIn hr
  | release h => exact execRelease_respondsIn hr h
  | nextLabel => exact execNextLabel_respondsIn hr
  | beginEncap fid proto len cap label => exact execBeginEncap_respondsIn hr fid proto len cap label
  | continueEncap cap => exact execContinueEncap_respondsIn hr cap
  | pad len => exact execPad_respondsIn hr fun h => hlen ⟨len, h, .inr rfl⟩
  | shutdown => exact execShutdown_respondsIn s
  | decap n =>
    have hn : n.toNat ≤ Config.maxPdu := Nat.le_of_not_lt fun h => hlen ⟨n, h, .inl rfl⟩
    exact exec_fragment_respondsIn hr (.inl ⟨n, rfl, hn, rfl⟩)
  | _ => exact exec_fragment_respondsIn hr (.inr ⟨rfl, rfl⟩)

theorem illegalCommand_mem_allowedCodes (hi : i ≠ .shutdown) : .illegalCommand ∈ allowedCodes i := by
  cases i with
  | shutdown => exact absurd rfl hi
  | _ => simp [allowedCodes]

theorem staleContext_not_mem_allowedCodes (i : Instr) : .staleContext ∉ allowedCodes i := by
  cases i <;> simp [allowedCodes]

/-- A DECAP or PAD length above 65535, Running or Halted (R94, R95). -/
theorem exec_lengthOutOfRange (h : LengthOutOfRange i) : exec i s = illegalCommand s := by
  obtain ⟨n, hn, hi⟩ := h
  cases hr : s.run with
  | halted => exact exec_halted hr (by rcases hi with rfl | rfl <;> exact Instr.noConfusion)
  | running =>
    rcases hi with rfl | rfl
    · exact exec_decap_tooLong hr hn
    · rw [exec, execPad, whenRunning_running hr, if_pos hn]

/-- A command answers with a code of its row, or is turned away. -/
theorem exec_code (h : exec i s = .next t) :
    t.rsp.code ∈ workingCodes i ∨
      (i ≠ .shutdown ∧ (s.run = .halted ∨ LengthOutOfRange i) ∧ t.rsp.code = .illegalCommand) := by
  by_cases hi : i = .shutdown
  · subst hi
    exact .inl ((execShutdown_respondsIn s).code_mem t h)
  by_cases hillegal : s.run = .halted ∨ LengthOutOfRange i
  · have hexec : exec i s = illegalCommand s := by
      rcases hillegal with hr | hlen
      · exact exec_halted hr hi
      · exact exec_lengthOutOfRange hlen
    rw [hexec] at h
    cases h
    exact .inr ⟨hi, hillegal, rfl⟩
  · obtain ⟨hr, hlen⟩ := not_or.mp hillegal
    have hrun : s.run = .running := by
      cases hs : s.run with
      | running => rfl
      | halted => exact absurd hs hr
    exact .inl ((exec_respondsIn hrun hlen).code_mem t h)

/-- Settles O11: a command turned away responds ILLEGAL_COMMAND, any other a code of its row. -/
theorem responseCodesByCommand : Obligations.ResponseCodesByCommand := by
  intro i s t h
  have hmem : t.rsp.code ∈ allowedCodes i := by
    rcases exec_code h with hwork | ⟨hi, -, hcode⟩
    · exact (mem_workingCodes.mp hwork).1
    · exact hcode ▸ illegalCommand_mem_allowedCodes hi
  exact ⟨hmem, fun hstale => staleContext_not_mem_allowedCodes i (hstale ▸ hmem)⟩

/-! ### Illegal requests (R95) -/

theorem commandOf_reserved {op : Byte} (h : op ∉ opcodes) (fid : Fid) (proto : Proto)
    (len cap : Word32) (label : LabelField) :
    commandOf op fid proto len cap label = .error (.reservedOpcode op) := by
  simp only [opcodes, List.mem_cons, List.not_mem_nil, or_false, not_or] at h
  obtain ⟨h01, h02, h03, h10, h11, h12, h13, h20, h30⟩ := h
  simp only [commandOf, h01, h02, h03, h10, h11, h12, h13, h20, h30, if_false]

/-- Settles O9: reserved opcodes, lengths out of range, and by the codes of R97 nothing else. -/
theorem reservedAndOutOfRangeRequests : Obligations.ReservedAndOutOfRangeRequests := by
  refine ⟨fun r s hop => ?_, fun n s hn => ⟨?_, ?_⟩, fun i s t hr h hcode => ?_⟩
  · rw [runRequest_eq, commandOf_reserved hop]
    rfl
  · exact exec_lengthOutOfRange ⟨n, hn, .inl rfl⟩
  · exact exec_lengthOutOfRange ⟨n, hn, .inr rfl⟩
  · rcases exec_code h with hwork | ⟨-, hhalted | hlen, -⟩
    · exact absurd hcode (mem_workingCodes.mp hwork).2
    · rw [hr] at hhalted
      cases hhalted
    · exact hlen

end Sys2Proof.Machine

/-! SUPPORT. Who owns a slot (R42, R141): how each write changes the slot table, what `pool_take` takes, and the
edges an owner moves along. -/

namespace Sys2Proof.Machine

variable {s t : State} {i : Instr} {f : Fid} {p : List Byte} {label : Label} {sl : Slot}

/-! ### Slot entries after a write -/

theorem State.slotEntry_of_slot {k : Nat} (h : s.slots[k]? = some sl) :
    s.slotEntry k = some (sl.size, sl.owner) := by
  rw [State.slotEntry, h, Option.map_some]

theorem State.slotEntry_eq_some {k size : Nat} {o : Owner} (h : s.slotEntry k = some (size, o)) :
    ∃ sl, s.slots[k]? = some sl ∧ sl.size = size ∧ sl.owner = o := by
  obtain ⟨sl, hsl, he⟩ := Option.map_eq_some_iff.mp h
  cases he
  exact ⟨sl, hsl, rfl, rfl⟩

theorem State.slotEntry_setOwner (s : State) (k j : Nat) (o : Owner) :
    (s.setOwner k o).slotEntry j = (s.slotEntry j).map fun e => if k = j then (e.1, o) else e := by
  rw [State.slotEntry, State.slots_setOwner, State.slotEntry, Option.map_map, Option.map_map]
  congr 1
  funext sl
  by_cases hj : k = j <;> simp [hj]

theorem State.slotEntry_setOwner_same {k size : Nat} {o : Owner} (h : s.slotEntry k = some (size, o))
    (o' : Owner) : (s.setOwner k o').slotEntry k = some (size, o') := by
  simp [State.slotEntry_setOwner, h]

theorem State.slotEntry_setOwner_ne (s : State) {j k : Nat} (hj : j ≠ k) (o : Owner) :
    (s.setOwner k o).slotEntry j = s.slotEntry j := by
  simp [State.slotEntry_setOwner, hj.symm]

/-- A write to a memory changes no size and no owner. -/
@[simp] theorem State.slotEntry_setMem (s : State) (sp : Space) (m : Memory) (j : Nat) :
    (s.setMem sp m).slotEntry j = s.slotEntry j := by
  cases sp with
  | slot k =>
    by_cases hj : k = j
    · subst hj
      cases hk : s.slots[k]? <;> simp [State.slotEntry, hk]
    · exact State.slotEntry_congr (s.slots_modifySlot_ne _ hj)
  | _ => rfl

theorem State.slotEntry_bindSlot (s : State) (f : Fid) (k a : Nat) (p : List Byte) (x : Target) (j : Nat) :
    (s.bindSlot f k a p x).slotEntry j = (s.setOwner k (.ctx f)).slotEntry j :=
  State.slotEntry_setMem ..

/-- The slot of an open context is that context's (R44). -/
theorem PoolInv.slotEntry_context (h : PoolInv s) (hst : (s.tgt f).state = .reassembling) :
    ∃ size, s.slotEntry (s.tgt f).slot = some (size, .ctx f) := by
  obtain ⟨sl, hsl, hok⟩ := h.context f hst
  exact ⟨sl.size, by rw [State.slotEntry_of_slot hsl, hok.owned]⟩

theorem sameSlotTable_setOwner (s : State) (k : Nat) (o : Owner) : SameSlotTable [k] s (s.setOwner k o) :=
  ⟨by simp [State.poolCount], fun _ hj => s.slotEntry_setOwner_ne (fun hjk => hj (by simp [hjk])) o⟩

/-! ### `pool_take` (R143) -/

/-- The least Free slot is the one taken. -/
theorem State.LeastFree.poolTake {k : Nat} (h : s.LeastFree k sl) (o : Owner) :
    s.poolTake o = some (k, s.setOwner k o) := by
  obtain ⟨hsl, hfree, hleast⟩ := h
  cases ht : s.poolTake o with
  | none => exact absurd hfree (State.poolTake_none.mp ht sl (List.mem_of_getElem? hsl))
  | some r =>
    obtain ⟨k', u⟩ := r
    obtain ⟨rfl, sl', hsl', hfree', hleast'⟩ := State.poolTake_leastFree ht
    obtain rfl : k' = k := by
      rcases Nat.lt_trichotomy k' k with hlt | heq | hgt
      · exact absurd hfree' (hleast k' sl' hlt hsl')
      · exact heq
      · exact absurd hfree (hleast' k sl hgt hsl)
    rfl

/-! ### The edges of R141 -/

/-- Every slot of `s` stays, keeps its size, and its owner moves along an edge that command `i` takes. -/
def OwnersMove (i : Instr) (s t : State) : Prop :=
  ∀ k size o, s.slotEntry k = some (size, o) → ∃ o', t.slotEntry k = some (size, o') ∧ ownerEdge i o o'

theorem ownerEdge_refl (i : Instr) (o : Owner) : ownerEdge i o o := by
  cases o with
  | free => trivial
  | ctx f => exact rfl
  | held => trivial

theorem OwnersMove.of_slotEntry_eq (h : ∀ k, t.slotEntry k = s.slotEntry k) : OwnersMove i s t :=
  fun k _ o hk => ⟨o, (h k).trans hk, ownerEdge_refl i o⟩

/-- One slot, whose owner was `o`, given the owner `o'`. -/
theorem OwnersMove.of_setOwner {k size : Nat} {o o' : Owner} (hk : s.slotEntry k = some (size, o))
    (h : ∀ j, t.slotEntry j = (s.setOwner k o').slotEntry j) (hedge : ownerEdge i o o') :
    OwnersMove i s t := by
  intro j size' a hj
  by_cases hjk : j = k
  · subst hjk
    rw [hk] at hj; cases hj
    exact ⟨o', (h j).trans (State.slotEntry_setOwner_same hk o'), hedge⟩
  · exact ⟨a, by rw [h j, s.slotEntry_setOwner_ne hjk, hj], ownerEdge_refl i a⟩

/-- The slot of an open context given up, to Free or to the host (R198, R209). -/
theorem OwnersMove.of_contextClosed {o' : Owner} (hp : PoolInv s) (hst : (s.tgt f).state = .reassembling)
    (h : ∀ j, t.slotEntry j = (s.setOwner (s.tgt f).slot o').slotEntry j)
    (hedge : ownerEdge i (.ctx f) o') : OwnersMove i s t := by
  obtain ⟨size, hk⟩ := hp.slotEntry_context hst
  exact .of_setOwner hk h hedge

/-! ### Which commands bring a fragment -/

theorem Arrives.decCommand {fr : Option Frag} (h : Arrives i s fr) : DecCommand i := by
  rcases h with ⟨n, rfl, -, -⟩ | ⟨hi, -⟩
  · exact .inl ⟨n, rfl⟩
  · exact .inr hi

/-- A fragment comes with DECAP or with a row of its own class. -/
theorem Arrives.decap_or_carries {fr : Frag} (h : Arrives i s (some fr)) :
    (∃ n, i = .decap n) ∨ carries i fr = true := by
  rcases h with ⟨n, rfl, -, -⟩ | ⟨-, hfr⟩
  · exact .inl ⟨n, rfl⟩
  · exact .inr (Option.filter_eq_some_iff.mp hfr).2

/-- A FIRST fragment may take a Free slot (R141). -/
theorem Arrives.ownerEdge_first {proto : Proto} (h : Arrives i s (some (.first f proto label p))) (g : Fid) :
    ownerEdge i .free (.ctx g) := by
  rcases h.decap_or_carries with hn | hc
  · exact .inl hn
  · cases i with
    | fragFirst lt len body => exact .inr ⟨lt, len, body, rfl⟩
    | _ => cases hc

/-- A LAST fragment may hand its context's slot to the host (R141). -/
theorem Arrives.ownerEdge_last {crc : Crc} (h : Arrives i s (some (.last f label p crc))) (g : Fid) :
    ownerEdge i (.ctx g) .held := by
  rcases h.decap_or_carries with hn | hc
  · exact .inl hn
  · cases i with
    | fragLast lt len body => exact .inr ⟨lt, len, body, rfl⟩
    | _ => cases hc

/-! ### Every effect moves owners along the edges -/

/-- A FIRST fragment leaves the slot table, or gives its target a slot that was Free. -/
theorem OpenEffect.slotEntry {proto : Proto} (h : OpenEffect s f proto label p t) :
    (∀ j, t.slotEntry j = s.slotEntry j) ∨
      ∃ k size, s.slotEntry k = some (size, .free) ∧
        ∀ j, t.slotEntry j = (s.setOwner k (.ctx f)).slotEntry j := by
  cases h with
  | refused c hc => exact .inl fun _ => rfl
  | opened k sl hl hfit =>
    obtain ⟨hsl, hfree, -⟩ := hl
    exact .inr ⟨k, sl.size, by rw [State.slotEntry_of_slot hsl, hfree],
      State.slotEntry_bindSlot s f k 0 p (openedTarget s.codec k proto label p (s.tgt f))⟩

/-- A restarted context gives up its slot, and takes the least Free one, which may be the same (R203). -/
theorem OpenEffect.ownersMove_restart {proto : Proto} (h : OpenEffect (s.restart f) f proto label p t)
    (ha : Arrives i s (some (.first f proto label p))) (hp : PoolInv s)
    (hst : (s.tgt f).state = .reassembling) : OwnersMove i s t := by
  have hdiscard : OwnersMove i s (s.restart f) :=
    .of_contextClosed hp hst (fun _ => rfl) (.inl ha.decCommand)
  rcases h.slotEntry with hsame | ⟨k, size, hfree, htaken⟩
  · exact fun j size o hj => hsame j ▸ hdiscard j size o hj
  · intro j size' o hj
    by_cases hjk : j = k
    · subst hjk
      obtain ⟨a, ha', -⟩ := hdiscard j size' o hj
      rw [hfree] at ha'; cases ha'
      refine ⟨.ctx f, (htaken j).trans (State.slotEntry_setOwner_same hfree _), ?_⟩
      by_cases hown : j = (s.tgt f).slot
      · obtain ⟨size'', hctx⟩ := hp.slotEntry_context hst
        rw [← hown, hj] at hctx; cases hctx
        exact ownerEdge_refl i _
      · have hkept : (s.restart f).slotEntry j = s.slotEntry j := s.slotEntry_setOwner_ne hown .free
        rw [hkept, hj] at hfree; cases hfree
        exact ha.ownerEdge_first f
    · rw [htaken j, State.slotEntry_setOwner_ne _ hjk]
      exact hdiscard j size' o hj

/-- The slot table after a payload was appended and the slot it stands in given up. -/
theorem State.slotEntry_append_setOwner (s : State) (f : Fid) (p : List Byte) (o : Owner) (j : Nat) :
    ((s.append f p).setOwner ((s.append f p).tgt f).slot o).slotEntry j =
      (s.setOwner (s.tgt f).slot o).slotEntry j := by
  have happend : (s.append f p).slotEntry j = s.slotEntry j := s.slotEntry_setMem ..
  rw [State.append_tgt_same, State.slotEntry_setOwner, State.slotEntry_setOwner, happend]
  rfl

theorem FragEffect.ownersMove {fr : Option Frag} (h : FragEffect s fr t) (ha : Arrives i s fr)
    (hp : PoolInv s) : OwnersMove i s t := by
  have hfreed : ∀ f, ownerEdge i (.ctx f) .free := fun _ => .inl ha.decCommand
  cases h with
  | refused | single => exact .of_slotEntry_eq fun _ => rfl
  | first f proto label p _ hst hopen =>
    rcases hopen.slotEntry with hsame | ⟨k, size, hfree, htaken⟩
    · exact .of_slotEntry_eq hsame
    · exact .of_setOwner hfree htaken (ha.ownerEdge_first f)
  | restart f proto label p sl _ hst hsl hopen => exact hopen.ownersMove_restart ha hp hst
  | overrun fr f label p sl hfr hx hover =>
    exact .of_contextClosed hp hx.reassembling (fun _ => rfl) (hfreed f)
  | cont f label p sl hx hfit => exact .of_slotEntry_eq fun _ => s.slotEntry_setMem ..
  | mismatch f label p crc sl hx hfit hcrc =>
    exact .of_contextClosed hp hx.reassembling (s.slotEntry_append_setOwner f p .free) (hfreed f)
  | last f label p crc sl hx hfit hcrc =>
    exact .of_contextClosed hp hx.reassembling (s.slotEntry_append_setOwner f p .held)
      (ha.ownerEdge_last f)

theorem PoolEffect.ownersMove (h : PoolEffect s i t) : OwnersMove i s t := by
  cases h with
  | provision size hn =>
    intro k size' o hk
    obtain ⟨sl, hsl, -⟩ := State.slotEntry_eq_some hk
    obtain ⟨hlt, -⟩ := List.getElem?_eq_some_iff.mp hsl
    exact ⟨o, (State.slotEntry_congr (s.slots_addSlot_ne _ hlt.ne)).trans hk, ownerEdge_refl _ o⟩
  | acquire k sl hl =>
    obtain ⟨hsl, hfree, -⟩ := hl
    exact .of_setOwner (State.slotEntry_of_slot hsl) (fun _ => rfl) (by rw [hfree]; exact rfl)
  | release hd sl hsl ho =>
    exact .of_setOwner (State.slotEntry_of_slot hsl) (fun _ => rfl) (by rw [ho]; exact .inl ⟨hd, rfl⟩)

/-- SHUTDOWN frees every slot, whoever owns it (R262). -/
theorem OwnersMove.halt (s : State) (c : RespCode) : OwnersMove .shutdown s (s.halt c) := by
  intro k size o hk
  refine ⟨.free, by rw [(haltedBy_halt s c).slots, hk]; rfl, ?_⟩
  cases o with
  | free => trivial
  | ctx f => exact .inr rfl
  | held => exact .inr rfl

theorem Effect.ownersMove (h : Effect s i t) (hp : PoolInv s) : OwnersMove i s t := by
  cases h with
  | illegal | refused | shutdownHalted => exact .of_slotEntry_eq fun _ => rfl
  | pool _ hr he => exact he.ownersMove
  | egress _ hr he => exact .of_slotEntry_eq fun _ => State.slotEntry_congr (by rw [he.sameDec.1])
  | fragment fr _ hr ha hf => exact hf.ownersMove ha hp
  | shutdown hr hi => exact hi ▸ OwnersMove.halt s .ok

/-- Settles O25, by the effects a command can have. -/
theorem ownersMoveAlongTheEdges : Obligations.OwnersMoveAlongTheEdges := by
  intro i s t h hexec k sl hsl
  obtain ⟨o, hk, hedge⟩ := (exec_effect hexec).ownersMove h.pool k sl.size sl.owner
    (State.slotEntry_of_slot hsl)
  obtain ⟨sl', hsl', hsize, rfl⟩ := State.slotEntry_eq_some hk
  exact ⟨sl', hsl', hsize, hedge⟩

end Sys2Proof.Machine

/-! SUPPORT. What the commands of POOL and a FIRST fragment on an idle target answer, case by case, and how many
slots contexts own. -/

namespace Sys2Proof.Machine

variable {s : State} {i : Instr} {f : Fid} {p : List Byte} {label : Label} {sl : Slot}

/-! ### ACQUIRE and RELEASE -/

theorem exec_acquire (hr : s.run = .running) {k : Nat} (hl : s.LeastFree k sl) :
    exec .acquire s = .next ((s.setOwner k .held).setRsp
      { code := .ok, handle := BitVec.ofNat 16 k, len := BitVec.ofNat 32 sl.size }) := by
  have hsize : (s.setOwner k .held).memSize (.slot k) = sl.size := by
    rw [State.setOwner_memSize, State.memSize_slot hl.1]
  simp only [exec, execAcquire, whenRunning_running hr, hl.poolTake, hsize, respond_eq]

theorem exec_acquire_exhausted (hr : s.run = .running) (h : ∀ sl ∈ s.slots, sl.owner ≠ .free) :
    exec .acquire s = .next (s.raised .pool .poolExhausted 0) := by
  simp only [exec, execAcquire, whenRunning_running hr, State.poolTake_none.mpr h]
  rfl

theorem exec_release_noSlot (hr : s.run = .running) {hd : Word32} (h : s.poolCount ≤ hd.toNat) :
    exec (.release hd) s = .next (s.raised .pool .badHandle 0) := by
  simp only [exec, execRelease, whenRunning_running hr, List.getElem?_eq_none h]
  rfl

theorem exec_release_context (hr : s.run = .running) {hd : Word32} (hsl : s.slots[hd.toNat]? = some sl)
    (ho : sl.owner = .ctx f) : exec (.release hd) s = .next (s.raised .pool .bufferInUse f) := by
  simp only [exec, execRelease, whenRunning_running hr, hsl, ho]
  rfl

theorem exec_release_free (hr : s.run = .running) {hd : Word32} (hsl : s.slots[hd.toNat]? = some sl)
    (ho : sl.owner = .free) : exec (.release hd) s = .next (s.raised .pool .badHandle 0) := by
  simp only [exec, execRelease, whenRunning_running hr, hsl, ho]
  rfl

/-- Giving a slot another owner touches nothing besides the slot table. -/
theorem sameBesides_setOwner (s : State) (k : Nat) (o : Owner) (r : Rsp16) :
    SameBesides [] s ((s.setOwner k o).setRsp r) :=
  ⟨⟨rfl, rfl, rfl, rfl, rfl, rfl⟩, ⟨rfl, rfl⟩, (List.append_nil _).symm⟩

/-- Settles O23. -/
theorem acquireTakesTheLeastFreeSlot : Obligations.AcquireTakesTheLeastFreeSlot := by
  intro s hr
  refine ⟨exec_acquire_exhausted hr, fun k sl hl => ⟨_, exec_acquire hr hl, rfl, ?_,
    sameSlotTable_setOwner s k .held, sameBesides_setOwner s k .held _, fun _ _ => rfl, rfl,
    s.setOwner_readByte k .held⟩⟩
  exact State.slotEntry_setOwner_same (State.slotEntry_of_slot hl.1) .held

/-- Settles O24, by the owner of the slot the handle names. -/
theorem releaseFreesHeldSlotsOnly : Obligations.ReleaseFreesHeldSlotsOnly := by
  intro hd s hr
  refine ⟨exec_release_noSlot hr, fun sl hsl => ⟨fun f ho => exec_release_context hr hsl ho,
    fun ho => exec_release_free hr hsl ho, fun ho => ⟨_, exec_release_held hr hsl ho, rfl, ?_,
      sameSlotTable_setOwner s hd.toNat .free, sameBesides_setOwner s hd.toNat .free _, fun _ _ => rfl, rfl,
      s.setOwner_readByte hd.toNat .free⟩⟩⟩
  exact State.slotEntry_setOwner_same (State.slotEntry_of_slot hsl) .free

/-! ### A FIRST fragment on an idle target (R200, R204 to R206) -/

theorem exec_first_idle {proto : Proto} (hr : s.run = .running)
    (ha : Arrives i s (some (.first f proto label p))) (hst : (s.tgt f).state = .awaitingFirst) :
    exec i s = openContext s.codec f proto label p s := by
  simp only [exec_of_arrives hr ha, onFragment, onFirst, hst]

theorem openContext_exhausted {cd : Codec} {proto : Proto} (h : ∀ sl ∈ s.slots, sl.owner ≠ .free) :
    openContext cd f proto label p s = .next (s.raised .dec .poolExhausted f) := by
  rw [openContext, State.poolTake_none.mpr h]
  rfl

/-- The slot `pool_take` took, in the state after. -/
theorem State.LeastFree.slots_taken {k : Nat} (h : s.LeastFree k sl) (o : Owner) :
    (s.setOwner k o).slots[k]? = some { sl with owner := o } := by
  simp [h.1]

/-- The slot is given back as it was (R206). -/
theorem openContext_malformed {cd : Codec} {proto : Proto} {k : Nat} (hl : s.LeastFree k sl)
    (hp : gatherBound sl < p.length) :
    openContext cd f proto label p s = .next (s.raised .dec .malformed f) := by
  have hback : (s.setOwner k (.ctx f)).poolFree k = s := by
    rw [State.poolFree, State.setOwner_setOwner, ← hl.2.1, State.setOwner_self hl.1]
  have hbound : gatherBound { sl with owner := .ctx f } < p.length := hp
  rw [openContext, hl.poolTake]
  dsimp only
  rw [hl.slots_taken, orStop_some, if_pos hbound, hback]
  rfl

theorem openContext_opens {cd : Codec} {proto : Proto} {k : Nat} (hl : s.LeastFree k sl)
    (hp : p.length ≤ gatherBound sl) :
    openContext cd f proto label p s =
      .next ((s.bindSlot f k 0 p (openedTarget cd k proto label p (s.tgt f))).setRsp
        { code := .fragmented, fid := f, len := BitVec.ofNat 32 p.length }) := by
  have hfit : 0 + p.length ≤ (s.setOwner k (.ctx f)).memSize (.slot k) := by
    rw [State.setOwner_memSize, State.memSize_slot hl.1, Nat.zero_add]
    exact hp.trans (Nat.min_le_left _ _)
  have hbound : ¬ gatherBound { sl with owner := .ctx f } < p.length := Nat.not_lt.mpr hp
  rw [openContext, hl.poolTake]
  dsimp only
  rw [hl.slots_taken, orStop_some, if_neg hbound, State.memWrite_eq hfit, orStop_some, State.setMem_tgt,
    State.setOwner_tgt, respond_eq]

/-- Binding a slot writes the payload there and nothing elsewhere (R67). -/
theorem sameBytesBut_bindSlot {k : Nat} (hsl : s.slots[k]? = some sl) (a : Nat) (x : Target) :
    SameBytesBut (.slot k) a p.length s (s.bindSlot f k a p x) := by
  have hk : ∀ j, Space.slot k = .slot j → j < (s.setOwner k (.ctx f)).slots.length := by
    rintro j ⟨⟩
    simpa using (List.getElem?_eq_some_iff.mp hsl).1
  intro sp b hb
  rw [State.setTgt_readByte, sameBytesBut_setMem_write _ _ _ _ hk sp b hb, State.setOwner_readByte]

theorem sameSlotTable_bindSlot (s : State) (f : Fid) (k a : Nat) (p : List Byte) (x : Target) :
    SameSlotTable [k] s (s.bindSlot f k a p x) := by
  obtain ⟨-, hother⟩ := sameSlotTable_setOwner s k (.ctx f)
  refine ⟨by simp [State.poolCount], fun j hj => ?_⟩
  rw [State.slotEntry_bindSlot, hother j hj]

/-- Settles O41. -/
theorem firstOpensAContext : Obligations.FirstOpensAContext := by
  intro i s f proto label p hr ha hst
  rw [exec_first_idle hr ha hst]
  refine ⟨openContext_exhausted, fun k sl hl => ⟨openContext_malformed hl, fun hp =>
    ⟨_, openContext_opens hl hp, rfl, ?_, ?_, ?_, ?_,
      sameSlotTable_bindSlot s f k 0 p (openedTarget s.codec k proto label p (s.tgt f)),
      ⟨⟨rfl, rfl, rfl, rfl, rfl, rfl⟩, ⟨rfl, rfl⟩, (List.append_nil _).symm⟩, rfl, ?_⟩⟩⟩
  · exact State.tgt_setTgt_same ..
  · have htaken := State.slotEntry_setOwner_same (State.slotEntry_of_slot hl.1) (.ctx f)
    exact (s.slotEntry_bindSlot f k 0 p (openedTarget s.codec k proto label p (s.tgt f)) k).trans htaken
  · have hread := State.readBytes_bindSlot (f := f) (p := p) hl.1 0
      (openedTarget s.codec k proto label p (s.tgt f))
    rw [Nat.zero_add] at hread
    exact hread
  · exact fun g hg => State.tgt_setTgt_ne _ _ fun e => hg (by simp [e])
  · exact sameBytesBut_bindSlot hl.1 0 (openedTarget s.codec k proto label p (s.tgt f))

/-! ### Counting (R147) -/

/-- Counting entries of a list is counting their places. -/
theorem countP_eq_card {α : Type} (l : List α) (q : α → Bool) :
    l.countP q = (Finset.univ.filter fun k : Fin l.length => q l[k] = true).card := by
  have hl : l = (List.finRange l.length).map (l[·]) := by simp
  calc l.countP q = ((List.finRange l.length).map (l[·])).countP q := congrArg _ hl
    _ = ((List.finRange l.length).filter fun k => q l[k]).length := by
        rw [List.countP_map, List.countP_eq_length_filter]
        rfl
    _ = ((List.finRange l.length).filter fun k => decide (q l[k] = true)).length := by simp
    _ = (Finset.univ.filter fun k : Fin l.length => q l[k] = true).card := rfl

/-- The fragment-ids of the open contexts. -/
def State.openFids (s : State) : Finset Fid :=
  Finset.univ.filter fun f => (s.tgt f).state = .reassembling

/-- The places of the slots that contexts own. -/
def State.ctxSlots (s : State) : Finset (Fin s.slots.length) :=
  Finset.univ.filter fun k => s.slots[k].owner.isCtx = true

theorem State.mem_openFids : f ∈ s.openFids ↔ (s.tgt f).state = .reassembling := by
  simp [State.openFids]

theorem State.mem_ctxSlots {k : Fin s.slots.length} :
    k ∈ s.ctxSlots ↔ ∃ f, s.slots[k].owner = .ctx f := by
  rw [State.ctxSlots, Finset.mem_filter_univ]
  cases s.slots[k].owner <;> simp [Owner.isCtx]

theorem State.countP_reassembling (s : State) :
    (s.tgts.toList.countP fun t => decide (t.state = .reassembling)) = s.openFids.card := by
  have hplace : ∀ f : Fid, f.toNat < s.tgts.toList.length := fun f => by
    rw [Vector.length_toList]; exact f.isLt
  rw [countP_eq_card]
  refine (Finset.card_bij (fun f _ => ⟨f.toNat, hplace f⟩) ?_ ?_ ?_).symm
  · intro f hf
    simpa [State.tgt] using State.mem_openFids.mp hf
  · intro f _ g _ heq
    exact BitVec.eq_of_toNat_eq (Fin.mk.inj heq)
  · intro k hk
    have hlt : k.val < 256 := k.isLt.trans_eq s.tgts.length_toList
    have hval : (BitVec.ofNat 8 k.val).toNat = k.val := Nat.mod_eq_of_lt hlt
    refine ⟨BitVec.ofNat 8 k.val, State.mem_openFids.mpr ?_, Fin.ext hval⟩
    simpa [State.tgt, Nat.mod_eq_of_lt hlt] using hk

/-- Each open context has its slot, and each slot of a context its target (R44). -/
theorem PoolInv.card_openFids (h : PoolInv s) : s.openFids.card = s.ctxSlots.card := by
  have hslot : ∀ f, f ∈ s.openFids → ∃ hlt : (s.tgt f).slot < s.slots.length,
      s.slots[(s.tgt f).slot].owner = .ctx f := by
    intro f hf
    obtain ⟨sl, hsl, hok⟩ := h.context f (State.mem_openFids.mp hf)
    obtain ⟨hlt, rfl⟩ := List.getElem?_eq_some_iff.mp hsl
    exact ⟨hlt, hok.owned⟩
  refine Finset.card_bij (fun f hf => ⟨(s.tgt f).slot, (hslot f hf).1⟩) ?_ ?_ ?_
  · intro f hf
    exact State.mem_ctxSlots.mpr ⟨f, (hslot f hf).2⟩
  · intro f hf g hg heq
    obtain ⟨_, hf'⟩ := h.slotEntry_context (State.mem_openFids.mp hf)
    obtain ⟨_, hg'⟩ := h.slotEntry_context (State.mem_openFids.mp hg)
    rw [← Fin.mk.inj heq, hf'] at hg'
    cases hg'
    rfl
  · intro k hk
    obtain ⟨f, hf⟩ := State.mem_ctxSlots.mp hk
    obtain ⟨hst, hbound⟩ := h.owner k s.slots[k] f (List.getElem?_eq_getElem k.isLt) hf
    exact ⟨f, State.mem_openFids.mpr hst, Fin.ext hbound⟩

/-- Settles O26. -/
theorem countingLaw : Obligations.CountingLaw := by
  intro s h
  refine ⟨?_, fun o => ?_, fun i f proto label p hr ha hall hst => ?_⟩
  · rw [s.countP_reassembling, h.pool.card_openFids]
    exact countP_eq_card s.slots fun sl => sl.owner.isCtx
  · simp [Option.isSome_iff_ne_none, State.poolTake_none]
  · rw [exec_first_idle hr ha hst]
    refine openContext_exhausted fun sl hsl hfree => ?_
    have hctx := hall sl hsl
    rw [hfree] at hctx; cases hctx

end Sys2Proof.Machine

/-! SUPPORT. ENC, command by command: the path BEGIN_ENCAP and CONTINUE_ENCAP take (R164, R167), and what they
answer with when the codec is in range. -/

namespace Sys2Proof.Machine

variable {s t : State} {fid : Fid} {proto : Proto} {len cap : Word32} {label : LabelField}

/-! ### Capacities (R17) -/

theorem le_singleCap_iff {l c maxFrag h : Nat} :
    (l : Int) ≤ singleCap c maxFrag h ↔ h + l + 4 ≤ effectiveCap c maxFrag := by
  simp only [singleCap, Config.crcLen]; omega

theorem firstCap_toNat (c maxFrag h : Nat) :
    (firstCap c maxFrag h).toNat = effectiveCap c maxFrag - h := by
  simp only [firstCap]; omega

theorem le_contCap_iff {r c maxFrag h : Nat} :
    (r : Int) ≤ contCap c maxFrag h ↔ h + r + 4 ≤ effectiveCap c maxFrag := by
  simp only [contCap, Config.crcLen]; omega

theorem contCap_toNat (c maxFrag h : Nat) :
    (contCap c maxFrag h).toNat = effectiveCap c maxFrag - h - 4 := by
  simp only [contCap, Config.crcLen]; omega

/-! ### The path a command takes -/

theorem exec_beginEncap_busy (hr : s.run = .running) (h : s.enc.state = .fragmenting) :
    exec (.beginEncap fid proto len cap label) s = .next (s.raised .enc .encBusy s.enc.fid) := by
  rw [exec, execBeginEncap, whenRunning_running hr, beginEncapWith, if_pos h]
  rfl

theorem exec_beginEncap_tooLarge (hr : s.run = .running) (hidle : s.enc.state = .idle)
    (hlen : Config.maxPdu < len.toNat) :
    exec (.beginEncap fid proto len cap label) s = .next (s.raised .enc .pduTooLarge fid) := by
  have hne : s.enc.state ≠ .fragmenting := by rw [hidle]; decide
  rw [exec, execBeginEncap, whenRunning_running hr, beginEncapWith, if_neg hne, if_pos hlen]
  rfl

theorem exec_beginEncap_single (hr : s.run = .running) (hidle : s.enc.state = .idle)
    (hmax : len.toNat ≤ Config.maxPdu)
    (hcap : s.codec.hSingle + len.toNat + 4 ≤ effectiveCap cap.toNat s.codec.maxFrag) :
    exec (.beginEncap fid proto len cap label) s =
      beginSingle s.codec fid proto (labelOfField s.cfg.lw label) len.toNat s := by
  have hne : s.enc.state ≠ .fragmenting := by rw [hidle]; decide
  rw [exec, execBeginEncap, whenRunning_running hr, beginEncapWith, if_neg hne, if_neg (by omega),
    if_pos (by omega)]

theorem exec_beginEncap_tooSmall (hr : s.run = .running) (hidle : s.enc.state = .idle)
    (hmax : len.toNat ≤ Config.maxPdu)
    (hcap : effectiveCap cap.toNat s.codec.maxFrag < s.codec.hSingle + len.toNat + 4)
    (hnone : len.toNat = 0 ∨ effectiveCap cap.toNat s.codec.maxFrag < s.codec.hFirst + 1) :
    exec (.beginEncap fid proto len cap label) s = .next (s.raised .enc .outputTooSmall fid) := by
  have hne : s.enc.state ≠ .fragmenting := by rw [hidle]; decide
  rw [exec, execBeginEncap, whenRunning_running hr, beginEncapWith, if_neg hne, if_neg (by omega),
    if_neg (by omega), if_pos hnone]
  rfl

theorem exec_continueEncap_idle (hr : s.run = .running) (hidle : s.enc.state = .idle) :
    exec (.continueEncap cap) s = .next (s.raised .enc .encNoContext 0) := by
  rw [exec, execContinueEncap, whenRunning_running hr, continueEncapWith, if_pos hidle]
  rfl

/-- OUTPUT_TOO_SMALL in the middle of a sequence: no room for the header and the trailer, or for a byte
that remains (R172). -/
def NoFragmentFits (s : State) (ce : Nat) : Prop :=
  ce < s.codec.hCont + 4 ∨ ce = s.codec.hCont + 4 ∧ s.enc.offset < s.enc.total

theorem exec_continueEncap_abandon (hr : s.run = .running) (hfrag : s.enc.state = .fragmenting)
    (hnone : NoFragmentFits s (effectiveCap cap.toNat s.codec.maxFrag)) :
    exec (.continueEncap cap) s = .next (s.closeEnc.raised .enc .outputTooSmall s.enc.fid) := by
  have hne : s.enc.state ≠ .idle := by rw [hfrag]; decide
  rw [exec, execContinueEncap, whenRunning_running hr, continueEncapWith, if_neg hne]
  rcases hnone with hlt | ⟨heq, hleft⟩
  · rw [if_pos hlt]; rfl
  · rw [if_neg (by omega), if_neg (by omega), if_pos (by omega)]; rfl

theorem exec_continueEncap_last (hr : s.run = .running) (hfrag : s.enc.state = .fragmenting)
    (hcap : s.codec.hCont + (s.enc.total - s.enc.offset) + 4 ≤ effectiveCap cap.toNat s.codec.maxFrag) :
    exec (.continueEncap cap) s = continueLast s.codec (s.enc.total - s.enc.offset) s := by
  have hne : s.enc.state ≠ .idle := by rw [hfrag]; decide
  rw [exec, execContinueEncap, whenRunning_running hr, continueEncapWith, if_neg hne, if_neg (by omega),
    if_pos (by omega)]

theorem exec_continueEncap_middle (hr : s.run = .running) (hfrag : s.enc.state = .fragmenting)
    (hone : s.codec.hCont + 5 ≤ effectiveCap cap.toNat s.codec.maxFrag)
    (hcap : effectiveCap cap.toNat s.codec.maxFrag < s.codec.hCont + (s.enc.total - s.enc.offset) + 4) :
    exec (.continueEncap cap) s =
      continueMiddle s.codec (effectiveCap cap.toNat s.codec.maxFrag - s.codec.hCont - 4) s := by
  have hne : s.enc.state ≠ .idle := by rw [hfrag]; decide
  rw [exec, execContinueEncap, whenRunning_running hr, continueEncapWith, if_neg hne, if_neg (by omega),
    if_neg (by omega), if_neg (by omega)]

/-! ### BEGIN_ENCAP with a codec in range -/

/-- What BEGIN_ENCAP answers with for a PDU of `l` bytes at effective capacity `ce` (R164): refused with
no effect, the PDU in one SINGLE fragment, or a context opened with a FIRST fragment. -/
inductive BeginAnswer (s : State) (fid : Fid) (proto : Proto) (label : Label) (l ce : Nat) (t : State) :
    Prop
  | refused (c : RespCode) (f : Fid) : c = .encBusy ∨ c = .pduTooLarge ∨ c = .outputTooSmall →
      s.enc.state = .fragmenting ∨ Config.maxPdu < l ∨ l = 0 ∨ ce < s.codec.hFirst + 1 →
      t = s.raised .enc c f → BeginAnswer s fid proto label l ce t
  | single (frag : List Byte) : s.codec.hSingle + l + 4 ≤ ce → l ≤ Config.maxPdu →
      s.codec.encodeSingle fid proto label (s.readBytes .pduIn 0 l)
          (s.codec.crcFinal (s.codec.crcUpdate s.codec.crcInit (s.readBytes .pduIn 0 l))) = some frag →
      frag.length = s.codec.hSingle + l + 4 → EmittedFragment frag s t → t.enc = s.enc →
      t.rsp = { code := .completed, fid := fid, len := BitVec.ofNat 32 frag.length } →
      BeginAnswer s fid proto label l ce t
  | first (frag : List Byte) (k : Nat) : ce < s.codec.hSingle + l + 4 → l ≤ Config.maxPdu →
      1 ≤ k → k = min l (ce - s.codec.hFirst) →
      s.codec.encodeFirst fid proto label (s.readBytes .pduIn 0 k) = some frag →
      frag.length = s.codec.hFirst + k → EmittedFragment frag s t →
      t.enc = s.enc.opened s.codec fid proto label l (s.readBytes .pduIn 0 k) →
      t.rsp = { code := .fragmented, fid := fid, len := BitVec.ofNat 32 frag.length } →
      BeginAnswer s fid proto label l ce t

theorem exec_beginEncap_answer (hr : s.run = .running) (hlw : Cfg.lwLegal s.cfg.lw)
    (hc : CodecSound s.cfg.lw s.codec) (fid : Fid) (proto : Proto) (len cap : Word32) (label : LabelField) :
    ∃ t, exec (.beginEncap fid proto len cap label) s = .next t ∧
      BeginAnswer s fid proto (labelOfField s.cfg.lw label) len.toNat
        (effectiveCap cap.toNat s.codec.maxFrag) t := by
  have hlabel := labelOfField_length (lwLegal_le_six hlw) label
  have hce := effectiveCap_le cap.toNat s.codec.maxFrag
  cases hidle : s.enc.state with
  | fragmenting =>
    exact ⟨_, exec_beginEncap_busy hr hidle, .refused _ _ (.inl rfl) (.inl hidle) rfl⟩
  | idle =>
    by_cases hmax : len.toNat ≤ Config.maxPdu
    swap
    · have hlarge : Config.maxPdu < len.toNat := Nat.lt_of_not_le hmax
      exact ⟨_, exec_beginEncap_tooLarge hr hidle hlarge,
        .refused _ _ (.inr (.inl rfl)) (.inr (.inl hlarge)) rfl⟩
    by_cases hsingle : s.codec.hSingle + len.toNat + 4 ≤ effectiveCap cap.toNat s.codec.maxFrag
    · obtain ⟨frag, henc, hlen, -, hexec⟩ := beginSingle_eq hc fid proto hlabel hmax (hsingle.trans hce)
      exact ⟨_, (exec_beginEncap_single hr hidle hmax hsingle).trans hexec,
        .single frag hsingle hmax henc hlen (emittedFragment_emit s s.enc _) rfl rfl⟩
    · have hband := Nat.lt_of_not_le hsingle
      by_cases hnone : len.toNat = 0 ∨ effectiveCap cap.toNat s.codec.maxFrag < s.codec.hFirst + 1
      · exact ⟨_, exec_beginEncap_tooSmall hr hidle hmax hband hnone,
          .refused _ _ (.inr (.inr rfl)) (.inr (.inr hnone)) rfl⟩
      · obtain ⟨frag, henc, hlen, -, hexec⟩ := beginFirst_eq hc fid proto hlabel len.toNat
          (k := min len.toNat (effectiveCap cap.toNat s.codec.maxFrag - s.codec.hFirst))
          (by omega) (by omega)
        have hpath := exec_beginEncap_first (fid := fid) (proto := proto) (label := label) hr hidle
          (by omega) hmax (lt_of_not_ge (mt le_singleCap_iff.mp hsingle))
          (by simp only [firstCap]; omega)
        rw [firstCap_toNat] at hpath
        exact ⟨_, hpath.trans hexec,
          .first frag _ hband hmax (by omega) rfl henc hlen (emittedFragment_emit s _ _) rfl rfl⟩

/-! ### CONTINUE_ENCAP with a codec in range -/

/-- A PDU is being fragmented, by a codec in range (R24 to R28). -/
structure Sending (s : State) : Prop where
  running : s.run = .running
  codec : CodecSound s.cfg.lw s.codec
  fragmenting : s.enc.state = .fragmenting
  label_length : s.enc.label.length = s.cfg.lw
  offset_le : s.enc.offset ≤ s.enc.total
  total_le : s.enc.total ≤ Config.maxPdu

theorem EncInv.sending (h : EncInv s) (hr : s.run = .running) (hc : CodecSound s.cfg.lw s.codec)
    (hfrag : s.enc.state = .fragmenting) : Sending s where
  running := hr
  codec := hc
  fragmenting := hfrag
  label_length := h.label_length
  offset_le := (h.fragmenting hfrag).2
  total_le := h.total_le

/-- The bytes of the PDU that ENC has not sent yet (R26, R168). -/
def State.unsent (s : State) : List Byte :=
  s.readBytes .pduIn s.enc.offset (s.enc.total - s.enc.offset)

/-- What CONTINUE_ENCAP answers with in an open context at effective capacity `ce` (R167): the context
closed for want of room, the rest of the PDU in a LAST fragment, or the next bytes in a CONT fragment. -/
inductive ContinueAnswer (s : State) (ce : Nat) (t : State) : Prop
  | abandon : NoFragmentFits s ce → t = s.closeEnc.raised .enc .outputTooSmall s.enc.fid →
      ContinueAnswer s ce t
  | last (frag : List Byte) : s.codec.hCont + (s.enc.total - s.enc.offset) + 4 ≤ ce →
      s.codec.encodeLast s.enc.fid s.enc.label s.unsent
          (s.codec.crcFinal (s.codec.crcUpdate s.enc.crc s.unsent)) = some frag →
      frag.length = s.codec.hCont + (s.enc.total - s.enc.offset) + 4 → EmittedFragment frag s t →
      t.enc = s.enc.close s.epoch s.cfg.lw →
      t.rsp = { code := .completed, fid := s.enc.fid, len := BitVec.ofNat 32 frag.length } →
      ContinueAnswer s ce t
  | middle (frag : List Byte) (k : Nat) : 1 ≤ k → k < s.enc.total - s.enc.offset →
      ce = s.codec.hCont + k + 4 →
      s.codec.encodeCont s.enc.fid s.enc.label (s.readBytes .pduIn s.enc.offset k) = some frag →
      frag.length = s.codec.hCont + k → EmittedFragment frag s t →
      t.enc = s.enc.advanced s.codec (s.readBytes .pduIn s.enc.offset k) →
      t.rsp = { code := .fragmented, fid := s.enc.fid, len := BitVec.ofNat 32 frag.length } →
      ContinueAnswer s ce t

theorem Sending.exec_continueEncap (h : Sending s) (cap : Word32) :
    ∃ t, exec (.continueEncap cap) s = .next t ∧
      ContinueAnswer s (effectiveCap cap.toNat s.codec.maxFrag) t := by
  have hce := effectiveCap_le cap.toNat s.codec.maxFrag
  have hoffset := h.offset_le
  have htotal := h.total_le
  by_cases hlast : s.codec.hCont + (s.enc.total - s.enc.offset) + 4 ≤
      effectiveCap cap.toNat s.codec.maxFrag
  · obtain ⟨frag, henc, hlen, -, hexec⟩ := continueLast_eq h.codec h.label_length
      (r := s.enc.total - s.enc.offset) (by omega) (hlast.trans hce)
    exact ⟨_, (exec_continueEncap_last h.running h.fragmenting hlast).trans hexec,
      .last frag hlast henc hlen (emittedFragment_emit s _ _) rfl rfl⟩
  · by_cases hone : s.codec.hCont + 5 ≤ effectiveCap cap.toNat s.codec.maxFrag
    · obtain ⟨frag, henc, hlen, -, hexec⟩ := continueMiddle_eq h.codec h.label_length
        (k := effectiveCap cap.toNat s.codec.maxFrag - s.codec.hCont - 4) (by omega) (by omega)
      exact ⟨_, (exec_continueEncap_middle h.running h.fragmenting hone (by omega)).trans hexec,
        .middle frag _ (by omega) (by omega) (by omega) henc hlen (emittedFragment_emit s _ _) rfl rfl⟩
    · have hnone : NoFragmentFits s (effectiveCap cap.toNat s.codec.maxFrag) := by
        rw [NoFragmentFits]; omega
      exact ⟨_, exec_continueEncap_abandon h.running h.fragmenting hnone, .abandon hnone rfl⟩

/-- The context a FIRST fragment opens (R166). -/
theorem EmittedFragment.sending_opened {frag p : List Byte} {label : Label} {l : Nat}
    (h : EmittedFragment frag s t) (hr : s.run = .running) (hc : CodecSound s.cfg.lw s.codec)
    (hlabel : label.length = s.cfg.lw) (hp : p.length ≤ l) (hl : l ≤ Config.maxPdu)
    (henc : t.enc = s.enc.opened s.codec fid proto label l p) : Sending t where
  running := h.control.run.trans hr
  codec := by rw [h.control.cfg, State.codec_congr h.control.cfg]; exact hc
  fragmenting := by rw [henc]; rfl
  label_length := by rw [henc, h.control.cfg]; exact hlabel
  offset_le := by rw [henc]; exact hp
  total_le := by rw [henc]; exact hl

/-- A CONT fragment leaves the context open (R170). -/
theorem Sending.advanced {frag p : List Byte} (hs : Sending s) (h : EmittedFragment frag s t)
    (hp : p.length ≤ s.enc.total - s.enc.offset) (henc : t.enc = s.enc.advanced s.codec p) : Sending t where
  running := h.control.run.trans hs.running
  codec := by rw [h.control.cfg, State.codec_congr h.control.cfg]; exact hs.codec
  fragmenting := by rw [henc]; exact hs.fragmenting
  label_length := by rw [henc, h.control.cfg]; exact hs.label_length
  offset_le := by
    have hoffset := hs.offset_le
    rw [henc, Enc.advanced]
    dsimp only
    omega
  total_le := by rw [henc]; exact hs.total_le

/-- Emitting a fragment leaves PDU_IN alone (R45). -/
theorem EmittedFragment.readBytes_pduIn {frag : List Byte} (h : EmittedFragment frag s t) (a n : Nat) :
    t.readBytes .pduIn a n = s.readBytes .pduIn a n :=
  State.readBytes_congr fun j _ => h.bytes .pduIn (a + j) (by rintro ⟨⟨⟩, -⟩)

end Sys2Proof.Machine

/-! SUPPORT. ENC's commands: the fragments emitted and their bounds (R163 to R172), how often CONTINUE_ENCAP runs
(R174, R340), and the statements about them. -/

namespace Sys2Proof.Machine

variable {s t : State} {fid : Fid} {proto : Proto} {len cap : Word32} {label : LabelField}

/-! ### Single commands -/

/-- Settles O28. -/
theorem beginEncapEmitsSingle : Obligations.BeginEncapEmitsSingle := by
  intro fid proto len cap label s hr hlw hcodec hidle hfits p
  have hcap := le_singleCap_iff.mp hfits
  have hce := effectiveCap_le cap.toNat s.codec.maxFrag
  have hmax : len.toNat ≤ Config.maxPdu := by
    have hstaging : s.codec.maxFrag ≤ Config.maxPdu := (hcodec.sound hlw).maxFrag_le
    omega
  obtain ⟨frag, henc, hlen, -, hpath⟩ := beginSingle_eq (hcodec.sound hlw) fid proto
    (labelOfField_length (lwLegal_le_six hlw) label) hmax (hcap.trans hce)
  exact ⟨_, frag, (exec_beginEncap_single hr hidle hmax hcap).trans hpath, henc, hlen,
    emittedFragment_emit s s.enc _, rfl, rfl⟩

/-- Settles O31. -/
theorem continueEncapEmitsLast : Obligations.ContinueEncapEmitsLast := by
  intro cap s hr hlw hcodec hinv hfrag hfits p
  have hcap := le_contCap_iff.mp hfits
  obtain ⟨t, hexec, hanswer⟩ := (hinv.sending hr (hcodec.sound hlw) hfrag).exec_continueEncap cap
  cases hanswer with
  | abandon hnone => rw [NoFragmentFits] at hnone; omega
  | last frag _ hencode hlen hemit henc hrsp =>
    exact ⟨t, frag, hexec, hencode, hlen, hemit, by rw [henc]; rfl, by rw [henc]; rfl, hrsp⟩
  | middle frag k _ _ hce => omega

/-- Settles O32. -/
theorem continueEncapEmitsCont : Obligations.ContinueEncapEmitsCont := by
  intro cap s hr hlw hcodec hinv hfrag hone hmore
  have hcap := mt le_contCap_iff.mpr (not_le_of_gt hmore)
  have hroom : s.codec.hCont + 1 + 4 ≤ effectiveCap cap.toNat s.codec.maxFrag :=
    le_contCap_iff.mp hone
  obtain ⟨t, hexec, hanswer⟩ := (hinv.sending hr (hcodec.sound hlw) hfrag).exec_continueEncap cap
  cases hanswer with
  | abandon hnone => rw [NoFragmentFits] at hnone; omega
  | last frag hlast => exact absurd hlast hcap
  | middle frag k _ _ hce hencode hlen hemit henc hrsp =>
    obtain rfl : k = (contCap cap.toNat s.codec.maxFrag s.codec.hCont).toNat := by
      rw [contCap_toNat]; omega
    refine ⟨t, frag, hexec, hencode, hlen, hemit, ?_, hrsp⟩
    rw [henc, Enc.advanced, State.readBytes_length]

/-- Settles O33. -/
theorem continueEncapRefusals : Obligations.ContinueEncapRefusals := by
  intro cap s hr
  refine ⟨exec_continueEncap_idle hr, fun hfrag hcap => ?_⟩
  have hnone : NoFragmentFits s (effectiveCap cap.toNat s.codec.maxFrag) := by
    simp only [contCap, Config.crcLen] at hcap
    rw [NoFragmentFits]; omega
  exact ⟨_, exec_continueEncap_abandon hr hfrag hnone, rfl, rfl, rfl, rfl, rfl, ⟨rfl, rfl, rfl, rfl, rfl, rfl⟩,
    ⟨fun _ _ => rfl, ⟨rfl, fun _ _ => rfl⟩, rfl⟩, fun sp a => by simp [State.raised]⟩

/-! ### OUTPUT_TOO_SMALL (R172) -/

theorem beginSingle_respondsIn (cd : Codec) (fid : Fid) (proto : Proto) (label : Label) (l : Nat) (s : State) :
    RespondsIn [.completed] (beginSingle cd fid proto label l s) :=
  .orStop fun _ => .emitFragment fun _ _ => .respond (by simp)

theorem beginFirst_respondsIn (cd : Codec) (fid : Fid) (proto : Proto) (label : Label) (l k : Nat) (s : State) :
    RespondsIn [.fragmented] (beginFirst cd fid proto label l k s) :=
  .orStop fun _ => .emitFragment fun _ _ => .respond (by simp)

theorem continueLast_respondsIn (cd : Codec) (r : Nat) (s : State) :
    RespondsIn [.completed] (continueLast cd r s) :=
  .orStop fun _ => .emitFragment fun _ _ => .respond (by simp)

theorem continueMiddle_respondsIn (cd : Codec) (k : Nat) (s : State) :
    RespondsIn [.fragmented] (continueMiddle cd k s) :=
  .orStop fun _ => .emitFragment fun _ _ => .respond (by simp)

/-- The command answers OUTPUT_TOO_SMALL. -/
def IsTooSmall (r : Res) : Prop := ∃ t, r = .next t ∧ t.rsp.code = .outputTooSmall

theorem isTooSmall_next (t : State) : IsTooSmall (.next t) ↔ t.rsp.code = .outputTooSmall := by
  simp [IsTooSmall]

theorem RespondsIn.not_tooSmall {c : RespCode} {r : Res} (h : RespondsIn [c] r) (hc : c ≠ .outputTooSmall) :
    ¬ IsTooSmall r := by
  rintro ⟨t, rfl, hcode⟩
  exact hc ((List.mem_singleton.mp (h.code_mem t rfl)).symm.trans hcode)

theorem beginEncap_tooSmall_iff (hr : s.run = .running) :
    IsTooSmall (exec (.beginEncap fid proto len cap label) s) ↔
      s.enc.state = .idle ∧ len.toNat ≤ Config.maxPdu ∧
        singleCap cap.toNat s.codec.maxFrag s.codec.hSingle < (len.toNat : Int) ∧
        (len.toNat = 0 ∨ effectiveCap cap.toNat s.codec.maxFrag < s.codec.hFirst + 1) := by
  cases hidle : s.enc.state with
  | fragmenting =>
    rw [exec_beginEncap_busy hr hidle, isTooSmall_next]
    simp [State.raised]
  | idle =>
    by_cases hmax : len.toNat ≤ Config.maxPdu
    swap
    · rw [exec_beginEncap_tooLarge hr hidle (Nat.lt_of_not_le hmax), isTooSmall_next]
      simp [State.raised, hmax]
    by_cases hsingle : s.codec.hSingle + len.toNat + 4 ≤ effectiveCap cap.toNat s.codec.maxFrag
    · rw [exec_beginEncap_single hr hidle hmax hsingle]
      have hfits := le_singleCap_iff.mpr hsingle
      exact iff_of_false ((beginSingle_respondsIn ..).not_tooSmall (by decide))
        fun ⟨_, _, hlt, _⟩ => absurd hfits (not_le_of_gt hlt)
    have hlt := lt_of_not_ge (mt le_singleCap_iff.mp hsingle)
    by_cases hnone : len.toNat = 0 ∨ effectiveCap cap.toNat s.codec.maxFrag < s.codec.hFirst + 1
    · rw [exec_beginEncap_tooSmall hr hidle hmax (Nat.lt_of_not_le hsingle) hnone, isTooSmall_next]
      exact iff_of_true rfl ⟨rfl, hmax, hlt, hnone⟩
    · rw [exec_beginEncap_first hr hidle (by omega) hmax hlt (by simp only [firstCap]; omega)]
      exact iff_of_false ((beginFirst_respondsIn ..).not_tooSmall (by decide))
        fun ⟨_, _, _, h⟩ => hnone h

theorem continueEncap_tooSmall_iff (hr : s.run = .running) :
    IsTooSmall (exec (.continueEncap cap) s) ↔
      s.enc.state = .fragmenting ∧ NoFragmentFits s (effectiveCap cap.toNat s.codec.maxFrag) := by
  cases hfrag : s.enc.state with
  | idle =>
    rw [exec_continueEncap_idle hr hfrag, isTooSmall_next]
    simp [State.raised]
  | fragmenting =>
    by_cases hnone : NoFragmentFits s (effectiveCap cap.toNat s.codec.maxFrag)
    · rw [exec_continueEncap_abandon hr hfrag hnone, isTooSmall_next]
      exact iff_of_true rfl ⟨rfl, hnone⟩
    refine iff_of_false ?_ fun ⟨_, h⟩ => hnone h
    rw [NoFragmentFits] at hnone
    by_cases hlast : s.codec.hCont + (s.enc.total - s.enc.offset) + 4 ≤
        effectiveCap cap.toNat s.codec.maxFrag
    · rw [exec_continueEncap_last hr hfrag hlast]
      exact (continueLast_respondsIn ..).not_tooSmall (by decide)
    · rw [exec_continueEncap_middle hr hfrag (by omega) (by omega)]
      exact (continueMiddle_respondsIn ..).not_tooSmall (by decide)

/-- Settles O34. -/
theorem outputTooSmallExactly : Obligations.OutputTooSmallExactly := by
  intro s hr
  refine ⟨fun fid proto len cap label => beginEncap_tooSmall_iff hr,
    fun cap => continueEncap_tooSmall_iff hr, fun cap t hcap hexec hcode => ?_⟩
  obtain ⟨-, hnone⟩ := (continueEncap_tooSmall_iff hr).mp ⟨t, hexec, hcode⟩
  rw [NoFragmentFits] at hnone
  omega

/-- Settles O35, by the length of each fragment the two commands answer with. -/
theorem fragmentsKeepTheCapacity : Obligations.FragmentsKeepTheCapacity := by
  intro s hr hlw hcodec hinv
  have hsound := hcodec.sound hlw
  refine ⟨fun fid proto len cap label t hexec hok => ?_, fun cap t hexec hok => ?_⟩
  · obtain ⟨t', hexec', hanswer⟩ := exec_beginEncap_answer hr hlw hsound fid proto len cap label
    obtain rfl : t' = t := Host.Outcome.next.inj (hexec'.symm.trans hexec)
    cases hanswer with
    | refused c f hc _ ht =>
      subst ht
      rcases hc with rfl | rfl | rfl <;> cases hok
    | single frag hfits _ _ hlen hemit => rw [hemit.fragment]; omega
    | first frag k _ _ _ hk _ hlen hemit => rw [hemit.fragment]; omega
  · cases hst : s.enc.state with
    | idle =>
      rw [exec_continueEncap_idle hr hst] at hexec
      cases hexec; cases hok
    | fragmenting =>
      obtain ⟨t', hexec', hanswer⟩ := (hinv.sending hr hsound hst).exec_continueEncap cap
      obtain rfl : t' = t := Host.Outcome.next.inj (hexec'.symm.trans hexec)
      cases hanswer with
      | abandon _ ht => subst ht; cases hok
      | last frag hfits _ hlen hemit _ hrsp =>
        rw [hemit.fragment, hrsp]
        exact ⟨by omega, nofun⟩
      | middle frag k _ _ hce _ hlen hemit =>
        rw [hemit.fragment]
        omega

/-! ### The fragmentation of a PDU ends (R340) -/

theorem continueAll_cons {caps : List Word32} (h : exec (.continueEncap cap) s = .next t) :
    continueAll (cap :: caps) s = continueAll caps t := by
  rw [continueAll, h]

/-- With ENC Idle, CONTINUE_ENCAP is refused and ENC stays Idle. -/
theorem continueAll_idle (caps : List Word32) (hr : s.run = .running) (hidle : s.enc.state = .idle) :
    ∃ u, continueAll caps s = some u ∧ u.enc.state = .idle := by
  induction caps generalizing s with
  | nil => exact ⟨s, rfl, hidle⟩
  | cons cap caps ih =>
    rw [continueAll_cons (exec_continueEncap_idle hr hidle)]
    exact ih hr hidle

/-- Each CONTINUE_ENCAP closes the context or sends a byte at least, and one more command sends the
LAST fragment. -/
theorem Sending.continueAll_ends (h : Sending s) {caps : List Word32}
    (hcaps : s.enc.total - s.enc.offset < caps.length) :
    ∃ u, continueAll caps s = some u ∧ u.enc.state = .idle := by
  induction caps generalizing s with
  | nil => cases hcaps
  | cons cap caps ih =>
    obtain ⟨t, hexec, hanswer⟩ := h.exec_continueEncap cap
    rw [continueAll_cons hexec]
    cases hanswer with
    | abandon _ ht => subst ht; exact continueAll_idle caps h.running rfl
    | last frag _ _ _ hemit henc _ =>
      exact continueAll_idle caps (hemit.control.run.trans h.running) (by rw [henc]; rfl)
    | middle frag k hone hk _ _ _ hemit henc _ =>
      refine ih (h.advanced hemit (by rw [State.readBytes_length]; omega) henc) ?_
      rw [List.length_cons] at hcaps
      rw [henc, Enc.advanced, State.readBytes_length]
      dsimp only
      omega

/-- Settles O36: the FIRST fragment takes a byte, so that at most L - 1 remain for L commands. -/
theorem fragmentationEnds : Obligations.FragmentationEnds := by
  intro fid proto len cap label s hr hlw hcodec hidle
  have hsound := hcodec.sound hlw
  have hlabel := labelOfField_length (lwLegal_le_six hlw) label
  obtain ⟨t, hexec, hanswer⟩ := exec_beginEncap_answer hr hlw hsound fid proto len cap label
  refine ⟨t, hexec, fun caps hcaps => ?_⟩
  cases hanswer with
  | refused c f _ _ ht => subst ht; exact continueAll_idle caps hr hidle
  | single frag _ _ _ _ hemit henc _ =>
    exact continueAll_idle caps (hemit.control.run.trans hr) (by rw [henc]; exact hidle)
  | first frag k _ hmax hone hk _ _ hemit henc _ =>
    have hlen : (s.readBytes .pduIn 0 k).length = k := State.readBytes_length ..
    refine (hemit.sending_opened hr hsound hlabel (by omega) hmax henc).continueAll_ends ?_
    rw [henc, Enc.opened, hlen]
    dsimp only
    omega

/-! ### One capacity throughout (R174, R326) -/

theorem continueToEnd_completed {fuel : Nat} (h : exec (.continueEncap cap) s = .next t)
    (hc : t.rsp.code = .completed) : continueToEnd cap (fuel + 1) s = some ([t.fragment], .completed) := by
  simp only [continueToEnd, h, hc]

theorem continueToEnd_fragmented {fuel : Nat} (h : exec (.continueEncap cap) s = .next t)
    (hc : t.rsp.code = .fragmented) :
    continueToEnd cap (fuel + 1) s =
      (continueToEnd cap fuel t).map fun (fs, code) => (t.fragment :: fs, code) := by
  simp only [continueToEnd, h, hc]

theorem continueToEnd_tooSmall {fuel : Nat} (h : exec (.continueEncap cap) s = .next t)
    (hc : t.rsp.code = .outputTooSmall) : continueToEnd cap (fuel + 1) s = some ([], .outputTooSmall) := by
  simp only [continueToEnd, h, hc]

theorem encapsulate_completed (h : exec (.beginEncap fid proto len cap label) s = .next t)
    (hc : t.rsp.code = .completed) :
    encapsulate fid proto len cap label s = some ([t.fragment], .completed) := by
  simp only [encapsulate, h, hc]

theorem encapsulate_fragmented (h : exec (.beginEncap fid proto len cap label) s = .next t)
    (hc : t.rsp.code = .fragmented) :
    encapsulate fid proto len cap label s =
      (continueToEnd cap (len.toNat + 1) t).map fun (fs, code) => (t.fragment :: fs, code) := by
  simp only [encapsulate, h, hc]

theorem encapsulate_refused {c : RespCode} {f : Fid}
    (hc : c = .encBusy ∨ c = .pduTooLarge ∨ c = .outputTooSmall)
    (h : exec (.beginEncap fid proto len cap label) s = .next (s.raised .enc c f)) :
    encapsulate fid proto len cap label s = some ([], c) := by
  rcases hc with rfl | rfl | rfl <;> simp [encapsulate, h, State.raised]

/-- A sequence that is sent whole, taken apart at its first fragment. -/
theorem map_cons_eq_completed {o : Option (List (List Byte) × RespCode)} {d : List Byte}
    {frags : List (List Byte)}
    (h : (o.map fun (fs, code) => (d :: fs, code)) = some (frags, .completed)) :
    ∃ fs, o = some (fs, .completed) ∧ frags = d :: fs := by
  obtain ⟨⟨fs, code⟩, ho, he⟩ := Option.map_eq_some_iff.mp h
  cases he
  exact ⟨fs, ho, rfl⟩

/-- From a capacity of H_CONT + 5 on, the rest of the PDU is sent whole (R172). -/
theorem Sending.continueToEnd_completes (h : Sending s) {fuel : Nat}
    (hcap : s.codec.hCont + 5 ≤ effectiveCap cap.toNat s.codec.maxFrag)
    (hfuel : s.enc.total - s.enc.offset < fuel) :
    ∃ fs, continueToEnd cap fuel s = some (fs, .completed) := by
  induction fuel generalizing s with
  | zero => cases hfuel
  | succ fuel ih =>
    obtain ⟨t, hexec, hanswer⟩ := h.exec_continueEncap cap
    cases hanswer with
    | abandon hnone => rw [NoFragmentFits] at hnone; omega
    | last frag _ _ _ _ _ hrsp => exact ⟨_, continueToEnd_completed hexec (by rw [hrsp])⟩
    | middle frag k hone hk _ _ _ hemit henc hrsp =>
      have hcodec : t.codec = s.codec := State.codec_congr hemit.control.cfg
      have hleft : t.enc.total - t.enc.offset < fuel := by
        rw [henc, Enc.advanced, State.readBytes_length]
        dsimp only
        omega
      obtain ⟨fs, hfs⟩ := ih (h.advanced hemit (by rw [State.readBytes_length]; omega) henc)
        (by rw [hcodec]; exact hcap) hleft
      exact ⟨t.fragment :: fs, by rw [continueToEnd_fragmented hexec (by rw [hrsp]), hfs]; rfl⟩

/-- The fragments that `r` bytes take at `c` bytes each, one at least (R174). -/
def fragmentsFor (r c : Nat) : Nat := max 1 ((r + c - 1) / c)

theorem fragmentsFor_of_le {r c : Nat} (h : r ≤ c) : fragmentsFor r c = 1 := by
  rw [fragmentsFor, max_eq_left]
  rcases Nat.eq_zero_or_pos c with rfl | hc
  · simp
  · exact Nat.le_of_lt_succ (Nat.div_lt_of_lt_mul (by omega))

theorem fragmentsFor_of_lt {r c : Nat} (hc : 1 ≤ c) (h : c < r) :
    fragmentsFor r c = 1 + fragmentsFor (r - c) c := by
  have hstep : (r + c - 1) / c = (r - c + c - 1) / c + 1 := by
    rw [← Nat.add_div_right _ hc]
    congr 1
    omega
  have hpos : 1 ≤ (r - c + c - 1) / c := (Nat.one_le_div_iff hc).mpr (by omega)
  rw [fragmentsFor, fragmentsFor, hstep, max_eq_right hpos, max_eq_right (by omega), Nat.add_comm]

/-- The fragments that carry the rest of a PDU that is sent whole. -/
theorem Sending.length_continueToEnd (h : Sending s) {fuel : Nat} {fs : List (List Byte)}
    (hfs : continueToEnd cap fuel s = some (fs, .completed)) :
    fs.length = fragmentsFor (s.enc.total - s.enc.offset)
      (effectiveCap cap.toNat s.codec.maxFrag - s.codec.hCont - 4) := by
  induction fuel generalizing s fs with
  | zero => cases hfs
  | succ fuel ih =>
    obtain ⟨t, hexec, hanswer⟩ := h.exec_continueEncap cap
    cases hanswer with
    | abandon _ ht =>
      subst ht
      rw [continueToEnd_tooSmall hexec rfl] at hfs
      cases hfs
    | last frag hlast _ _ _ _ hrsp =>
      rw [continueToEnd_completed hexec (by rw [hrsp])] at hfs
      cases hfs
      rw [fragmentsFor_of_le (by omega), List.length_singleton]
    | middle frag k hone hk hce _ _ hemit henc hrsp =>
      rw [continueToEnd_fragmented hexec (by rw [hrsp])] at hfs
      obtain ⟨fs', hfs', rfl⟩ := map_cons_eq_completed hfs
      have hcount := ih (h.advanced hemit (by rw [State.readBytes_length]; omega) henc) hfs'
      have hk' : effectiveCap cap.toNat s.codec.maxFrag - s.codec.hCont - 4 = k := by omega
      rw [State.codec_congr hemit.control.cfg, hk', henc, Enc.advanced, State.readBytes_length,
        Nat.sub_add_eq] at hcount
      rw [hk', fragmentsFor_of_lt hone hk, List.length_cons, hcount, Nat.add_comm]

/-- A capacity of LW + 8 leaves REFCODEC room for a byte in every fragment (R326). -/
theorem refcodec_capacity (h : s.cfg.codec = .refcodec) (hlw : Cfg.lwLegal s.cfg.lw) {c : Nat}
    (hc : s.cfg.lw + 8 ≤ c) :
    s.codec.hCont + 5 ≤ effectiveCap c s.codec.maxFrag ∧ s.codec.hFirst + 1 ≤ effectiveCap c s.codec.maxFrag := by
  have hsix := lwLegal_le_six hlw
  have hcodec : s.codec = refCodec s.cfg.lw := codecOf_refcodec h
  simp only [hcodec, refCodec, effectiveCap]
  omega

/-- Settles O37: the FIRST fragment takes min(L, firstCap) bytes, the others contCap each. -/
theorem fragmentCount : Obligations.FragmentCount := by
  intro fid proto len cap label s hr hlw hcodec hidle
  have hsound := hcodec.sound hlw
  have hlabel := labelOfField_length (lwLegal_le_six hlw) label
  obtain ⟨t, hexec, hanswer⟩ := exec_beginEncap_answer hr hlw hsound fid proto len cap label
  refine ⟨fun hcap hone hmax => ?_, fun frags hfrags => ?_⟩
  · have hroom : s.codec.hCont + 5 ≤ effectiveCap cap.toNat s.codec.maxFrag ∧
        s.codec.hFirst + 1 ≤ effectiveCap cap.toNat s.codec.maxFrag :=
      hcap.elim id fun ⟨href, hc⟩ => refcodec_capacity href hlw hc
    cases hanswer with
    | refused c f _ hwhy =>
      rw [hidle] at hwhy
      rcases hwhy with hbusy | hlen
      · cases hbusy
      · omega
    | single frag _ _ _ _ _ _ hrsp => exact ⟨_, encapsulate_completed hexec (by rw [hrsp])⟩
    | first frag k _ _ hk_pos hk _ _ hemit henc hrsp =>
      have hlen : (s.readBytes .pduIn 0 k).length = k := State.readBytes_length ..
      have hsend := hemit.sending_opened hr hsound hlabel (by omega) hmax henc
      have hleft : t.enc.total - t.enc.offset < len.toNat + 1 := by
        rw [henc, Enc.opened]
        dsimp only
        omega
      obtain ⟨fs, hfs⟩ := hsend.continueToEnd_completes (cap := cap)
        (by rw [State.codec_congr hemit.control.cfg]; exact hroom.1) hleft
      exact ⟨t.fragment :: fs, by rw [encapsulate_fragmented hexec (by rw [hrsp]), hfs]; rfl⟩
  · intro sc fc cc
    cases hanswer with
    | refused c f hc _ ht =>
      subst ht
      rw [encapsulate_refused hc hexec] at hfrags
      rcases hc with rfl | rfl | rfl <;> cases hfrags
    | single frag hfits _ _ _ _ _ hrsp =>
      rw [encapsulate_completed hexec (by rw [hrsp])] at hfrags
      cases hfrags
      exact ⟨fun _ => rfl, fun hlt => absurd (le_singleCap_iff.mpr hfits) (not_le_of_gt hlt)⟩
    | first frag k hband hmax hone hk _ _ hemit henc hrsp =>
      refine ⟨fun hfits => absurd (le_singleCap_iff.mp hfits) (Nat.not_le_of_lt hband), fun _ => ?_⟩
      have hlen : (s.readBytes .pduIn 0 k).length = k := State.readBytes_length ..
      have hsend := hemit.sending_opened hr hsound hlabel (by omega) hmax henc
      rw [encapsulate_fragmented hexec (by rw [hrsp])] at hfrags
      obtain ⟨fs, hfs, rfl⟩ := map_cons_eq_completed hfrags
      have hcount := hsend.length_continueToEnd hfs
      have hleft : len.toNat - k = len.toNat - (effectiveCap cap.toNat s.codec.maxFrag - s.codec.hFirst) := by
        omega
      rw [State.codec_congr hemit.control.cfg, henc, Enc.opened, hlen] at hcount
      dsimp only at hcount
      rw [List.length_cons, hcount, hleft, Nat.add_comm, fragmentsFor, ← firstCap_toNat, ← contCap_toNat]

end Sys2Proof.Machine

/-! SUPPORT. The round trip (R217): what the fragments of a PDU decode to (R175), and a receiver that gathers their
payloads in a slot. -/

namespace Sys2Proof.Machine

variable {s t u : State} {cd : Codec} {f fid : Fid} {proto : Proto} {label : Label} {acc : Crc}
  {p got rest : List Byte} {frs : List Frag}

/-! ### What the fragments of a PDU say (R175) -/

/-- The fragments that carry the bytes `rest` to the end of a PDU whose bytes before them have the CRC `acc`:
CONT fragments, and a LAST fragment with the CRC of the whole (R169, R170). -/
inductive Continues (cd : Codec) (fid : Fid) (label : Label) : Crc → List Byte → List Frag → Prop
  | last (acc : Crc) (p : List Byte) :
      Continues cd fid label acc p [.last fid label p (cd.crcFinal (cd.crcUpdate acc p))]
  | cont (acc : Crc) (p rest : List Byte) (frs : List Frag) :
      Continues cd fid label (cd.crcUpdate acc p) rest frs →
      Continues cd fid label acc (p ++ rest) (.cont fid label p :: frs)

/-- The fragments that carry a PDU: one SINGLE, or a FIRST and those that continue it (R165, R166). -/
inductive Fragments (cd : Codec) (fid : Fid) (proto : Proto) (label : Label) : List Byte → List Frag → Prop
  | single (pdu : List Byte) :
      Fragments cd fid proto label pdu
        [.single fid proto label pdu (cd.crcFinal (cd.crcUpdate cd.crcInit pdu))]
  | first (p rest : List Byte) (frs : List Frag) :
      Continues cd fid label (cd.crcUpdate cd.crcInit p) rest frs →
      Fragments cd fid proto label (p ++ rest) (.first fid proto label p :: frs)

/-- The datagram `d` decodes to `fr`, whatever padding follows it (R104). -/
def DecodesPadded (cd : Codec) (d : List Byte) (fr : Frag) : Prop := ∀ tail, cd.decode (d ++ tail) = some fr

/-- A codec in range meets the laws, REFCODEC among them (R100, R242). -/
theorem CodecOk.laws {cfg : Cfg} (h : CodecOk cfg) (hlw : Cfg.lwLegal cfg.lw) : CodecLaws cfg.lw (codecOf cfg) := by
  rcases h with href | hlaws
  · rw [codecOf_refcodec href]; exact refCodecMeetsTheLaws _ hlw
  · exact hlaws

section
variable {lw : Nat} {crc : Crc} {d : List Byte}

theorem CodecLaws.decodes_single (h : CodecLaws lw cd) (hl : label.length = lw)
    (hfit : cd.hSingle + p.length + 4 ≤ cd.maxFrag) (hd : cd.encodeSingle fid proto label p crc = some d) :
    DecodesPadded cd d (.single fid proto label p crc) := by
  obtain ⟨d', hd', -, hround⟩ := h.single fid proto label p crc hl hfit
  exact Option.some.inj (hd'.symm.trans hd) ▸ hround

theorem CodecLaws.decodes_first (h : CodecLaws lw cd) (hl : label.length = lw)
    (hfit : cd.hFirst + p.length ≤ cd.maxFrag) (hd : cd.encodeFirst fid proto label p = some d) :
    DecodesPadded cd d (.first fid proto label p) := by
  obtain ⟨d', hd', -, hround⟩ := h.first fid proto label p hl hfit
  exact Option.some.inj (hd'.symm.trans hd) ▸ hround

theorem CodecLaws.decodes_cont (h : CodecLaws lw cd) (hl : label.length = lw)
    (hfit : cd.hCont + p.length ≤ cd.maxFrag) (hd : cd.encodeCont fid label p = some d) :
    DecodesPadded cd d (.cont fid label p) := by
  obtain ⟨d', hd', -, hround⟩ := h.cont fid label p hl hfit
  exact Option.some.inj (hd'.symm.trans hd) ▸ hround

theorem CodecLaws.decodes_last (h : CodecLaws lw cd) (hl : label.length = lw)
    (hfit : cd.hCont + p.length + 4 ≤ cd.maxFrag) (hd : cd.encodeLast fid label p crc = some d) :
    DecodesPadded cd d (.last fid label p crc) := by
  obtain ⟨d', hd', -, hround⟩ := h.last fid label p crc hl hfit
  exact Option.some.inj (hd'.symm.trans hd) ▸ hround

end

/-- Sending `k` bytes leaves the bytes behind them unsent (R170). -/
theorem EmittedFragment.unsent_eq {frag : List Byte} {k : Nat} (h : EmittedFragment frag s t)
    (hk : k < s.enc.total - s.enc.offset)
    (henc : t.enc = s.enc.advanced s.codec (s.readBytes .pduIn s.enc.offset k)) :
    s.unsent = s.readBytes .pduIn s.enc.offset k ++ t.unsent := by
  have hsplit : s.enc.total - s.enc.offset = k + (s.enc.total - (s.enc.offset + k)) := by omega
  rw [State.unsent, State.unsent, h.readBytes_pduIn, henc, Enc.advanced, State.readBytes_length]
  dsimp only
  rw [← State.readBytes_append, ← hsplit]

/-- The fragments of CONTINUE_ENCAP, up to the one that completes the PDU, carry what was unsent. -/
theorem Sending.continueToEnd_fragments (h : Sending s) (hlaws : CodecLaws s.cfg.lw s.codec) {cap : Word32}
    {fuel : Nat} {fs : List (List Byte)} (hfs : continueToEnd cap fuel s = some (fs, .completed)) :
    ∃ frs, Continues s.codec s.enc.fid s.enc.label s.enc.crc s.unsent frs ∧
      List.Forall₂ (DecodesPadded s.codec) fs frs := by
  induction fuel generalizing s fs with
  | zero => cases hfs
  | succ fuel ih =>
    have hce := effectiveCap_le cap.toNat s.codec.maxFrag
    obtain ⟨t, hexec, hanswer⟩ := h.exec_continueEncap cap
    cases hanswer with
    | abandon _ ht =>
      subst ht
      rw [continueToEnd_tooSmall hexec rfl] at hfs
      cases hfs
    | last frag hfits hencode _ hemit _ hrsp =>
      rw [continueToEnd_completed hexec (by rw [hrsp]), hemit.fragment] at hfs
      cases hfs
      have hdecode := hlaws.decodes_last h.label_length
        (by rw [State.unsent, State.readBytes_length]; omega) hencode
      exact ⟨_, .last _ _, .cons hdecode .nil⟩
    | middle frag k hone hk hcap hencode _ hemit henc hrsp =>
      rw [continueToEnd_fragmented hexec (by rw [hrsp]), hemit.fragment] at hfs
      obtain ⟨fs', hfs', rfl⟩ := map_cons_eq_completed hfs
      have hcodec : t.codec = s.codec := State.codec_congr hemit.control.cfg
      have hdecode := hlaws.decodes_cont h.label_length (by rw [State.readBytes_length]; omega) hencode
      obtain ⟨frs, hcont, hall⟩ := ih
        (h.advanced hemit (by rw [State.readBytes_length]; omega) henc)
        (by rw [hcodec, hemit.control.cfg]; exact hlaws) hfs'
      rw [hcodec, henc] at hcont
      rw [hcodec] at hall
      rw [hemit.unsent_eq hk henc]
      exact ⟨_, .cont _ _ _ _ hcont, .cons hdecode hall⟩

/-- What ENC emits of a PDU that is sent whole are the fragments of that PDU (R175). -/
theorem encapsulate_fragments {len cap : Word32} {label : LabelField} {frags : List (List Byte)}
    (hr : s.run = .running) (hlw : Cfg.lwLegal s.cfg.lw) (hlaws : CodecLaws s.cfg.lw s.codec)
    (h : encapsulate fid proto len cap label s = some (frags, .completed)) :
    len.toNat ≤ Config.maxPdu ∧
      ∃ frs, Fragments s.codec fid proto (labelOfField s.cfg.lw label) (s.readBytes .pduIn 0 len.toNat) frs ∧
        List.Forall₂ (DecodesPadded s.codec) frags frs := by
  have hlabel := labelOfField_length (lwLegal_le_six hlw) label
  have hce := effectiveCap_le cap.toNat s.codec.maxFrag
  obtain ⟨t, hexec, hanswer⟩ := exec_beginEncap_answer hr hlw hlaws.sound fid proto len cap label
  cases hanswer with
  | refused c f hc _ ht =>
    subst ht
    rw [encapsulate_refused hc hexec] at h
    rcases hc with rfl | rfl | rfl <;> cases h
  | single frag hfits hmax hencode _ hemit _ hrsp =>
    rw [encapsulate_completed hexec (by rw [hrsp]), hemit.fragment] at h
    cases h
    have hdecode := hlaws.decodes_single hlabel (by rw [State.readBytes_length]; omega) hencode
    exact ⟨hmax, _, .single _, .cons hdecode .nil⟩
  | first frag k _ hmax hone hk hencode _ hemit henc hrsp =>
    rw [encapsulate_fragmented hexec (by rw [hrsp]), hemit.fragment] at h
    obtain ⟨fs, hfs, rfl⟩ := map_cons_eq_completed h
    have hlen : (s.readBytes .pduIn 0 k).length = k := State.readBytes_length ..
    have hcodec : t.codec = s.codec := State.codec_congr hemit.control.cfg
    have hdecode := hlaws.decodes_first hlabel (by omega) hencode
    have hsend := hemit.sending_opened hr hlaws.sound hlabel (by omega) hmax henc
    obtain ⟨frs, hcont, hall⟩ := hsend.continueToEnd_fragments
      (by rw [hcodec, hemit.control.cfg]; exact hlaws) hfs
    rw [hcodec] at hcont hall
    have hsplit : s.readBytes .pduIn 0 len.toNat = s.readBytes .pduIn 0 k ++ t.unsent := by
      have happend := s.readBytes_append .pduIn 0 k (len.toNat - k)
      rw [Nat.zero_add, Nat.add_sub_cancel' (by omega)] at happend
      rw [State.unsent, hemit.readBytes_pduIn, henc, Enc.opened, hlen, happend]
    rw [henc] at hcont
    rw [hsplit]
    exact ⟨hmax, _, .first _ _ _ hcont, .cons hdecode hall⟩

/-! ### A receiver that gathers a PDU (R200, R207, R208) -/

/-- Receiving is what DEC does with the fragment, the datagram in DGRAM_IN (R192). -/
theorem receive_decoded {d : List Byte} {fr : Frag} (hr : u.run = .running) (hd : d.length ≤ 65535)
    (hfr : u.codec.decode d = some fr) :
    ∃ m, receive d u = onFragment u.codec (some fr) (u.setMem .dgramIn m) := by
  have hn : (BitVec.ofNat 32 d.length).toNat = d.length := by
    rw [BitVec.toNat_ofNat, Nat.mod_eq_of_lt (by omega)]
  have hread : (u.setMem .dgramIn (u.dgramIn.write 0 d)).readBytes .dgramIn 0 d.length = d :=
    State.readBytes_setMem_same .dgramIn 0 d nofun
  have hrun : (u.setMem .dgramIn (u.dgramIn.write 0 d)).run = .running := hr
  refine ⟨u.dgramIn.write 0 d, ?_⟩
  rw [receive, exec_decap hrun (by rw [hn]; exact hd), hn, hread, State.setMem_codec, hfr]

theorem receiveAll_cons {d : List Byte} {ds : List (List Byte)} (h : receive d u = .next t) :
    receiveAll (d :: ds) u = (receiveAll ds t).map fun (codes, v) => (t.rsp.code :: codes, v) := by
  rw [receiveAll, h]

/-- The context of `f` holds the bytes `got`, of CRC `acc`, and has room for `room` bytes in all. -/
structure Gathers (u : State) (f : Fid) (proto : Proto) (label : Label) (acc : Crc) (got : List Byte)
    (room : Nat) : Prop where
  running : u.run = .running
  count : u.poolCount ≤ 65535
  context : ∃ sl, ContextOf u f label sl ∧ room ≤ gatherBound sl
  proto : (u.tgt f).proto = proto
  crc : (u.tgt f).crc = acc
  acc : (u.tgt f).acc = got.length
  bytes : u.readBytes (.slot (u.tgt f).slot) 0 got.length = got

/-- The response says that `pdu` was completed for `f`, with the protocol identifier and the label. -/
structure Completed (v : State) (f : Fid) (proto : Proto) (label : Label) (pdu : List Byte) : Prop where
  code : v.rsp.code = .completed
  bytes : v.completedPdu v.rsp = pdu
  len : v.rsp.len = BitVec.ofNat 32 pdu.length
  fid : v.rsp.fid = f
  proto : v.rsp.proto = proto
  label : v.rsp.label = fieldOfLabel label

theorem Gathers.setDgramIn {room : Nat} (h : Gathers u f proto label acc got room) (m : Memory) :
    Gathers (u.setMem .dgramIn m) f proto label acc got room where
  running := h.running
  count := h.count
  context := by
    obtain ⟨sl, hx, hroom⟩ := h.context
    exact ⟨sl, ⟨hx.reassembling, hx.label, hx.slot⟩, hroom⟩
  proto := h.proto
  crc := h.crc
  acc := h.acc
  bytes := (State.readBytes_setMem_ne (sp := .dgramIn) (sp' := .slot (u.tgt f).slot) m nofun 0 _).trans h.bytes

theorem appendPayload_fits {sl : Slot} (hx : ContextOf s f label sl)
    (hfit : (s.tgt f).acc + p.length ≤ gatherBound sl) (k : State → Res) :
    appendPayload s.codec f label p s k = k (s.append f p) := by
  have hlookup : s.lookup f label = true := decide_eq_true ⟨hx.reassembling, hx.label⟩
  have hwrite := State.memWrite_eq (s := s) (sp := .slot (s.tgt f).slot) (a := (s.tgt f).acc) (bs := p)
    (by rw [hx.memSize]; exact hfit.trans (Nat.min_le_left _ _))
  rw [appendPayload, if_pos hlookup]
  dsimp only
  rw [hx.slot, orStop_some, if_neg (Nat.not_lt.mpr hfit), hwrite, orStop_some, State.setMem_tgt]

/-- The bytes of a context after a payload was appended (R68, R207). -/
theorem ContextOf.readBytes_append {sl : Slot} (hx : ContextOf s f label sl) :
    (s.append f p).readBytes (.slot (s.tgt f).slot) 0 ((s.tgt f).acc + p.length) =
      s.readBytes (.slot (s.tgt f).slot) 0 (s.tgt f).acc ++ p := by
  have hk : ∀ j, Space.slot (s.tgt f).slot = .slot j → j < s.slots.length := by
    intro j hj
    cases hj
    exact (List.getElem?_eq_some_iff.mp hx.slot).1
  rw [State.setTgt_readBytes, State.readBytes_append, Nat.zero_add, State.readBytes_setMem_same _ _ _ hk,
    State.readBytes_setMem_below _ _ _ _ _ (Nat.zero_add _).le hk]

theorem Gathers.append {room : Nat} (h : Gathers u f proto label acc got room) (r : Rsp16) :
    Gathers ((u.append f p).setRsp r) f proto label (u.codec.crcUpdate acc p) (got ++ p) room := by
  obtain ⟨sl, hx, hroom⟩ := h.context
  have htgt : ((u.append f p).setRsp r).tgt f = appendedTarget u.codec p (u.tgt f) := by simp
  refine ⟨h.running, ?_, ⟨{ sl with data := (u.mem (.slot (u.tgt f).slot)).write (u.tgt f).acc p },
    ⟨?_, ?_, ?_⟩, hroom⟩, ?_, ?_, ?_, ?_⟩
  · simpa [State.poolCount] using h.count
  · rw [htgt]; exact hx.reassembling
  · rw [htgt]; exact hx.label
  · rw [htgt]; simp [appendedTarget, hx.slot]
  · rw [htgt]; exact h.proto
  · rw [htgt, appendedTarget, h.crc]
  · rw [htgt, appendedTarget, h.acc, List.length_append]
  · rw [htgt, State.setRsp_readBytes, appendedTarget, List.length_append, ← h.acc, hx.readBytes_append, h.acc,
      h.bytes]

/-- A CONT fragment that fits is gathered (R207). -/
theorem Gathers.onFragment_cont {room : Nat} (h : Gathers u f proto label acc got room)
    (hfit : got.length + p.length ≤ room) :
    ∃ t, onFragment u.codec (some (.cont f label p)) u = .next t ∧ t.rsp.code = .fragmented ∧
      t.codec = u.codec ∧ Gathers t f proto label (u.codec.crcUpdate acc p) (got ++ p) room := by
  obtain ⟨sl, hx, hroom⟩ := h.context
  have hbound : (u.tgt f).acc + p.length ≤ gatherBound sl := by rw [h.acc]; exact hfit.trans hroom
  exact ⟨_, appendPayload_fits hx hbound fun s' =>
    respond { code := .fragmented, fid := f, len := BitVec.ofNat 32 (s'.tgt f).acc } s', rfl, rfl, h.append _⟩

/-- A LAST fragment that fits and has the CRC of all the bytes completes the PDU (R208, R209). -/
theorem Gathers.onFragment_last {room : Nat} (h : Gathers u f proto label acc got room)
    (hfit : got.length + p.length ≤ room) :
    ∃ t, onFragment u.codec
        (some (.last f label p (u.codec.crcFinal (u.codec.crcUpdate acc p)))) u = .next t ∧
      Completed t f proto label (got ++ p) := by
  obtain ⟨sl, hx, hroom⟩ := h.context
  have hbound : (u.tgt f).acc + p.length ≤ gatherBound sl := by rw [h.acc]; exact hfit.trans hroom
  have hk : (u.tgt f).slot < 65535 := (List.getElem?_eq_some_iff.mp hx.slot).1.trans_le h.count
  have hlen : (BitVec.ofNat 32 ((u.tgt f).acc + p.length)).toNat = (u.tgt f).acc + p.length := by
    have hmax : (u.tgt f).acc + p.length ≤ 65535 := hbound.trans (Nat.min_le_right _ _)
    rw [BitVec.toNat_ofNat, Nat.mod_eq_of_lt (by omega)]
  have hcrc : ¬ u.codec.crcFinal ((u.append f p).tgt f).crc ≠
      u.codec.crcFinal (u.codec.crcUpdate acc p) := by
    rw [State.append_tgt_same, appendedTarget, h.crc]; simp
  have hexec : onFragment u.codec
      (some (.last f label p (u.codec.crcFinal (u.codec.crcUpdate acc p)))) u =
        completeContext f (u.append f p) := by
    rw [onFragment, onLast, appendPayload_fits hx hbound, if_neg hcrc]
  refine ⟨_, hexec, rfl, ?_, ?_, rfl, ?_, ?_⟩
  · simp only [State.completedPdu, State.setRsp_rsp, State.append_tgt_same, appendedTarget, handleSpace_ofNat hk,
      hlen, State.setRsp_readBytes, State.closeTgt_readBytes, State.setOwner_readBytes]
    rw [hx.readBytes_append, h.acc, h.bytes]
  · simp only [State.setRsp_rsp, State.append_tgt_same, appendedTarget, h.acc, List.length_append]
  · simp only [State.setRsp_rsp, State.append_tgt_same, appendedTarget, h.proto]
  · simp only [State.setRsp_rsp, State.append_tgt_same, appendedTarget, hx.label]

/-- A FIRST fragment on an idle target opens a context that has gathered its payload (R200, R204). -/
theorem onFragment_first_gathers {k : Nat} {sl : Slot} (hr : u.run = .running) (hn : u.poolCount ≤ 65535)
    (hidle : (u.tgt f).state = .awaitingFirst) (hl : u.LeastFree k sl) (hp : p.length ≤ gatherBound sl)
    (proto : Proto) (label : Label) :
    ∃ t, onFragment u.codec (some (.first f proto label p)) u = .next t ∧ t.rsp.code = .fragmented ∧
      t.codec = u.codec ∧
      Gathers t f proto label (u.codec.crcUpdate u.codec.crcInit p) p (gatherBound sl) := by
  have hexec : onFragment u.codec (some (.first f proto label p)) u =
      openContext u.codec f proto label p u := by
    simp only [onFragment, onFirst, hidle]
  refine ⟨_, hexec.trans (openContext_opens hl hp), rfl, rfl, ?_⟩
  have htgt : ∀ x r, ((u.bindSlot f k 0 p x).setRsp r).tgt f = x := fun x r => State.tgt_setTgt_same ..
  have hread := State.readBytes_bindSlot (f := f) (p := p) hl.1 0
    (openedTarget u.codec k proto label p (u.tgt f))
  rw [Nat.zero_add] at hread
  refine ⟨hr, ?_, ⟨⟨sl.size, .ctx f, sl.data.write 0 p⟩, ⟨?_, ?_, ?_⟩, le_rfl⟩, ?_, ?_, ?_, ?_⟩
  · simpa [State.poolCount] using hn
  · rw [htgt]; rfl
  · rw [htgt]; rfl
  · rw [htgt]; exact State.slots_bindSlot_same hl.1 0 (openedTarget u.codec k proto label p (u.tgt f))
  · rw [htgt]; rfl
  · rw [htgt]; rfl
  · rw [htgt]; rfl
  · rw [htgt]; exact hread

/-- A SINGLE fragment with the CRC of its payload completes it (R194). -/
theorem onFragment_single_completed (u : State) (f : Fid) (proto : Proto) (label : Label)
    (hp : p.length ≤ Config.maxPdu) :
    ∃ t, onFragment u.codec
        (some (.single f proto label p (u.codec.crcFinal (u.codec.crcUpdate u.codec.crcInit p)))) u = .next t ∧
      Completed t f proto label p := by
  have hwrite : u.memWrite .transient 0 p = some (u.setMem .transient ((u.mem .transient).write 0 p)) :=
    State.memWrite_eq (by rw [Nat.zero_add]; exact hp)
  have hlen : (BitVec.ofNat 32 p.length).toNat = p.length := by
    have hmax : p.length ≤ 65535 := hp
    rw [BitVec.toNat_ofNat, Nat.mod_eq_of_lt (by omega)]
  have hexec : onFragment u.codec
      (some (.single f proto label p (u.codec.crcFinal (u.codec.crcUpdate u.codec.crcInit p)))) u =
        .next ((u.completeTransient p).setRsp
          { code := .completed, fid := f, proto := proto, label := fieldOfLabel label,
            len := BitVec.ofNat 32 p.length, handle := Config.transientHandle }) := by
    rw [onFragment, onSingle, if_neg (Nat.not_lt.mpr hp), if_neg (not_not.mpr rfl), hwrite, orStop_some,
      respond_eq]
  refine ⟨_, hexec, rfl, ?_, rfl, rfl, rfl, rfl⟩
  simp only [State.completedPdu, State.setRsp_rsp, handleSpace_transientHandle, hlen, State.setRsp_readBytes,
    State.setTransientLen_readBytes]
  exact State.readBytes_setMem_same .transient 0 p nofun

/-! ### The whole sequence (R175, R217) -/

/-- The datagrams are answered FRAGMENTED but for the last, which completes `pdu`. -/
def Reassembles (ds : List (List Byte)) (u : State) (f : Fid) (proto : Proto) (label : Label)
    (pdu : List Byte) : Prop :=
  ∃ v, receiveAll ds u = some (List.replicate (ds.length - 1) .fragmented ++ [.completed], v) ∧
    Completed v f proto label pdu

theorem Reassembles.of_completed {d pdu : List Byte} (h : receive d u = .next t)
    (hc : Completed t f proto label pdu) : Reassembles [d] u f proto label pdu := by
  refine ⟨t, ?_, hc⟩
  rw [receiveAll_cons h, receiveAll, Option.map_some, hc.code]
  rfl

theorem Reassembles.cons {d pdu : List Byte} {ds : List (List Byte)} (h : receive d u = .next t)
    (hc : t.rsp.code = .fragmented) (hne : ds ≠ []) (ht : Reassembles ds t f proto label pdu) :
    Reassembles (d :: ds) u f proto label pdu := by
  obtain ⟨v, hv, hcompleted⟩ := ht
  obtain ⟨n, hn⟩ := Nat.exists_eq_succ_of_ne_zero (mt List.length_eq_zero_iff.mp hne)
  refine ⟨v, ?_, hcompleted⟩
  rw [receiveAll_cons h, hv, hc, Option.map_some, List.length_cons, hn]
  rfl

theorem Continues.ne_nil (h : Continues cd fid label acc rest frs) : frs ≠ [] := by
  cases h <;> exact List.cons_ne_nil _ _

/-- A datagram of at most DGRAM_IN's size that decodes to `fr` (R47). -/
def Brings (cd : Codec) (d : List Byte) (fr : Frag) : Prop := d.length ≤ 65535 ∧ cd.decode d = some fr

theorem Brings.ne_nil {ds : List (List Byte)} (h : List.Forall₂ (Brings cd) ds frs) (hne : frs ≠ []) :
    ds ≠ [] := by
  rintro rfl
  cases h
  exact hne rfl

/-- A receiver whose context has gathered the bytes before, with room for the rest, completes the PDU. -/
theorem Continues.reassembles {room : Nat} {ds : List (List Byte)} (hc : Continues cd f label acc rest frs)
    (hds : List.Forall₂ (Brings cd) ds frs) (hcd : u.codec = cd)
    (h : Gathers u f proto label acc got room) (hfit : got.length + rest.length ≤ room) :
    Reassembles ds u f proto label (got ++ rest) := by
  induction hc generalizing u got ds with
  | last acc p =>
    obtain _ | ⟨⟨hlen, hdecode⟩, _ | _⟩ := hds
    subst hcd
    obtain ⟨m, hreceive⟩ := receive_decoded h.running hlen hdecode
    obtain ⟨t, ht, hcompleted⟩ := (h.setDgramIn m).onFragment_last hfit
    exact .of_completed (hreceive.trans ht) hcompleted
  | cont acc p rest frs hc ih =>
    obtain _ | ⟨⟨hlen, hdecode⟩, hds⟩ := hds
    subst hcd
    rw [List.length_append] at hfit
    obtain ⟨m, hreceive⟩ := receive_decoded h.running hlen hdecode
    obtain ⟨t, ht, hcode, hcodec, hgathers⟩ := (h.setDgramIn m).onFragment_cont (p := p) (by omega)
    have hrest := ih hds hcodec hgathers (by rw [List.length_append]; omega)
    rw [List.append_assoc] at hrest
    exact .cons (hreceive.trans ht) hcode (Brings.ne_nil hds hc.ne_nil) hrest

/-- A receiver with an idle target, whose least Free slot holds the PDU, completes it. -/
theorem Fragments.reassembles {ds : List (List Byte)} {pdu : List Byte} {k : Nat} {sl : Slot}
    (h : Fragments cd f proto label pdu frs) (hds : List.Forall₂ (Brings cd) ds frs) (hcd : u.codec = cd)
    (hr : u.run = .running) (hn : u.poolCount ≤ 65535) (hidle : (u.tgt f).state = .awaitingFirst)
    (hl : u.LeastFree k sl) (hfit : pdu.length ≤ gatherBound sl) : Reassembles ds u f proto label pdu := by
  cases h with
  | single =>
    obtain _ | ⟨⟨hlen, hdecode⟩, _ | _⟩ := hds
    subst hcd
    obtain ⟨m, hreceive⟩ := receive_decoded hr hlen hdecode
    obtain ⟨t, ht, hcompleted⟩ := onFragment_single_completed (u.setMem .dgramIn m) f proto label
      (hfit.trans (Nat.min_le_right _ _))
    exact .of_completed (hreceive.trans ht) hcompleted
  | first p rest frs hc =>
    obtain _ | ⟨⟨hlen, hdecode⟩, hds⟩ := hds
    subst hcd
    rw [List.length_append] at hfit
    obtain ⟨m, hreceive⟩ := receive_decoded hr hlen hdecode
    obtain ⟨t, ht, hcode, hcodec, hgathers⟩ := onFragment_first_gathers (u := u.setMem .dgramIn m) hr hn
      hidle hl (p := p) (by omega) proto label
    exact .cons (hreceive.trans ht) hcode (Brings.ne_nil hds hc.ne_nil)
      (hc.reassembles hds hcodec hgathers hfit)

/-- Padding does not change what a fragment decodes to (R104, R217). -/
theorem brings_padded {frags tails : List (List Byte)} (h : List.Forall₂ (DecodesPadded cd) frags frs)
    (hlen : tails.length = frags.length) (hmax : ∀ d ∈ List.zipWith (· ++ ·) frags tails, d.length ≤ 65535) :
    List.Forall₂ (Brings cd) (List.zipWith (· ++ ·) frags tails) frs := by
  induction h generalizing tails with
  | nil => exact .nil
  | cons hd _ ih =>
    obtain _ | ⟨tail, tails⟩ := tails
    · cases hlen
    · obtain ⟨hfirst, hmax⟩ := List.forall_mem_cons.mp hmax
      exact .cons ⟨hfirst, hd tail⟩ (ih (Nat.succ.inj hlen) hmax)

/-- Settles O59: what ENC emits are the fragments of the PDU, and DEC gathers those. -/
theorem roundTrip : Obligations.RoundTrip := by
  intro fid proto len cap label s u k sl frags tails hr hru hlw hcodec hulw hucodec _ hidle hl hsize hn
    hsent htails hmax
  have hcd : u.codec = s.codec := by rw [State.codec, State.codec, codecOf, codecOf, hucodec, hulw]
  obtain ⟨hlen, frs, hfragments, hdecode⟩ := encapsulate_fragments hr hlw (hcodec.laws hlw) hsent
  have hpdu : (s.readBytes .pduIn 0 len.toNat).length = len.toNat := State.readBytes_length ..
  obtain ⟨v, hv, hcompleted⟩ := hfragments.reassembles (brings_padded hdecode htails hmax) hcd hru hn hidle hl
    (by rw [hpdu]; exact le_min hsize hlen)
  rw [List.length_zipWith, htails, Nat.min_self] at hv
  refine ⟨v, hv, hcompleted.bytes, ?_, hcompleted.fid, hcompleted.proto, hcompleted.label⟩
  rw [hcompleted.len, hpdu, BitVec.ofNat_toNat, BitVec.setWidth_eq]

end Sys2Proof.Machine

/-! SUPPORT. DEC, fragment by fragment: DECAP and the fragment rows (R192, log 9), `discard` (R198), and what each
class of fragment answers and leaves (R194, R203, R207 to R210). -/

namespace Sys2Proof.Machine

variable {s t : State} {i : Instr} {f : Fid} {p : List Byte} {label : Label} {sl : Slot} {proto : Proto}
  {crc : Crc} {lw : Nat}

/-! ### Runs (R214, R340) -/

theorem core_run_succ {n : Nat} (h : step s = .next t) :
    Sys2Proof.core.run (n + 1) s = Sys2Proof.core.run n t := by
  simp [Host.Core.run, Sys2Proof.core, h]

/-- Settles O21, by induction on the number of steps. -/
theorem everyRunGoesOn : Obligations.EveryRunGoesOn := by
  intro n
  induction n with
  | zero => exact fun s h => ⟨s, rfl, h⟩
  | succ n ih =>
    intro s h
    obtain ⟨u, hstep, hu⟩ := everyStepKeepsTheInvariant s h
    obtain ⟨t, hrun, ht⟩ := ih u hu
    exact ⟨t, (core_run_succ hstep).trans hrun, ht⟩

/-! ### A datagram and its row (R111, R112, R192) -/

/-- The header bytes are read without loss (R111). -/
theorem fragmentBytes_header (b0 b1 : Byte) (body : List Byte) :
    fragmentBytes (b0.getLsbD 7) (b0.getLsbD 6) (b0.extractLsb' 4 2) (b0.extractLsb' 0 4 ++ b1) body =
      b0 :: b1 :: body := by
  have hhigh : (b0.extractLsb' 0 4 ++ b1).extractLsb' 8 4 = b0.extractLsb' 0 4 := by
    rw [BitVec.extractLsb'_append_eq_of_le (le_refl 8), BitVec.extractLsb'_eq_self]
  have hlow : (b0.extractLsb' 0 4 ++ b1).extractLsb' 0 8 = b1 := by
    rw [BitVec.extractLsb'_append_eq_of_add_le (by decide), BitVec.extractLsb'_eq_self]
  have hheader : headerByte (b0.getLsbD 7) (b0.getLsbD 6) (b0.extractLsb' 4 2) (b0.extractLsb' 0 4) = b0 := by
    have hbit : ∀ k, BitVec.ofBool (b0.getLsbD k) = b0.extractLsb' k 1 := fun k => by
      ext j hj
      simp [show j = 0 by omega]
    rw [headerByte, hbit, hbit, BitVec.extractLsb'_append_extractLsb'_eq_extractLsb' (by rfl),
      BitVec.extractLsb'_append_extractLsb'_eq_extractLsb' (by rfl),
      BitVec.extractLsb'_append_extractLsb'_eq_extractLsb' (by rfl), BitVec.extractLsb'_eq_self]
  rw [fragmentBytes_eq, hhigh, hlow, hheader]

theorem encode_fragmentRow (st e : Bool) (lt : BitVec 2) (len : BitVec 12) (body : List Byte) :
    encode (fragmentRow st e lt len body) = fragmentBytes st e lt len body := by
  cases st <;> cases e <;> rfl

theorem fragmentRow_format (st e : Bool) (lt : BitVec 2) (len : BitVec 12) (body : List Byte) :
    (fragmentRow st e lt len body).format = .frag := by
  cases st <;> cases e <;> rfl

/-- S and E name the row and the class of the fragment alike (R112). -/
theorem carries_fragmentRow (st e : Bool) (lt : BitVec 2) (len : BitVec 12) (body g : List Byte) :
    carries (fragmentRow st e lt len body) (fragmentOf lw st e g) = true := by
  cases st <;> cases e <;> rfl

/-- Only a fragment row is read from a datagram, and it keeps every byte. -/
theorem decodeDatagram_eq_ok {d : List Byte} (h : decodeDatagram d = .ok i) :
    ∃ st e lt len body, i = fragmentRow st e lt len body ∧ d = fragmentBytes st e lt len body := by
  obtain _ | ⟨b0, _ | ⟨b1, body⟩⟩ := d
  · cases h
  · cases h
  · rw [decodeDatagram_cons] at h
    cases h
    exact ⟨_, _, _, _, _, rfl, (fragmentBytes_header b0 b1 body).symm⟩

/-- What REFCODEC takes a datagram for is of the class of the datagram's row (R112, R120). -/
theorem refDecode_carries {d : List Byte} {fr : Frag} (hd : decodeDatagram d = .ok i)
    (hfr : refDecode lw d = some fr) : carries i fr = true := by
  obtain ⟨st, e, lt, len, body, rfl, rfl⟩ := decodeDatagram_eq_ok hd
  rw [refDecode_of_row hd, Option.map_eq_some_iff] at hfr
  obtain ⟨g, -, rfl⟩ := hfr
  exact carries_fragmentRow st e lt len body g

/-- A row brings what its datagram decodes to, when that is of the row's class. -/
theorem arrives_of_decodeDatagram {d : List Byte} (hd : decodeDatagram d = .ok i)
    (hclass : ∀ fr, s.codec.decode d = some fr → carries i fr = true) : Arrives i s (s.codec.decode d) := by
  obtain ⟨st, e, lt, len, body, rfl, rfl⟩ := decodeDatagram_eq_ok hd
  refine .inr ⟨fragmentRow_format .., ?_⟩
  rw [encode_fragmentRow]
  cases hfr : s.codec.decode (fragmentBytes st e lt len body) with
  | none => rfl
  | some fr => exact Option.filter_some_pos (hclass fr hfr)

/-- Settles O8: both bring the same fragment to DEC. -/
theorem decapRunsTheFragmentInstruction : Obligations.DecapRunsTheFragmentInstruction := by
  intro n s i hr hn d hd hcodec
  have hclass : ∀ fr, s.codec.decode d = some fr → carries i fr = true := by
    rcases hcodec with href | hclass
    · intro fr hfr
      rw [State.codec, codecOf_refcodec href] at hfr
      exact refDecode_carries hd hfr
    · exact hclass
  rw [exec_decap hr hn, exec_of_arrives hr (arrives_of_decodeDatagram hd hclass)]

/-- Settles O39. -/
theorem malformedDatagramChangesNothing : Obligations.MalformedDatagramChangesNothing :=
  fun _ _ hr ha => exec_of_arrives hr ha

/-! ### `discard` and its like (R198, R209) -/

theorem sameTargets_closeContext (s : State) (f : Fid) (k : Nat) (o : Owner) :
    SameTargets [f] s ((s.setOwner k o).closeTgt f) :=
  fun _ hg => State.tgt_closeTgt_ne _ fun e => hg (List.mem_singleton.mpr e)

/-- Settles O40. -/
theorem discardFreesAndCloses : Obligations.DiscardFreesAndCloses := by
  intro s f sl hsl t
  have hclosed : (t.tgt f).state = .awaitingFirst := by rw [State.tgt_discard_same, Target.close_state]
  exact ⟨hclosed, State.slotEntry_setOwner_same (State.slotEntry_of_slot hsl) .free,
    sameTargets_closeContext s f _ .free, sameSlotTable_setOwner s _ .free,
    ⟨⟨rfl, rfl, rfl, rfl, rfl, rfl⟩, ⟨rfl, rfl⟩, (List.append_nil _).symm⟩, rfl, rfl, s.discard_readByte f⟩

/-! ### SINGLE (R194) -/

theorem onSingle_tooLong {cd : Codec} (hp : Config.maxPdu < p.length) :
    onSingle cd f proto label p crc s = .next (s.raised .dec .malformed f) :=
  if_pos hp

theorem onSingle_mismatch {cd : Codec} (hp : p.length ≤ Config.maxPdu)
    (hcrc : cd.crcFinal (cd.crcUpdate cd.crcInit p) ≠ crc) :
    onSingle cd f proto label p crc s = .next (s.raised .dec .crcMismatch f) := by
  rw [onSingle, if_neg (Nat.not_lt.mpr hp), if_pos hcrc]
  rfl

theorem onSingle_completes {cd : Codec} (hp : p.length ≤ Config.maxPdu)
    (hcrc : cd.crcFinal (cd.crcUpdate cd.crcInit p) = crc) :
    onSingle cd f proto label p crc s =
      .next ((s.completeTransient p).setRsp
        { code := .completed, fid := f, proto := proto, label := fieldOfLabel label,
          len := BitVec.ofNat 32 p.length, handle := Config.transientHandle }) := by
  have hwrite : s.memWrite .transient 0 p = some (s.setMem .transient ((s.mem .transient).write 0 p)) :=
    State.memWrite_eq (by rw [Nat.zero_add]; exact hp)
  rw [onSingle, if_neg (Nat.not_lt.mpr hp), if_neg (not_not.mpr hcrc), hwrite, orStop_some, respond_eq]

/-- A number of bytes up to MAX_PDU is read back from a response's length (R96). -/
theorem ofNat_toNat_of_le_maxPdu {n : Nat} (hn : n ≤ Config.maxPdu) : (BitVec.ofNat 32 n).toNat = n := by
  have hmax : n ≤ 65535 := hn
  rw [BitVec.toNat_ofNat, Nat.mod_eq_of_lt (by omega)]

/-- The bytes a response names in TRANSIENT are those copied to it (R98). -/
theorem completedPdu_completeTransient (s : State) {r : Rsp16} (hhandle : r.handle = Config.transientHandle)
    (hlen : r.len = BitVec.ofNat 32 p.length) (hp : p.length ≤ Config.maxPdu) :
    ((s.completeTransient p).setRsp r).completedPdu r = p := by
  rw [State.completedPdu, hhandle, handleSpace_transientHandle, hlen, ofNat_toNat_of_le_maxPdu hp,
    State.setRsp_readBytes, State.setTransientLen_readBytes]
  exact State.readBytes_setMem_same .transient 0 p nofun

/-- Settles O38. -/
theorem singleCompletesInTransient : Obligations.SingleCompletesInTransient := by
  intro i s f proto label p crc hr ha sum
  rw [exec_of_arrives hr ha, onFragment]
  refine ⟨onSingle_tooLong, onSingle_mismatch, fun hp hcrc => ⟨_, onSingle_completes hp hcrc, rfl, rfl,
    completedPdu_completeTransient s rfl rfl hp,
    ⟨⟨rfl, rfl, rfl, rfl, rfl, rfl⟩, ⟨rfl, rfl⟩, (List.append_nil _).symm⟩, fun _ _ => rfl,
    ⟨rfl, fun _ _ => rfl⟩, ?_⟩⟩
  intro sp a ha
  rw [State.setRsp_readByte, State.setTransientLen_readByte]
  exact sameBytesBut_setMem_write s .transient 0 p nofun sp a ha

/-! ### FIRST on an open target (R203) -/

/-- What arrives depends on the configuration, on DGRAM_IN and on the reset counter alone. -/
theorem Arrives.congr {fr : Option Frag} (h : Arrives i s fr) (hin : SameInputs s t) : Arrives i t fr := by
  have hcodec : t.codec = s.codec := State.codec_congr hin.cfg
  have hbytes : ∀ n, t.readBytes .dgramIn 0 n = s.readBytes .dgramIn 0 n := fun n =>
    State.readBytes_congr fun _ _ => State.readByte_congr (sp := .dgramIn) hin.dgramIn hin.epoch _
  rcases h with ⟨n, rfl, hn, rfl⟩ | ⟨hi, rfl⟩
  · exact .inl ⟨n, rfl, hn, by rw [hcodec, hbytes]⟩
  · exact .inr ⟨hi, by rw [hcodec]⟩

theorem State.restart_sameInputs (s : State) (f : Fid) : SameInputs s (s.restart f) :=
  ⟨rfl, rfl, rfl, rfl, rfl, rfl⟩

theorem State.restart_awaitingFirst (s : State) (f : Fid) : ((s.restart f).tgt f).state = .awaitingFirst := by
  rw [State.addEvent_tgt, State.tgt_discard_same, Target.close_state]

theorem exec_first_restart (hr : s.run = .running) (ha : Arrives i s (some (.first f proto label p)))
    (hst : (s.tgt f).state = .reassembling) (hsl : s.slots[(s.tgt f).slot]? = some sl) :
    exec i s = openContext s.codec f proto label p (s.restart f) := by
  simp only [exec_of_arrives hr ha, onFragment, onFirst, hst, hsl, orStop_some]

/-- Where a slot is Free, there is a least one (R143). -/
theorem State.exists_leastFree (hsl : sl ∈ s.slots) (hfree : sl.owner = .free) : ∃ k sl', s.LeastFree k sl' := by
  cases ht : s.poolTake .held with
  | none => exact absurd hfree (State.poolTake_none.mp ht sl hsl)
  | some r =>
    obtain ⟨-, sl', hl⟩ := State.poolTake_leastFree (k := r.1) (t := r.2) ht
    exact ⟨r.1, sl', hl⟩

/-- With a Free slot a FIRST fragment on an idle target is not POOL_EXHAUSTED (R205, R206). -/
theorem openContext_not_exhausted {cd : Codec} (hsl : sl ∈ s.slots) (hfree : sl.owner = .free) :
    ∃ t, openContext cd f proto label p s = .next t ∧ t.rsp.code ≠ .poolExhausted := by
  obtain ⟨k, sl', hl⟩ := State.exists_leastFree hsl hfree
  rcases Nat.lt_or_ge (gatherBound sl') p.length with hover | hfit
  · exact ⟨_, openContext_malformed hl hover, nofun⟩
  · exact ⟨_, openContext_opens hl hfit, nofun⟩

/-- Settles O42: the slot just freed is there to be taken. -/
theorem firstRestartsAnOpenContext : Obligations.FirstRestartsAnOpenContext := by
  intro i s f proto label p sl hr ha hst hsl s'
  have ha' : Arrives i s' (some (.first f proto label p)) := ha.congr (s.restart_sameInputs f)
  have hfreed : s'.slots[(s.tgt f).slot]? = some { sl with owner := .free } := by
    rw [State.addEvent_slots, State.slots_discard, hsl]; simp
  have hexec := exec_first_restart hr ha hst hsl
  have hexec' : exec i s' = openContext s'.codec f proto label p s' :=
    exec_first_idle (s := s') hr ha' (s.restart_awaitingFirst f)
  refine ⟨s.restart_awaitingFirst f, ha', hexec.trans hexec'.symm, ?_⟩
  · rw [hexec]; exact openContext_not_exhausted (List.mem_of_getElem? hfreed) rfl

/-! ### CONT and LAST: the match, the bound and the append (R196, R206, R207) -/

theorem appendPayload_noContext {cd : Codec} (h : ¬ ((s.tgt f).state = .reassembling ∧ (s.tgt f).label = label))
    (k : State → Res) : appendPayload cd f label p s k = .next (s.raised .dec .unknownContext f) := by
  have hlookup : ¬ s.lookup f label = true := fun hl => h (of_decide_eq_true hl)
  rw [appendPayload, if_neg hlookup]
  rfl

theorem appendPayload_overrun {cd : Codec} (hx : ContextOf s f label sl)
    (hover : gatherBound sl < (s.tgt f).acc + p.length) (k : State → Res) :
    appendPayload cd f label p s k = .next ((s.discard f).raised .dec .malformed f) := by
  have hlookup : s.lookup f label = true := decide_eq_true ⟨hx.reassembling, hx.label⟩
  rw [appendPayload, if_pos hlookup]
  dsimp only
  rw [hx.slot, orStop_some, if_pos hover]
  rfl

/-- The slot of a context is provisioned. -/
theorem ContextOf.slot_lt (hx : ContextOf s f label sl) : (s.tgt f).slot < s.slots.length :=
  (List.getElem?_eq_some_iff.mp hx.slot).1

theorem ContextOf.sameBytesBut_append (hx : ContextOf s f label sl) :
    SameBytesBut (.slot (s.tgt f).slot) (s.tgt f).acc p.length s (s.append f p) := by
  intro sp a ha
  rw [State.setTgt_readByte]
  exact sameBytesBut_setMem_write s _ _ p (by rintro j ⟨⟩; exact hx.slot_lt) sp a ha

theorem ContextOf.readBytes_appended (hx : ContextOf s f label sl) :
    (s.append f p).readBytes (.slot (s.tgt f).slot) (s.tgt f).acc p.length = p := by
  rw [State.setTgt_readBytes]
  exact State.readBytes_setMem_same _ _ p (by rintro j ⟨⟩; exact hx.slot_lt)

theorem State.tgt_append_ne (s : State) {g : Fid} (hg : g ≠ f) : (s.append f p).tgt g = s.tgt g := by
  rw [State.tgt_setTgt_ne _ _ hg, State.setMem_tgt]

theorem sameTargets_append (s : State) (f : Fid) (p : List Byte) : SameTargets [f] s (s.append f p) :=
  fun _ hg => s.tgt_append_ne fun e => hg (List.mem_singleton.mpr e)

theorem sameSlotTable_append (s : State) (f : Fid) (p : List Byte) : SameSlotTable [] s (s.append f p) :=
  ⟨by simp [State.poolCount], fun _ _ => s.slotEntry_setMem ..⟩

theorem onCont_fits (hx : ContextOf s f label sl) (hfit : (s.tgt f).acc + p.length ≤ gatherBound sl) :
    onCont s.codec f label p s = .next ((s.append f p).setRsp
      { code := .fragmented, fid := f, len := BitVec.ofNat 32 ((s.tgt f).acc + p.length) }) := by
  rw [onCont, appendPayload_fits hx hfit, State.append_tgt_same, respond_eq]
  rfl

/-- Settles O43. -/
theorem contAppends : Obligations.ContAppends := by
  intro i s f label p hr ha
  rw [exec_of_arrives hr ha, onFragment]
  refine ⟨fun h => appendPayload_noContext h _, fun sl hst hlabel hsl => ?_⟩
  have hx : ContextOf s f label sl := ⟨hst, hlabel, hsl⟩
  refine ⟨fun hover => appendPayload_overrun hx hover _, fun hfit => ⟨_, onCont_fits hx hfit, rfl, ?_, ?_,
    sameTargets_append s f p, sameSlotTable_append s f p,
    ⟨⟨rfl, rfl, rfl, rfl, rfl, rfl⟩, ⟨rfl, rfl⟩, (List.append_nil _).symm⟩, rfl, ?_⟩⟩
  · exact s.append_tgt_same f p
  · rw [State.setRsp_readBytes]; exact hx.readBytes_appended
  · intro sp a ha
    rw [State.setRsp_readByte]; exact hx.sameBytesBut_append sp a ha

/-! ### LAST: the reassembly ends (R208 to R210) -/

/-- The state after a payload was appended, the context closed and its slot given up to `o`: `discard` and
completion differ in `o` alone (R209, R210). -/
abbrev State.endReassembly (s : State) (f : Fid) (p : List Byte) (o : Owner) : State :=
  ((s.append f p).setOwner ((s.append f p).tgt f).slot o).closeTgt f

theorem onLast_mismatch (hx : ContextOf s f label sl) (hfit : (s.tgt f).acc + p.length ≤ gatherBound sl)
    (hcrc : s.codec.crcFinal (s.codec.crcUpdate (s.tgt f).crc p) ≠ crc) :
    onLast s.codec f label p crc s = .next ((s.endReassembly f p .free).raised .dec .crcMismatch f) := by
  rw [onLast, appendPayload_fits hx hfit, State.append_tgt_same]
  exact if_pos hcrc

theorem onLast_completes (hx : ContextOf s f label sl) (hfit : (s.tgt f).acc + p.length ≤ gatherBound sl)
    (hcrc : s.codec.crcFinal (s.codec.crcUpdate (s.tgt f).crc p) = crc) :
    onLast s.codec f label p crc s = .next ((s.endReassembly f p .held).setRsp
      { code := .completed, fid := f, proto := (s.tgt f).proto, label := fieldOfLabel (s.tgt f).label,
        len := BitVec.ofNat 32 ((s.tgt f).acc + p.length), handle := BitVec.ofNat 16 (s.tgt f).slot }) := by
  have hsum : ¬ s.codec.crcFinal ((s.append f p).tgt f).crc ≠ crc := by
    rw [State.append_tgt_same]; exact not_not.mpr hcrc
  rw [onLast, appendPayload_fits hx hfit, if_neg hsum, completeContext, respond_eq, State.endReassembly,
    State.append_tgt_same]
  rfl

/-- Target `f` is closed and its slot, which was `sl`, has the owner `o` and the bytes `p` behind those gathered;
nothing else of targets, slots and memories changed. -/
structure ReassemblyEnded (f : Fid) (p : List Byte) (sl : Slot) (o : Owner) (s t : State) : Prop where
  closed : (t.tgt f).state = .awaitingFirst
  entry : t.slotEntry (s.tgt f).slot = some (sl.size, o)
  targets : SameTargets [f] s t
  slots : SameSlotTable [(s.tgt f).slot] s t
  transientLen : t.transientLen = s.transientLen
  bytes : SameBytesBut (.slot (s.tgt f).slot) (s.tgt f).acc p.length s t

theorem ReassemblyEnded.setRsp {o : Owner} (h : ReassemblyEnded f p sl o s t) (r : Rsp16) :
    ReassemblyEnded f p sl o s (t.setRsp r) :=
  { h with bytes := fun sp a ha => by rw [State.setRsp_readByte]; exact h.bytes sp a ha }

theorem ReassemblyEnded.raised {o : Owner} (h : ReassemblyEnded f p sl o s t) (v : LogUnit) (c : RespCode)
    (g : Fid) : ReassemblyEnded f p sl o s (t.raised v c g) :=
  { h with
    bytes := fun sp a ha => by
      rw [State.raised, State.setRsp_readByte, State.addEvent_readByte]; exact h.bytes sp a ha }

/-- An error logs its event and leaves the rest to what came before (R281). -/
theorem SameBesides.raised {es : List Event} (h : SameBesides es s t) (v : LogUnit) (c : RespCode) (g : Fid) :
    SameBesides (es ++ [⟨v, c, g⟩]) s (t.raised v c g) where
  control := { h.control with }
  enc := { h.enc with }
  log := by
    have hlog : (t.raised v c g).log = t.log ++ [⟨v, c, g⟩] := rfl
    rw [hlog, h.log, List.append_assoc]

theorem SameBesides.setRsp {es : List Event} (h : SameBesides es s t) (r : Rsp16) :
    SameBesides es s (t.setRsp r) where
  control := { h.control with }
  enc := { h.enc with }
  log := h.log

theorem sameBesides_endReassembly (s : State) (f : Fid) (p : List Byte) (o : Owner) :
    SameBesides [] s (s.endReassembly f p o) :=
  ⟨⟨rfl, rfl, rfl, rfl, rfl, rfl⟩, ⟨rfl, rfl⟩, (List.append_nil _).symm⟩

theorem ContextOf.reassemblyEnded (hx : ContextOf s f label sl) (p : List Byte) (o : Owner) :
    ReassemblyEnded f p sl o s (s.endReassembly f p o) where
  closed := by rw [State.tgt_closeTgt_same, Target.close_state]
  entry := (s.slotEntry_append_setOwner f p o _).trans
    (State.slotEntry_setOwner_same (State.slotEntry_of_slot hx.slot) o)
  targets := fun g hg => (sameTargets_closeContext _ f _ o g hg).trans (sameTargets_append s f p g hg)
  slots := by
    obtain ⟨-, hother⟩ := sameSlotTable_setOwner s (s.tgt f).slot o
    exact ⟨by simp [State.poolCount], fun j hj => (s.slotEntry_append_setOwner f p o j).trans (hother j hj)⟩
  transientLen := rfl
  bytes := by
    intro sp a ha
    rw [State.closeTgt_readByte, State.setOwner_readByte]
    exact hx.sameBytesBut_append sp a ha

/-- The bytes a response names in the slot of the context are those gathered and those appended (R98, R209). -/
theorem ContextOf.completedPdu_endReassembly (hx : ContextOf s f label sl)
    (hfit : (s.tgt f).acc + p.length ≤ gatherBound sl) (hcount : s.poolCount ≤ 65535) {r : Rsp16}
    (hhandle : r.handle = BitVec.ofNat 16 (s.tgt f).slot)
    (hlen : r.len = BitVec.ofNat 32 ((s.tgt f).acc + p.length)) :
    ((s.endReassembly f p .held).setRsp r).completedPdu r =
      s.readBytes (.slot (s.tgt f).slot) 0 (s.tgt f).acc ++ p := by
  rw [State.completedPdu, hhandle, handleSpace_ofNat (hx.slot_lt.trans_le hcount), hlen,
    ofNat_toNat_of_le_maxPdu (hfit.trans (Nat.min_le_right _ _)), State.setRsp_readBytes,
    State.closeTgt_readBytes, State.setOwner_readBytes, hx.readBytes_append]

/-- Settles O44. -/
theorem lastCompletesOrFails : Obligations.LastCompletesOrFails := by
  intro i s f label p crc hr ha hcount
  rw [exec_of_arrives hr ha, onFragment]
  refine ⟨fun h => appendPayload_noContext h _, fun sl hst hlabel hsl => ?_⟩
  intro k acc sum
  have hx : ContextOf s f label sl := ⟨hst, hlabel, hsl⟩
  refine ⟨fun hover => appendPayload_overrun hx hover _, fun hfit => ?_⟩
  by_cases hcrc : sum = crc
  · have hend := (hx.reassemblyEnded p .held).setRsp
      { code := .completed, fid := f, proto := (s.tgt f).proto, label := fieldOfLabel (s.tgt f).label,
        len := BitVec.ofNat 32 ((s.tgt f).acc + p.length), handle := BitVec.ofNat 16 (s.tgt f).slot }
    exact ⟨_, onLast_completes hx hfit hcrc, hend.closed, hend.targets, hend.slots, hend.transientLen, hend.bytes,
      fun hne => absurd hcrc hne, fun _ => ⟨rfl, hend.entry,
        hx.completedPdu_endReassembly hfit hcount rfl rfl,
        (sameBesides_endReassembly s f p .held).setRsp _⟩⟩
  · have hend := (hx.reassemblyEnded p .free).raised .dec .crcMismatch f
    exact ⟨_, onLast_mismatch hx hfit hcrc, hend.closed, hend.targets, hend.slots, hend.transientLen, hend.bytes,
      fun _ => ⟨rfl, hend.entry, (sameBesides_endReassembly s f p .free).raised _ _ _⟩,
      fun heq => absurd heq hcrc⟩

end Sys2Proof.Machine

/-! SUPPORT. What DEC guarantees beside (R205, R214 to R216): COMPLETED only with the CRC matched, a flipped bit
detected, other contexts untouched. -/

namespace Sys2Proof.Machine

variable {s t u : State} {i : Instr} {f g : Fid} {p : List Byte} {label : Label} {sl : Slot} {proto : Proto}

/-! ### COMPLETED (R209, R215, R237) -/

theorem DecCommand.ne_shutdown (hi : DecCommand i) : i ≠ .shutdown := by
  rintro rfl
  rcases hi with ⟨n, hn⟩ | hformat
  · cases hn
  · cases hformat

/-- Only a fragment can make DEC answer COMPLETED. -/
theorem fragEffect_of_completed (hi : DecCommand i) (h : exec i s = .next t) (hcode : t.rsp.code = .completed) :
    s.run = .running ∧ ∃ fr, Arrives i s fr ∧ FragEffect s fr t := by
  cases hr : s.run with
  | halted =>
    rw [exec_halted hr hi.ne_shutdown] at h
    cases h; cases hcode
  | running =>
    rcases decCommand_arrives hr hi with hill | ⟨fr, ha⟩
    · rw [hill] at h; cases h; cases hcode
    · rw [exec_of_arrives hr ha] at h
      exact ⟨rfl, fr, ha, onFragment_effect h⟩

/-- The accumulator of an open context, taken on over `p`, is the CRC of its bytes and `p` (R231, R237). -/
theorem PoolInv.crc_append (h : PoolInv s) (hc : CodecSound s.cfg.lw s.codec) (hx : ContextOf s f label sl)
    (p : List Byte) :
    s.codec.crcUpdate s.codec.crcInit (s.readBytes (.slot (s.tgt f).slot) 0 (s.tgt f).acc ++ p) =
      s.codec.crcUpdate (s.tgt f).crc p := by
  obtain ⟨sl', -, hok⟩ := h.context f hx.reassembling
  rw [hok.crc, hc.chunk_append]

/-- Settles O46, by the two effects that answer COMPLETED. -/
theorem completedMeansCrcMatched : Obligations.CompletedMeansCrcMatched := by
  intro i s t h hi hexec hcode
  obtain ⟨hr, fr, ha, hf⟩ := fragEffect_of_completed hi hexec hcode
  have hcount : s.poolCount ≤ 65535 := by
    obtain ⟨-, hn, -⟩ := h.legal hr
    exact h.pool.count_le.trans hn
  cases hf with
  | refused _ c f hc => subst hcode; simp at hc
  | first f proto label p _ hst ho => exact absurd hcode ho.not_completed
  | restart f proto label p sl _ hst hsl ho => exact absurd hcode ho.not_completed
  | overrun => cases hcode
  | cont => cases hcode
  | mismatch => cases hcode
  | single f proto label p crc hp hcrc =>
    have hpdu := completedPdu_completeTransient s (p := p) (r :=
      { code := .completed, fid := f, proto := proto, label := fieldOfLabel label,
        len := BitVec.ofNat 32 p.length, handle := Config.transientHandle }) rfl rfl hp
    exact ⟨crc, by rw [State.setRsp_rsp, hpdu, hcrc], .inl ⟨f, proto, label, p, ha, rfl, hpdu⟩⟩
  | last f label p crc sl hx hfit hcrc =>
    have hhandle : (BitVec.ofNat 16 (s.tgt f).slot).toNat = (s.tgt f).slot := by
      have hlt := hx.slot_lt.trans_le hcount
      rw [BitVec.toNat_ofNat, Nat.mod_eq_of_lt (by omega)]
    refine ⟨crc, ?_, .inr ⟨f, label, p, sl.size, ha, ?_⟩⟩
    · rw [State.setRsp_rsp, hx.completedPdu_endReassembly hfit hcount rfl rfl,
        h.pool.crc_append (h.codecSound hr) hx, hcrc]
    · rw [State.setRsp_rsp, hhandle]
      exact (hx.reassemblyEnded p .held).entry

/-! ### A flipped payload bit (R216, R232) -/

/-- A codec in range tells two byte sequences one bit apart: REFCODEC from every accumulator, another codec
from those that bytes lead to (R232, R242). -/
theorem CodecOk.crcFinal_ne (h : CodecOk s.cfg) {acc : Crc} {q : List Byte} (hpq : OneBitApart p q)
    (hacc : s.cfg.codec = .refcodec ∨ ∃ b, acc = s.codec.crcUpdate s.codec.crcInit b) :
    s.codec.crcFinal (s.codec.crcUpdate acc q) ≠ s.codec.crcFinal (s.codec.crcUpdate acc p) := by
  have hrefcodec : s.cfg.codec = .refcodec →
      s.codec.crcFinal (s.codec.crcUpdate acc q) ≠ s.codec.crcFinal (s.codec.crcUpdate acc p) := by
    intro href
    rw [State.codec, codecOf_refcodec href]
    exact (crcUpdate_ne_of_oneBitApart hpq acc).symm
  rcases hacc with href | ⟨b, rfl⟩
  · exact hrefcodec href
  · rcases h with href | hlaws
    · exact hrefcodec href
    · exact (hlaws.single_bit b p q hpq).symm

/-- The accumulator a SINGLE fragment starts from is one that bytes lead to: none (R231). -/
theorem CodecOk.crcInit_reached (h : CodecOk s.cfg) :
    s.cfg.codec = .refcodec ∨ ∃ b, s.codec.crcInit = s.codec.crcUpdate s.codec.crcInit b :=
  h.imp_right fun hlaws => ⟨[], (hlaws.chunk_nil _).symm⟩

/-- Settles O48. -/
theorem flippedPayloadBitIsDetected : Obligations.FlippedPayloadBitIsDetected := by
  intro i s f p q hr hcodec hpq cd
  refine ⟨fun proto label hq ha => ?_, fun label sl ha hacc hst hlabel hsl hfit => ?_⟩
  · rw [exec_of_arrives hr ha]
    exact onSingle_mismatch hq (hcodec.crcFinal_ne hpq hcodec.crcInit_reached)
  · have hx : ContextOf s f label sl := ⟨hst, hlabel, hsl⟩
    rw [exec_of_arrives hr ha]
    have hend := (hx.reassemblyEnded q .free).raised .dec .crcMismatch f
    exact ⟨_, onLast_mismatch hx hfit (hcodec.crcFinal_ne hpq hacc), rfl, hend.closed, hend.entry⟩

/-! ### Other contexts (R205, R211, R214) -/

/-- Target `g` is as before, and so is the slot of its context, if it has one. -/
structure ContextKept (g : Fid) (s t : State) : Prop where
  tgt : t.tgt g = s.tgt g
  slot : (s.tgt g).state = .reassembling → t.slots[(s.tgt g).slot]? = s.slots[(s.tgt g).slot]?

theorem ContextKept.trans (hst : ContextKept g s t) (htu : ContextKept g t u) : ContextKept g s u where
  tgt := htu.tgt.trans hst.tgt
  slot := fun hre => by
    have hslot := htu.slot (by rw [hst.tgt]; exact hre)
    rw [hst.tgt] at hslot
    exact hslot.trans (hst.slot hre)

/-- An event and a response leave every context alone. -/
theorem ContextKept.raised (h : ContextKept g s t) (v : LogUnit) (c : RespCode) (f : Fid) :
    ContextKept g s (t.raised v c f) := ⟨h.tgt, h.slot⟩

theorem ContextKept.setRsp (h : ContextKept g s t) (r : Rsp16) : ContextKept g s (t.setRsp r) :=
  ⟨h.tgt, h.slot⟩

theorem continuation_fid {fr : Frag} (h : continuation fr = some (f, label, p)) : fragFid fr = f := by
  cases fr with
  | single | first => cases h
  | cont | last => cases h; rfl

/-- Two open contexts have two slots (R44). -/
theorem PoolInv.slot_ne (h : PoolInv s) (hf : (s.tgt f).state = .reassembling)
    (hg : (s.tgt g).state = .reassembling) (hne : g ≠ f) : (s.tgt f).slot ≠ (s.tgt g).slot := by
  intro he
  obtain ⟨_, hfslot⟩ := h.slotEntry_context hf
  obtain ⟨_, hgslot⟩ := h.slotEntry_context hg
  rw [he, hgslot] at hfslot
  cases hfslot
  exact hne rfl

/-- A Free slot is no context's (R44). -/
theorem PoolInv.free_ne_slot (h : PoolInv s) {k : Nat} (hsl : s.slots[k]? = some sl) (ho : sl.owner = .free)
    (hg : (s.tgt g).state = .reassembling) : k ≠ (s.tgt g).slot := by
  rintro rfl
  obtain ⟨_, hslot⟩ := h.slotEntry_context hg
  rw [State.slotEntry_of_slot hsl, ho] at hslot
  cases hslot

theorem OpenEffect.contextKept (h : OpenEffect s f proto label p t) (hp : PoolInv s) (hne : g ≠ f) :
    ContextKept g s t := by
  cases h with
  | refused c hc => exact ⟨rfl, fun _ => rfl⟩
  | opened k sl hl hfit =>
    obtain ⟨hsl, hfree, -⟩ := hl
    exact ⟨State.tgt_setTgt_ne _ _ hne, fun hg =>
      State.slots_bindSlot_ne (hp.free_ne_slot hsl hfree hg).symm 0
        (openedTarget s.codec k proto label p (s.tgt f))⟩

theorem PoolInv.contextKept_discard (h : PoolInv s) (hf : (s.tgt f).state = .reassembling) (hne : g ≠ f) :
    ContextKept g s (s.discard f) :=
  ⟨s.tgt_discard_ne hne, fun hg => s.slots_modifySlot_ne _ (h.slot_ne hf hg hne)⟩

theorem PoolInv.contextKept_append (h : PoolInv s) (hf : (s.tgt f).state = .reassembling) (hne : g ≠ f) :
    ContextKept g s (s.append f p) :=
  ⟨s.tgt_append_ne hne, fun hg => s.slots_modifySlot_ne _ (h.slot_ne hf hg hne)⟩

theorem PoolInv.contextKept_endReassembly (h : PoolInv s) (hf : (s.tgt f).state = .reassembling) (hne : g ≠ f)
    (o : Owner) : ContextKept g s (s.endReassembly f p o) :=
  ⟨(State.tgt_closeTgt_ne _ hne).trans (s.tgt_append_ne hne), fun hg =>
    s.slots_append_setOwner_ne (h.slot_ne hf hg hne) o⟩

/-- A fragment of another fragment-id leaves a target and its context alone. -/
theorem FragEffect.contextKept {fr : Option Frag} (h : FragEffect s fr t) (hp : PoolInv s)
    (hlw : s.cfg.lw ≤ 6) (hg : fr.map fragFid ≠ some g) : ContextKept g s t := by
  have hne : ∀ fr', fr = some fr' → g ≠ fragFid fr' := by
    rintro fr' rfl rfl
    exact hg rfl
  cases h with
  | refused => exact ⟨rfl, fun _ => rfl⟩
  | single => exact ⟨rfl, fun _ => rfl⟩
  | first f proto label p _ hst ho => exact ho.contextKept hp (hne _ rfl)
  | restart f proto label p sl _ hst hsl ho =>
    have hp' : PoolInv (s.restart f) := (hp.discard hlw hst).congr rfl (fun _ => rfl) rfl rfl
    have hrestart : ContextKept g s (s.restart f) :=
      ⟨s.tgt_discard_ne (hne _ rfl), (hp.contextKept_discard hst (hne _ rfl)).slot⟩
    exact hrestart.trans (ho.contextKept hp' (hne _ rfl))
  | overrun fr f label p sl hfr hx hover =>
    have hgf : g ≠ f := continuation_fid hfr ▸ hne fr rfl
    exact (hp.contextKept_discard hx.reassembling hgf).raised _ _ _
  | cont f label p sl hx hfit => exact (hp.contextKept_append hx.reassembling (hne _ rfl)).setRsp _
  | mismatch f label p crc sl hx hfit hcrc =>
    exact (hp.contextKept_endReassembly hx.reassembling (hne _ rfl) .free).raised _ _ _
  | last f label p crc sl hx hfit hcrc =>
    exact (hp.contextKept_endReassembly hx.reassembling (hne _ rfl) .held).setRsp _

/-- Settles O45. -/
theorem otherContextsAreUntouched : Obligations.OtherContextsAreUntouched := by
  intro i s fr h hr ha
  obtain ⟨t, ht⟩ := exec_answers h i
  have hf : FragEffect s fr t := onFragment_effect ((exec_of_arrives hr ha).symm.trans ht)
  refine ⟨t, ht, hf.sameRun.run.trans hr, fun g hg => ?_⟩
  obtain ⟨htgt, hslot⟩ := hf.contextKept h.pool (h.lw_le_six hr) hg
  refine ⟨htgt, fun hre => ⟨State.slotEntry_congr (hslot hre), ?_⟩⟩
  exact State.readByte_congr (by simp only [State.mem, hslot hre]) hf.sameInputs.epoch

end Sys2Proof.Machine

/-! SUPPORT. REFCODEC's CRC as the engine uses it (R231, R232): chunks, and the single bit up to the trailer. -/

namespace Sys2Proof.Machine

@[simp] theorem crcUpdate_nil (acc : Crc) : crcUpdate acc [] = acc := rfl

/-- REFCODEC inverts nothing at the end, so the trailer is the accumulator itself (R240). -/
@[simp] theorem crcFinal_eq (acc : Crc) : crcFinal acc = acc := rfl

/-- Settles O49: a fold runs in chunks; the single bit changes one byte, and the update is injective in that
byte and in the accumulator that the rest starts from. -/
theorem crcLaws : Obligations.CrcLaws := by
  intro acc
  refine ⟨crcUpdate_nil acc, fun x y => (crcUpdate_append acc x y).symm, fun p q hpq => ?singleBit⟩
  case singleBit =>
    rw [crcFinal_eq, crcFinal_eq]
    exact crcUpdate_ne_of_oneBitApart hpq acc

end Sys2Proof.Machine

/-! SUPPORT. SEQ: PAD (R256), the port primitives (R250 to R253), the turns of both directions (R258, R260), the
halt of a fatal port result (R300), shutdown_req and Timeout at the start of an iteration (R254, R263), and the
boot (R325). -/

namespace Sys2Proof.Machine

variable {s t : State} {c : RespCode}

/-! ### PAD -/

/-- What PAD leaves for the fixed length `n` (R256): FRAG_OUT made up with zeros, never cut, and all else as it
was. -/
structure Padded (n : Nat) (s t : State) : Prop where
  fragOutLen : t.fragOutLen = max s.fragOutLen n
  fragment : t.fragment = s.fragment ++ zeros (n - s.fragOutLen)
  enc : t.enc = s.enc
  log : t.log = s.log
  control : SameControl s t
  dec : SameDecSide s t
  bytes : SameBytesBut .fragOut s.fragOutLen (n - s.fragOutLen) s t

/-- A fragment of the fixed length or longer is not touched. -/
theorem Padded.of_le {n : Nat} (h : n ≤ s.fragOutLen) : Padded n s s where
  fragOutLen := (max_eq_left h).symm
  fragment := by rw [Nat.sub_eq_zero_of_le h]; exact (List.append_nil _).symm
  enc := rfl
  log := rfl
  control := ⟨rfl, rfl, rfl, rfl, rfl, rfl⟩
  dec := ⟨fun _ _ => rfl, ⟨rfl, fun _ _ => rfl⟩, rfl⟩
  bytes := fun _ _ _ => rfl

/-- The zeros stand behind the fragment, up to the fixed length. -/
theorem Padded.of_lt {n : Nat} (h : s.fragOutLen < n) :
    Padded n s ((s.setMem .fragOut
      ((s.mem .fragOut).write s.fragOutLen (zeros (n - s.fragOutLen)))).setFragOutLen n) where
  fragOutLen := (max_eq_right h.le).symm
  fragment := by
    have hzeros := State.readBytes_setMem_same (s := s) .fragOut s.fragOutLen (zeros (n - s.fragOutLen)) nofun
    rw [List.length_replicate] at hzeros
    have hsplit : n = s.fragOutLen + (n - s.fragOutLen) := by omega
    rw [State.fragment, State.setFragOutLen_readBytes, State.setFragOutLen_fragOutLen]
    conv_lhs => rw [hsplit]
    rw [State.readBytes_append, Nat.zero_add, ← hsplit, hzeros,
      State.readBytes_setMem_below .fragOut _ _ _ _ (by omega) nofun]
    rfl
  enc := rfl
  log := rfl
  control := ⟨rfl, rfl, rfl, rfl, rfl, rfl⟩
  dec := ⟨fun _ _ => rfl, ⟨rfl, fun _ _ => rfl⟩, rfl⟩
  bytes := by
    have hbut := sameBytesBut_setMem_write s .fragOut s.fragOutLen (zeros (n - s.fragOutLen)) nofun
    rw [List.length_replicate] at hbut
    exact fun sp a ha => (State.setFragOutLen_readByte ..).trans (hbut sp a ha)

theorem Padded.setRsp {n : Nat} (h : Padded n s t) (r : Rsp16) : Padded n s (t.setRsp r) where
  fragOutLen := h.fragOutLen
  fragment := (State.setRsp_readBytes ..).trans h.fragment
  enc := h.enc
  log := h.log
  control := { h.control with }
  dec := { h.dec with }
  bytes := fun sp a ha => (State.setRsp_readByte ..).trans (h.bytes sp a ha)

theorem padFragment_padded {n : Nat} (h : padFragment n s = some t) : Padded n s t := by
  rcases padFragment_some h with ⟨hle, rfl⟩ | ⟨hlt, -, rfl⟩
  · exact .of_le hle
  · exact .of_lt hlt

theorem exec_pad {len : Word32} (hr : s.run = .running) (hlen : len.toNat ≤ Config.maxPdu) :
    ∃ t, exec (.pad len) s = .next t ∧ Padded len.toNat s t ∧
      t.rsp = { code := .ok, len := BitVec.ofNat 32 (max s.fragOutLen len.toNat) } := by
  obtain ⟨u, hu⟩ := padFragment_isSome (s := s) hlen
  have hpad := padFragment_padded hu
  refine ⟨u.setRsp { code := .ok, len := BitVec.ofNat 32 u.fragOutLen }, ?_, hpad.setRsp _, ?_⟩
  · rw [exec, execPad, whenRunning_running hr, if_neg (Nat.not_lt_of_le hlen), hu, orStop_some, respond_eq]
  · rw [State.setRsp_rsp, hpad.fragOutLen]

/-- Settles O50. -/
theorem padFillsWithZeros : Obligations.PadFillsWithZeros := by
  intro len s hr hlen
  obtain ⟨t, hexec, hpad, hrsp⟩ := exec_pad hr hlen
  exact ⟨t, hexec, hpad.fragOutLen, hrsp, hpad.fragment, hpad.enc, hpad.log, hpad.control, hpad.dec, hpad.bytes⟩

/-! ### The port primitives -/

theorem ifRecv_nil (hq : s.ports.ifRecv = []) (bound : Nat) : ifRecv bound s = (.timeout, s) := by
  rw [ifRecv, hq]

theorem ifRecv_timeout {rest : List RecvResult} (hq : s.ports.ifRecv = .timeout :: rest) (bound : Nat) :
    ifRecv bound s = (.timeout, s.setPorts { s.ports with ifRecv := rest }) := by
  rw [ifRecv, hq]

theorem ifRecv_fatal {rest : List RecvResult} (hq : s.ports.ifRecv = .fatal :: rest) (bound : Nat) :
    ifRecv bound s = (.fatal, s.setPorts { s.ports with ifRecv := rest }) := by
  rw [ifRecv, hq]

/-- A frame comes as it is, or as the device makes it (R250, U17; log 14). -/
theorem ifRecv_data {frame : List Byte} {rest : List RecvResult}
    (hq : s.ports.ifRecv = .data frame :: rest) (bound : Nat) :
    ifRecv bound s = (.data (frameBytes bound frame), s.setPorts { s.ports with ifRecv := rest }) := by
  rw [ifRecv, hq, frameBytes]
  dsimp only
  split <;> rfl

theorem sockRecv_nil (hq : s.ports.sockRecv = []) (bound : Nat) : sockRecv bound s = (.timeout, s) := by
  rw [sockRecv, hq]

theorem sockRecv_timeout {rest : List RecvResult} (hq : s.ports.sockRecv = .timeout :: rest) (bound : Nat) :
    sockRecv bound s = (.timeout, s.setPorts { s.ports with sockRecv := rest }) := by
  rw [sockRecv, hq]

theorem sockRecv_fatal {rest : List RecvResult} (hq : s.ports.sockRecv = .fatal :: rest) (bound : Nat) :
    sockRecv bound s = (.fatal, s.setPorts { s.ports with sockRecv := rest }) := by
  rw [sockRecv, hq]

theorem sockSend_fatal {rest : List SendResult} (hq : s.ports.sockSend = .fatal :: rest) (bytes : List Byte) :
    sockSend bytes s = (.fatal, s.setPorts { s.ports with sockSend := rest }) := by
  rw [sockSend, hq]

theorem ifSend_fatal {rest : List SendResult} (hq : s.ports.ifSend = .fatal :: rest) (bytes : List Byte) :
    ifSend bytes s = (.fatal, s.setPorts { s.ports with ifSend := rest }) := by
  rw [ifSend, hq]

/-- Every SOCK_SEND to come answers Ok; an empty queue is Ok (R251, log 13). -/
def SocketOk (s : State) : Prop := ∀ r ∈ s.ports.sockSend, r = .ok

theorem sockSend_ok (h : SocketOk s) (bytes : List Byte) :
    sockSend bytes s = (.ok, s.setPorts { s.ports with
      sockSend := s.ports.sockSend.drop 1, sent := s.ports.sent ++ [bytes] }) := by
  rw [SocketOk] at h
  rw [sockSend]
  cases hq : s.ports.sockSend with
  | nil => simp [hq]
  | cons r rest =>
    rw [hq, List.forall_mem_cons] at h
    obtain ⟨rfl, -⟩ := h
    rfl

/-! ### The turns of both directions -/

/-- FRAG_OUT holds the fragment that SEQ reads (R46, R258). -/
theorem State.memRead_fragment (hlen : s.fragOutLen ≤ Config.stagingSize) :
    s.memRead .fragOut 0 s.fragOutLen = some s.fragment :=
  State.memRead_eq (by rw [Nat.zero_add]; exact hlen)

theorem egressTurn_top (hr : s.run = .running) (hpos : s.seq.egress = .top) : egressTurn s = egressTop s := by
  rw [egressTurn, hr, hpos]

theorem egressTurn_label {len : Nat} (hr : s.run = .running) (hpos : s.seq.egress = .label len) :
    egressTurn s = afterCommand (exec .nextLabel s) fun r s' => .next (s'.egressAt (.begin_ len r.label)) := by
  rw [egressTurn, hr, hpos]

theorem egressTurn_begin {len : Nat} {label : LabelField} (hr : s.run = .running)
    (hpos : s.seq.egress = .begin_ len label) :
    egressTurn s = afterCommand
      (exec (.beginEncap s.cfg.fragIdEgress s.cfg.protoEgress (BitVec.ofNat 32 len)
        (BitVec.ofNat 32 (egressCap s.cfg)) label) s) fun r s' => egressAfterEnc r.code s' := by
  rw [egressTurn, hr, hpos]

theorem egressTurn_continue (hr : s.run = .running) (hpos : s.seq.egress = .continue_) :
    egressTurn s = afterCommand (exec (.continueEncap (BitVec.ofNat 32 (egressCap s.cfg))) s)
      fun r s' => egressAfterEnc r.code s' := by
  rw [egressTurn, hr, hpos]

theorem egressTurn_pad_fixed {code : RespCode} (hr : s.run = .running) (hpos : s.seq.egress = .pad code)
    (hp : 0 < s.cfg.pEgress.toNat) :
    egressTurn s = afterCommand (exec (.pad s.cfg.pEgress) s) fun _ s' => .next (s'.egressAt (.send code)) := by
  rw [egressTurn, hr, hpos]
  exact if_pos hp

theorem egressTurn_pad_variable {code : RespCode} (hr : s.run = .running) (hpos : s.seq.egress = .pad code)
    (hp : ¬ 0 < s.cfg.pEgress.toNat) : egressTurn s = .next (s.egressAt (.send code)) := by
  rw [egressTurn, hr, hpos]
  exact if_neg hp

theorem egressTurn_send {code : RespCode} (hr : s.run = .running) (hpos : s.seq.egress = .send code) :
    egressTurn s = egressSend code s := by
  rw [egressTurn, hr, hpos]

theorem egressSend_ok (hlen : s.fragOutLen ≤ Config.stagingSize) (hok : SocketOk s) (code : RespCode) :
    egressSend code s = .next
      ((s.setPorts { s.ports with
          sockSend := s.ports.sockSend.drop 1, sent := s.ports.sent ++ [s.fragment] }).egressAt
        (if code = .completed then .top else .continue_)) := by
  rw [egressSend, State.memRead_fragment hlen, orStop_some, sockSend_ok hok]

theorem egressSend_fatal {rest : List SendResult} (hlen : s.fragOutLen ≤ Config.stagingSize)
    (hq : s.ports.sockSend = .fatal :: rest) (code : RespCode) :
    egressSend code s =
      .next (((s.setPorts { s.ports with sockSend := rest }).halt .ioError).egressAt .stopped) := by
  rw [egressSend, State.memRead_fragment hlen, orStop_some, sockSend_fatal hq]

theorem ingressDeliver_fatal {rest : List SendResult} {hd : BitVec 16} {len : Nat}
    (hfit : len ≤ s.memSize (handleSpace hd)) (hq : s.ports.ifSend = .fatal :: rest) :
    ingressDeliver hd len s =
      .next (((s.setPorts { s.ports with ifSend := rest }).halt .ioError).ingressAt .stopped) := by
  rw [ingressDeliver, State.memRead_eq (by rw [Nat.zero_add]; exact hfit), orStop_some, ifSend_fatal hq]

theorem ingressTurn_boot {left : Nat} (hr : s.run = .running) (hpos : s.seq.ingress = .boot (left + 1)) :
    ingressTurn s = afterCommand (exec (.provision s.cfg.b) s) fun _ s' => .next (s'.ingressAt (.boot left)) := by
  rw [ingressTurn, hr, hpos]

/-! ### The start of an iteration -/

theorem exec_shutdown_running (hr : s.run = .running) :
    exec .shutdown s = .next ((s.halt .ok).setRsp { code := .ok }) := by
  rw [exec, execShutdown, hr, respond_eq]

theorem egressTop_shutdown (hr : s.run = .running) (hreq : s.seq.shutdownReq = true) :
    egressTop s = .next (((s.halt .ok).setRsp { code := .ok }).egressAt .stopped) := by
  rw [egressTop, if_pos hreq, exec_shutdown_running hr, afterCommand_of_next]

theorem ingressTop_shutdown (hr : s.run = .running) (hreq : s.seq.shutdownReq = true) :
    ingressTop s = .next (((s.halt .ok).setRsp { code := .ok }).ingressAt .stopped) := by
  rw [ingressTop, if_pos hreq, exec_shutdown_running hr, afterCommand_of_next]

theorem egressTop_timeout (hreq : s.seq.shutdownReq = false)
    (h : ifRecv s.cfg.b.toNat s = (.timeout, t)) : egressTop s = .next t := by
  rw [egressTop, hreq, if_neg Bool.false_ne_true, h]

theorem ingressTop_timeout (hreq : s.seq.shutdownReq = false)
    (h : sockRecv (rxBound s.cfg) s = (.timeout, t)) : ingressTop s = .next t := by
  rw [ingressTop, hreq, if_neg Bool.false_ne_true, h]

theorem egressTop_fatal (hreq : s.seq.shutdownReq = false)
    (h : ifRecv s.cfg.b.toNat s = (.fatal, t)) :
    egressTop s = .next ((t.halt .ioError).egressAt .stopped) := by
  rw [egressTop, hreq, if_neg Bool.false_ne_true, h]

theorem ingressTop_fatal (hreq : s.seq.shutdownReq = false)
    (h : sockRecv (rxBound s.cfg) s = (.fatal, t)) :
    ingressTop s = .next ((t.halt .ioError).ingressAt .stopped) := by
  rw [ingressTop, hreq, if_neg Bool.false_ne_true, h]

/-- The frame is put into PDU_IN, as much of it as PDU_IN holds (R258). -/
theorem egressTop_data {frame : List Byte} {rest : List RecvResult} (hreq : s.seq.shutdownReq = false)
    (hq : s.ports.ifRecv = .data frame :: rest) :
    egressTop s = .next
      (((s.setMem .pduIn (s.pduIn.write 0 ((frameBytes s.cfg.b.toNat frame).take Config.maxPdu))).setPorts
        { s.ports with ifRecv := rest }).egressAt (.label (frameBytes s.cfg.b.toNat frame).length)) := by
  have hfit : 0 + ((frameBytes s.cfg.b.toNat frame).take 65535).length ≤
      (s.setPorts { s.ports with ifRecv := rest }).memSize .pduIn := by
    rw [Nat.zero_add]; exact List.length_take_le _ _
  rw [egressTop, hreq, if_neg Bool.false_ne_true, ifRecv_data hq]
  dsimp only
  rw [State.memWrite_eq hfit, orStop_some]
  rfl

/-! ### Halting by a turn (R262, R300) -/

/-- Taking a result from a port is no part of what a halt leaves. -/
theorem HaltedBy.of_setPorts {p : Ports} (h : HaltedBy c (s.setPorts p) t) : HaltedBy c s t :=
  { h with bytes := fun sp a => (h.bytes sp a).trans (State.setPorts_readByte ..) }

theorem HaltedBy.egressAt (h : HaltedBy c s t) (pos : EgressPos) : HaltedBy c s (t.egressAt pos) :=
  { h with bytes := fun sp a => (State.egressAt_readByte ..).trans (h.bytes sp a) }

theorem HaltedBy.ingressAt (h : HaltedBy c s t) (pos : IngressPos) : HaltedBy c s (t.ingressAt pos) :=
  { h with bytes := fun sp a => (State.ingressAt_readByte ..).trans (h.bytes sp a) }

/-- A Fatal result of a port, the ports then being `p`: the halt with IO_ERROR and its one event (R300). -/
structure FatalHalt (s : State) (p : Ports) (t : State) : Prop where
  halted : HaltedBy .ioError s t
  log : t.log = s.log ++ [⟨.seq, .ioError, 0⟩]
  ports : t.ports = p

theorem fatalHalt (s : State) (p : Ports) : FatalHalt s p ((s.setPorts p).halt .ioError) where
  halted := (haltedBy_halt (s.setPorts p) .ioError).of_setPorts
  log := State.halt_log ..
  ports := ((s.setPorts p).halt_sameInputs .ioError).ports

/-- Settles O52, by the primitive that returns Fatal. -/
theorem fatalPortResultHalts : Obligations.FatalPortResultHalts := by
  intro s hr
  refine ⟨fun rest hpos hreq hq => ?ifRecv, fun code rest hpos hlen hq => ?sockSend,
    fun rest hpos hreq hq => ?sockRecv, fun hd len rest hpos hfit hq => ?ifSend⟩
  case ifRecv =>
    obtain ⟨hhalt, hlog, hports⟩ := fatalHalt s { s.ports with ifRecv := rest }
    exact ⟨_, (egressTurn_top hr hpos).trans (egressTop_fatal hreq (ifRecv_fatal hq _)), hhalt.egressAt _,
      hlog, rfl, hports⟩
  case sockSend =>
    obtain ⟨hhalt, hlog, hports⟩ := fatalHalt s { s.ports with sockSend := rest }
    exact ⟨_, (egressTurn_send hr hpos).trans (egressSend_fatal hlen hq code), hhalt.egressAt _, hlog, rfl,
      hports⟩
  case sockRecv =>
    obtain ⟨hhalt, hlog, hports⟩ := fatalHalt s { s.ports with sockRecv := rest }
    exact ⟨_, (ingressTurn_top hr hpos).trans (ingressTop_fatal hreq (sockRecv_fatal hq _)),
      hhalt.ingressAt _, hlog, rfl, hports⟩
  case ifSend =>
    obtain ⟨hhalt, hlog, hports⟩ := fatalHalt s { s.ports with ifSend := rest }
    exact ⟨_, (ingressTurn_deliver hr hpos).trans (ingressDeliver_fatal hfit hq), hhalt.ingressAt _, hlog,
      rfl, hports⟩

/-- Settles O53: `shutdown_req` is sampled before the port is asked; a Timeout leaves the direction where it is. -/
theorem startOfAnIteration : Obligations.StartOfAnIteration := by
  intro s hr
  have hhalt := (haltedBy_halt s .ok).setRsp { code := .ok }
  have hsame := s.halt_sameInputs .ok
  have hlog : (s.halt .ok).log = s.log := by simp
  refine ⟨fun hpos hreq => ?egressStops, fun hpos hreq => ?ingressStops, fun hpos hreq => ?egressWaits,
    fun hpos hreq => ?ingressWaits⟩
  case egressStops =>
    refine ⟨_, (egressTurn_top hr hpos).trans (egressTop_shutdown hr hreq), hhalt.egressAt _, hlog,
      hsame.ports, ?_⟩
    rw [State.egressAt_seq, State.setRsp_seq, hsame.seq]
  case ingressStops =>
    refine ⟨_, (ingressTurn_top hr hpos).trans (ingressTop_shutdown hr hreq), hhalt.ingressAt _, hlog,
      hsame.ports, ?_⟩
    rw [State.ingressAt_seq, State.setRsp_seq, hsame.seq]
  case egressWaits =>
    exact ⟨fun hq => (egressTurn_top hr hpos).trans (egressTop_timeout hreq (ifRecv_nil hq _)),
      fun rest hq => (egressTurn_top hr hpos).trans (egressTop_timeout hreq (ifRecv_timeout hq _))⟩
  case ingressWaits =>
    exact ⟨fun hq => (ingressTurn_top hr hpos).trans (ingressTop_timeout hreq (sockRecv_nil hq _)),
      fun rest hq => (ingressTurn_top hr hpos).trans (ingressTop_timeout hreq (sockRecv_timeout hq _))⟩

/-! ### The boot (R325) -/

/-- What `m` turns of the boot leave: `m` more Free slots of B bytes, nothing logged. -/
structure Booted (m : Nat) (rest : List Input) (s t : State) : Prop where
  slots : t.slots = s.slots ++ List.replicate m ⟨s.cfg.b.toNat, .free, []⟩
  log : t.log = s.log
  ingress : t.seq.ingress = .boot 0
  run : t.run = .running
  ports : t.ports = { s.ports with inputs := rest }

/-- The state after a turn of the boot that provisions a slot, with `left` more to come (R142, R325). -/
abbrev State.bootTurn (s : State) (left : Nat) (rest : List Input) : State :=
  (((s.takeInput rest).addSlot s.cfg.b.toNat).setRsp
    { code := .ok, handle := BitVec.ofNat 16 s.poolCount, len := s.cfg.b }).ingressAt (.boot left)

theorem step_boot {left : Nat} {rest : List Input} (hr : s.run = .running)
    (hpos : s.seq.ingress = .boot (left + 1)) (hn : s.poolCount ≠ s.cfg.n)
    (hq : s.ports.inputs = .ingressTurn :: rest) : step s = .next (s.bootTurn left rest) := by
  rw [step_cons hq, runInput, ingressTurn_boot (s := s.takeInput rest) hr hpos,
    exec_provision (s := s.takeInput rest) _ hr hn, afterCommand_of_next]
  rfl

theorem core_run_boot {m : Nat} {rest : List Input} (hr : s.run = .running) (hpos : s.seq.ingress = .boot m)
    (hn : s.poolCount + m ≤ s.cfg.n) (hq : s.ports.inputs = List.replicate m .ingressTurn ++ rest) :
    ∃ t : State, Sys2Proof.core.run m s = .next t ∧ Booted m rest s t := by
  induction m generalizing s with
  | zero =>
    rw [List.replicate_zero, List.nil_append] at hq
    exact ⟨s, rfl, (List.append_nil _).symm, rfl, hpos, hr, by rw [← hq]⟩
  | succ m ih =>
    have hstep := step_boot hr hpos (by omega) hq
    have hcount : (s.bootTurn m (List.replicate m .ingressTurn ++ rest)).poolCount = s.poolCount + 1 := by
      simp [State.poolCount]
    obtain ⟨t, hrun, hboot⟩ := ih (s := s.bootTurn m (List.replicate m .ingressTurn ++ rest)) hr rfl
      (by rw [hcount]; exact (by omega : s.poolCount + 1 + m ≤ s.cfg.n)) rfl
    refine ⟨t, (core_run_succ hstep).trans hrun, ?_, hboot.log, hboot.ingress, hboot.run, hboot.ports⟩
    rw [hboot.slots]
    simp [List.replicate_succ]

/-- Settles O54: the pool is empty after reset, so that none of its N turns finds it full. -/
theorem bootProvisionsThePool : Obligations.BootProvisionsThePool := by
  intro cfg epoch req ports rest hlegal hq
  obtain ⟨t, hrun, hboot⟩ := core_run_boot (s := State.resetWith cfg epoch req ports) (if_pos hlegal) rfl
    (Nat.zero_add _).le hq
  have hslots : t.slots = List.replicate cfg.n ⟨cfg.b.toNat, .free, []⟩ := hboot.slots
  refine ⟨t, hrun, ?_, fun i hi => ?_, hboot.log.trans (if_pos hlegal), hboot.ingress, hboot.run, hboot.ports⟩
  · rw [State.poolCount, hslots, List.length_replicate]
  · rw [State.slotEntry, hslots, List.getElem?_replicate_of_lt hi]
    rfl

end Sys2Proof.Machine

/-! SUPPORT. One iteration of the egress direction (R257 to R259): what ENC reads of the state, so that PAD and
SOCK_SEND between two of its commands do not disturb it, and the turns that bring each fragment out. -/

namespace Sys2Proof.Machine

variable {s t u v w : State} {fid : Fid} {proto : Proto} {len cap : Word32} {label : LabelField} {fuel : Nat}
  {frag : List Byte} {frags : List (List Byte)} {code : RespCode}

/-! ### What ENC reads -/

/-- ENC reads in `u` what it reads in `s`: the configuration, its registers but the label counter, and PDU_IN. -/
structure SameSource (s u : State) : Prop where
  cfg : u.cfg = s.cfg
  run : u.run = s.run
  enc : ∃ ctr, u.enc = { s.enc with labelCtr := ctr }
  pduIn : ∀ a n, u.readBytes .pduIn a n = s.readBytes .pduIn a n

theorem SameSource.codec (h : SameSource s u) : u.codec = s.codec := State.codec_congr h.cfg

theorem SameSource.sending (h : SameSource s u) (hs : Sending s) : Sending u := by
  obtain ⟨ctr, henc⟩ := h.enc
  exact
    { running := h.run.trans hs.running
      codec := by rw [h.cfg, h.codec]; exact hs.codec
      fragmenting := by rw [henc]; exact hs.fragmenting
      label_length := by rw [henc, h.cfg]; exact hs.label_length
      offset_le := by rw [henc]; exact hs.offset_le
      total_le := by rw [henc]; exact hs.total_le }

/-- Emitting a fragment leaves to read what was there, ENC's own registers apart. -/
theorem SameSource.emitted {frag' : List Byte} (h : SameSource s u) (ht : EmittedFragment frag s t)
    (hv : EmittedFragment frag' u v) (henc : ∃ ctr, v.enc = { t.enc with labelCtr := ctr }) :
    SameSource t v where
  cfg := by rw [hv.control.cfg, h.cfg, ht.control.cfg]
  run := by rw [hv.control.run, h.run, ht.control.run]
  enc := henc
  pduIn a n := by rw [hv.readBytes_pduIn, h.pduIn, ht.readBytes_pduIn]

/-- The answers of a command of ENC in two states: rejected in both, or the same fragment in both, after
which the two go on alike. -/
inductive AnswersAlike (t v : State) : Prop
  | tooSmall : t.rsp.code = .outputTooSmall → v.rsp.code = .outputTooSmall → AnswersAlike t v
  | completed : t.rsp.code = .completed → v.rsp.code = .completed → v.fragment = t.fragment →
      AnswersAlike t v
  | fragmented : t.rsp.code = .fragmented → v.rsp.code = .fragmented → v.fragment = t.fragment →
      Sending t → SameSource t v → AnswersAlike t v

/-- The rest of the PDU and the capacity decide which of the three answers it is (R168, R172). -/
theorem SameSource.continueAnswer_alike (h : SameSource s u) (hs : Sending s) {ce : Nat}
    (ht : ContinueAnswer s ce t) (hv : ContinueAnswer u ce v) : AnswersAlike t v := by
  obtain ⟨ctr, henc⟩ := h.enc
  have hcodec := h.codec
  have hcont : u.codec.hCont = s.codec.hCont := by rw [hcodec]
  have hleft : u.enc.total - u.enc.offset = s.enc.total - s.enc.offset := by rw [henc]
  have hunsent : u.unsent = s.unsent := by rw [State.unsent, henc, h.pduIn]; rfl
  cases ht with
  | abandon hnone ht =>
    rw [NoFragmentFits] at hnone
    cases hv with
    | abandon _ hv => subst ht hv; exact .tooSmall rfl rfl
    | last _ hlast => omega
    | middle _ k hone hk hce => omega
  | last frag hlast hencode _ hemit _ hrsp =>
    cases hv with
    | abandon hnone => rw [NoFragmentFits] at hnone; omega
    | last frag' _ hencode' _ hemit' _ hrsp' =>
      rw [hcodec, hunsent, henc] at hencode'
      obtain rfl : frag = frag' := Option.some.inj (hencode.symm.trans hencode')
      exact .completed (by rw [hrsp]) (by rw [hrsp']) (hemit'.fragment.trans hemit.fragment.symm)
    | middle _ k hone hk hce => omega
  | middle frag k hone hk hce hencode _ hemit htenc hrsp =>
    cases hv with
    | abandon hnone => rw [NoFragmentFits] at hnone; omega
    | last _ hlast => omega
    | middle frag' k' _ _ hce' hencode' _ hemit' hvenc hrsp' =>
      obtain rfl : k = k' := by omega
      rw [hcodec, h.pduIn, henc] at hencode'
      obtain rfl : frag = frag' := Option.some.inj (hencode.symm.trans hencode')
      refine .fragmented (by rw [hrsp]) (by rw [hrsp']) (hemit'.fragment.trans hemit.fragment.symm)
        (hs.advanced hemit (by rw [State.readBytes_length]; omega) htenc) (h.emitted hemit hemit' ⟨ctr, ?_⟩)
      rw [hvenc, htenc, hcodec, h.pduIn, henc]
      rfl

theorem continueToEnd_congr (h : SameSource s u) (hs : Sending s) (cap : Word32) (fuel : Nat) :
    continueToEnd cap fuel u = continueToEnd cap fuel s := by
  induction fuel generalizing s u with
  | zero => rfl
  | succ fuel ih =>
    obtain ⟨t, ht, hanswer⟩ := hs.exec_continueEncap cap
    obtain ⟨v, hv, hanswer'⟩ := (h.sending hs).exec_continueEncap cap
    rw [h.codec] at hanswer'
    cases h.continueAnswer_alike hs hanswer hanswer' with
    | tooSmall htc hvc => rw [continueToEnd_tooSmall ht htc, continueToEnd_tooSmall hv hvc]
    | completed htc hvc hfrag => rw [continueToEnd_completed ht htc, continueToEnd_completed hv hvc, hfrag]
    | fragmented htc hvc hfrag hsend hsame =>
      rw [continueToEnd_fragmented ht htc, continueToEnd_fragmented hv hvc, hfrag, ih hsame hsend]

/-- ENC is Idle, with a codec in range (R24, R100). -/
structure CanBegin (s : State) : Prop where
  running : s.run = .running
  lwLegal : Cfg.lwLegal s.cfg.lw
  codecOk : CodecOk s.cfg
  idle : s.enc.state = .idle

theorem SameSource.canBegin (h : SameSource s u) (hs : CanBegin s) : CanBegin u where
  running := h.run.trans hs.running
  lwLegal := by rw [h.cfg]; exact hs.lwLegal
  codecOk := by rw [h.cfg]; exact hs.codecOk
  idle := by
    obtain ⟨ctr, henc⟩ := h.enc
    rw [henc]
    exact hs.idle

/-- Two runs of a command both answer, and alike. -/
def BothAnswerAlike (x y : Res) : Prop := ∃ t v, x = .next t ∧ y = .next v ∧ AnswersAlike t v

theorem SameSource.beginSingle_alike (h : SameSource s u) (hs : CanBegin s)
    (hfits : (len.toNat : Int) ≤ singleCap cap.toNat s.codec.maxFrag s.codec.hSingle) :
    BothAnswerAlike (exec (.beginEncap fid proto len cap label) s)
      (exec (.beginEncap fid proto len cap label) u) := by
  have hu := h.canBegin hs
  obtain ⟨t, frag, ht, hencode, -, hemit, -, hrsp⟩ :=
    beginEncapEmitsSingle fid proto len cap label s hs.running hs.lwLegal hs.codecOk hs.idle hfits
  obtain ⟨v, frag', hv, hencode', -, hemit', -, hrsp'⟩ :=
    beginEncapEmitsSingle fid proto len cap label u hu.running hu.lwLegal hu.codecOk hu.idle
      (by rw [h.codec]; exact hfits)
  rw [h.codec, h.pduIn, h.cfg] at hencode'
  obtain rfl : frag = frag' := Option.some.inj (hencode.symm.trans hencode')
  exact ⟨t, v, ht, hv, .completed (by rw [hrsp]) (by rw [hrsp']) (hemit'.fragment.trans hemit.fragment.symm)⟩

theorem SameSource.beginFirst_alike (h : SameSource s u) (hs : CanBegin s) (hpos : 1 ≤ len.toNat)
    (hmax : len.toNat ≤ Config.maxPdu)
    (hband : singleCap cap.toNat s.codec.maxFrag s.codec.hSingle < (len.toNat : Int))
    (hfirst : 1 ≤ firstCap cap.toNat s.codec.maxFrag s.codec.hFirst) :
    BothAnswerAlike (exec (.beginEncap fid proto len cap label) s)
      (exec (.beginEncap fid proto len cap label) u) := by
  have hu := h.canBegin hs
  obtain ⟨ctr, henc⟩ := h.enc
  obtain ⟨t, frag, ht, hencode, -, hemit, htenc, hrsp⟩ :=
    beginEncapOpensWithFirst fid proto len cap label s hs.running hs.lwLegal hs.codecOk hs.idle hpos hmax hband
      hfirst
  obtain ⟨v, frag', hv, hencode', -, hemit', hvenc, hrsp'⟩ :=
    beginEncapOpensWithFirst fid proto len cap label u hu.running hu.lwLegal hu.codecOk hu.idle hpos hmax
      (by rw [h.codec]; exact hband) (by rw [h.codec]; exact hfirst)
  rw [h.codec, h.pduIn, h.cfg] at hencode'
  obtain rfl : frag = frag' := Option.some.inj (hencode.symm.trans hencode')
  have hsame : SameSource t v :=
    h.emitted hemit hemit' ⟨ctr, by rw [hvenc, htenc, h.codec, h.pduIn, h.cfg, henc]⟩
  have hopened : t.enc = s.enc.opened s.codec fid proto (labelOfField s.cfg.lw label) len.toNat
      (s.readBytes .pduIn 0 (min len.toNat (firstCap cap.toNat s.codec.maxFrag s.codec.hFirst).toNat)) := by
    rw [htenc, Enc.opened, State.readBytes_length]
  have hsend : Sending t := hemit.sending_opened hs.running (hs.codecOk.sound hs.lwLegal)
    (labelOfField_length (lwLegal_le_six hs.lwLegal) label)
    (by rw [State.readBytes_length]; exact Nat.min_le_left _ _) hmax hopened
  exact ⟨t, v, ht, hv, .fragmented (by rw [hrsp]) (by rw [hrsp'])
    (hemit'.fragment.trans hemit.fragment.symm) hsend hsame⟩

theorem SameSource.beginEncap_alike (h : SameSource s u) (hs : CanBegin s)
    (hmax : len.toNat ≤ Config.maxPdu) :
    BothAnswerAlike (exec (.beginEncap fid proto len cap label) s)
      (exec (.beginEncap fid proto len cap label) u) := by
  by_cases hsingle : s.codec.hSingle + len.toNat + 4 ≤ effectiveCap cap.toNat s.codec.maxFrag
  · exact h.beginSingle_alike hs (le_singleCap_iff.mpr hsingle)
  by_cases hnone : len.toNat = 0 ∨ effectiveCap cap.toNat s.codec.maxFrag < s.codec.hFirst + 1
  · have hu := h.canBegin hs
    have hband := Nat.lt_of_not_le hsingle
    exact ⟨_, _, exec_beginEncap_tooSmall hs.running hs.idle hmax hband hnone,
      exec_beginEncap_tooSmall hu.running hu.idle hmax (by rw [h.codec]; exact hband)
        (by rw [h.codec]; exact hnone), .tooSmall rfl rfl⟩
  · exact h.beginFirst_alike hs (by omega) hmax (lt_of_not_ge (mt le_singleCap_iff.mp hsingle))
      (by rw [firstCap]; omega)

theorem encapsulate_tooSmall (h : exec (.beginEncap fid proto len cap label) s = .next t)
    (hc : t.rsp.code = .outputTooSmall) :
    encapsulate fid proto len cap label s = some ([], .outputTooSmall) := by
  simp only [encapsulate, h, hc]

/-- A PDU above 65535 bytes gives no fragment (R289). -/
theorem CanBegin.encapsulate_tooLarge (h : CanBegin s) (hlen : Config.maxPdu < len.toNat) :
    encapsulate fid proto len cap label s = some ([], .pduTooLarge) :=
  encapsulate_refused (.inr (.inl rfl)) (exec_beginEncap_tooLarge h.running h.idle hlen)

/-- The fragments of a PDU are the same wherever ENC reads the same. -/
theorem encapsulate_congr (h : SameSource s u) (hs : CanBegin s) :
    encapsulate fid proto len cap label u = encapsulate fid proto len cap label s := by
  by_cases hmax : len.toNat ≤ Config.maxPdu
  · obtain ⟨t, v, ht, hv, halike⟩ :=
      h.beginEncap_alike (fid := fid) (proto := proto) (cap := cap) (label := label) hs hmax
    cases halike with
    | tooSmall htc hvc => rw [encapsulate_tooSmall ht htc, encapsulate_tooSmall hv hvc]
    | completed htc hvc hfrag => rw [encapsulate_completed ht htc, encapsulate_completed hv hvc, hfrag]
    | fragmented htc hvc hfrag hsend hsame =>
      rw [encapsulate_fragmented ht htc, encapsulate_fragmented hv hvc, hfrag, continueToEnd_congr hsame hsend]
  · have hlarge := Nat.lt_of_not_le hmax
    rw [hs.encapsulate_tooLarge hlarge, (h.canBegin hs).encapsulate_tooLarge hlarge]

/-! ### Turns in a row -/

theorem egressTurns_succ {n : Nat} (h : egressTurn s = .next t) : egressTurns (n + 1) s = egressTurns n t := by
  rw [egressTurns, h]

theorem egressTurns_two (h : egressTurn s = .next t) (h' : egressTurn t = .next u) :
    egressTurns 2 s = some u :=
  (egressTurns_succ h).trans (egressTurns_succ h')

theorem egressTurns_add {m n : Nat} (h : egressTurns m s = some t) :
    egressTurns (m + n) s = egressTurns n t := by
  induction m generalizing s with
  | zero =>
    rw [Nat.zero_add]
    cases h
    rfl
  | succ m ih =>
    rw [Nat.add_right_comm]
    cases hturn : egressTurn s with
    | next u => rw [egressTurns_succ hturn] at h ⊢; exact ih h
    | fault _ => simp [egressTurns, hturn] at h
    | refused _ => simp [egressTurns, hturn] at h

/-- The fragments `frags` went out, in this order and padded (R257), and neither the configuration nor the
label counter changed on the way. -/
structure SentOut (frags : List (List Byte)) (s t : State) : Prop where
  cfg : t.cfg = s.cfg
  run : t.run = s.run
  labelCtr : t.enc.labelCtr = s.enc.labelCtr
  ports : t.ports = { s.ports with
    sockSend := s.ports.sockSend.drop frags.length
    sent := s.ports.sent ++ frags.map (paddedFragment s.cfg) }

theorem SentOut.append {gs : List (List Byte)} (h : SentOut frags s t) (h' : SentOut gs t u) :
    SentOut (frags ++ gs) s u where
  cfg := h'.cfg.trans h.cfg
  run := h'.run.trans h.run
  labelCtr := h'.labelCtr.trans h.labelCtr
  ports := by simp [h'.ports, h.ports, h.cfg]

/-- The turns from `s` to the start of the next iteration send `frags`, and ENC is then Idle. -/
def IterationSends (frags : List (List Byte)) (s : State) : Prop :=
  ∃ k u, egressTurns k s = some u ∧ u.seq.egress = .top ∧ u.enc.state = .idle ∧ SentOut frags s u

theorem IterationSends.append {gs : List (List Byte)} {n : Nat} (hturns : egressTurns n s = some t)
    (hsent : SentOut frags s t) (h : IterationSends gs t) : IterationSends (frags ++ gs) s := by
  obtain ⟨k, u, hk, htop, hidle, hsent'⟩ := h
  exact ⟨n + k, u, (egressTurns_add hturns).trans hk, htop, hidle, hsent.append hsent'⟩

/-- The egress direction runs, and the socket takes what it is given. -/
structure EgressReady (s : State) : Prop where
  running : s.run = .running
  legal : s.cfg.Legal
  socket : SocketOk s

theorem SentOut.ready (h : SentOut frags s t) (hs : EgressReady s) : EgressReady t where
  running := h.run.trans hs.running
  legal := by rw [h.cfg]; exact hs.legal
  socket r hr := by
    rw [h.ports] at hr
    exact hs.socket r (List.mem_of_mem_drop hr)

theorem egressCap_le {cfg : Cfg} (h : cfg.Legal) : egressCap cfg ≤ Config.maxPdu := by
  obtain ⟨-, -, hout, -, -⟩ := h
  rw [egressCap]
  split
  · exact hout
  · exact Nat.min_le_right _ _

/-- ENC keeps to the capacity that SEQ passes it (R163, R255). -/
theorem effectiveCap_egressCap_le (cfg : Cfg) (maxFrag : Nat) :
    effectiveCap (BitVec.ofNat 32 (egressCap cfg)).toNat maxFrag ≤ egressCap cfg := by
  rw [BitVec.toNat_ofNat]
  exact (Nat.min_le_left _ _).trans (Nat.mod_le _ _)

/-! ### From ENC's answer to the next command -/

theorem egressAfterEnc_error (h : code.isError = true) (s : State) :
    egressAfterEnc code s = .next (s.egressAt .top) := if_pos h

theorem egressAfterEnc_ok (h : code.isError = false) (s : State) :
    egressAfterEnc code s = .next (s.egressAt (.pad code)) := by
  rw [egressAfterEnc, h, if_neg Bool.false_ne_true]

/-- A fixed length or none: the fragment is made up to it (R256, R257). -/
theorem egressTurn_pad (hr : s.run = .running) (hpos : s.seq.egress = .pad code) (hlegal : s.cfg.Legal) :
    ∃ t, egressTurn s = .next (t.egressAt (.send code)) ∧ Padded s.cfg.pEgress.toNat s t := by
  by_cases hp : 0 < s.cfg.pEgress.toNat
  · obtain ⟨-, -, hout, -, -⟩ := hlegal
    obtain ⟨t, ht, hpad, -⟩ := exec_pad hr hout
    exact ⟨t, by rw [egressTurn_pad_fixed hr hpos hp, ht, afterCommand_of_next], hpad⟩
  · exact ⟨s, egressTurn_pad_variable hr hpos hp, .of_le (by omega)⟩

theorem State.fragment_length (s : State) : s.fragment.length = s.fragOutLen := State.readBytes_length ..

theorem Padded.fragment_eq {n : Nat} (h : Padded n s t) : t.fragment = padTo n s.fragment := by
  rw [h.fragment, padTo, s.fragment_length]

theorem Padded.readBytes_pduIn {n : Nat} (h : Padded n s t) (a k : Nat) :
    t.readBytes .pduIn a k = s.readBytes .pduIn a k :=
  State.readBytes_congr fun j _ => h.bytes .pduIn (a + j) (by rintro ⟨⟨⟩, -⟩)

/-- PAD and SOCK_SEND: the fragment goes out, and ENC reads after them what it read before (R257, R258). -/
theorem egressTurns_pad_send (hs : EgressReady s) (hpos : s.seq.egress = .pad code)
    (hlen : s.fragOutLen ≤ Config.stagingSize) :
    ∃ t, egressTurns 2 s = some t ∧ t.seq.egress = (if code = .completed then .top else .continue_) ∧
      t.enc = s.enc ∧ SentOut [s.fragment] s t ∧ SameSource s t := by
  obtain ⟨u, hpadTurn, hpad⟩ := egressTurn_pad hs.running hpos hs.legal
  obtain ⟨hcfg, hrun, -, -, hports, -⟩ := hpad.control
  obtain ⟨-, -, hout, -, -⟩ := hs.legal
  have hlen' : u.fragOutLen ≤ Config.stagingSize := by rw [hpad.fragOutLen]; exact max_le hlen hout
  have hsocket : SocketOk (u.egressAt (.send code)) := by
    rw [SocketOk, State.egressAt_ports, hports]
    exact hs.socket
  have hsendTurn := (egressTurn_send (s := u.egressAt (.send code)) (hrun.trans hs.running) rfl).trans
    (egressSend_ok (s := u.egressAt (.send code)) hlen' hsocket code)
  refine ⟨_, egressTurns_two hpadTurn hsendTurn, rfl, hpad.enc,
    ⟨hcfg, hrun, congrArg Enc.labelCtr hpad.enc, ?_⟩,
    ⟨hcfg, hrun, ⟨s.enc.labelCtr, hpad.enc⟩, fun a n => ?_⟩⟩
  · have hfrag : (u.egressAt (.send code)).fragment = paddedFragment s.cfg s.fragment :=
      (State.egressAt_readBytes ..).trans hpad.fragment_eq
    rw [State.egressAt_ports, State.setPorts_ports, hfrag, State.egressAt_ports, hports]
    rfl
  · rw [State.egressAt_readBytes, State.setPorts_readBytes, State.egressAt_readBytes, hpad.readBytes_pduIn]

/-- A command of ENC emitted a fragment: PAD and SOCK_SEND bring it out. -/
theorem EmittedFragment.goesOut (h : EmittedFragment frag s t) (hs : EgressReady s)
    (hturn : egressTurn s = .next (t.egressAt (.pad code))) (hlen : frag.length ≤ Config.stagingSize)
    (hctr : t.enc.labelCtr = s.enc.labelCtr) :
    ∃ w, egressTurns 3 s = some w ∧ w.seq.egress = (if code = .completed then .top else .continue_) ∧
      w.enc = t.enc ∧ SentOut [frag] s w ∧ SameSource t w := by
  obtain ⟨hcfg, hrun, -, -, hports, -⟩ := h.control
  have hfrag : (t.egressAt (.pad code)).fragment = frag := (State.egressAt_readBytes ..).trans h.fragment
  have hready : EgressReady (t.egressAt (.pad code)) :=
    { running := hrun.trans hs.running
      legal := by rw [State.egressAt_cfg, hcfg]; exact hs.legal
      socket := by rw [SocketOk, State.egressAt_ports, hports]; exact hs.socket }
  obtain ⟨w, hturns, hpos, henc, hsent, hsame⟩ :=
    egressTurns_pad_send hready rfl (by rw [← State.fragment_length, hfrag]; exact hlen)
  rw [hfrag] at hsent
  refine ⟨w, (egressTurns_succ hturn).trans hturns, hpos, henc, ?_,
    ⟨hsame.cfg, hsame.run, hsame.enc, fun a n => ?_⟩⟩
  · exact
      { cfg := hsent.cfg.trans hcfg
        run := hsent.run.trans hrun
        labelCtr := hsent.labelCtr.trans hctr
        ports := by rw [hsent.ports, State.egressAt_ports, State.egressAt_cfg, hports, hcfg] }
  · rw [hsame.pduIn, State.egressAt_readBytes]

/-- The last fragment of a PDU ends the iteration (R258). -/
theorem EmittedFragment.iterationSends (h : EmittedFragment frag s t) (hs : EgressReady s)
    (hturn : egressTurn s = .next (t.egressAt (.pad .completed))) (hlen : frag.length ≤ Config.stagingSize)
    (hctr : t.enc.labelCtr = s.enc.labelCtr) (hidle : t.enc.state = .idle) : IterationSends [frag] s := by
  obtain ⟨w, hturns, hpos, henc, hsent, -⟩ := h.goesOut hs hturn hlen hctr
  exact ⟨3, w, hturns, hpos, by rw [henc]; exact hidle, hsent⟩

/-- An error of ENC drops the frame and ends the iteration, with nothing more sent (R258, R259). -/
theorem iterationSends_rejected (hturn : egressTurn s = .next (t.egressAt .top)) (hcfg : t.cfg = s.cfg)
    (hrun : t.run = s.run) (hctr : t.enc.labelCtr = s.enc.labelCtr) (hports : t.ports = s.ports)
    (hidle : t.enc.state = .idle) : IterationSends [] s :=
  ⟨1, _, egressTurns_succ hturn, rfl, hidle, hcfg, hrun, hctr, by simp [hports]⟩

/-! ### The rest of a PDU -/

/-- SEQ sends what `continueToEnd` lists: after each fragment ENC goes on from what it would have read without
PAD and SOCK_SEND. -/
theorem Sending.iterationSends (h : Sending s) (hs : EgressReady s) (hpos : s.seq.egress = .continue_)
    (hfuel : s.enc.total - s.enc.offset < fuel) :
    ∃ fs code, continueToEnd (BitVec.ofNat 32 (egressCap s.cfg)) fuel s = some (fs, code) ∧
      IterationSends fs s ∧ ∀ d ∈ fs, d.length ≤ egressCap s.cfg := by
  induction fuel generalizing s with
  | zero => cases hfuel
  | succ fuel ih =>
    have hcap := effectiveCap_egressCap_le s.cfg s.codec.maxFrag
    have hstaging : egressCap s.cfg ≤ Config.stagingSize := egressCap_le hs.legal
    obtain ⟨t, hexec, hanswer⟩ := h.exec_continueEncap (BitVec.ofNat 32 (egressCap s.cfg))
    have hturn : egressTurn s = egressAfterEnc t.rsp.code t := by
      rw [egressTurn_continue h.running hpos, hexec, afterCommand_of_next]
    cases hanswer with
    | abandon _ ht =>
      subst ht
      exact ⟨[], _, continueToEnd_tooSmall hexec rfl,
        iterationSends_rejected (hturn.trans (egressAfterEnc_error rfl _)) rfl rfl rfl rfl rfl, nofun⟩
    | last frag hfits _ hlen hemit henc hrsp =>
      rw [hrsp, egressAfterEnc_ok rfl] at hturn
      have hle : frag.length ≤ egressCap s.cfg := by omega
      refine ⟨[t.fragment], _, continueToEnd_completed hexec (by rw [hrsp]), ?_⟩
      rw [hemit.fragment, List.forall_mem_singleton]
      exact ⟨hemit.iterationSends hs hturn (hle.trans hstaging) (by rw [henc]; rfl) (by rw [henc]; rfl), hle⟩
    | middle frag k hone hk hce _ hlen hemit henc hrsp =>
      rw [hrsp, egressAfterEnc_ok rfl] at hturn
      have hle : frag.length ≤ egressCap s.cfg := by omega
      have ht : Sending t := h.advanced hemit (by rw [State.readBytes_length]; omega) henc
      obtain ⟨w, hturns, hwpos, hwenc, hsent, hsame⟩ :=
        hemit.goesOut hs hturn (hle.trans hstaging) (by rw [henc]; rfl)
      have hleft : w.enc.total - w.enc.offset < fuel := by
        rw [hwenc, henc, Enc.advanced, State.readBytes_length]
        dsimp only
        omega
      obtain ⟨fs, code, hfs, hiter, hlens⟩ := ih (hsame.sending ht) (hsent.ready hs) hwpos hleft
      rw [hsent.cfg] at hfs hlens
      rw [continueToEnd_congr hsame ht] at hfs
      refine ⟨t.fragment :: fs, code, by rw [continueToEnd_fragmented hexec (by rw [hrsp]), hfs]; rfl, ?_⟩
      rw [hemit.fragment, List.forall_mem_cons]
      exact ⟨.append hturns hsent hiter, hle, hlens⟩

/-! ### A whole iteration -/

/-- After NEXT_LABEL SEQ sends what `encapsulate` lists, whether ENC completes the PDU or rejects it. -/
theorem CanBegin.iterationSends {n : Nat} (h : CanBegin s) (hs : EgressReady s)
    (hpos : s.seq.egress = .begin_ n label) :
    ∃ frags code, encapsulate s.cfg.fragIdEgress s.cfg.protoEgress (BitVec.ofNat 32 n)
        (BitVec.ofNat 32 (egressCap s.cfg)) label s = some (frags, code) ∧
      IterationSends frags s ∧ ∀ d ∈ frags, d.length ≤ egressCap s.cfg := by
  have hsound := h.codecOk.sound h.lwLegal
  have hcap := effectiveCap_egressCap_le s.cfg s.codec.maxFrag
  have hstaging : egressCap s.cfg ≤ Config.stagingSize := egressCap_le hs.legal
  have hlabel := labelOfField_length (lwLegal_le_six h.lwLegal) label
  obtain ⟨t, hexec, hanswer⟩ := exec_beginEncap_answer h.running h.lwLegal hsound s.cfg.fragIdEgress
    s.cfg.protoEgress (BitVec.ofNat 32 n) (BitVec.ofNat 32 (egressCap s.cfg)) label
  have hturn : egressTurn s = egressAfterEnc t.rsp.code t := by
    rw [egressTurn_begin h.running hpos, hexec, afterCommand_of_next]
  cases hanswer with
  | refused c f hc _ ht =>
    subst ht
    have herror : c.isError = true := by rcases hc with rfl | rfl | rfl <;> rfl
    exact ⟨[], c, encapsulate_refused hc hexec,
      iterationSends_rejected (hturn.trans (egressAfterEnc_error herror _)) rfl rfl rfl rfl h.idle, nofun⟩
  | single frag hfits _ _ hlen hemit henc hrsp =>
    rw [hrsp, egressAfterEnc_ok rfl] at hturn
    have hle : frag.length ≤ egressCap s.cfg := by omega
    refine ⟨[t.fragment], _, encapsulate_completed hexec (by rw [hrsp]), ?_⟩
    rw [hemit.fragment, List.forall_mem_singleton]
    exact ⟨hemit.iterationSends hs hturn (hle.trans hstaging) (by rw [henc]) (by rw [henc]; exact h.idle), hle⟩
  | first frag k _ hmax hone hk _ hlen hemit henc hrsp =>
    rw [hrsp, egressAfterEnc_ok rfl] at hturn
    have hle : frag.length ≤ egressCap s.cfg := by omega
    have ht : Sending t :=
      hemit.sending_opened h.running hsound hlabel (by rw [State.readBytes_length]; omega) hmax henc
    obtain ⟨w, hturns, hwpos, hwenc, hsent, hsame⟩ :=
      hemit.goesOut hs hturn (hle.trans hstaging) (by rw [henc]; rfl)
    have hleft : w.enc.total - w.enc.offset < (BitVec.ofNat 32 n).toNat + 1 := by
      rw [hwenc, henc, Enc.opened]
      dsimp only
      omega
    obtain ⟨fs, code, hfs, hiter, hlens⟩ := (hsame.sending ht).iterationSends (hsent.ready hs) hwpos hleft
    rw [hsent.cfg] at hfs hlens
    rw [continueToEnd_congr hsame ht] at hfs
    refine ⟨t.fragment :: fs, code, by rw [encapsulate_fragmented hexec (by rw [hrsp]), hfs]; rfl, ?_⟩
    rw [hemit.fragment, List.forall_mem_cons]
    exact ⟨.append hturns hsent hiter, hle, hlens⟩

/-- The state once the frame `bytes` stands in PDU_IN (R258). -/
abbrev State.framed (s : State) (bytes : List Byte) (rest : List RecvResult) : State :=
  ((s.setMem .pduIn (s.pduIn.write 0 (bytes.take Config.maxPdu))).setPorts
    { s.ports with ifRecv := rest }).egressAt (.label bytes.length)

/-- The state once the label for a frame of `n` bytes was drawn (R162, R258). -/
abbrev State.labelled (s : State) (n : Nat) : State :=
  (s.advanceLabel.setRsp { code := .ok, label := fieldOfLabel (labelOfCounter s.cfg.lw s.enc.labelCtr) }).egressAt
    (.begin_ n (fieldOfLabel (labelOfCounter s.cfg.lw s.enc.labelCtr)))

theorem egressTurn_labelled {n : Nat} (hr : s.run = .running) (hpos : s.seq.egress = .label n) :
    egressTurn s = .next (s.labelled n) := by
  rw [egressTurn_label hr hpos, exec_nextLabel hr, afterCommand_of_next]
  rfl

/-- SEQ is about to give BEGIN_ENCAP the frame `bytes`: ENC reads in `t` what it reads in `s` with the frame in
PDU_IN, and the label counter moved once (R162, R258). -/
structure FrameTaken (bytes : List Byte) (rest : List RecvResult) (s t : State) : Prop where
  source : SameSource (s.setMem .pduIn (s.pduIn.write 0 (bytes.take Config.maxPdu))) t
  ports : t.ports = { s.ports with ifRecv := rest }
  labelCtr : t.enc.labelCtr = (s.enc.labelCtr + 1) % 2 ^ (8 * s.cfg.lw)
  egress : t.seq.egress = .begin_ bytes.length (fieldOfLabel (beBytes s.cfg.lw s.enc.labelCtr))

theorem frameTaken (bytes : List Byte) (rest : List RecvResult) (s : State) :
    FrameTaken bytes rest s ((s.framed bytes rest).labelled bytes.length) where
  source :=
    { cfg := by simp
      run := by simp
      enc := ⟨(s.enc.labelCtr + 1) % 2 ^ (8 * s.cfg.lw), by simp⟩
      pduIn := fun a n => by simp }
  ports := by simp
  labelCtr := by simp
  egress := by simp [labelOfCounter]

theorem egressTurns_frameTaken {frame : List Byte} {rest : List RecvResult} (hr : s.run = .running)
    (hpos : s.seq.egress = .top) (hreq : s.seq.shutdownReq = false)
    (hq : s.ports.ifRecv = .data frame :: rest) :
    ∃ t, egressTurns 2 s = some t ∧ FrameTaken (frameBytes s.cfg.b.toNat frame) rest s t :=
  ⟨_, egressTurns_two ((egressTurn_top hr hpos).trans (egressTop_data hreq hq))
    (egressTurn_labelled (s := s.framed (frameBytes s.cfg.b.toNat frame) rest) (by simpa using hr) rfl),
    frameTaken _ rest s⟩

theorem FrameTaken.ready {bytes : List Byte} {rest : List RecvResult} (h : FrameTaken bytes rest s t)
    (hs : EgressReady s) : EgressReady t where
  running := by rw [h.source.run, State.setMem_run]; exact hs.running
  legal := by rw [h.source.cfg, State.setMem_cfg]; exact hs.legal
  socket := by rw [SocketOk, h.ports]; exact hs.socket

/-- A frame is no longer than the read bound, whatever the device makes of it (R250, U17). -/
theorem frameBytes_length_le (bound : Nat) (frame : List Byte) : (frameBytes bound frame).length ≤ bound := by
  rw [frameBytes]
  split
  · assumption
  · exact List.length_take_le _ _

theorem paddedFragment_length {cfg : Cfg} {d : List Byte} (hp : 0 < cfg.pEgress.toNat)
    (h : d.length ≤ egressCap cfg) : (paddedFragment cfg d).length = cfg.pEgress.toNat := by
  rw [egressCap, if_pos hp] at h
  rw [paddedFragment, padTo, List.length_append, List.length_replicate]
  omega

theorem toNat_frameBytes_length (b : Word32) (frame : List Byte) :
    (BitVec.ofNat 32 (frameBytes b.toNat frame).length).toNat = (frameBytes b.toNat frame).length := by
  rw [BitVec.toNat_ofNat]
  exact Nat.mod_eq_of_lt ((frameBytes_length_le b.toNat frame).trans_lt b.isLt)

/-- Settles O55: two turns put the frame into PDU_IN and draw the label; the turns after them send what
`encapsulate` lists. -/
theorem egressIterationSendsTheFrame : Obligations.EgressIterationSendsTheFrame := by
  intro s frame rest h hr hidle hpos hreq hq hsocket bytes
  have hlegal := h.legal hr
  have hbegin : CanBegin (s.setMem .pduIn (s.pduIn.write 0 (bytes.take Config.maxPdu))) :=
    ⟨hr, hlegal.1, h.run.codec hr, hidle⟩
  obtain ⟨t, ht, htaken⟩ := egressTurns_frameTaken hr hpos hreq hq
  have hcfg : t.cfg = s.cfg := htaken.source.cfg.trans (State.setMem_cfg ..)
  obtain ⟨frags, code, hencap, ⟨k, u, hturns, htop, huidle, hsent⟩, hlens⟩ :=
    (htaken.source.canBegin hbegin).iterationSends (htaken.ready ⟨hr, hlegal, hsocket⟩) htaken.egress
  rw [encapsulate_congr htaken.source hbegin, hcfg] at hencap
  rw [hcfg] at hlens
  refine ⟨2 + k, u, frags, code, hencap, (egressTurns_add ht).trans hturns, htop, huidle, ?_, ?_,
    hsent.labelCtr.trans htaken.labelCtr, fun hlarge => ?_, fun hp d hd => paddedFragment_length hp (hlens d hd)⟩
  · rw [hsent.run, htaken.source.run, State.setMem_run, hr]
  · rw [hsent.ports, htaken.ports, hcfg]
  · rw [hbegin.encapsulate_tooLarge (by rw [toNat_frameBytes_length]; exact hlarge)] at hencap
    cases hencap
    exact ⟨rfl, rfl⟩

end Sys2Proof.Machine

/-! SUPPORT. What an answer logs (R281, R299): the code and fragment-id of an error with one event of the command's
unit, nothing otherwise; and the refusals of BEGIN_ENCAP (R164). -/

namespace Sys2Proof.Machine

variable {s t v : State} {i : Instr} {u : LogUnit} {f : Fid} {l : List Event}

/-! ### BEGIN_ENCAP refused (R164, R289 to R291) -/

theorem firstCap_lt_one_iff {c maxFrag h : Nat} :
    firstCap c maxFrag h < 1 ↔ effectiveCap c maxFrag < h + 1 := by
  simp only [firstCap]; omega

/-- Settles O30: the three refusals are the first, second and fourth test of R164, and capacities are compared as
natural numbers. -/
theorem beginEncapRefusals : Obligations.BeginEncapRefusals := by
  intro fid proto len cap label s hr
  refine ⟨exec_beginEncap_busy hr, exec_beginEncap_tooLarge hr, fun hidle hmax hsingle hfirst => ?_⟩
  have hcap : effectiveCap cap.toNat s.codec.maxFrag < s.codec.hSingle + len.toNat + 4 :=
    Nat.lt_of_not_le (mt le_singleCap_iff.mpr (not_le_of_gt hsingle))
  exact exec_beginEncap_tooSmall hr hidle hmax hcap (hfirst.imp_right firstCap_lt_one_iff.mp)

/-! ### An answer and its event (R281, R299) -/

/-- The answer `t` of a command of unit `u` that found the events `l` in LOG: no error and no event, or an error with
one event, the fragment-id `f` in both. -/
inductive Answer (u : LogUnit) (l : List Event) (f : Fid) (t : State) : Prop
  | success : t.rsp.code.isError = false → t.log = l → Answer u l f t
  | error : t.rsp.code.isError = true → t.rsp = { code := t.rsp.code, fid := f } →
      t.log = l ++ [⟨u, t.rsp.code, f⟩] → Answer u l f t

/-- An error raised after state effects that log nothing (R281). -/
theorem State.raised_answer {c : RespCode} (hc : c.isError = true) (hlog : v.log = l) :
    Answer u l f (v.raised u c f) :=
  .error hc rfl (by simp [State.raised, hlog])

theorem State.setRsp_answer {ρ : Rsp16} (hc : ρ.code.isError = false) (hlog : v.log = l) :
    Answer u l f (v.setRsp ρ) :=
  .success hc (by simp [hlog])

/-! #### POOL, ENC and SEQ while Running -/

/-- Whatever is answered is an answer of unit `u` to a command given in state `s`. -/
structure AnswersFor (u : LogUnit) (s : State) (r : Res) : Prop where
  answer : ∀ t, r = .next t → ∃ f, Answer u s.log f t

section
variable {r r' : Res}

theorem AnswersFor.respond {ρ : Rsp16} (hc : ρ.code.isError = false) (hlog : v.log = s.log) :
    AnswersFor u s (respond ρ v) :=
  ⟨by rintro t ⟨⟩; exact ⟨0, State.setRsp_answer hc hlog⟩⟩

theorem AnswersFor.raise {c : RespCode} (hc : c.isError = true) (hlog : v.log = s.log) :
    AnswersFor u s (raise u c f v) :=
  ⟨by rintro t ⟨⟩; exact ⟨f, State.raised_answer hc hlog⟩⟩

theorem AnswersFor.orStop {α : Type} {o : Option α} {e : Fault} {k : α → Res}
    (h : ∀ a, o = some a → AnswersFor u s (k a)) : AnswersFor u s (orStop o e k) := by
  refine ⟨fun t ht => ?_⟩
  obtain ⟨a, ha, hk⟩ := orStop_next ht
  exact (h a ha).answer t hk

theorem AnswersFor.ite {c : Prop} [Decidable c] (h : AnswersFor u s r) (h' : AnswersFor u s r') :
    AnswersFor u s (if c then r else r') := by
  split
  · exact h
  · exact h'

theorem AnswersFor.emitFragment {o : Option (List Byte)} {k : Nat → State → Res}
    (h : ∀ n v, v.log = s.log → AnswersFor u s (k n v)) : AnswersFor u s (emitFragment s o k) := by
  refine ⟨fun t ht => ?_⟩
  obtain ⟨frag, -, -, hk⟩ := emitFragment_next ht
  exact (h _ _ (by simp)).answer t hk

end

theorem execProvision_answersFor (hr : s.run = .running) (size : Word32) :
    AnswersFor .pool s (execProvision size s) := by
  rw [execProvision, whenRunning_running hr]
  exact .ite (.raise rfl rfl) (.respond rfl rfl)

theorem execAcquire_answersFor (hr : s.run = .running) : AnswersFor .pool s (execAcquire s) := by
  rw [execAcquire, whenRunning_running hr]
  split
  · exact .raise rfl rfl
  · next hk =>
    obtain ⟨rfl, -⟩ := State.poolTake_some hk
    exact .respond rfl rfl

theorem execRelease_answersFor (hr : s.run = .running) (h : Word32) :
    AnswersFor .pool s (execRelease h s) := by
  rw [execRelease, whenRunning_running hr]
  split
  · exact .raise rfl rfl
  · split
    · exact .raise rfl rfl
    · exact .raise rfl rfl
    · exact .respond rfl rfl

theorem execNextLabel_answersFor (hr : s.run = .running) : AnswersFor .enc s (execNextLabel s) := by
  rw [execNextLabel, whenRunning_running hr]
  exact .respond rfl rfl

theorem execBeginEncap_answersFor (hr : s.run = .running) (fid : Fid) (proto : Proto)
    (len cap : Word32) (label : LabelField) :
    AnswersFor .enc s (execBeginEncap fid proto len cap label s) := by
  rw [execBeginEncap, whenRunning_running hr]
  refine .ite (.raise rfl rfl) (.ite (.raise rfl rfl) (.ite ?single (.ite (.raise rfl rfl) ?first)))
  case single => exact .orStop fun p _ => .emitFragment fun n v hlog => .respond rfl hlog
  case first => exact .orStop fun p _ => .emitFragment fun n v hlog => .respond rfl hlog

theorem execContinueEncap_answersFor (hr : s.run = .running) (cap : Word32) :
    AnswersFor .enc s (execContinueEncap cap s) := by
  rw [execContinueEncap, whenRunning_running hr]
  have habandon : AnswersFor .enc s (abandonEncap s) := .raise rfl rfl
  refine .ite (.raise rfl rfl) (.ite habandon (.ite ?last (.ite habandon ?middle)))
  case last => exact .orStop fun p _ => .emitFragment fun n v hlog => .respond rfl hlog
  case middle => exact .orStop fun p _ => .emitFragment fun n v hlog => .respond rfl hlog

theorem padFragment_log {n : Nat} (h : padFragment n s = some v) : v.log = s.log := by
  rcases padFragment_some h with ⟨-, rfl⟩ | ⟨-, -, rfl⟩ <;> simp

theorem execPad_answersFor (hr : s.run = .running) {len : Word32} (hlen : ¬ Config.maxPdu < len.toNat) :
    AnswersFor .seq s (execPad len s) := by
  rw [execPad, whenRunning_running hr, if_neg hlen]
  exact .orStop fun v hv => .respond rfl (padFragment_log hv)

theorem execShutdown_answersFor (s : State) : AnswersFor .seq s (execShutdown s) := by
  rw [execShutdown]
  split
  · exact .respond rfl (by simp)
  · exact .respond rfl rfl

/-! #### DEC -/

theorem OpenEffect.answer {proto : Proto} {label : Label} {p : List Byte}
    (h : OpenEffect s f proto label p t) : Answer .dec s.log f t := by
  cases h with
  | refused c hc => exact State.raised_answer (by rcases hc with rfl | rfl <;> rfl) rfl
  | opened k sl hl hfit => exact State.setRsp_answer rfl (by simp)

/-- Only the restart of the target concerned is logged before the event of an error (R203). -/
theorem FragEffect.answer {fr : Option Frag} (h : FragEffect s fr t) :
    ∃ f es, (es = [] ∨ es = [⟨.dec, .contextRestarted, f⟩]) ∧ Answer .dec (s.log ++ es) f t := by
  cases h with
  | first f proto label p _ hst ho => exact ⟨f, [], .inl rfl, by simpa using ho.answer⟩
  | restart f proto label p sl _ hst hsl ho =>
    have hlog : (s.restart f).log = s.log ++ [⟨.dec, .contextRestarted, f⟩] := by simp
    exact ⟨f, _, .inr rfl, hlog ▸ ho.answer⟩
  | refused fr c f hc =>
    exact ⟨f, [], .inl rfl, State.raised_answer (by rcases hc with rfl | rfl | rfl <;> rfl) (by simp)⟩
  | overrun fr f => exact ⟨f, [], .inl rfl, State.raised_answer rfl (by simp)⟩
  | mismatch f => exact ⟨f, [], .inl rfl, State.raised_answer rfl (by simp)⟩
  | single f => exact ⟨f, [], .inl rfl, State.setRsp_answer rfl (by simp)⟩
  | cont f => exact ⟨f, [], .inl rfl, State.setRsp_answer rfl (by simp)⟩
  | last f => exact ⟨f, [], .inl rfl, State.setRsp_answer rfl (by simp)⟩

/-! #### Every command -/

/-- The answer of a command that is not turned away: its own event, after at most one restart of DEC. -/
def CommandAnswer (i : Instr) (s t : State) : Prop :=
  ∃ f es, (es = [] ∨ (DecCommand i ∧ es = [⟨.dec, .contextRestarted, f⟩])) ∧
    Answer (unitOf i) (s.log ++ es) f t

theorem CommandAnswer.of_answersFor (h : exec i s = .next t) (hall : AnswersFor (unitOf i) s (exec i s)) :
    CommandAnswer i s t := by
  obtain ⟨f, ha⟩ := hall.answer t h
  exact ⟨f, [], .inl rfl, by simpa using ha⟩

theorem DecCommand.unitOf_eq (h : DecCommand i) : unitOf i = .dec := by
  rcases h with ⟨n, rfl⟩ | hi
  · rfl
  · cases i <;> cases hi <;> rfl

theorem Arrives.commandAnswer {fr : Option Frag} (hr : s.run = .running) (ha : Arrives i s fr)
    (h : exec i s = .next t) : CommandAnswer i s t := by
  have hdec : DecCommand i := ha.imp (fun ⟨n, hi, _⟩ => ⟨n, hi⟩) And.left
  rw [exec_of_arrives hr ha] at h
  obtain ⟨f, es, hes, hanswer⟩ := (onFragment_effect h).answer
  exact ⟨f, es, hes.imp_right fun hrestart => ⟨hdec, hrestart⟩, hdec.unitOf_eq ▸ hanswer⟩

theorem exec_commandAnswer (hr : s.run = .running) (hlen : ¬ LengthOutOfRange i) (h : exec i s = .next t) :
    CommandAnswer i s t := by
  cases i with
  | provision size => exact .of_answersFor h (execProvision_answersFor hr size)
  | acquire => exact .of_answersFor h (execAcquire_answersFor hr)
  | release hd => exact .of_answersFor h (execRelease_answersFor hr hd)
  | nextLabel => exact .of_answersFor h (execNextLabel_answersFor hr)
  | beginEncap fid proto len cap label =>
    exact .of_answersFor h (execBeginEncap_answersFor hr fid proto len cap label)
  | continueEncap cap => exact .of_answersFor h (execContinueEncap_answersFor hr cap)
  | pad len => exact .of_answersFor h (execPad_answersFor hr fun hn => hlen ⟨len, hn, .inr rfl⟩)
  | shutdown => exact .of_answersFor h (execShutdown_answersFor s)
  | decap n =>
    have hn : n.toNat ≤ Config.maxPdu := Nat.le_of_not_lt fun hn => hlen ⟨n, hn, .inl rfl⟩
    exact Arrives.commandAnswer hr (.inl ⟨n, rfl, hn, rfl⟩) h
  | _ => exact Arrives.commandAnswer hr (.inr ⟨rfl, rfl⟩) h

/-- Every command is turned away with no effect (R94, R95), or answers with a code of its row and the events that go
with it. -/
theorem exec_illegal_or_commandAnswer (h : exec i s = .next t) :
    t = s.setRsp { code := .illegalCommand } ∨ (t.rsp.code ≠ .illegalCommand ∧ CommandAnswer i s t) := by
  by_cases hi : i = .shutdown
  · subst hi
    have hcode := (execShutdown_respondsIn s).code_mem t h
    exact .inr ⟨by rw [List.mem_singleton.mp hcode]; decide, .of_answersFor h (execShutdown_answersFor s)⟩
  cases hr : s.run with
  | halted =>
    rw [exec_halted hr hi] at h
    cases h
    exact .inl rfl
  | running =>
    by_cases hlen : LengthOutOfRange i
    · rw [exec_lengthOutOfRange hlen] at h
      cases h
      exact .inl rfl
    · have hcode := (exec_respondsIn hr hlen).code_mem t h
      exact .inr ⟨(mem_workingCodes.mp hcode).2, exec_commandAnswer hr hlen h⟩

/-- Settles O12: turned away, no error, or an error; `CommandAnswer` holds of the last two. -/
theorem errorsAnswerCodeAndOneEvent : Obligations.ErrorsAnswerCodeAndOneEvent := by
  intro i s t h
  rcases exec_illegal_or_commandAnswer h with rfl | ⟨hcode, f, es, hes, hanswer⟩
  · exact ⟨fun _ => rfl, 0, [], .inl rfl, nofun, fun _ hne => absurd rfl hne⟩
  refine ⟨fun hillegal => absurd hillegal hcode, f, es, hes, ?_⟩
  cases hanswer with
  | success hok hlog => exact ⟨fun _ => hlog, fun herr => absurd (hok.symm.trans herr) nofun⟩
  | error herr hrsp hlog => exact ⟨fun hok => absurd (hok.symm.trans herr) nofun, fun _ _ => ⟨hrsp, hlog⟩⟩

end Sys2Proof.Machine

/-! SUPPORT. What a reset leaves (R320 to R323): the part every configuration gives alike, the part that tells a legal
one from an illegal one, and the reset input. -/

namespace Sys2Proof.Machine

variable {cfg : Cfg}

/-- R321's values that do not ask whether the configuration is legal (R322: "the same state except"). -/
theorem State.resetWith_cleared (cfg : Cfg) (epoch : Nat) (req : Bool) (ports : Ports) :
    let s := State.resetWith cfg epoch req ports
    s.enc.state = .idle ∧ s.enc.labelCtr = 0 ∧ s.fragOutLen = 0 ∧ (∀ f, (s.tgt f).state = .awaitingFirst) ∧
      s.transientLen = 0 ∧ s.poolCount = 0 ∧ s.cfg = cfg := by
  have htgt (f : Fid) : ((State.resetWith cfg epoch req ports).tgt f).state = .awaitingFirst := by
    rw [State.resetWith_tgt, Target.reset]
  exact ⟨rfl, rfl, rfl, htgt, rfl, rfl, rfl⟩

theorem State.resetWith_of_legal (h : cfg.Legal) (epoch : Nat) (req : Bool) (ports : Ports) :
    let s := State.resetWith cfg epoch req ports
    s.run = .running ∧ s.haltCause = .ok ∧ s.log = [] :=
  ⟨State.resetWith_running.mpr h, if_pos h, if_pos h⟩

theorem State.resetWith_of_not_legal (h : ¬ cfg.Legal) (epoch : Nat) (req : Bool) (ports : Ports) :
    let s := State.resetWith cfg epoch req ports
    s.run = .halted ∧ s.haltCause = .setupError ∧ s.log = [⟨.seq, .setupError, 0⟩] :=
  ⟨if_neg h, if_neg h, if_neg h⟩

/-- Settles O16. -/
theorem legalResetState : Obligations.LegalResetState := by
  intro cfg epoch req ports hlegal s
  obtain ⟨hrun, hcause, hlog⟩ := State.resetWith_of_legal hlegal epoch req ports
  exact ⟨hrun, hcause, hlog, State.resetWith_cleared cfg epoch req ports⟩

/-- Settles O17. -/
theorem illegalConfigurationHalts : Obligations.IllegalConfigurationHalts := by
  intro cfg epoch req ports hillegal s
  obtain ⟨hrun, hcause, hlog⟩ := State.resetWith_of_not_legal hillegal epoch req ports
  exact ⟨hrun, hcause, hlog, State.resetWith_cleared cfg epoch req ports⟩

/-- The outside goes on without the reset input itself (log 16). -/
theorem State.applyReset_takeInput (s : State) (cfg : Cfg) (rest : List Input) :
    (s.takeInput rest).applyReset cfg =
      State.resetWith cfg (s.epoch + 1) s.seq.shutdownReq { s.ports with inputs := rest } := by
  rw [State.applyReset, State.takeInput_epoch, State.takeInput_seq, State.takeInput_ports]

/-- Settles O18: the step takes the input off the schedule and asks nothing of `run` or of anything else. -/
theorem resetInputAtAnyTime : Obligations.ResetInputAtAnyTime := by
  intro s cfg rest hinputs
  calc step s = runInput (.reset cfg) (s.takeInput rest) := step_cons hinputs
    _ = .next ((s.takeInput rest).applyReset cfg) := rfl
    _ = _ := by rw [State.applyReset_takeInput]

end Sys2Proof.Machine
